-- ==== Sys2Proof/Word.lean ====
section
/-!
DEFINITION. The bytes and words of 00_scope.md R9: a byte is 8 bits, a word is 32 bits, and every value is unsigned.
-/

namespace Sys2Proof

/-- A byte: an unsigned value from 0 to 255 (00_scope.md R9). -/
abbrev Byte := BitVec 8

/-- A word: 32 bits, bit 0 least significant (00_scope.md R9). -/
abbrev Word := BitVec 32

end Sys2Proof
end

