-- ==== Sys2Proof/Config.lean ====
section
/-!
DEFINITION. The implementation parameters of 00_scope.md R7: the values the spec fixes, and the OPEN values, which the
model takes as an argument (the field `cfg` of the state, which no step writes).
-/

namespace Sys2Proof

/-- The OPEN parameters of 00_scope.md R7. -/
structure Config where
  /-- `IN_FIFO_DEPTH`, at least 1. -/
  inFifoDepth : Nat
  /-- `OUT_FIFO_DEPTH`, at least 1. -/
  outFifoDepth : Nat
  /-- `SECRET_CAP`, from 0 to 65535. -/
  secretCap : Nat
  /-- `ENGINE_BASE`, the bus address of the register window (20_memory.md R69). -/
  engineBase : Nat
  /-- `IRQ_LINE`, the platform's line that the `irq` output drives (60_exceptions.md R311). -/
  irqLine : Nat
deriving DecidableEq, Repr

namespace Config

/-- The spec's reference values (00_scope.md R7).
DESIGN CHOICE: the base and the line have no reference value, and 0 stands for them (log 3). Unsafe where a claim rests on
reset's configuration. -/
def reference : Config :=
  { inFifoDepth := 64, outFifoDepth := 64, secretCap := 256, engineBase := 0, irqLine := 0 }

/-- What 00_scope.md R7 asks of the OPEN parameters.
DEDUCED: the upper bounds of the depths come from the 16-bit fields of IN_LEVEL and OUT_LEVEL (10_state.md R32, R34;
log 4). Safe. -/
abbrev Valid (c : Config) : Prop :=
  1 ≤ c.inFifoDepth ∧ c.inFifoDepth ≤ 65535 ∧ 1 ≤ c.outFifoDepth ∧ c.outFifoDepth ≤ 65535 ∧ c.secretCap ≤ 65535

/-- `BLOCK`, the cipher block size in bytes. -/
def blockBytes : Nat := 16
/-- `OUTER_KEY_LEN`, in bytes. -/
def outerKeyLen : Nat := 32
/-- `OUTER_ITER`, the iteration count of the outer key. -/
def outerIter : Nat := 10000
/-- `CHECK_ITER`, the iteration count of the checksum. -/
def checkIter : Nat := 1000
/-- `MAGIC`. -/
def magic : Nat := 1285
/-- `FORMAT_VERSION`, the only database format version. -/
def formatVersion : Byte := 1
/-- `FIELD_MAX`, the largest Byte-Field in bytes. -/
def fieldMax : Nat := 255
/-- `HLEN`, the SHA-1 output in bytes. -/
def hlen : Nat := 20
/-- `HMAC_B`, the SHA-1 block in bytes. -/
def hmacB : Nat := 64
/-- `WINDOW`, the largest DEFLATE distance in bytes. -/
def window : Nat := 32768
/-- `AES_KEY_LENS`, the key lengths in bytes that the payload cipher accepts. -/
def aesKeyLens : List Nat := [16, 24, 32]

end Config

end Sys2Proof
end

