-- ==== Sys2Proof/Syntax.lean ====
section
/-!
DEFINITION. The syntax of the machine: the nine commands of 30_encoding.md R81, the registers of 10_state.md R23, and the
bus transaction of 20_memory.md R60 that a host program is made of (30_encoding.md R90).
-/

namespace Sys2Proof

/-- The command set of 30_encoding.md R81. No command has an operand field (R80): operands come from the buffers, the
parameter registers and the input stream (R86). -/
inductive Instr where
  /-- READ_BYTEFIELD, 40_bytefield_header.md R101. -/
  | readBytefield
  /-- PARSE_HEADER, 40_bytefield_header.md R103. -/
  | parseHeader
  /-- DERIVE_KEY, 41_kdf.md R130. -/
  | deriveKey
  /-- AES_CBC_DECRYPT, 42_aes_cbc.md R165. -/
  | aesCbcDecrypt
  /-- UNWRAP, 43_unwrap.md R180. -/
  | unwrap
  /-- OPEN_PLAINTEXT, 44_payload_stream.md R200. -/
  | openPlaintext
  /-- INFLATE, 45_inflate.md R260. -/
  | inflate
  /-- DECRYPT, 44_payload_stream.md R210. -/
  | decrypt
  /-- CLOSE, 44_payload_stream.md R220. -/
  | close
deriving DecidableEq, Repr

/-- The host-visible registers, in the order of 10_state.md R23. -/
inductive Reg where
  | id | version | cmd | status | error | intEn | intStatus | inData | inCtrl | inLevel | outData | outLevel
  | bufSel | bufLen | bufPtr | bufData | kdfIter | kdfLen | hdrMagic | hdrVersion | fieldLen | inCount | outCount
deriving DecidableEq, Repr

/-- The direction of a host transaction. -/
inductive Access where
  | read | write
deriving DecidableEq, Repr

/-- A host transaction: the tuple (kind, offset, width in bytes, data) of 20_memory.md R60. -/
structure HostTx where
  kind   : Access
  /-- The byte offset from ENGINE_BASE. -/
  offset : Nat
  /-- The width of the access in bytes. -/
  width  : Nat
  /-- The data of a write; a read does not use it. -/
  data   : Word
deriving DecidableEq, Repr

end Sys2Proof
end

