-- ==== Sys2Proof/WellFormed.lean ====
section
/-!
DEFINITION. The checks on the machine's inputs: command words (30_encoding.md R80, R82) and bus accesses (20_memory.md R64).
-/

namespace Sys2Proof

/-- Whether an opcode is one of the nine of 30_encoding.md R81. -/
def opAssigned (op : Byte) : Bool :=
  (1 ≤ op.toNat && op.toNat ≤ 8) || op.toNat == 15

/-- The RSVD check of 30_encoding.md R82: bits [31:8] are 0. -/
def rsvdZero (w : Word) : Bool := w.extractLsb' 8 24 == 0

/-- A legal command word (30_encoding.md R80 to R82). -/
def wordWellFormed (w : Word) : Bool := rsvdZero w && opAssigned (w.extractLsb' 0 8)

/-- An instruction as syntax has no operand (30_encoding.md R80), so every term of `Instr` is well formed; the checks of
this encoding are on command words. -/
def Instr.wellFormed : Instr → Bool
  | .readBytefield => true
  | .parseHeader => true
  | .deriveKey => true
  | .aesCbcDecrypt => true
  | .unwrap => true
  | .openPlaintext => true
  | .inflate => true
  | .decrypt => true
  | .close => true

/-- Whether an access lies at an offset of the 256-byte window (20_memory.md R60, R69). -/
def HostTx.inWindow (tx : HostTx) : Bool := tx.offset < 256

/-- The one legal access: 32 bits wide at an offset that is a multiple of 4 (20_memory.md R64). -/
def HostTx.aligned32 (tx : HostTx) : Bool := tx.width == 4 && tx.offset % 4 == 0

end Sys2Proof
end

