-- ==== Sys2Proof/Decode.lean ====
section
/-!
DEFINITION. The decoder of command words (30_encoding.md R80 to R82), total on every word and rejecting by name, and the
encoder written from the same opcode map.
-/

namespace Sys2Proof

/-- Why a command word is illegal (30_encoding.md R82). -/
inductive DecodeError where
  /-- RSVD is not 0. -/
  | reservedBits
  /-- RSVD is 0 and OP is unassigned. -/
  | badOpcode
deriving DecidableEq, Repr

/-- The opcode map of 30_encoding.md R81. -/
def opcodeOf : Instr → Byte
  | .readBytefield => 0x01
  | .parseHeader => 0x02
  | .deriveKey => 0x03
  | .aesCbcDecrypt => 0x04
  | .unwrap => 0x05
  | .openPlaintext => 0x06
  | .inflate => 0x07
  | .decrypt => 0x08
  | .close => 0x0F

/-- The command an OP field selects, none for an unassigned opcode (30_encoding.md R81, R82). -/
def instrOfOp (op : Byte) : Option Instr :=
  if op = 0x01 then some .readBytefield
  else if op = 0x02 then some .parseHeader
  else if op = 0x03 then some .deriveKey
  else if op = 0x04 then some .aesCbcDecrypt
  else if op = 0x05 then some .unwrap
  else if op = 0x06 then some .openPlaintext
  else if op = 0x07 then some .inflate
  else if op = 0x08 then some .decrypt
  else if op = 0x0F then some .close
  else none

/-- Decoding a command word: RSVD, bits [31:8], is checked before OP, bits [7:0] (30_encoding.md R80, R82). -/
def decode (w : Word) : Except DecodeError Instr :=
  if w.extractLsb' 8 24 ≠ 0 then .error .reservedBits
  else
    match instrOfOp (w.extractLsb' 0 8) with
    | some i => .ok i
    | none => .error .badOpcode

/-- The command word of an instruction: OP in bits [7:0] and 0 in bits [31:8] (30_encoding.md R80). -/
def encode (i : Instr) : Word := (opcodeOf i).setWidth 32

/-- The word of `nbits` table bits `w`, every bit above them 0. -/
def tableWord (nbits w : Nat) : Word := BitVec.ofNat 32 (w % 2 ^ nbits)

/-- The instruction the decoder reads from an opcode-table word. A command word is one 32-bit word, written whole
(30_encoding.md R80). -/
def decodeTableWord (nbits w : Nat) : Option Instr :=
  match decode (tableWord nbits w) with
  | .ok i => some i
  | .error _ => none

end Sys2Proof
end

