-- ==== Sys2Proof/Machine/State.lean ====
section
/-!
DEFINITION. The engine's state as plain data (10_state.md R20), with its reset value (70_reset_and_hazards.md R330), and
the reasons for which a step can stop.
-/

namespace Sys2Proof.Machine

/-- The values of STATUS.STATE (10_state.md R26). -/
inductive EngState where
  /-- No command has run since reset or CLOSE. -/
  | idle
  /-- A command is running. -/
  | busy
  /-- The last command finished without error. -/
  | done
  /-- An error was raised and not yet cleared. -/
  | error
deriving DecidableEq, Repr

/-- `HOLD` (10_state.md R20, R26): where the engine waits for the host. -/
inductive Hold where
  | none
  /-- In `pull()`: INQ is empty and the input is still open (20_memory.md R62). -/
  | input
  /-- In `push()`: OUTQ is full (20_memory.md R63). -/
  | output
deriving DecidableEq, Repr

/-- `IN_END` (10_state.md R31, R44). -/
inductive InEnd where
  /-- OPEN: more bytes may come. -/
  | stillOpen
  /-- EOF: the file has no more bytes. -/
  | eof
  /-- IOERR: the host could not read the file. -/
  | ioerr
deriving DecidableEq, Repr

/-- The errors of 60_exceptions.md R300, one constructor for each (KIND, REASON) pair. No other pair is produced
(R300, 93_implementation_defined.md X17), so no state holds one (log 10). -/
inductive Err where
  /-- MALFORMED_FILE 0x01: the first two file bytes are not 05 05. -/
  | badMagic
  /-- MALFORMED_FILE 0x02. -/
  | unsupportedVersion
  /-- MALFORMED_FILE 0x03: EOF inside the header. -/
  | truncatedHeader
  /-- MALFORMED_FILE 0x04. -/
  | secretsMisaligned
  /-- MALFORMED_FILE 0x05: the header's iv is not 16 bytes. -/
  | headerIvLen
  /-- MALFORMED_FILE 0x06. -/
  | innerKeyLen
  /-- MALFORMED_FILE 0x07. -/
  | innerIvLen
  /-- MALFORMED_FILE 0x08: EOF inside a cipher block. -/
  | partialBlock
  /-- MALFORMED_FILE 0x09: EOF while the decompressor needs a byte. -/
  | truncatedStream
  /-- MALFORMED_FILE 0x0A. -/
  | badZlibHeader
  /-- MALFORMED_FILE 0x0B. -/
  | zlibDict
  /-- MALFORMED_FILE 0x0C. -/
  | badBlockType
  /-- MALFORMED_FILE 0x0D. -/
  | storedLenMismatch
  /-- MALFORMED_FILE 0x0E. -/
  | badCodeLengths
  /-- MALFORMED_FILE 0x0F. -/
  | badSymbol
  /-- MALFORMED_FILE 0x10. -/
  | distanceTooFar
  /-- MALFORMED_FILE 0x11. -/
  | adlerMismatch
  /-- MALFORMED_FILE 0x12: EOF inside a READ_BYTEFIELD field. -/
  | truncatedField
  /-- WRONG_PASSWORD 0x01. -/
  | secretsTruncated
  /-- WRONG_PASSWORD 0x02. -/
  | checksumMismatch
  /-- WRONG_PASSWORD 0x03. -/
  | checksumEmpty
  /-- IO_FAILURE 0x01. -/
  | inputError
  /-- COMMAND_ERROR 0x01. -/
  | badOpcode
  /-- COMMAND_ERROR 0x02. -/
  | reservedBits
  /-- COMMAND_ERROR 0x03. -/
  | cmdBusy
  /-- COMMAND_ERROR 0x04: BufLen[KEY] is not 16, 24 or 32. -/
  | badKeyLen
  /-- COMMAND_ERROR 0x05: BufLen[IV] is not 16. -/
  | badIvLen
  /-- COMMAND_ERROR 0x06. -/
  | badKdfParams
  /-- COMMAND_ERROR 0x07. -/
  | inOverflow
  /-- COMMAND_ERROR 0x08. -/
  | inClosed
  /-- COMMAND_ERROR 0x09. -/
  | bufRange
  /-- COMMAND_ERROR 0x0A. -/
  | regBusy
  /-- COMMAND_ERROR 0x0B. -/
  | badAccess
deriving DecidableEq, Repr

/-- The eight buffers of 10_state.md R40, in the order of their ids 0 to 7. -/
inductive BufId where
  | secret | salt | hSalt | hIv | hSsalt | hSecrets | key | iv
deriving DecidableEq, Repr

/-- The bytes of one buffer by index, in ONE canonical form: indices strictly rising and no byte 0, which is what an
unlisted index reads as (10_state.md R40: "Reset value of every buffer: every byte 0"; log 11). -/
abbrev Memory := List Host.Cell

/-- A parameter buffer (10_state.md R40): its bytes, of which the first `len` are its value. -/
structure Buffer where
  bytes : Memory
  /-- `BufLen`. -/
  len   : Nat
deriving DecidableEq, Repr

/-- `Buf[0..7]` with `BufLen[0..7]` (10_state.md R40). -/
structure Buffers where
  secret   : Buffer
  salt     : Buffer
  hSalt    : Buffer
  hIv      : Buffer
  hSsalt   : Buffer
  hSecrets : Buffer
  key      : Buffer
  iv       : Buffer
deriving DecidableEq, Repr

/-- A 4-byte column [a0, a1, a2, a3], row 0 first: the cipher's word (42_aes_cbc.md R151). -/
structure Column where
  a0 : Byte
  a1 : Byte
  a2 : Byte
  a3 : Byte
deriving DecidableEq, Repr

/-- A 16-byte block as four columns: byte r + 4c is row r of column c (42_aes_cbc.md R151). -/
structure Block where
  c0 : Column
  c1 : Column
  c2 : Column
  c3 : Column
deriving DecidableEq, Repr

/-- The unwrap context `U` (10_state.md R45). -/
structure UnwrapCtx where
  /-- `U.OK`, the outer key. -/
  ok   : List Byte
  /-- `U.PT`, the decrypted SecretsPayload. -/
  pt   : List Byte
  /-- `U.IIV`, innerIv. -/
  iiv  : List Byte
  /-- `U.IK`, innerKey. -/
  ik   : List Byte
  /-- `U.CK`, the stored checksum. -/
  ck   : List Byte
  /-- `U.EXP`, the recomputed checksum. -/
  exp  : List Byte
  /-- `U.DIFF`, the comparison accumulator. -/
  diff : Byte
deriving DecidableEq, Repr

/-- The cipher context `C` (10_state.md R46). `C.BLKLEN` is the length of `blk`. -/
structure CipherCtx where
  /-- `C.NR`, the number of rounds. -/
  nr    : Nat
  /-- `C.W`, the expanded key. -/
  w     : List Column
  /-- `C.CHAIN`, the previous ciphertext block, or the IV. -/
  chain : Block
  /-- `C.BLK`, the bytes received so far of the block being assembled. -/
  blk   : List Byte
deriving DecidableEq, Repr

/-- A canonical Huffman code, the pair (count, symbol) of 45_inflate.md R236. -/
structure HTable where
  /-- `count[0..15]`: how many symbols have each code length. -/
  count  : List Nat
  /-- `symbol`: the used symbols in canonical order. -/
  symbol : List Nat
deriving DecidableEq, Repr

/-- The inflate context `Z` (10_state.md R48). The remaining count of a stored block or of a copy stands in the program
point (`ZPoint`). -/
structure InflateCtx where
  /-- `Z.BITBUF`, the unread bits. -/
  bitbuf : Word
  /-- `Z.BITCNT`, their count. -/
  bitcnt : Nat
  /-- `Z.HIST`, the last min(TOTAL, 32768) output bytes, the newest first. -/
  hist   : List Byte
  /-- `Z.TOTAL`, the bytes output since the stream began. -/
  total  : Nat
  /-- `Z.S1`, an Adler-32 sum. -/
  s1     : Nat
  /-- `Z.S2`, an Adler-32 sum. -/
  s2     : Nat
  /-- The current block's BTYPE. -/
  btype  : BitVec 2
  /-- The current block's BFINAL. -/
  bfinal : Bool
  /-- The literal/length table. -/
  lit    : HTable
  /-- The distance table. -/
  dist   : HTable
  /-- The code-length table of a dynamic block (45_inflate.md R239). -/
  clen   : HTable
deriving DecidableEq, Repr

/-- The locals of `decode` (45_inflate.md R237) after `used` bits. -/
structure SymDec where
  used  : Nat
  code  : Nat
  first : Nat
  index : Nat
deriving DecidableEq, Repr

/-- The program points of `inflateZlib` (45_inflate.md R232 to R241) with their locals. -/
inductive ZPoint where
  /-- At `CMF <- src()`. -/
  | cmf
  /-- At `FLG <- src()`. -/
  | flg (cmf : Byte)
  /-- At `BFINAL <- bits(1)`. -/
  | bfinal
  /-- At `BTYPE <- bits(2)`. -/
  | btype
  /-- In `storedBlock`, at one of the four header bytes; `got` are those read. -/
  | storedHdr (got : List Byte)
  /-- In `storedBlock`, at `src()` with `left` ≥ 1 bytes to copy. -/
  | storedByte (left : Nat)
  /-- In `storedBlock`, at `out(b)`; `left` bytes follow it. -/
  | storedOut (b : Byte) (left : Nat)
  /-- At `HLIT <- bits(5) + 257`. -/
  | hlit
  /-- At `HDIST <- bits(5) + 1`. -/
  | hdist (hlit : Nat)
  /-- At `HCLEN <- bits(4) + 4`. -/
  | hclen (hlit hdist : Nat)
  /-- At `cl[ORDER[i]] <- bits(3)`; `got` are the lengths read, `left` ≥ 1 remain. -/
  | clens (hlit hdist left : Nat) (got : List Nat)
  /-- In `decode(cc, cs)` for the next code length; `lens` are those known. -/
  | lens (hlit hdist : Nat) (lens : List Nat) (d : SymDec)
  /-- At the repeat bits of code-length symbol `sym` (16, 17 or 18). -/
  | rep (hlit hdist : Nat) (lens : List Nat) (sym : Nat)
  /-- In `decode(lit)`. -/
  | sym (d : SymDec)
  /-- At `bits(LEXT[i])`. -/
  | lext (i : Nat)
  /-- In `decode(dist)`, the length known. -/
  | dsym (length : Nat) (d : SymDec)
  /-- At `bits(DEXT[j])`. -/
  | dext (length j : Nat)
  /-- At `out` of a literal. -/
  | litOut (b : Byte)
  /-- In the copy loop, `left` ≥ 1 bytes to go. -/
  | copy (left distance : Nat)
  /-- At a trailer byte; `got` bytes are read and `acc` is A. -/
  | trailer (got acc : Nat)
deriving DecidableEq, Repr

/-- The byte source of `inflateZlib` (45_inflate.md R230). -/
inductive Source where
  /-- `rawByte`, in INFLATE. -/
  | raw
  /-- `stageB`, in OPEN_PLAINTEXT and DECRYPT. -/
  | stageB
deriving DecidableEq, Repr

/-- The program points of PARSE_HEADER (40_bytefield_header.md R103) after its first line. -/
inductive HdrPoint where
  /-- At `b0 <- pull()`. -/
  | magic0
  /-- At `b1 <- pull()`. -/
  | magic1 (b0 : Byte)
  /-- At the magic check, then `v <- pull()`. -/
  | version (b0 b1 : Byte)
  /-- At the version check, then the first field. -/
  | fields (v : Byte)
  /-- At `n <- pull()` of the field stored in buffer `f`. -/
  | fieldLen (f : BufId)
  /-- At the loop head of field `f`: `i` of its `n` bytes are stored. -/
  | fieldData (f : BufId) (i n : Nat)
deriving DecidableEq, Repr

/-- The continuation `K` of the running command (10_state.md R21), as a phase enumeration: the point reached in the
command's pseudocode with its local variables. -/
inductive Kont where
  | empty
  /-- The first line of a command (30_encoding.md R84). -/
  | first (i : Instr)
  /-- READ_BYTEFIELD, at the loop head with `left` data bytes to come. -/
  | fieldPull (left : Nat)
  /-- READ_BYTEFIELD, at `push(b)`; `left` data bytes follow. -/
  | fieldPush (b : Byte) (left : Nat)
  /-- PARSE_HEADER, or the header part of DECRYPT where `inDecrypt`. -/
  | header (inDecrypt : Bool) (p : HdrPoint)
  /-- DERIVE_KEY, with the derived bytes still to push. -/
  | keyPush (rest : List Byte)
  /-- AES_CBC_DECRYPT, at `b <- pull()`. -/
  | cbcPull
  /-- AES_CBC_DECRYPT, with the block's plaintext bytes still to push. -/
  | cbcPush (rest : List Byte)
  /-- `inflateZlib(src)` at a point; `inHand` is a byte that `src()` returned and that no line has used yet. -/
  | inflate (src : Source) (p : ZPoint) (inHand : Option Byte)
deriving DecidableEq, Repr

/-- One element of a schedule (00_scope.md R6, 20_memory.md R71). -/
inductive Event where
  /-- A host transaction. -/
  | host (tx : HostTx)
  /-- An engine step. -/
  | engine
  /-- The platform drives `rst` (70_reset_and_hazards.md R331). -/
  | rst
deriving DecidableEq, Repr

/-- The state: one field for each entry of 10_state.md R20, then the model's own three. -/
structure State where
  /-- `STATE`. -/
  st         : EngState
  /-- `OP`, the opcode of the command running or last accepted. -/
  op         : Byte
  /-- `ERR_KIND` and `ERR_REASON` as one error; none when both are 0. -/
  err        : Option Err
  /-- `INT_EN`. -/
  intEn      : BitVec 4
  /-- `INQ`, oldest byte first. -/
  inq        : List Byte
  /-- `IN_END`. -/
  inEnd      : InEnd
  /-- `OUTQ`, oldest byte first. -/
  outq       : List Byte
  /-- `Buf` and `BufLen`. -/
  bufs       : Buffers
  /-- `BUF_SEL`. -/
  bufSel     : BitVec 3
  /-- `BUF_PTR`. -/
  bufPtr     : Nat
  /-- `KDF_ITER`. -/
  kdfIter    : Word
  /-- `KDF_LEN`. -/
  kdfLen     : Byte
  /-- `HDR_MAGIC`. -/
  hdrMagic   : BitVec 16
  /-- `HDR_VERSION`. -/
  hdrVersion : Byte
  /-- `FIELD_LEN`. -/
  fieldLen   : Byte
  /-- `IN_COUNT`. -/
  inCount    : Word
  /-- `OUT_COUNT`. -/
  outCount   : Word
  /-- `HOLD`. -/
  hold       : Hold
  /-- `K`. -/
  k          : Kont
  /-- `U`. -/
  u          : UnwrapCtx
  /-- `C`. -/
  c          : CipherCtx
  /-- `SB`. -/
  sb         : Block
  /-- `SBPOS`. -/
  sbpos      : Nat
  /-- `Z`. -/
  z          : InflateCtx
  /-- The configuration, which no step writes (model's own; log 3). -/
  cfg        : Config
  /-- The rest of the schedule (model's own; log 1). -/
  sched      : List Event
  /-- What the last host read returned (model's own; log 5). -/
  busData    : Word
deriving DecidableEq, Repr

/-- Why a step stops the machine. The spec's own errors are no stops: they are next states with STATE = ERROR
(60_exceptions.md R302). -/
inductive Fault where
  /-- Raised by the bus for a transaction at an offset outside 0x00 to 0xFF, which the spec says the window does not have
  (20_memory.md R60, R69; log 12). Safe: the machine stops. -/
  | outsideWindow
deriving DecidableEq, Repr

/-- Why an instruction has no meaning. -/
inductive Refusal where
  /-- An instruction that the model gives no meaning. No arm of `exec` answers it. Safe: nothing can be claimed of it. -/
  | notModelled (mnemonic : String)
deriving DecidableEq, Repr

/-- A buffer of length 0 whose bytes are all 0 (`zeroize`, 00_scope.md R10). -/
def Buffer.zero : Buffer := { bytes := [], len := 0 }

/-- The eight buffers at reset (10_state.md R40). -/
def Buffers.zero : Buffers :=
  { secret := .zero, salt := .zero, hSalt := .zero, hIv := .zero, hSsalt := .zero, hSecrets := .zero, key := .zero,
    iv := .zero }

/-- Four bytes 0. -/
def Column.zero : Column := { a0 := 0, a1 := 0, a2 := 0, a3 := 0 }

/-- Sixteen bytes 0. -/
def Block.zero : Block := { c0 := .zero, c1 := .zero, c2 := .zero, c3 := .zero }

/-- `U` zeroized. -/
def UnwrapCtx.zero : UnwrapCtx := { ok := [], pt := [], iiv := [], ik := [], ck := [], exp := [], diff := 0 }

/-- `C` zeroized. -/
def CipherCtx.zero : CipherCtx := { nr := 0, w := [], chain := .zero, blk := [] }

/-- An empty code table. -/
def HTable.zero : HTable := { count := [], symbol := [] }

/-- `Z` zeroized. -/
def InflateCtx.zero : InflateCtx :=
  { bitbuf := 0, bitcnt := 0, hist := [], total := 0, s1 := 0, s2 := 0, btype := 0, bfinal := false, lit := .zero,
    dist := .zero, clen := .zero }

/-- The reset state under a given configuration (70_reset_and_hazards.md R330). -/
def State.resetWith (cfg : Config) : State :=
  { st := .idle, op := 0, err := none, intEn := 0, inq := [], inEnd := .stillOpen, outq := [], bufs := .zero,
    bufSel := 0, bufPtr := 0, kdfIter := 0, kdfLen := 0, hdrMagic := 0, hdrVersion := 0, fieldLen := 0, inCount := 0,
    outCount := 0, hold := .none, k := .empty, u := .zero, c := .zero, sb := .zero, sbpos := 16, z := .zero,
    cfg := cfg, sched := [], busData := 0 }

/-- The machine right after reset (70_reset_and_hazards.md R330), at the spec's reference parameters (log 3). -/
def State.reset : State := State.resetWith Config.reference

end Sys2Proof.Machine
end

