-- ==== Sys2Proof/Machine/Ops.lean ====
section
/-!
DEFINITION. The shared operations: bytes of a buffer, the eight buffers, error entry and the return from it
(60_exceptions.md R302, R309), completion (R301), command start (30_encoding.md R83, R84), and the stream primitives
`pull` and `push` (20_memory.md R62, R63).
-/

namespace Sys2Proof.Machine

/-! ### Bytes -/

/-- The byte at index `a`; an unlisted index reads 0 (10_state.md R40; log 11). -/
def Memory.read : Memory → Nat → Byte
  | [], _ => 0#8
  | (k, v) :: r, a => if k = a then v else Memory.read r a

/-- Writing byte `v` at index `a`, in canonical form: a byte 0 is not listed. -/
def Memory.write : Memory → Nat → Byte → Memory
  | [], a, v => if v = 0#8 then [] else [(a, v)]
  | (k, w) :: r, a, v =>
    if a < k then (if v = 0#8 then (k, w) :: r else (a, v) :: (k, w) :: r)
    else if a = k then (if v = 0#8 then r else (a, v) :: r)
    else (k, w) :: Memory.write r a v

/-- The memory that holds the bytes `bs` from index `a` on, and 0 elsewhere. -/
def Memory.ofBytes : Nat → List Byte → Memory
  | _, [] => []
  | a, b :: r => if b = 0#8 then Memory.ofBytes (a + 1) r else (a, b) :: Memory.ofBytes (a + 1) r

/-- The canonical form: indices strictly rising, and no byte 0. -/
def Memory.wf : Memory → Bool
  | [] => true
  | (k, v) :: r => v != 0#8 && r.all (fun c => decide (k < c.1)) && Memory.wf r

/-- The value of a buffer: its first `len` bytes (10_state.md R40). -/
def Buffer.value (b : Buffer) : List Byte := (List.range b.len).map b.bytes.read

/-- The buffer whose value is `bs` and whose other bytes are 0 (43_unwrap.md R180). -/
def Buffer.ofBytes (bs : List Byte) : Buffer := { bytes := Memory.ofBytes 0 bs, len := bs.length }

/-- Storing data byte `i` of a header field: `Buf[id][i] <- b; BufLen[id] <- i + 1` (40_bytefield_header.md R103). -/
def Buffer.storeField (x : Buffer) (i : Nat) (b : Byte) : Buffer := { bytes := x.bytes.write i b, len := i + 1 }

/-- A host store: `Buf[SEL][PTR] <- v; BufLen[SEL] <- max(BufLen[SEL], PTR + 1)` (10_state.md R38). -/
def Buffer.storeHost (x : Buffer) (p : Nat) (b : Byte) : Buffer :=
  { bytes := x.bytes.write p b, len := max x.len (p + 1) }

/-! ### The eight buffers -/

/-- The buffer a 3-bit SEL selects; every value names one (10_state.md R35, R40). -/
def BufId.ofSel (sel : BitVec 3) : BufId :=
  match sel.toNat with
  | 0 => .secret
  | 1 => .salt
  | 2 => .hSalt
  | 3 => .hIv
  | 4 => .hSsalt
  | 5 => .hSecrets
  | 6 => .key
  | _ => .iv

/-- `Buf[id]`. -/
def Buffers.get (bs : Buffers) : BufId → Buffer
  | .secret => bs.secret
  | .salt => bs.salt
  | .hSalt => bs.hSalt
  | .hIv => bs.hIv
  | .hSsalt => bs.hSsalt
  | .hSecrets => bs.hSecrets
  | .key => bs.key
  | .iv => bs.iv

/-- `Buf[id] <- x`. -/
def Buffers.set (bs : Buffers) (id : BufId) (x : Buffer) : Buffers :=
  match id with
  | .secret => { bs with secret := x }
  | .salt => { bs with salt := x }
  | .hSalt => { bs with hSalt := x }
  | .hIv => { bs with hIv := x }
  | .hSsalt => { bs with hSsalt := x }
  | .hSecrets => { bs with hSecrets := x }
  | .key => { bs with key := x }
  | .iv => { bs with iv := x }

/-- `CAP[id]` (10_state.md R40). -/
def bufCap (cfg : Config) : BufId → Nat
  | .secret => cfg.secretCap
  | .salt => Config.fieldMax
  | .hSalt => Config.fieldMax
  | .hIv => Config.fieldMax
  | .hSsalt => Config.fieldMax
  | .hSecrets => Config.fieldMax
  | .key => 32
  | .iv => 16

/-- `READABLE[id]` (10_state.md R40): SECRET, KEY and IV are not. -/
def bufReadable : BufId → Bool
  | .secret => false
  | .salt => true
  | .hSalt => true
  | .hIv => true
  | .hSsalt => true
  | .hSecrets => true
  | .key => false
  | .iv => false

/-- Byte `i` of `Buf[id]` in a state: the model's read of one byte of the buffer space. -/
def State.bufByte (s : State) (id : BufId) (i : Nat) : Byte := (s.bufs.get id).bytes.read i

/-! ### Ends of a command -/

/-- The lifetime rule of 10_state.md R49: U, C, SB and Z are zeroized, SBPOS is 16 and K is empty; and no hold is left. -/
def releaseContexts (s : State) : State :=
  { s with k := .empty, hold := .none, u := .zero, c := .zero, sb := .zero, sbpos := 16, z := .zero }

/-- TAKING AN EXCEPTION: error entry, `raise KIND(REASON)` of 60_exceptions.md R302. In ERROR it changes nothing; else
it aborts the running command, releases the contexts, and records the error. Everything else keeps its value. -/
def raise (e : Err) (s : State) : State :=
  match s.st with
  | .error => s
  | .idle => { releaseContexts s with st := .error, err := some e }
  | .busy => { releaseContexts s with st := .error, err := some e }
  | .done => { releaseContexts s with st := .error, err := some e }

/-- THE RETURN FROM AN EXCEPTION: the release of CLOSE (44_payload_stream.md R220), the only way out of ERROR
(60_exceptions.md R309). It gives every piece of the engine's state its reset value, but for INT_EN. -/
def release (s : State) : State :=
  { releaseContexts s with
    inq := [], inEnd := .stillOpen, outq := [], bufs := .zero, bufSel := 0, bufPtr := 0, kdfIter := 0, kdfLen := 0,
    hdrMagic := 0, hdrVersion := 0, fieldLen := 0, inCount := 0, outCount := 0, st := .idle, op := 0, err := none }

/-- Normal completion, `finish()` of 60_exceptions.md R301. -/
def finish (s : State) : State := { releaseContexts s with st := .done }

/-- The engine's reset input (70_reset_and_hazards.md R330, R331). The schedule, the configuration and what the host last
read are outside the engine and stay (log 13). -/
def hardReset (s : State) : State := { State.resetWith s.cfg with sched := s.sched, busData := s.busData }

/-! ### Command start -/

/-- Command start (30_encoding.md R84): STATE is BUSY, OP is the opcode, no hold, and K is the first line of the command's
pseudocode. Nothing else changes. -/
def startCommand (i : Instr) (s : State) : State :=
  { s with st := .busy, op := opcodeOf i, hold := .none, k := .first i }

/-- Acceptance by state of a legal command other than CLOSE (30_encoding.md R83): it starts in IDLE and DONE, raises
CMD_BUSY in BUSY, and is ignored in ERROR. -/
def acceptCommand (i : Instr) (s : State) : State :=
  match s.st with
  | .idle => startCommand i s
  | .busy => raise .cmdBusy s
  | .done => startCommand i s
  | .error => s

/-- A CMD write of an illegal word (30_encoding.md R82). -/
def illegalWord (e : DecodeError) (s : State) : State :=
  match e with
  | .reservedBits => raise .reservedBits s
  | .badOpcode => raise .badOpcode s

/-! ### The stream primitives -/

/-- `pull()` of 20_memory.md R62, in a state whose K is the point to stay at on a hold. `onByte` and `onEof` are what
follows a byte and EOF. An EOF answer is no step of its own: what follows it belongs to the same step (log 7). -/
def pull (s : State) (onByte : Byte → State → State) (onEof : State → State) : State :=
  match s.inq with
  | b :: rest => onByte b { s with inq := rest, inCount := s.inCount + 1, hold := .none }
  | [] =>
    match s.inEnd with
    | .eof => onEof { s with hold := .none }
    | .ioerr => raise .inputError { s with hold := .none }
    | .stillOpen => { s with hold := .input }

/-- `push(b)` of 20_memory.md R63, in a state whose K is the point to stay at on a hold. `onPushed` is what follows. -/
def push (b : Byte) (s : State) (onPushed : State → State) : State :=
  if s.outq.length < s.cfg.outFifoDepth then
    onPushed { s with outq := s.outq ++ [b], outCount := s.outCount + 1, hold := .none }
  else { s with hold := .output }

end Sys2Proof.Machine
end

