-- ==== Sys2Proof/Machine/Operands.lean ====
section
/-!
DEFINITION. The operands of the commands (30_encoding.md R86): the values of the parameter buffers and the parameter
registers, and the Byte-Field encoding (R88). No operand is encoded in a command word.
-/

namespace Sys2Proof.Machine

/-- The value of `Buf[id]`, `Buf[id][0..BufLen[id])` (10_state.md R40). -/
def State.bufValue (s : State) (id : BufId) : List Byte := (s.bufs.get id).value

/-- `BufLen[id]`. -/
def State.bufLen (s : State) (id : BufId) : Nat := (s.bufs.get id).len

/-- The buffer BUF_SEL selects (10_state.md R35). -/
def State.selected (s : State) : BufId := BufId.ofSel s.bufSel

/-- `CAP[SEL]`. -/
def State.selectedCap (s : State) : Nat := bufCap s.cfg s.selected

/-- DERIVE_KEY's iteration count `c`, an unsigned 32-bit value (41_kdf.md R130). -/
def State.kdfCount (s : State) : Nat := s.kdfIter.toNat

/-- DERIVE_KEY's output length `L`, an unsigned 8-bit value (41_kdf.md R130). -/
def State.kdfOutLen (s : State) : Nat := s.kdfLen.toNat

/-- The same state with `Buf[id] <- x`. -/
def State.setBuf (s : State) (id : BufId) (x : Buffer) : State := { s with bufs := s.bufs.set id x }

/-- A Byte-Field taken from the front of a byte sequence, and the bytes after it; none where the sequence is too short
(30_encoding.md R88, 43_unwrap.md R185). -/
def takeField : List Byte → Option (List Byte × List Byte)
  | [] => none
  | n :: r => if r.length < n.toNat then none else some (r.take n.toNat, r.drop n.toNat)

/-- The Byte-Field that encodes at most 255 bytes (30_encoding.md R88). -/
def byteField (data : List Byte) : List Byte := BitVec.ofNat 8 data.length :: data

/-- The header fields of a database file, in file order (30_encoding.md R87). -/
structure FileHeader where
  salt       : List Byte
  iv         : List Byte
  secretSalt : List Byte
  secrets    : List Byte
deriving DecidableEq, Repr

/-- The file's bytes up to the payload: magic 05 05, version 01, and the four Byte-Fields (30_encoding.md R87). -/
def FileHeader.bytes (h : FileHeader) : List Byte :=
  [0x05, 0x05, 0x01] ++ byteField h.salt ++ byteField h.iv ++ byteField h.secretSalt ++ byteField h.secrets

/-- Every field fits a Byte-Field (00_scope.md R8). -/
abbrev FileHeader.Fits (h : FileHeader) : Prop :=
  h.salt.length ≤ 255 ∧ h.iv.length ≤ 255 ∧ h.secretSalt.length ≤ 255 ∧ h.secrets.length ≤ 255

end Sys2Proof.Machine
end

