-- ==== Sys2Proof/Machine/ByteField.lean ====
section
/-!
DEFINITION. The Byte-Field reader and the header parser (40_bytefield_header.md R100 to R107): READ_BYTEFIELD and
PARSE_HEADER. A register or buffer write that records a pulled byte belongs to the step that consumes the byte (R101, D46;
log 6).
-/

namespace Sys2Proof.Machine

/-! ### READ_BYTEFIELD -/

/-- READ_BYTEFIELD (40_bytefield_header.md R101): the CMD write (30_encoding.md R83, R84). The pseudocode is run by the
engine from `readFieldStart`. -/
def execReadBytefield (s : State) : Host.Outcome State Fault Refusal := .next (acceptCommand .readBytefield s)

/-- At the length byte: FIELD_LEN is written when it is consumed (40_bytefield_header.md R101). -/
def readFieldStart (s : State) : State :=
  pull s (fun n t => { t with fieldLen := n, k := .fieldPull n.toNat }) (raise .truncatedField)

/-- The loop head with `left` data bytes to come: `finish()` after the last, else `b <- pull()`. -/
def fieldPullStep (left : Nat) (s : State) : State :=
  match left with
  | 0 => finish s
  | n + 1 => pull s (fun b t => { t with k := .fieldPush b n }) (raise .truncatedField)

/-- `push(b)` of a data byte: byte i is delivered before byte i + 1 is pulled (40_bytefield_header.md R100). -/
def fieldPushStep (b : Byte) (left : Nat) (s : State) : State :=
  push b s fun t => { t with k := .fieldPull left }

/-! ### PARSE_HEADER -/

/-- PARSE_HEADER (40_bytefield_header.md R103): the CMD write (30_encoding.md R83, R84). The pseudocode is run by the
engine from `headerStart`. -/
def execParseHeader (s : State) : Host.Outcome State Fault Refusal := .next (acceptCommand .parseHeader s)

/-- The field after a field, in file order: H_SALT, H_IV, H_SSALT, H_SECRETS; none after the last
(40_bytefield_header.md R106). -/
def nextField : BufId → Option BufId
  | .hSalt => some .hIv
  | .hIv => some .hSsalt
  | .hSsalt => some .hSecrets
  | .hSecrets => none
  | .secret => none
  | .salt => none
  | .key => none
  | .iv => none

/-- The first lines of R103: the header registers are 0 and the four header buffers are zeroized. -/
def clearHeader (s : State) : State :=
  { s with
    hdrMagic := 0, hdrVersion := 0,
    bufs := { s.bufs with hSalt := .zero, hIv := .zero, hSsalt := .zero, hSecrets := .zero } }

/-- At the length byte of a field (40_bytefield_header.md R100, R103). -/
def headerFieldLen (inDecrypt : Bool) (f : BufId) (s : State) : State :=
  pull { s with k := .header inDecrypt (.fieldLen f) }
    (fun n t => { t with k := .header inDecrypt (.fieldData f 0 n.toNat) }) (raise .truncatedHeader)

/-- At the loop head of a field: a data byte is stored when it is consumed; after the last byte the next field begins,
and after the last field `onDone` follows (40_bytefield_header.md R103). -/
def headerFieldData (inDecrypt : Bool) (onDone : State → State) (f : BufId) (i n : Nat) (s : State) : State :=
  if i < n then
    pull { s with k := .header inDecrypt (.fieldData f i n) }
      (fun b t =>
        { t with bufs := t.bufs.set f ((t.bufs.get f).storeField i b), k := .header inDecrypt (.fieldData f (i + 1) n) })
      (raise .truncatedHeader)
  else
    match nextField f with
    | some g => headerFieldLen inDecrypt g s
    | none => onDone s

/-- At the magic check, both bytes consumed (40_bytefield_header.md R104), then at the version byte. -/
def headerVersion (inDecrypt : Bool) (b0 b1 : Byte) (s : State) : State :=
  if b0 = 0x05 ∧ b1 = 0x05 then
    pull { s with k := .header inDecrypt (.version b0 b1) }
      (fun v t => { t with hdrVersion := v, k := .header inDecrypt (.fields v) }) (raise .truncatedHeader)
  else raise .badMagic s

/-- At the version check (40_bytefield_header.md R105), then at the first field. -/
def headerFields (inDecrypt : Bool) (v : Byte) (s : State) : State :=
  if v = Config.formatVersion then headerFieldLen inDecrypt .hSalt s else raise .unsupportedVersion s

/-- One step of the header body (40_bytefield_header.md R103) at a point; `onDone` follows its last line. -/
def headerStep (inDecrypt : Bool) (onDone : State → State) (p : HdrPoint) (s : State) : State :=
  match p with
  | .magic0 =>
    pull { s with k := .header inDecrypt .magic0 }
      (fun b t => { t with hdrMagic := (t.hdrMagic.extractLsb' 8 8) ++ b, k := .header inDecrypt (.magic1 b) })
      (raise .truncatedHeader)
  | .magic1 b0 =>
    pull { s with k := .header inDecrypt (.magic1 b0) }
      (fun b t => { t with hdrMagic := b ++ (t.hdrMagic.extractLsb' 0 8), k := .header inDecrypt (.version b0 b) })
      (raise .truncatedHeader)
  | .version b0 b1 => headerVersion inDecrypt b0 b1 s
  | .fields v => headerFields inDecrypt v s
  | .fieldLen f => headerFieldLen inDecrypt f s
  | .fieldData f i n => headerFieldData inDecrypt onDone f i n s

/-- The header body from its first line: the clears belong to the command's first step (00_scope.md R6). -/
def headerStart (inDecrypt : Bool) (onDone : State → State) (s : State) : State :=
  headerStep inDecrypt onDone .magic0 (clearHeader s)

end Sys2Proof.Machine
end

