-- ==== Sys2Proof/Machine/Aes.lean ====
section
/-!
DEFINITION. The AES inverse cipher (42_aes_cbc.md R150 to R160). Only the decryption direction exists (R150).
-/

namespace Sys2Proof.Machine

/-- The table S: entry 16h + l is the value for input 0xhl (42_aes_cbc.md R152). -/
def sboxTable : List Byte :=
  [0x63, 0x7c, 0x77, 0x7b, 0xf2, 0x6b, 0x6f, 0xc5, 0x30, 0x01, 0x67, 0x2b, 0xfe, 0xd7, 0xab, 0x76] ++
  [0xca, 0x82, 0xc9, 0x7d, 0xfa, 0x59, 0x47, 0xf0, 0xad, 0xd4, 0xa2, 0xaf, 0x9c, 0xa4, 0x72, 0xc0] ++
  [0xb7, 0xfd, 0x93, 0x26, 0x36, 0x3f, 0xf7, 0xcc, 0x34, 0xa5, 0xe5, 0xf1, 0x71, 0xd8, 0x31, 0x15] ++
  [0x04, 0xc7, 0x23, 0xc3, 0x18, 0x96, 0x05, 0x9a, 0x07, 0x12, 0x80, 0xe2, 0xeb, 0x27, 0xb2, 0x75] ++
  [0x09, 0x83, 0x2c, 0x1a, 0x1b, 0x6e, 0x5a, 0xa0, 0x52, 0x3b, 0xd6, 0xb3, 0x29, 0xe3, 0x2f, 0x84] ++
  [0x53, 0xd1, 0x00, 0xed, 0x20, 0xfc, 0xb1, 0x5b, 0x6a, 0xcb, 0xbe, 0x39, 0x4a, 0x4c, 0x58, 0xcf] ++
  [0xd0, 0xef, 0xaa, 0xfb, 0x43, 0x4d, 0x33, 0x85, 0x45, 0xf9, 0x02, 0x7f, 0x50, 0x3c, 0x9f, 0xa8] ++
  [0x51, 0xa3, 0x40, 0x8f, 0x92, 0x9d, 0x38, 0xf5, 0xbc, 0xb6, 0xda, 0x21, 0x10, 0xff, 0xf3, 0xd2] ++
  [0xcd, 0x0c, 0x13, 0xec, 0x5f, 0x97, 0x44, 0x17, 0xc4, 0xa7, 0x7e, 0x3d, 0x64, 0x5d, 0x19, 0x73] ++
  [0x60, 0x81, 0x4f, 0xdc, 0x22, 0x2a, 0x90, 0x88, 0x46, 0xee, 0xb8, 0x14, 0xde, 0x5e, 0x0b, 0xdb] ++
  [0xe0, 0x32, 0x3a, 0x0a, 0x49, 0x06, 0x24, 0x5c, 0xc2, 0xd3, 0xac, 0x62, 0x91, 0x95, 0xe4, 0x79] ++
  [0xe7, 0xc8, 0x37, 0x6d, 0x8d, 0xd5, 0x4e, 0xa9, 0x6c, 0x56, 0xf4, 0xea, 0x65, 0x7a, 0xae, 0x08] ++
  [0xba, 0x78, 0x25, 0x2e, 0x1c, 0xa6, 0xb4, 0xc6, 0xe8, 0xdd, 0x74, 0x1f, 0x4b, 0xbd, 0x8b, 0x8a] ++
  [0x70, 0x3e, 0xb5, 0x66, 0x48, 0x03, 0xf6, 0x0e, 0x61, 0x35, 0x57, 0xb9, 0x86, 0xc1, 0x1d, 0x9e] ++
  [0xe1, 0xf8, 0x98, 0x11, 0x69, 0xd9, 0x8e, 0x94, 0x9b, 0x1e, 0x87, 0xe9, 0xce, 0x55, 0x28, 0xdf] ++
  [0x8c, 0xa1, 0x89, 0x0d, 0xbf, 0xe6, 0x42, 0x68, 0x41, 0x99, 0x2d, 0x0f, 0xb0, 0x54, 0xbb, 0x16]

/-- The table InvS, the inverse permutation of S (42_aes_cbc.md R152). -/
def invSboxTable : List Byte :=
  [0x52, 0x09, 0x6a, 0xd5, 0x30, 0x36, 0xa5, 0x38, 0xbf, 0x40, 0xa3, 0x9e, 0x81, 0xf3, 0xd7, 0xfb] ++
  [0x7c, 0xe3, 0x39, 0x82, 0x9b, 0x2f, 0xff, 0x87, 0x34, 0x8e, 0x43, 0x44, 0xc4, 0xde, 0xe9, 0xcb] ++
  [0x54, 0x7b, 0x94, 0x32, 0xa6, 0xc2, 0x23, 0x3d, 0xee, 0x4c, 0x95, 0x0b, 0x42, 0xfa, 0xc3, 0x4e] ++
  [0x08, 0x2e, 0xa1, 0x66, 0x28, 0xd9, 0x24, 0xb2, 0x76, 0x5b, 0xa2, 0x49, 0x6d, 0x8b, 0xd1, 0x25] ++
  [0x72, 0xf8, 0xf6, 0x64, 0x86, 0x68, 0x98, 0x16, 0xd4, 0xa4, 0x5c, 0xcc, 0x5d, 0x65, 0xb6, 0x92] ++
  [0x6c, 0x70, 0x48, 0x50, 0xfd, 0xed, 0xb9, 0xda, 0x5e, 0x15, 0x46, 0x57, 0xa7, 0x8d, 0x9d, 0x84] ++
  [0x90, 0xd8, 0xab, 0x00, 0x8c, 0xbc, 0xd3, 0x0a, 0xf7, 0xe4, 0x58, 0x05, 0xb8, 0xb3, 0x45, 0x06] ++
  [0xd0, 0x2c, 0x1e, 0x8f, 0xca, 0x3f, 0x0f, 0x02, 0xc1, 0xaf, 0xbd, 0x03, 0x01, 0x13, 0x8a, 0x6b] ++
  [0x3a, 0x91, 0x11, 0x41, 0x4f, 0x67, 0xdc, 0xea, 0x97, 0xf2, 0xcf, 0xce, 0xf0, 0xb4, 0xe6, 0x73] ++
  [0x96, 0xac, 0x74, 0x22, 0xe7, 0xad, 0x35, 0x85, 0xe2, 0xf9, 0x37, 0xe8, 0x1c, 0x75, 0xdf, 0x6e] ++
  [0x47, 0xf1, 0x1a, 0x71, 0x1d, 0x29, 0xc5, 0x89, 0x6f, 0xb7, 0x62, 0x0e, 0xaa, 0x18, 0xbe, 0x1b] ++
  [0xfc, 0x56, 0x3e, 0x4b, 0xc6, 0xd2, 0x79, 0x20, 0x9a, 0xdb, 0xc0, 0xfe, 0x78, 0xcd, 0x5a, 0xf4] ++
  [0x1f, 0xdd, 0xa8, 0x33, 0x88, 0x07, 0xc7, 0x31, 0xb1, 0x12, 0x10, 0x59, 0x27, 0x80, 0xec, 0x5f] ++
  [0x60, 0x51, 0x7f, 0xa9, 0x19, 0xb5, 0x4a, 0x0d, 0x2d, 0xe5, 0x7a, 0x9f, 0x93, 0xc9, 0x9c, 0xef] ++
  [0xa0, 0xe0, 0x3b, 0x4d, 0xae, 0x2a, 0xf5, 0xb0, 0xc8, 0xeb, 0xbb, 0x3c, 0x83, 0x53, 0x99, 0x61] ++
  [0x17, 0x2b, 0x04, 0x7e, 0xba, 0x77, 0xd6, 0x26, 0xe1, 0x69, 0x14, 0x63, 0x55, 0x21, 0x0c, 0x7d]

/-- `S[a]`. -/
def sbox (a : Byte) : Byte := sboxTable.getD a.toNat 0

/-- `InvS[a]`. -/
def invSbox (a : Byte) : Byte := invSboxTable.getD a.toNat 0

/-- `xtime(a)`, truncated to 8 bits (42_aes_cbc.md R152). -/
def xtime (a : Byte) : Byte := (a <<< 1) ^^^ (if a.getLsbD 7 then 0x1B else 0)

/-- The XOR of `xtime^i(a)` over the bits set in `b`, for the lowest `n` bits of `b`. -/
def gfMulBits : Nat → Byte → Byte → Byte
  | 0, _, _ => 0
  | n + 1, a, b => (if b.getLsbD 0 then a else 0) ^^^ gfMulBits n (xtime a) (b >>> 1)

/-- The product `a • b` in GF(2^8) (42_aes_cbc.md R152). -/
def gfMul (a b : Byte) : Byte := gfMulBits 8 a b

/-- `Rcon[j]` for j from 1 to 10, `xtime^(j-1)(0x01)` (42_aes_cbc.md R154). -/
def rcon : Nat → Byte
  | 0 => 0
  | 1 => 0x01
  | j + 2 => xtime (rcon (j + 1))

/-! ### Columns and blocks -/

/-- Bytewise XOR of two columns. -/
def Column.xor (x y : Column) : Column :=
  { a0 := x.a0 ^^^ y.a0, a1 := x.a1 ^^^ y.a1, a2 := x.a2 ^^^ y.a2, a3 := x.a3 ^^^ y.a3 }

/-- Bytewise XOR of two blocks. -/
def Block.xor (x y : Block) : Block :=
  { c0 := x.c0.xor y.c0, c1 := x.c1.xor y.c1, c2 := x.c2.xor y.c2, c3 := x.c3.xor y.c3 }

/-- A function on bytes, applied to each row of a column. -/
def Column.map (f : Byte → Byte) (x : Column) : Column := { a0 := f x.a0, a1 := f x.a1, a2 := f x.a2, a3 := f x.a3 }

/-- The columns of a byte sequence, four bytes each, in order (42_aes_cbc.md R151). -/
def columnsOf : List Byte → List Column
  | a :: b :: c :: d :: r => { a0 := a, a1 := b, a2 := c, a3 := d } :: columnsOf r
  | _ => []

/-- Columns 0 to 3 of a list. -/
def Block.ofColumns (cs : List Column) : Block :=
  { c0 := cs.getD 0 .zero, c1 := cs.getD 1 .zero, c2 := cs.getD 2 .zero, c3 := cs.getD 3 .zero }

/-- `state(in)` of a 16-byte block: s[r][c] = in[r + 4c] (42_aes_cbc.md R151). -/
def Block.ofBytes (bs : List Byte) : Block := Block.ofColumns (columnsOf bs)

/-- The four bytes of a column, row 0 first. -/
def Column.bytes (x : Column) : List Byte := [x.a0, x.a1, x.a2, x.a3]

/-- `out(s)`: out[r + 4c] = s[r][c] (42_aes_cbc.md R151). -/
def Block.bytes (x : Block) : List Byte := x.c0.bytes ++ x.c1.bytes ++ x.c2.bytes ++ x.c3.bytes

/-! ### Key expansion -/

/-- `RotWord` (42_aes_cbc.md R153). -/
def rotWord (x : Column) : Column := { a0 := x.a1, a1 := x.a2, a2 := x.a3, a3 := x.a0 }

/-- `SubWord` (42_aes_cbc.md R153). -/
def subWord (x : Column) : Column := x.map sbox

/-- The word `t` that is added to `w[i - Nk]`, from `w[i - 1]` (42_aes_cbc.md R153). -/
def scheduleTerm (nk i : Nat) (prev : Column) : Column :=
  if i % nk = 0 then (subWord (rotWord prev)).xor { a0 := rcon (i / nk), a1 := 0, a2 := 0, a3 := 0 }
  else if nk = 8 ∧ i % nk = 4 then subWord prev
  else prev

/-- `n` more schedule words from index `i` on; the list holds the words before, the newest first. -/
def expandWords (nk : Nat) : Nat → Nat → List Column → List Column
  | 0, _, ws => ws
  | n + 1, i, ws =>
    expandWords nk n (i + 1) ((ws.getD (nk - 1) .zero).xor (scheduleTerm nk i (ws.getD 0 .zero)) :: ws)

/-- `Nr` for a key of `Nk` words (42_aes_cbc.md R151): 10, 12 and 14 for 4, 6 and 8. -/
def roundsOf (nk : Nat) : Nat := nk + 6

/-- `KeyExpansion(key)`: the words w[0] to w[4(Nr + 1) - 1] (42_aes_cbc.md R153). -/
def keyExpansion (key : List Byte) : List Column :=
  let nk := key.length / 4
  (expandWords nk (4 * (roundsOf nk + 1) - nk) nk (columnsOf key).reverse).reverse

/-! ### The inverse cipher -/

/-- AddRoundKey(s, rnd) with the schedule `w` (42_aes_cbc.md R155). -/
def addRoundKey (w : List Column) (rnd : Nat) (s : Block) : Block := s.xor (Block.ofColumns (w.drop (4 * rnd)))

/-- InvShiftRows: s'[r][(c + r) mod 4] = s[r][c] (42_aes_cbc.md R156). -/
def invShiftRows (s : Block) : Block :=
  { c0 := { a0 := s.c0.a0, a1 := s.c3.a1, a2 := s.c2.a2, a3 := s.c1.a3 }
    c1 := { a0 := s.c1.a0, a1 := s.c0.a1, a2 := s.c3.a2, a3 := s.c2.a3 }
    c2 := { a0 := s.c2.a0, a1 := s.c1.a1, a2 := s.c0.a2, a3 := s.c3.a3 }
    c3 := { a0 := s.c3.a0, a1 := s.c2.a1, a2 := s.c1.a2, a3 := s.c0.a3 } }

/-- InvSubBytes (42_aes_cbc.md R157). -/
def invSubBytes (s : Block) : Block :=
  { c0 := s.c0.map invSbox, c1 := s.c1.map invSbox, c2 := s.c2.map invSbox, c3 := s.c3.map invSbox }

/-- InvMixColumns on one column (42_aes_cbc.md R158). -/
def invMixColumn (x : Column) : Column :=
  { a0 := gfMul x.a0 0x0e ^^^ gfMul x.a1 0x0b ^^^ gfMul x.a2 0x0d ^^^ gfMul x.a3 0x09
    a1 := gfMul x.a0 0x09 ^^^ gfMul x.a1 0x0e ^^^ gfMul x.a2 0x0b ^^^ gfMul x.a3 0x0d
    a2 := gfMul x.a0 0x0d ^^^ gfMul x.a1 0x09 ^^^ gfMul x.a2 0x0e ^^^ gfMul x.a3 0x0b
    a3 := gfMul x.a0 0x0b ^^^ gfMul x.a1 0x0d ^^^ gfMul x.a2 0x09 ^^^ gfMul x.a3 0x0e }

/-- InvMixColumns (42_aes_cbc.md R158). -/
def invMixColumns (s : Block) : Block :=
  { c0 := invMixColumn s.c0, c1 := invMixColumn s.c1, c2 := invMixColumn s.c2, c3 := invMixColumn s.c3 }

/-- The rounds of the inverse cipher from round `rnd` down to 1, then round 0 (42_aes_cbc.md R160). -/
def invRounds (w : List Column) : Nat → Block → Block
  | 0, s => addRoundKey w 0 (invSubBytes (invShiftRows s))
  | rnd + 1, s => invRounds w rnd (invMixColumns (addRoundKey w (rnd + 1) (invSubBytes (invShiftRows s))))

/-- `InvCipher(in, w, Nr)` (42_aes_cbc.md R160). -/
def invCipher (w : List Column) (nr : Nat) (s : Block) : Block := invRounds w (nr - 1) (addRoundKey w nr s)

/-! ### CBC -/

/-- CBC decryption of `n` blocks of a byte sequence: P_j = InvCipher(X_j) ^ X_(j-1) (42_aes_cbc.md R161). -/
def cbcBlocks (w : List Column) (nr : Nat) : Nat → Block → List Byte → List Byte
  | 0, _, _ => []
  | n + 1, chain, bs =>
    let x := Block.ofBytes (bs.take Config.blockBytes)
    ((invCipher w nr x).xor chain).bytes ++ cbcBlocks w nr n x (bs.drop Config.blockBytes)

/-- `cbcDecrypt(key, iv, X)`, defined for len(key) ∈ {16, 24, 32}, len(iv) = 16 and len(X) a multiple of 16; no padding
byte is added, removed or checked (42_aes_cbc.md R161, R162). -/
def cbcDecrypt (key iv bs : List Byte) : List Byte :=
  cbcBlocks (keyExpansion key) (roundsOf (key.length / 4)) (bs.length / Config.blockBytes) (Block.ofBytes iv) bs

end Sys2Proof.Machine
end

