-- ==== Sys2Proof/Machine/AesCbc.lean ====
section
/-!
DEFINITION. The cipher context and its block step (42_aes_cbc.md R163), the command AES_CBC_DECRYPT (R165), and stages A
and B of the payload stream (44_payload_stream.md R202, R203).
-/

namespace Sys2Proof.Machine

/-- `loadCipher(key, iv)` (42_aes_cbc.md R163): the key length is checked first. -/
def loadCipher (key iv : List Byte) (s : State) : Except Err State :=
  if key.length ∉ Config.aesKeyLens then .error .badKeyLen
  else if iv.length ≠ Config.blockBytes then .error .badIvLen
  else
    .ok { s with
      c := { nr := roundsOf (key.length / 4), w := keyExpansion key, chain := Block.ofBytes iv, blk := [] } }

/-- `cbcStep(X)` on the context: the plaintext block, and the context whose chain is X (42_aes_cbc.md R163). -/
def cbcStep (c : CipherCtx) (x : Block) : Block × CipherCtx :=
  ((invCipher c.w c.nr x).xor c.chain, { c with chain := x })

/-! ### AES_CBC_DECRYPT -/

/-- AES_CBC_DECRYPT (42_aes_cbc.md R165): the CMD write (30_encoding.md R83, R84). The pseudocode is run by the engine
from `cbcStart`. -/
def execAesCbcDecrypt (s : State) : Host.Outcome State Fault Refusal := .next (acceptCommand .aesCbcDecrypt s)

/-- One byte into the block being assembled; with the 16th, the block's plaintext is next to be pushed. -/
def cbcAccept (b : Byte) (s : State) : State :=
  let blk := s.c.blk ++ [b]
  if blk.length = Config.blockBytes then
    let r := cbcStep { s.c with blk := [] } (Block.ofBytes blk)
    { s with c := r.2, k := .cbcPush r.1.bytes }
  else { s with c := { s.c with blk := blk }, k := .cbcPull }

/-- EOF: `finish()` at a block boundary, PARTIAL_BLOCK inside a block (42_aes_cbc.md R165). -/
def cbcEnd (s : State) : State := if s.c.blk = [] then finish s else raise .partialBlock s

/-- The loop head, at `b <- pull()` (42_aes_cbc.md R165). -/
def cbcPullStep (s : State) : State := pull { s with k := .cbcPull } cbcAccept cbcEnd

/-- The push loop over one block's plaintext (42_aes_cbc.md R165). -/
def cbcPushStep (rest : List Byte) (s : State) : State :=
  match rest with
  | [] => cbcPullStep s
  | b :: r => push b { s with k := .cbcPush rest } fun t => { t with k := if r = [] then .cbcPull else .cbcPush r }

/-- AES_CBC_DECRYPT from its first line: the checks of `loadCipher` come before any pull (42_aes_cbc.md R165). -/
def cbcStart (s : State) : State :=
  match loadCipher (s.bufValue .key) (s.bufValue .iv) s with
  | .ok t => cbcPullStep t
  | .error e => raise e s

/-! ### Stages A and B -/

/-- EOF in stage A: TRUNCATED_STREAM at a block boundary, PARTIAL_BLOCK inside a block (44_payload_stream.md R202). -/
def stageAEnd (s : State) : State := if s.c.blk = [] then raise .truncatedStream s else raise .partialBlock s

/-- One byte into stage A's block; with the 16th, SB holds the block's plaintext and SBPOS is 0
(44_payload_stream.md R202). -/
def stageAAccept (b : Byte) (s : State) : State :=
  let blk := s.c.blk ++ [b]
  if blk.length = Config.blockBytes then
    let r := cbcStep { s.c with blk := [] } (Block.ofBytes blk)
    { s with c := r.2, sb := r.1, sbpos := 0 }
  else { s with c := { s.c with blk := blk } }

/-- The byte of SB that stage B hands out next (44_payload_stream.md R203). -/
def stageBByte (s : State) : Byte := s.sb.bytes.getD s.sbpos 0

end Sys2Proof.Machine
end

