-- ==== Sys2Proof/Machine/Sha1.lean ====
section
/-!
DEFINITION. SHA-1 (41_kdf.md R120 to R125), the engine's one hash function. Every `+` on words is addition modulo 2^32
(R125).
-/

namespace Sys2Proof.Machine

/-- `ROTL_n(x)` on 32 bits (41_kdf.md R125). -/
def rotl (n : Nat) (x : Word) : Word := (x <<< n) ||| (x >>> (32 - n))

/-- The 32-bit word of four bytes, the first one most significant (20_memory.md R68). -/
def wordOfBytes (a b c d : Byte) : Word := a ++ b ++ c ++ d

/-- `BE32(x)` (00_scope.md R9). -/
def be32 (x : Word) : List Byte :=
  [x.extractLsb' 24 8, x.extractLsb' 16 8, x.extractLsb' 8 8, x.extractLsb' 0 8]

/-- `BE64(x)` of a number below 2^64 (41_kdf.md R121). -/
def be64 (x : Nat) : List Byte := be32 (BitVec.ofNat 32 (x / 2 ^ 32)) ++ be32 (BitVec.ofNat 32 x)

/-- The number `k` of zero bytes in the padding: the least with (m + 1 + k) mod 64 = 56 (41_kdf.md R121). -/
def sha1ZeroBytes (m : Nat) : Nat := (119 - m % 64) % 64

/-- `pad(M)` (41_kdf.md R121). -/
def sha1Pad (msg : List Byte) : List Byte :=
  msg ++ [0x80] ++ List.replicate (sha1ZeroBytes msg.length) 0 ++ be64 (8 * msg.length)

/-- The bytes of a message as big-endian words (41_kdf.md R123). -/
def wordsOf : List Byte → List Word
  | a :: b :: c :: d :: r => wordOfBytes a b c d :: wordsOf r
  | _ => []

/-- The five chaining words (41_kdf.md R122, R123). -/
structure Sha1State where
  a : Word
  b : Word
  c : Word
  d : Word
  e : Word
deriving DecidableEq, Repr

/-- H0 to H4 at the start (41_kdf.md R122). -/
def sha1Init : Sha1State := { a := 0x67452301, b := 0xEFCDAB89, c := 0x98BADCFE, d := 0x10325476, e := 0xC3D2E1F0 }

/-- `K_t` (41_kdf.md R122). -/
def sha1K (t : Nat) : Word :=
  if t < 20 then 0x5A827999 else if t < 40 then 0x6ED9EBA1 else if t < 60 then 0x8F1BBCDC else 0xCA62C1D6

/-- `f_t` (41_kdf.md R122). -/
def sha1F (t : Nat) (b c d : Word) : Word :=
  if t < 20 then (b &&& c) ^^^ (~~~b &&& d)
  else if t < 40 then b ^^^ c ^^^ d
  else if t < 60 then (b &&& c) ^^^ (b &&& d) ^^^ (c &&& d)
  else b ^^^ c ^^^ d

/-- One round (41_kdf.md R123). -/
def sha1Round (t : Nat) (w : Word) (s : Sha1State) : Sha1State :=
  { a := rotl 5 s.a + sha1F t s.b s.c s.d + s.e + sha1K t + w, b := s.a, c := rotl 30 s.b, d := s.c, e := s.d }

/-- The rounds from `t` on, over the schedule words from `W[t]` on. -/
def sha1Rounds : Nat → List Word → Sha1State → Sha1State
  | _, [], s => s
  | t, w :: ws, s => sha1Rounds (t + 1) ws (sha1Round t w s)

/-- Extends the schedule by `n` words: `W[t] = ROTL_1(W[t-3] ^ W[t-8] ^ W[t-14] ^ W[t-16])`, the newest word first
(41_kdf.md R123). -/
def sha1Extend : Nat → List Word → List Word
  | 0, ws => ws
  | n + 1, ws => sha1Extend n (rotl 1 (ws.getD 2 0 ^^^ ws.getD 7 0 ^^^ ws.getD 13 0 ^^^ ws.getD 15 0) :: ws)

/-- `W[0..79]` of a block given as its 16 words (41_kdf.md R123). -/
def sha1Schedule (block : List Word) : List Word := (sha1Extend 64 block.reverse).reverse

/-- The compression of one block (41_kdf.md R123). -/
def sha1Compress (h : Sha1State) (block : List Word) : Sha1State :=
  let r := sha1Rounds 0 (sha1Schedule block) h
  { a := h.a + r.a, b := h.b + r.b, c := h.c + r.c, d := h.d + r.d, e := h.e + r.e }

/-- The compression of `n` blocks in order. -/
def sha1Blocks : Nat → List Word → Sha1State → Sha1State
  | 0, _, h => h
  | n + 1, ws, h => sha1Blocks n (ws.drop 16) (sha1Compress h (ws.take 16))

/-- `SHA1(M)`, 20 bytes (41_kdf.md R124). -/
def sha1 (msg : List Byte) : List Byte :=
  let p := sha1Pad msg
  let h := sha1Blocks (p.length / 64) (wordsOf p) sha1Init
  be32 h.a ++ be32 h.b ++ be32 h.c ++ be32 h.d ++ be32 h.e

end Sys2Proof.Machine
end

