-- ==== Sys2Proof/Machine/Kdf.lean ====
section
/-!
DEFINITION. HMAC-SHA-1 and PBKDF2 (41_kdf.md R126 to R129), and the command DERIVE_KEY (R130).
-/

namespace Sys2Proof.Machine

/-- The bytewise XOR of two byte sequences of one length. -/
def xorBytes : List Byte → List Byte → List Byte
  | x :: xs, y :: ys => (x ^^^ y) :: xorBytes xs ys
  | _, _ => []

/-- `K0`: the key, hashed where it is longer than 64 bytes, then zeros up to 64 bytes (41_kdf.md R126). -/
def hmacKey (key : List Byte) : List Byte :=
  let k := if key.length > Config.hmacB then sha1 key else key
  k ++ List.replicate (Config.hmacB - k.length) 0

/-- `HMAC(K, m)` (41_kdf.md R126). -/
def hmac (key msg : List Byte) : List Byte :=
  let k0 := hmacKey key
  sha1 (xorBytes k0 (List.replicate Config.hmacB 0x5C) ++ sha1 (xorBytes k0 (List.replicate Config.hmacB 0x36) ++ msg))

/-- `n` more iterations of PBKDF2's inner loop, from the last `U` and the accumulated `T` (41_kdf.md R127). -/
def pbkdf2Iterate (p : List Byte) : Nat → List Byte → List Byte → List Byte
  | 0, _, t => t
  | n + 1, u, t => pbkdf2Iterate p n (hmac p u) (xorBytes t (hmac p u))

/-- `T_i` for `c` iterations (41_kdf.md R127). -/
def pbkdf2Block (p salt : List Byte) (c i : Nat) : List Byte :=
  let u := hmac p (salt ++ be32 (BitVec.ofNat 32 i))
  pbkdf2Iterate p (c - 1) u u

/-- The number `l` of blocks of an output of `n` bytes (41_kdf.md R127). -/
def pbkdf2Count (n : Nat) : Nat := (n + (Config.hlen - 1)) / Config.hlen

/-- `PBKDF2(P, S, c, dkLen)` for c ≥ 1 and dkLen ≥ 1 (41_kdf.md R127). -/
def pbkdf2 (p salt : List Byte) (c n : Nat) : List Byte :=
  ((List.range (pbkdf2Count n)).flatMap fun i => pbkdf2Block p salt c (i + 1)).take n

/-- `deriveKey(secret, salt, iterations, outputLength)` (41_kdf.md R128). No test on an intermediate value is made
(R129). -/
def deriveKey (secret salt : List Byte) (iterations outputLength : Nat) : List Byte :=
  pbkdf2 secret salt iterations outputLength

/-- DERIVE_KEY (41_kdf.md R130): the CMD write (30_encoding.md R83, R84). The pseudocode is run by the engine from
`deriveKeyStart`. -/
def execDeriveKey (s : State) : Host.Outcome State Fault Refusal := .next (acceptCommand .deriveKey s)

/-- The push loop of DERIVE_KEY, then `finish()` (41_kdf.md R130). -/
def keyPushStep (rest : List Byte) (s : State) : State :=
  match rest with
  | [] => finish s
  | b :: r => push b { s with k := .keyPush rest } fun t => { t with k := .keyPush r }

/-- DERIVE_KEY from its first line: the parameter check comes before any push (41_kdf.md R130). -/
def deriveKeyStart (s : State) : State :=
  if s.kdfCount = 0 ∨ s.kdfOutLen = 0 then raise .badKdfParams s
  else keyPushStep (deriveKey (s.bufValue .secret) (s.bufValue .salt) s.kdfCount s.kdfOutLen) s

end Sys2Proof.Machine
end

