-- ==== Sys2Proof/Machine/Unwrap.lean ====
section
/-!
DEFINITION. The secrets unwrapper (43_unwrap.md R180 to R191): UNWRAP, and the body that DECRYPT shares with it. It pulls
and pushes nothing, and all its work is in the step that ends it.
-/

namespace Sys2Proof.Machine

/-- UNWRAP (43_unwrap.md R180): the CMD write (30_encoding.md R83, R84). The pseudocode is run by the engine from
`unwrapStart`. -/
def execUnwrap (s : State) : Host.Outcome State Fault Refusal := .next (acceptCommand .unwrap s)

/-- `parseSecrets(PT)`: innerIv, innerKey and checksum; bytes after the third field are ignored (43_unwrap.md R185). -/
def parseSecrets (pt : List Byte) : Option (List Byte × List Byte × List Byte) :=
  match takeField pt with
  | none => none
  | some (iiv, r1) =>
    match takeField r1 with
    | none => none
    | some (ik, r2) =>
      match takeField r2 with
      | none => none
      | some (ck, _) => some (iiv, ik, ck)

/-- The full-length comparison: the OR of the XORs of all byte pairs (43_unwrap.md R188). -/
def checksumDiff : List Byte → List Byte → Byte
  | x :: xs, y :: ys => (x ^^^ y) ||| checksumDiff xs ys
  | _, _ => 0

/-- R183: U.OK is the outer key. -/
def unwrapOuterKey (s : State) : State :=
  { s with
    u := { s.u with ok := deriveKey (s.bufValue .secret) (s.bufValue .hSalt) Config.outerIter Config.outerKeyLen } }

/-- The block loop of R184 over `n` blocks of a byte sequence: U.PT grows by `cbcStep` of each. -/
def unwrapBlocks : Nat → List Byte → State → State
  | 0, _, s => s
  | n + 1, bs, s =>
    let r := cbcStep s.c (Block.ofBytes (bs.take Config.blockBytes))
    unwrapBlocks n (bs.drop Config.blockBytes) { s with c := r.2, u := { s.u with pt := s.u.pt ++ r.1.bytes } }

/-- R184: U.PT is the decrypted SecretsPayload. -/
def unwrapDecrypt (s : State) : Except Err State :=
  match loadCipher s.u.ok (s.bufValue .hIv) s with
  | .error e => .error e
  | .ok t =>
    .ok (unwrapBlocks (s.bufLen .hSecrets / Config.blockBytes) (s.bufValue .hSecrets) { t with u := { t.u with pt := [] } })

/-- R185 and R186: the three fields of U.PT, and the gate on an empty checksum. -/
def unwrapParse (s : State) : Except Err State :=
  match parseSecrets s.u.pt with
  | none => .error .secretsTruncated
  | some (iiv, ik, ck) =>
    if ck.length = 0 then .error .checksumEmpty
    else .ok { s with u := { s.u with iiv := iiv, ik := ik, ck := ck } }

/-- R187 and R188: the recomputed checksum and the comparison. -/
def unwrapCheck (s : State) : Except Err State :=
  let exp := deriveKey s.u.ik (s.bufValue .hSsalt) Config.checkIter s.u.ck.length
  let diff := checksumDiff s.u.ck exp
  if diff ≠ 0 then .error .checksumMismatch
  else .ok { s with u := { s.u with exp := exp, diff := diff } }

/-- R189: KEY and IV are written only after the checksum and both lengths have passed. -/
def unwrapStore (s : State) : Except Err State :=
  if s.u.ik.length ∉ Config.aesKeyLens then .error .innerKeyLen
  else if s.u.iiv.length ≠ Config.blockBytes then .error .innerIvLen
  else .ok { s with bufs := { s.bufs with key := Buffer.ofBytes s.u.ik, iv := Buffer.ofBytes s.u.iiv } }

/-- R190: U is zeroized on every exit from the body. -/
def unwrapRelease (s : State) : State := { s with u := .zero }

/-- The steps of R180 once the outer key is known, in order; the first error ends them. -/
def unwrapWithKey (s : State) : Except Err State :=
  match unwrapDecrypt s with
  | .error e => .error e
  | .ok s1 =>
    match unwrapParse s1 with
    | .error e => .error e
    | .ok s2 =>
      match unwrapCheck s2 with
      | .error e => .error e
      | .ok s3 =>
        match unwrapStore s3 with
        | .error e => .error e
        | .ok s4 => .ok (unwrapRelease s4)

/-- The steps of R180 after the structural checks. -/
def unwrapSecrets (s : State) : Except Err State := unwrapWithKey (unwrapOuterKey s)

/-- `unwrapBody()` (43_unwrap.md R180). The two structural checks come before any key derivation, so their errors do not
depend on the password (R181, R182, R191). -/
def unwrapBody (s : State) : Except Err State :=
  if s.bufLen .hSecrets % Config.blockBytes ≠ 0 then .error .secretsMisaligned
  else if s.bufLen .hIv ≠ Config.blockBytes then .error .headerIvLen
  else unwrapSecrets s

/-- UNWRAP from its first line, in one step (43_unwrap.md R180). -/
def unwrapStart (s : State) : State :=
  match unwrapBody s with
  | .ok t => finish t
  | .error e => raise e s

end Sys2Proof.Machine
end

