-- ==== Sys2Proof/Machine/Zlib.lean ====
section
/-!
DEFINITION. The zlib/DEFLATE decoder of 45_inflate.md R230 to R250 as a transducer: what each program point of
`inflateZlib` asks for (a byte, bits, or room for an output byte), and what follows the answer. The command INFLATE and the
byte sources are in Machine/Payload.lean.
-/

namespace Sys2Proof.Machine

/-! ### Tables -/

/-- `ORDER` (45_inflate.md R239). -/
def codeLengthOrder : List Nat := [16, 17, 18, 0, 8, 7, 9, 6, 10, 5, 11, 4, 12, 3, 13, 2, 14, 1, 15]

/-- `LBASE` (45_inflate.md R242). -/
def lengthBase : List Nat :=
  [3, 4, 5, 6, 7, 8, 9, 10, 11, 13, 15, 17, 19, 23, 27] ++
  [31, 35, 43, 51, 59, 67, 83, 99, 115, 131, 163, 195, 227, 258]

/-- `LEXT` (45_inflate.md R242). -/
def lengthExtra : List Nat :=
  [0, 0, 0, 0, 0, 0, 0, 0, 1, 1, 1, 1, 2, 2, 2] ++ [2, 3, 3, 3, 3, 4, 4, 4, 4, 5, 5, 5, 5, 0]

/-- `DBASE` (45_inflate.md R242). -/
def distBase : List Nat :=
  [1, 2, 3, 4, 5, 7, 9, 13, 17, 25, 33, 49, 65, 97, 129] ++
  [193, 257, 385, 513, 769, 1025, 1537, 2049, 3073, 4097, 6145, 8193, 12289, 16385, 24577]

/-- `DEXT` (45_inflate.md R242). -/
def distExtra : List Nat :=
  [0, 0, 0, 0, 1, 1, 2, 2, 3, 3, 4, 4, 5, 5, 6] ++ [6, 7, 7, 8, 8, 9, 9, 10, 10, 11, 11, 12, 12, 13, 13]

/-! ### Canonical codes -/

/-- `count[0..15]` of a list of code lengths (45_inflate.md R236). -/
def lengthCounts (lens : List Nat) : List Nat := (List.range 16).map fun l => lens.count l

/-- The status `left` after the counts of the lengths still to come; none where it falls below 0, an over-subscribed
code (45_inflate.md R236). -/
def codeLeft : Nat → List Nat → Option Nat
  | left, [] => some left
  | left, c :: cs => if 2 * left < c then none else codeLeft (2 * left - c) cs

/-- `symbol`: the used symbols by rising length, and by rising symbol within one length (45_inflate.md R236). -/
def canonicalSymbols (lens : List Nat) : List Nat :=
  (List.range 15).flatMap fun l => (lens.zipIdx.filter fun x => x.1 == l + 1).map Prod.snd

/-- `build(len)`: none for an over-subscribed code, else the status `left` and the table (45_inflate.md R236). -/
def buildCode (lens : List Nat) : Option (Nat × HTable) :=
  let count := lengthCounts lens
  match codeLeft 1 (count.drop 1) with
  | none => none
  | some left => some (left, { count := count, symbol := canonicalSymbols lens })

/-- The table of a code that is not over-subscribed; an empty table otherwise. -/
def codeTable (lens : List Nat) : HTable :=
  match buildCode lens with
  | none => .zero
  | some (_, t) => t

/-- FIXED_LIT (45_inflate.md R238). -/
def fixedLit : HTable :=
  codeTable (List.replicate 144 8 ++ List.replicate 112 9 ++ List.replicate 24 7 ++ List.replicate 8 8)

/-- FIXED_DIST, 32 codes of length 5 (45_inflate.md R238). -/
def fixedDist : HTable := codeTable (List.replicate 32 5)

/-- The answer of one bit of `decode`. -/
inductive SymRes where
  | more (d : SymDec)
  | symbol (n : Nat)
  | bad
deriving DecidableEq, Repr

/-- `decode` before its first bit (45_inflate.md R237). -/
def symStart : SymDec := { used := 0, code := 0, first := 0, index := 0 }

/-- One bit of `decode`, at length L = used + 1; 15 bits that form no code are bad (45_inflate.md R237). -/
def symBit (t : HTable) (d : SymDec) (bit : Nat) : SymRes :=
  let code := d.code ||| bit
  let n := t.count.getD (d.used + 1) 0
  if code < d.first + n then .symbol (t.symbol.getD (d.index + (code - d.first)) 0)
  else if d.used + 1 = 15 then .bad
  else .more { used := d.used + 1, code := code <<< 1, first := (d.first + n) <<< 1, index := d.index + n }

/-! ### The bit reader and the output -/

/-- The bytes of `src()` into the bit reader (45_inflate.md R231). -/
def feedBits (z : InflateCtx) (b : Byte) : InflateCtx :=
  { z with bitbuf := z.bitbuf ||| (b.setWidth 32 <<< z.bitcnt), bitcnt := z.bitcnt + 8 }

/-- The value of `bits(n)` once n bits are there (45_inflate.md R231). -/
def peekBits (z : InflateCtx) (n : Nat) : Nat := (z.bitbuf &&& ((1 <<< n) - 1)).toNat

/-- The reader after `bits(n)` (45_inflate.md R231). -/
def dropBits (z : InflateCtx) (n : Nat) : InflateCtx := { z with bitbuf := z.bitbuf >>> n, bitcnt := z.bitcnt - n }

/-- `byteAlign()` (45_inflate.md R231). -/
def byteAlign (z : InflateCtx) : InflateCtx := { z with bitbuf := 0, bitcnt := 0 }

/-- The sums, the history and the total after `out(b)` has pushed `b` (45_inflate.md R233, R250). -/
def recordOut (z : InflateCtx) (b : Byte) : InflateCtx :=
  let s1 := (z.s1 + b.toNat) % 65521
  { z with s1 := s1, s2 := (z.s2 + s1) % 65521, hist := (b :: z.hist).take Config.window, total := z.total + 1 }

/-- The Adler-32 value of the bytes output so far (45_inflate.md R250). -/
def adlerValue (z : InflateCtx) : Nat := z.s2 * 65536 + z.s1

/-- The context at stream start (45_inflate.md R232, R250). -/
def inflateInit (z : InflateCtx) : InflateCtx := byteAlign { z with s1 := 1, s2 := 0, total := 0 }

/-! ### The transducer -/

/-- What a program point asks for. -/
inductive ZRequest where
  /-- `src()`. -/
  | byte
  /-- `bits(n)`. -/
  | bits (n : Nat)
  /-- `out(b)`. -/
  | out (b : Byte)
deriving DecidableEq, Repr

/-- What follows an answer. -/
inductive ZRes where
  /-- The decoder is at another point. -/
  | cont (z : InflateCtx) (p : ZPoint)
  /-- A `raise` line is reached. -/
  | fail (e : Err)
  /-- `inflateZlib` returns. -/
  | done
deriving DecidableEq, Repr

/-- How many extra bits follow code-length symbol 16, 17 or 18 (45_inflate.md R239). -/
def repeatBits (sym : Nat) : Nat := if sym = 16 then 2 else if sym = 17 then 3 else 7

/-- What `p` asks for (45_inflate.md R232 to R241). -/
def zRequest (z : InflateCtx) (p : ZPoint) : ZRequest :=
  match p with
  | .cmf => .byte
  | .flg _ => .byte
  | .bfinal => .bits 1
  | .btype => .bits 2
  | .storedHdr _ => .byte
  | .storedByte _ => .byte
  | .storedOut b _ => .out b
  | .hlit => .bits 5
  | .hdist _ => .bits 5
  | .hclen _ _ => .bits 4
  | .clens _ _ _ _ => .bits 3
  | .lens _ _ _ _ => .bits 1
  | .rep _ _ _ sym => .bits (repeatBits sym)
  | .sym _ => .bits 1
  | .lext i => .bits (lengthExtra.getD i 0)
  | .dsym _ _ => .bits 1
  | .dext _ j => .bits (distExtra.getD j 0)
  | .litOut b => .out b
  | .copy _ distance => .out (z.hist.getD (distance - 1) 0)
  | .trailer _ _ => .byte

/-- The end of a block: the next block, or after the final one the byte alignment and the trailer (45_inflate.md R232). -/
def endBlock (z : InflateCtx) : InflateCtx × ZPoint :=
  if z.bfinal then (byteAlign z, .trailer 0 0) else (z, .bfinal)

/-- `endBlock` as an answer. -/
def endBlockRes (z : InflateCtx) : ZRes := .cont (endBlock z).1 (endBlock z).2

/-- The header checks, after both header bytes: FCHECK, CM and CINFO, then FDICT (45_inflate.md R232). -/
def zlibHeader (z : InflateCtx) (cmf flg : Byte) : ZRes :=
  if (cmf.toNat * 256 + flg.toNat) % 31 ≠ 0 ∨ cmf.toNat % 16 ≠ 8 ∨ cmf.toNat / 16 > 7 then .fail .badZlibHeader
  else if flg.getLsbD 5 then .fail .zlibDict
  else .cont z .bfinal

/-- The LEN check of a stored block whose four header bytes are read (45_inflate.md R234). -/
def storedHeader (z : InflateCtx) (a b c d : Byte) : ZRes :=
  let len := a.toNat + 256 * b.toNat
  let nlen := c.toNat + 256 * d.toNat
  if len ≠ 65535 - nlen then .fail .storedLenMismatch
  else if len = 0 then endBlockRes z
  else .cont z (.storedByte len)

/-- The start of a block of type BTYPE (45_inflate.md R232). -/
def startBlock (z : InflateCtx) (btype : Nat) : ZRes :=
  if btype = 0 then .cont (byteAlign z) (.storedHdr [])
  else if btype = 1 then .cont { z with lit := fixedLit, dist := fixedDist } (.sym symStart)
  else if btype = 2 then .cont z .hlit
  else .fail .badBlockType

/-- The code-length code, from the lengths read in ORDER; it must be complete (45_inflate.md R239). -/
def codeLengthTable (z : InflateCtx) (hlit hdist : Nat) (got : List Nat) : ZRes :=
  match buildCode ((List.range 19).map fun s => got.getD (codeLengthOrder.idxOf s) 0) with
  | some (0, t) => .cont { z with clen := t } (.lens hlit hdist [] symStart)
  | _ => .fail .badCodeLengths

/-- Whether a literal/length or distance code of `n` lengths is accepted: complete, or with at most one code, of length 1
(45_inflate.md R239). -/
def acceptCode (n left : Nat) (t : HTable) : Bool := left == 0 || n == t.count.getD 0 0 + t.count.getD 1 0

/-- The two tables of a dynamic block, from all its code lengths (45_inflate.md R239). -/
def dynamicTables (z : InflateCtx) (hlit : Nat) (lens : List Nat) : ZRes :=
  if lens.getD 256 0 = 0 then .fail .badCodeLengths
  else
    match buildCode (lens.take hlit) with
    | none => .fail .badCodeLengths
    | some (e, lit) =>
      if !acceptCode hlit e lit then .fail .badCodeLengths
      else
        match buildCode (lens.drop hlit) with
        | none => .fail .badCodeLengths
        | some (e', dist) =>
          if !acceptCode (lens.drop hlit).length e' dist then .fail .badCodeLengths
          else .cont { z with lit := lit, dist := dist } (.sym symStart)

/-- After some code lengths: the next code length, or the tables once HLIT + HDIST are known (45_inflate.md R239). -/
def moreLengths (z : InflateCtx) (hlit hdist : Nat) (lens : List Nat) : ZRes :=
  if lens.length < hlit + hdist then .cont z (.lens hlit hdist lens symStart) else dynamicTables z hlit lens

/-- A code-length symbol (45_inflate.md R239). -/
def codeLengthSymbol (z : InflateCtx) (hlit hdist : Nat) (lens : List Nat) (sym : Nat) : ZRes :=
  if sym < 16 then moreLengths z hlit hdist (lens ++ [sym])
  else if sym = 16 ∧ lens = [] then .fail .badCodeLengths
  else .cont z (.rep hlit hdist lens sym)

/-- A repeat of code lengths, its extra bits read (45_inflate.md R239). -/
def repeatLengths (z : InflateCtx) (hlit hdist : Nat) (lens : List Nat) (sym v : Nat) : ZRes :=
  let r := (if sym = 18 then 11 else 3) + v
  let value := if sym = 16 then lens.getLastD 0 else 0
  if lens.length + r > hlit + hdist then .fail .badCodeLengths
  else moreLengths z hlit hdist (lens ++ List.replicate r value)

/-- A literal/length symbol (45_inflate.md R241). -/
def litSymbol (z : InflateCtx) (sym : Nat) : ZRes :=
  if sym < 256 then .cont z (.litOut (BitVec.ofNat 8 sym))
  else if sym = 256 then endBlockRes z
  else if sym - 257 ≥ 29 then .fail .badSymbol
  else .cont z (.lext (sym - 257))

/-- A distance symbol (45_inflate.md R241). -/
def distSymbol (z : InflateCtx) (length sym : Nat) : ZRes :=
  if sym ≥ 30 then .fail .badSymbol else .cont z (.dext length sym)

/-- A distance, checked against the bytes output so far (45_inflate.md R241, R243). -/
def startCopy (z : InflateCtx) (length distance : Nat) : ZRes :=
  if distance > z.total then .fail .distanceTooFar else .cont z (.copy length distance)

/-- What follows one bit of `decode`: `again` with the locals, or `sym` with the symbol. -/
def afterSymBit (r : SymRes) (again : SymDec → ZRes) (sym : Nat → ZRes) : ZRes :=
  match r with
  | .more d => again d
  | .symbol n => sym n
  | .bad => .fail .badSymbol

/-- What follows `bits(n)` = `v` at a point that asks for bits; `z` is the reader after them. -/
def zOnBits (z : InflateCtx) (p : ZPoint) (v : Nat) : ZRes :=
  match p with
  | .bfinal => .cont { z with bfinal := v == 1 } .btype
  | .btype => startBlock { z with btype := BitVec.ofNat 2 v } v
  | .hlit => .cont z (.hdist (v + 257))
  | .hdist hlit => .cont z (.hclen hlit (v + 1))
  | .hclen hlit hdist =>
    if hlit > 286 ∨ hdist > 30 then .fail .badCodeLengths else .cont z (.clens hlit hdist (v + 4) [])
  | .clens hlit hdist left got =>
    if left ≤ 1 then codeLengthTable z hlit hdist (got ++ [v]) else .cont z (.clens hlit hdist (left - 1) (got ++ [v]))
  | .lens hlit hdist lens d =>
    afterSymBit (symBit z.clen d v) (fun d' => .cont z (.lens hlit hdist lens d')) (codeLengthSymbol z hlit hdist lens)
  | .rep hlit hdist lens sym => repeatLengths z hlit hdist lens sym v
  | .sym d => afterSymBit (symBit z.lit d v) (fun d' => .cont z (.sym d')) (litSymbol z)
  | .lext i => .cont z (.dsym (lengthBase.getD i 0 + v) symStart)
  | .dsym length d => afterSymBit (symBit z.dist d v) (fun d' => .cont z (.dsym length d')) (distSymbol z length)
  | .dext length j => startCopy z length (distBase.getD j 0 + v)
  -- the points below ask for a byte or for room, never for bits
  | .cmf => .cont z .cmf
  | .flg cmf => .cont z (.flg cmf)
  | .storedHdr got => .cont z (.storedHdr got)
  | .storedByte left => .cont z (.storedByte left)
  | .storedOut b left => .cont z (.storedOut b left)
  | .litOut b => .cont z (.litOut b)
  | .copy left distance => .cont z (.copy left distance)
  | .trailer got acc => .cont z (.trailer got acc)

/-- What follows a byte of the stored block's header. -/
def storedHeaderByte (z : InflateCtx) (got : List Byte) (b : Byte) : ZRes :=
  match got with
  | [x, y, w] => storedHeader z x y w b
  | _ => .cont z (.storedHdr (got ++ [b]))

/-- What follows a byte of the trailer: after the fourth, the Adler-32 check (45_inflate.md R232, R250). -/
def trailerByte (z : InflateCtx) (got acc : Nat) (b : Byte) : ZRes :=
  let acc' := acc * 256 + b.toNat
  if got < 3 then .cont z (.trailer (got + 1) acc')
  else if acc' ≠ adlerValue z then .fail .adlerMismatch
  else .done

/-- What follows a byte of `src()`: at a point that asks for bits, the byte goes into the bit reader. -/
def zOnByte (z : InflateCtx) (p : ZPoint) (b : Byte) : ZRes :=
  match p with
  | .cmf => .cont z (.flg b)
  | .flg cmf => zlibHeader z cmf b
  | .storedHdr got => storedHeaderByte z got b
  | .storedByte left => .cont z (.storedOut b (left - 1))
  | .trailer got acc => trailerByte z got acc b
  | .bfinal => .cont (feedBits z b) .bfinal
  | .btype => .cont (feedBits z b) .btype
  | .hlit => .cont (feedBits z b) .hlit
  | .hdist hlit => .cont (feedBits z b) (.hdist hlit)
  | .hclen hlit hdist => .cont (feedBits z b) (.hclen hlit hdist)
  | .clens hlit hdist left got => .cont (feedBits z b) (.clens hlit hdist left got)
  | .lens hlit hdist lens d => .cont (feedBits z b) (.lens hlit hdist lens d)
  | .rep hlit hdist lens sym => .cont (feedBits z b) (.rep hlit hdist lens sym)
  | .sym d => .cont (feedBits z b) (.sym d)
  | .lext i => .cont (feedBits z b) (.lext i)
  | .dsym length d => .cont (feedBits z b) (.dsym length d)
  | .dext length j => .cont (feedBits z b) (.dext length j)
  -- the points below ask for room, never for a byte
  | .storedOut x left => .cont z (.storedOut x left)
  | .litOut x => .cont z (.litOut x)
  | .copy left distance => .cont z (.copy left distance)

/-- What follows `out(b)` at a point that asks for room; `z` has the byte recorded. -/
def zAfterOut (z : InflateCtx) (p : ZPoint) : InflateCtx × ZPoint :=
  match p with
  | .storedOut _ left => if left = 0 then endBlock z else (z, .storedByte left)
  | .litOut _ => (z, .sym symStart)
  | .copy left distance => if left ≤ 1 then (z, .sym symStart) else (z, .copy (left - 1) distance)
  -- the points below ask for a byte or for bits, never for room
  | .cmf => (z, .cmf)
  | .flg cmf => (z, .flg cmf)
  | .bfinal => (z, .bfinal)
  | .btype => (z, .btype)
  | .storedHdr got => (z, .storedHdr got)
  | .storedByte left => (z, .storedByte left)
  | .hlit => (z, .hlit)
  | .hdist hlit => (z, .hdist hlit)
  | .hclen hlit hdist => (z, .hclen hlit hdist)
  | .clens hlit hdist left got => (z, .clens hlit hdist left got)
  | .lens hlit hdist lens d => (z, .lens hlit hdist lens d)
  | .rep hlit hdist lens sym => (z, .rep hlit hdist lens sym)
  | .sym d => (z, .sym d)
  | .lext i => (z, .lext i)
  | .dsym length d => (z, .dsym length d)
  | .dext length j => (z, .dext length j)
  | .trailer got acc => (z, .trailer got acc)

end Sys2Proof.Machine
end

