-- ==== Sys2Proof/Machine/Payload.lean ====
section
/-!
DEFINITION. The payload stream (44_payload_stream.md R200 to R206) and the decompressor's commands: INFLATE
(45_inflate.md R260), OPEN_PLAINTEXT, DECRYPT (44_payload_stream.md R210) and CLOSE (R220).
-/

namespace Sys2Proof.Machine

/-! ### The decoder over its byte source -/

/-- What the decoder does next, without a visible step where it can. -/
inductive ZMove where
  /-- It needs a byte of INQ. -/
  | pull
  /-- It has an output byte to push. -/
  | emit (b : Byte)
  /-- It goes on without a visible step; `pos` is SBPOS after it. -/
  | silent (r : ZRes) (pos : Nat)
deriving DecidableEq, Repr

/-- `src()` where no byte is in hand: stage B hands out a byte of SB while it has one, and asks stage A when it is
exhausted (44_payload_stream.md R201, R203); `rawByte` always pulls (45_inflate.md R260). -/
def zSource (src : Source) (p : ZPoint) (s : State) : ZMove :=
  match src with
  | .raw => .pull
  | .stageB => if s.sbpos < 16 then .silent (zOnByte s.z p (stageBByte s)) (s.sbpos + 1) else .pull

/-- The next move at a point (45_inflate.md R231: a byte is asked for only when the unread bits do not suffice). -/
def zMove (src : Source) (p : ZPoint) (s : State) : ZMove :=
  match zRequest s.z p with
  | .out b => .emit b
  | .byte => zSource src p s
  | .bits n =>
    if s.z.bitcnt < n then zSource src p s else .silent (zOnBits (dropBits s.z n) p (peekBits s.z n)) s.sbpos

/-- A byte of INQ for the decoder: straight to it, or into stage A's block (45_inflate.md R260, 44_payload_stream.md
R202). -/
def inflatePull (src : Source) (p : ZPoint) (s : State) : State :=
  match src with
  | .raw =>
    pull { s with k := .inflate .raw p none } (fun b t => { t with k := .inflate .raw p (some b) })
      (raise .truncatedStream)
  | .stageB => pull { s with k := .inflate .stageB p none } stageAAccept stageAEnd

/-- `out(b)` (45_inflate.md R233). -/
def inflateEmit (src : Source) (p : ZPoint) (b : Byte) (s : State) : State :=
  push b { s with k := .inflate src p none } fun t =>
    let r := zAfterOut (recordOut t.z b) p
    { t with z := r.1, k := .inflate src r.2 none }

/-- The decoder from a point to its next visible step. All computation before that step belongs to it (00_scope.md R6).
The first argument bounds the silent moves; `inflateFuel` is always enough (log 16). -/
def inflateRun : Nat → Source → ZPoint → State → State
  | 0, src, p, s => { s with k := .inflate src p none }
  | n + 1, src, p, s =>
    match zMove src p s with
    | .pull => inflatePull src p s
    | .emit b => inflateEmit src p b s
    | .silent (.cont z q) pos => inflateRun n src q { s with z := z, sbpos := pos }
    | .silent (.fail e) _ => raise e s
    | .silent .done _ => finish s

/-- 1 where a point may ask for `bits(0)`, else 0. -/
def zRank : ZPoint → Nat
  | .lext _ => 1
  | .dext _ _ => 1
  | .cmf => 0
  | .flg _ => 0
  | .bfinal => 0
  | .btype => 0
  | .storedHdr _ => 0
  | .storedByte _ => 0
  | .storedOut _ _ => 0
  | .hlit => 0
  | .hdist _ => 0
  | .hclen _ _ => 0
  | .clens _ _ _ _ => 0
  | .lens _ _ _ _ => 0
  | .rep _ _ _ _ => 0
  | .sym _ => 0
  | .dsym _ _ => 0
  | .litOut _ => 0
  | .copy _ _ => 0
  | .trailer _ _ => 0

/-- A bound on the silent moves from a point: every one of them uses a byte of SB or an unread bit, or leaves a point
that asked for `bits(0)`. -/
def silentBound (p : ZPoint) (s : State) : Nat := 20 * (16 - s.sbpos) + 2 * s.z.bitcnt + zRank p

/-- Fuel enough for all silent moves and the visible step. -/
def inflateFuel (p : ZPoint) (s : State) : Nat := silentBound p s + 1

/-- One step of `inflateZlib(src)` at a point, with the byte in hand if there is one. -/
def inflateStep (src : Source) (p : ZPoint) (inHand : Option Byte) (s : State) : State :=
  match inHand with
  | none => inflateRun (inflateFuel p s) src p s
  | some b =>
    match zOnByte s.z p b with
    | .cont z q => inflateRun (inflateFuel q { s with z := z }) src q { s with z := z }
    | .fail e => raise e s
    | .done => finish s

/-! ### The commands -/

/-- INFLATE (45_inflate.md R260): the CMD write (30_encoding.md R83, R84). The pseudocode is run by the engine from
`inflateStart`. -/
def execInflate (s : State) : Host.Outcome State Fault Refusal := .next (acceptCommand .inflate s)

/-- INFLATE from its first line: `inflateZlib(rawByte)` (45_inflate.md R232, R260). -/
def inflateStart (s : State) : State := inflateStep .raw .cmf none { s with z := inflateInit s.z }

/-- OPEN_PLAINTEXT (44_payload_stream.md R200): the CMD write (30_encoding.md R83, R84). The pseudocode is run by the
engine from `openBody`. -/
def execOpenPlaintext (s : State) : Host.Outcome State Fault Refusal := .next (acceptCommand .openPlaintext s)

/-- `openBody()`: the checks of `loadCipher` come before any pull; stage B is empty (44_payload_stream.md R200). -/
def openBody (s : State) : State :=
  match loadCipher (s.bufValue .key) (s.bufValue .iv) s with
  | .error e => raise e s
  | .ok t => inflateStep .stageB .cmf none { t with sbpos := 16, z := inflateInit t.z }

/-- DECRYPT (44_payload_stream.md R210): the CMD write (30_encoding.md R83, R84). The pseudocode is run by the engine
from `headerStart`, then `decryptTail`. -/
def execDecrypt (s : State) : Host.Outcome State Fault Refusal := .next (acceptCommand .decrypt s)

/-- DECRYPT after `headerBody()`: `unwrapBody()`, then `openBody()` with KEY and IV as it wrote them
(44_payload_stream.md R210). -/
def decryptTail (s : State) : State :=
  match unwrapBody s with
  | .error e => raise e s
  | .ok t => openBody t

/-- CLOSE (44_payload_stream.md R220): in every STATE it takes effect in full within the CMD write. -/
def execClose (s : State) : Host.Outcome State Fault Refusal := .next (release s)

end Sys2Proof.Machine
end

