-- ==== Sys2Proof/Machine/Engine.lean ====
section
/-!
DEFINITION. The engine agent: one engine step of the running command (00_scope.md R6, 10_state.md R21).
-/

namespace Sys2Proof.Machine

/-- A command from the first line of its pseudocode (30_encoding.md R84). CLOSE takes effect in its CMD write and never
starts (44_payload_stream.md R220). -/
def firstStep (i : Instr) (s : State) : State :=
  match i with
  | .readBytefield => readFieldStart s
  | .parseHeader => headerStart false finish s
  | .deriveKey => deriveKeyStart s
  | .aesCbcDecrypt => cbcStart s
  | .unwrap => unwrapStart s
  | .openPlaintext => openBody s
  | .inflate => inflateStart s
  | .decrypt => headerStart true decryptTail s
  | .close => s

/-- What follows the last line of the header body: `finish()` in PARSE_HEADER, the unwrap and the payload stream in
DECRYPT (44_payload_stream.md R210). -/
def afterHeader (inDecrypt : Bool) : State → State := if inDecrypt then decryptTail else finish

/-- The running command from its continuation to its next visible step (00_scope.md R6). -/
def advance (s : State) : State :=
  match s.k with
  | .empty => s
  | .first i => firstStep i s
  | .fieldPull left => fieldPullStep left s
  | .fieldPush b left => fieldPushStep b left s
  | .header inDecrypt p => headerStep inDecrypt (afterHeader inDecrypt) p s
  | .keyPush rest => keyPushStep rest s
  | .cbcPull => cbcPullStep s
  | .cbcPush rest => cbcPushStep rest s
  | .inflate src p inHand => inflateStep src p inHand s

/-- One engine step: in IDLE, DONE and ERROR the engine takes none (60_exceptions.md R319). -/
def engineStep (s : State) : State :=
  match s.st with
  | .idle => s
  | .busy => advance s
  | .done => s
  | .error => s

/-- `n` engine steps with no host transaction between them. -/
def engineRun : Nat → State → State
  | 0, s => s
  | n + 1, s => engineRun n (engineStep s)

end Sys2Proof.Machine
end

