-- ==== Sys2Proof/Machine/Flags.lean ====
section
/-!
DEFINITION. The flags and the words computed from them: STATUS (10_state.md R26), ERROR (R27), INT_STATUS (R29), the
levels (R32, R34), and the interrupt output (60_exceptions.md R311). The engine has no arithmetic flags (10_state.md R50).
-/

namespace Sys2Proof.Machine

/-- STATUS[1:0] (10_state.md R26). -/
def stateCode : EngState → BitVec 2
  | .idle => 0
  | .busy => 1
  | .done => 2
  | .error => 3

/-- IN_CTRL[1:0] (10_state.md R31). -/
def inEndCode : InEnd → BitVec 2
  | .stillOpen => 0
  | .eof => 1
  | .ioerr => 2

/-- KIND of an error (60_exceptions.md R300): 1 MALFORMED_FILE, 2 WRONG_PASSWORD, 3 IO_FAILURE, 4 COMMAND_ERROR. -/
def errKindOf : Err → Byte
  | .badMagic => 1
  | .unsupportedVersion => 1
  | .truncatedHeader => 1
  | .secretsMisaligned => 1
  | .headerIvLen => 1
  | .innerKeyLen => 1
  | .innerIvLen => 1
  | .partialBlock => 1
  | .truncatedStream => 1
  | .badZlibHeader => 1
  | .zlibDict => 1
  | .badBlockType => 1
  | .storedLenMismatch => 1
  | .badCodeLengths => 1
  | .badSymbol => 1
  | .distanceTooFar => 1
  | .adlerMismatch => 1
  | .truncatedField => 1
  | .secretsTruncated => 2
  | .checksumMismatch => 2
  | .checksumEmpty => 2
  | .inputError => 3
  | .badOpcode => 4
  | .reservedBits => 4
  | .cmdBusy => 4
  | .badKeyLen => 4
  | .badIvLen => 4
  | .badKdfParams => 4
  | .inOverflow => 4
  | .inClosed => 4
  | .bufRange => 4
  | .regBusy => 4
  | .badAccess => 4

/-- REASON of an error (60_exceptions.md R300). -/
def errReasonOf : Err → Byte
  | .badMagic => 0x01
  | .unsupportedVersion => 0x02
  | .truncatedHeader => 0x03
  | .secretsMisaligned => 0x04
  | .headerIvLen => 0x05
  | .innerKeyLen => 0x06
  | .innerIvLen => 0x07
  | .partialBlock => 0x08
  | .truncatedStream => 0x09
  | .badZlibHeader => 0x0A
  | .zlibDict => 0x0B
  | .badBlockType => 0x0C
  | .storedLenMismatch => 0x0D
  | .badCodeLengths => 0x0E
  | .badSymbol => 0x0F
  | .distanceTooFar => 0x10
  | .adlerMismatch => 0x11
  | .truncatedField => 0x12
  | .secretsTruncated => 0x01
  | .checksumMismatch => 0x02
  | .checksumEmpty => 0x03
  | .inputError => 0x01
  | .badOpcode => 0x01
  | .reservedBits => 0x02
  | .cmdBusy => 0x03
  | .badKeyLen => 0x04
  | .badIvLen => 0x05
  | .badKdfParams => 0x06
  | .inOverflow => 0x07
  | .inClosed => 0x08
  | .bufRange => 0x09
  | .regBusy => 0x0A
  | .badAccess => 0x0B

/-- `ERR_KIND`. -/
def State.errKind (s : State) : Byte :=
  match s.err with
  | none => 0
  | some e => errKindOf e

/-- `ERR_REASON`. -/
def State.errReason (s : State) : Byte :=
  match s.err with
  | none => 0
  | some e => errReasonOf e

/-- STATUS.IN_WAIT (10_state.md R26). -/
def State.inWait (s : State) : Bool := s.st == .busy && s.hold == .input

/-- STATUS.OUT_WAIT (10_state.md R26). -/
def State.outWait (s : State) : Bool := s.st == .busy && s.hold == .output

/-- The STATUS word: STATE [1:0], IN_WAIT [4], OUT_WAIT [5], OP [15:8], 0 elsewhere (10_state.md R26). -/
def State.statusWord (s : State) : Word :=
  (0 : BitVec 16) ++ s.op ++ (0 : BitVec 2) ++ BitVec.ofBool s.outWait ++ BitVec.ofBool s.inWait ++ (0 : BitVec 2) ++
    stateCode s.st

/-- The ERROR word: KIND [7:0], REASON [15:8], 0 elsewhere (10_state.md R27). -/
def State.errorWord (s : State) : Word := (0 : BitVec 16) ++ s.errReason ++ s.errKind

/-- INT_STATUS[3:0] (10_state.md R29): IN_SPACE, OUT_AVAIL, ERR, DONE from bit 3 to bit 0. -/
def State.intStatus (s : State) : BitVec 4 :=
  BitVec.ofBool (decide (s.inq.length < s.cfg.inFifoDepth) && s.inEnd == .stillOpen) ++
    BitVec.ofBool (decide (0 < s.outq.length)) ++ BitVec.ofBool (s.st == .error) ++ BitVec.ofBool (s.st == .done)

/-- The `irq` output: INT_EN & INT_STATUS is not 0 (10_state.md R29, 60_exceptions.md R311). -/
def State.irq (s : State) : Bool := s.intEn &&& s.intStatus != 0

/-- The platform line that `irq` drives, and its level (60_exceptions.md R311, `IRQ_LINE`). -/
def State.irqOutput (s : State) : Nat × Bool := (s.cfg.irqLine, s.irq)

/-- A level register: the fill in bits [15:0], the FIFO's depth in bits [31:16] (10_state.md R32, R34). -/
def levelWord (fill depth : Nat) : Word := BitVec.ofNat 16 depth ++ BitVec.ofNat 16 fill

end Sys2Proof.Machine
end

