-- ==== Sys2Proof/Machine/Bus.lean ====
section
/-!
DEFINITION. The register window (10_state.md R23 to R43, 20_memory.md R60 to R66): the effect of every host transaction
but the start of a command, which is `exec`.
-/

namespace Sys2Proof.Machine

/-- The offset of a register (10_state.md R23). -/
def regOffset : Reg → Nat
  | .id => 0x00
  | .version => 0x04
  | .cmd => 0x08
  | .status => 0x0C
  | .error => 0x10
  | .intEn => 0x14
  | .intStatus => 0x18
  | .inData => 0x1C
  | .inCtrl => 0x20
  | .inLevel => 0x24
  | .outData => 0x28
  | .outLevel => 0x2C
  | .bufSel => 0x30
  | .bufLen => 0x34
  | .bufPtr => 0x38
  | .bufData => 0x3C
  | .kdfIter => 0x40
  | .kdfLen => 0x44
  | .hdrMagic => 0x48
  | .hdrVersion => 0x4C
  | .fieldLen => 0x50
  | .inCount => 0x54
  | .outCount => 0x58

/-- The register at an offset; none at the reserved offsets 0x5C to 0xFC (10_state.md R23, R43). -/
def regAt (offset : Nat) : Option Reg :=
  match offset with
  | 0x00 => some .id
  | 0x04 => some .version
  | 0x08 => some .cmd
  | 0x0C => some .status
  | 0x10 => some .error
  | 0x14 => some .intEn
  | 0x18 => some .intStatus
  | 0x1C => some .inData
  | 0x20 => some .inCtrl
  | 0x24 => some .inLevel
  | 0x28 => some .outData
  | 0x2C => some .outLevel
  | 0x30 => some .bufSel
  | 0x34 => some .bufLen
  | 0x38 => some .bufPtr
  | 0x3C => some .bufData
  | 0x40 => some .kdfIter
  | 0x44 => some .kdfLen
  | 0x48 => some .hdrMagic
  | 0x4C => some .hdrVersion
  | 0x50 => some .fieldLen
  | 0x54 => some .inCount
  | 0x58 => some .outCount
  | _ => none

/-- `MemWrite(off(NAME), 4, v)` (20_memory.md R60, 30_encoding.md R90). -/
def busWrite (r : Reg) (v : Word) : HostTx := { kind := .write, offset := regOffset r, width := 4, data := v }

/-- `MemRead(off(NAME), 4)` (20_memory.md R60, 30_encoding.md R90). -/
def busRead (r : Reg) : HostTx := { kind := .read, offset := regOffset r, width := 4, data := 0 }

/-- The byte lanes of a register value, lane 0 first: little-endian (20_memory.md R66). -/
def busLanes (v : Word) : List Byte :=
  [v.extractLsb' 0 8, v.extractLsb' 8 8, v.extractLsb' 16 8, v.extractLsb' 24 8]

/-- The platform's decode of a bus address into the window at ENGINE_BASE (20_memory.md R60, R69); none outside it. -/
def windowOffset (cfg : Config) (address : Nat) : Option Nat :=
  if cfg.engineBase ≤ address ∧ address < cfg.engineBase + 256 then some (address - cfg.engineBase) else none

/-! ### Reads -/

/-- The value of ID (10_state.md R24). -/
def idWord : Word := 0x53494344

/-- The value of VERSION: FORMAT_VERSION 1 in [7:0] and ENGINE_REV 1 in [15:8] (10_state.md R24). -/
def versionWord : Word := (0 : BitVec 16) ++ (0x01 : Byte) ++ Config.formatVersion

/-- A byte with its VALID bit, bit 8 (10_state.md R33, R38). -/
def validByte (b : Byte) : Word := (1 : BitVec 24) ++ b

/-- An OUT_DATA read pops one byte; an empty FIFO answers 0 and has no side effect (10_state.md R33). -/
def readOutData (s : State) : Word × State :=
  match s.outq with
  | [] => (0, s)
  | b :: rest => (validByte b, { s with outq := rest })

/-- A BUF_DATA read (10_state.md R38): a byte of a readable buffer, within its length, while no command runs. -/
def readBufData (s : State) : Word × State :=
  if s.st ≠ .busy ∧ bufReadable s.selected = true ∧ s.bufPtr < s.bufLen s.selected then
    (validByte (s.bufByte s.selected s.bufPtr), { s with bufPtr := s.bufPtr + 1 })
  else (0, s)

/-- The value an aligned 32-bit read of a register returns, and the state after it. Only OUT_DATA and BUF_DATA have a
side effect (20_memory.md R65). -/
def readReg (r : Reg) (s : State) : Word × State :=
  match r with
  | .id => (idWord, s)
  | .version => (versionWord, s)
  | .cmd => (0, s)
  | .status => (s.statusWord, s)
  | .error => (s.errorWord, s)
  | .intEn => (s.intEn.setWidth 32, s)
  | .intStatus => (s.intStatus.setWidth 32, s)
  | .inData => (0, s)
  | .inCtrl => ((inEndCode s.inEnd).setWidth 32, s)
  | .inLevel => (levelWord s.inq.length s.cfg.inFifoDepth, s)
  | .outData => readOutData s
  | .outLevel => (levelWord s.outq.length s.cfg.outFifoDepth, s)
  | .bufSel => (s.bufSel.setWidth 32, s)
  | .bufLen => ((BitVec.ofNat 16 (s.bufLen s.selected)).setWidth 32, s)
  | .bufPtr => ((BitVec.ofNat 16 s.bufPtr).setWidth 32, s)
  | .bufData => readBufData s
  | .kdfIter => (s.kdfIter, s)
  | .kdfLen => (s.kdfLen.setWidth 32, s)
  | .hdrMagic => (s.hdrMagic.setWidth 32, s)
  | .hdrVersion => (s.hdrVersion.setWidth 32, s)
  | .fieldLen => (s.fieldLen.setWidth 32, s)
  | .inCount => (s.inCount, s)
  | .outCount => (s.outCount, s)

/-! ### Writes -/

/-- A write that needs STATE ≠ BUSY; in BUSY it raises REG_BUSY and stores nothing (10_state.md R35 to R39). -/
def unlessBusy (s : State) (t : State) : State := if s.st = .busy then raise .regBusy s else t

/-- An IN_DATA write (10_state.md R30): the first matching branch is taken, in every state. -/
def writeInData (v : Word) (s : State) : State :=
  if s.inEnd ≠ .stillOpen then raise .inClosed s
  else if s.inq.length = s.cfg.inFifoDepth then raise .inOverflow s
  else { s with inq := s.inq ++ [v.extractLsb' 0 8] }

/-- An IN_CTRL write (10_state.md R31): IN_END moves once, and IOERR goes before EOF. -/
def writeInCtrl (v : Word) (s : State) : State :=
  match s.inEnd with
  | .stillOpen => if v.getLsbD 1 then { s with inEnd := .ioerr } else if v.getLsbD 0 then { s with inEnd := .eof } else s
  | .eof => s
  | .ioerr => s

/-- A BUF_SEL write (10_state.md R35). -/
def writeBufSel (v : Word) (s : State) : State := unlessBusy s { s with bufSel := v.extractLsb' 0 3, bufPtr := 0 }

/-- A BUF_LEN write (10_state.md R36): the whole 32-bit value is compared, and the bytes stay. -/
def writeBufLen (v : Word) (s : State) : State :=
  unlessBusy s
    (if v.toNat > s.selectedCap then raise .bufRange s
     else s.setBuf s.selected { s.bufs.get s.selected with len := v.toNat })

/-- A BUF_PTR write (10_state.md R37). -/
def writeBufPtr (v : Word) (s : State) : State :=
  unlessBusy s (if v.toNat > s.selectedCap then raise .bufRange s else { s with bufPtr := v.toNat })

/-- A BUF_DATA write (10_state.md R38). -/
def writeBufData (v : Word) (s : State) : State :=
  unlessBusy s
    (if s.bufPtr ≥ s.selectedCap then raise .bufRange s
     else
      { s.setBuf s.selected ((s.bufs.get s.selected).storeHost s.bufPtr (v.extractLsb' 0 8)) with
        bufPtr := s.bufPtr + 1 })

/-- A KDF_ITER write (10_state.md R39). -/
def writeKdfIter (v : Word) (s : State) : State := unlessBusy s { s with kdfIter := v }

/-- A KDF_LEN write (10_state.md R39). -/
def writeKdfLen (v : Word) (s : State) : State := unlessBusy s { s with kdfLen := v.extractLsb' 0 8 }

/-- An INT_EN write, in every state (10_state.md R28). -/
def writeIntEn (v : Word) (s : State) : State := { s with intEn := v.extractLsb' 0 4 }

/-- The state after an aligned 32-bit write of a register other than CMD; a write to a read-only register is ignored
(10_state.md R23). -/
def writeReg (r : Reg) (v : Word) (s : State) : State :=
  match r with
  | .intEn => writeIntEn v s
  | .inData => writeInData v s
  | .inCtrl => writeInCtrl v s
  | .bufSel => writeBufSel v s
  | .bufLen => writeBufLen v s
  | .bufPtr => writeBufPtr v s
  | .bufData => writeBufData v s
  | .kdfIter => writeKdfIter v s
  | .kdfLen => writeKdfLen v s
  | .id => s
  | .version => s
  -- a CMD write is `exec`, or `illegalWord`
  | .cmd => s
  | .status => s
  | .error => s
  | .intStatus => s
  | .inLevel => s
  | .outData => s
  | .outLevel => s
  | .hdrMagic => s
  | .hdrVersion => s
  | .fieldLen => s
  | .inCount => s
  | .outCount => s

/-! ### Transactions -/

/-- The state after a read answered `v`. -/
def answerRead (r : Word × State) : State := { r.2 with busData := r.1 }

/-- An access that is not an aligned 32-bit access: BAD_ACCESS; a read returns 0 without its side effect
(20_memory.md R64). -/
def badAccess (tx : HostTx) (s : State) : State :=
  match tx.kind with
  | .read => { raise .badAccess s with busData := 0 }
  | .write => raise .badAccess s

/-- An aligned 32-bit access inside the window; a reserved offset reads 0 and ignores writes (10_state.md R43). -/
def alignedAccess (tx : HostTx) (s : State) : State :=
  match tx.kind, regAt tx.offset with
  | .read, some r => answerRead (readReg r s)
  | .read, none => answerRead (0, s)
  | .write, some r => writeReg r tx.data s
  | .write, none => s

/-- A host transaction other than a legal CMD write (20_memory.md R60, R64). An offset outside the window stops the
machine (log 12). -/
def busAccess (tx : HostTx) (s : State) : Host.Outcome State Fault Refusal :=
  if !tx.inWindow then .fault .outsideWindow
  else if !tx.aligned32 then .next (badAccess tx s)
  else .next (alignedAccess tx s)

/-- The command word that a transaction carries: an aligned 32-bit write to CMD (10_state.md R25). -/
def cmdWordOf (tx : HostTx) : Option Word :=
  if tx.kind = .write ∧ tx.offset = regOffset .cmd ∧ tx.width = 4 then some tx.data else none

/-! ### Fetch -/

/-- What the head of the schedule asks of the machine. -/
inductive Fetched where
  /-- The engine runs: an engine step, or nothing is scheduled any more. -/
  | engine
  /-- The platform resets the engine. -/
  | reset
  /-- A CMD write with a legal word. -/
  | command (i : Instr)
  /-- A CMD write with an illegal word. -/
  | illegal (e : DecodeError)
  /-- Any other host transaction. -/
  | access (tx : HostTx)
deriving DecidableEq, Repr

/-- Reading the head of the schedule. The command word is read once, in its CMD write (20_memory.md R74). -/
def fetch (sched : List Event) : Fetched :=
  match sched with
  | [] => .engine
  | .engine :: _ => .engine
  | .rst :: _ => .reset
  | .host tx :: _ =>
    match cmdWordOf tx with
    | none => .access tx
    | some w =>
      match decode w with
      | .ok i => .command i
      | .error e => .illegal e

/-- The state whose schedule has lost its head. -/
def consumeEvent (s : State) : State := { s with sched := s.sched.tail }

/-- The schedule that begins with the CMD write of a command word. -/
def withCommand (w : Word) (sched : List Event) : List Event := .host (busWrite .cmd w) :: sched

end Sys2Proof.Machine
end

