-- ==== Sys2Proof/Machine/Dispatch.lean ====
section
/-!
DEFINITION. The meaning of each instruction: the CMD write transaction of its word (30_encoding.md R83, R84).
-/

namespace Sys2Proof.Machine

def exec (i : Instr) (s : State) : Host.Outcome State Fault Refusal :=
  match i with
  | .readBytefield => Sys2Proof.Machine.execReadBytefield s
  | .parseHeader => Sys2Proof.Machine.execParseHeader s
  | .deriveKey => Sys2Proof.Machine.execDeriveKey s
  | .aesCbcDecrypt => Sys2Proof.Machine.execAesCbcDecrypt s
  | .unwrap => Sys2Proof.Machine.execUnwrap s
  | .openPlaintext => Sys2Proof.Machine.execOpenPlaintext s
  | .inflate => Sys2Proof.Machine.execInflate s
  | .decrypt => Sys2Proof.Machine.execDecrypt s
  | .close => Sys2Proof.Machine.execClose s

end Sys2Proof.Machine
end

