-- ==== Sys2Proof/Machine/Step.lean ====
section
/-!
DEFINITION. One step of the machine: the next event of the schedule (00_scope.md R6, 20_memory.md R71).
-/

namespace Sys2Proof.Machine

/-- One step. The event at the head of the schedule happens, whole; with nothing scheduled, the engine runs alone
(log 1). -/
def step (s : State) : Host.Outcome State Fault Refusal :=
  match fetch s.sched with
  | .engine => .next (engineStep (consumeEvent s))
  | .reset => .next (hardReset (consumeEvent s))
  | .command i => exec i (consumeEvent s)
  | .illegal e => .next (illegalWord e (consumeEvent s))
  | .access tx => busAccess tx (consumeEvent s)

/-- The state whose next event is the CMD write of the table word `w`: where the engine takes its next instruction from
(20_memory.md R74; log 2). -/
def State.withFetchWord (s : State) (nbits w : Nat) : State :=
  { s with sched := withCommand (tableWord nbits w) s.sched }

end Sys2Proof.Machine
end

