-- ==== Sys2Proof/Laws/PerInstr.lean ====
section
/-!
SUPPORT. What is said of every instruction as syntax: its command word is legal (30_encoding.md R80 to R82).
-/

namespace Sys2Proof.Laws.EncodeWellFormed

/-- The encoder writes a legal word. -/
def Statement (i : Instr) : Prop := wordWellFormed (encode i) = true

theorem readBytefield : Statement .readBytefield := by unfold Statement; decide
theorem parseHeader : Statement .parseHeader := by unfold Statement; decide
theorem deriveKey : Statement .deriveKey := by unfold Statement; decide
theorem aesCbcDecrypt : Statement .aesCbcDecrypt := by unfold Statement; decide
theorem unwrap : Statement .unwrap := by unfold Statement; decide
theorem openPlaintext : Statement .openPlaintext := by unfold Statement; decide
theorem inflate : Statement .inflate := by unfold Statement; decide
theorem decrypt : Statement .decrypt := by unfold Statement; decide
theorem close : Statement .close := by unfold Statement; decide

end Sys2Proof.Laws.EncodeWellFormed
end

