-- ==== Sys2Proof/Safety.lean ====
section
/-!
DEFINITION. The terms in which claims speak of good states and of runs: the state invariant, schedules, what a host
cannot see, the stored zlib stream, canonical codes, and the unread bits.
-/

namespace Sys2Proof.Machine

/-! ### The state invariant -/

/-- No context value is left: 10_state.md R49, with K empty and no hold. -/
abbrev ContextsReleased (s : State) : Prop :=
  s.k = .empty ∧ s.hold = .none ∧ s.u = .zero ∧ s.c = .zero ∧ s.sb = .zero ∧ s.sbpos = 16 ∧ s.z = .zero

/-- A buffer of capacity `cap`: canonical bytes, all below `cap`, and a length of at most `cap` (10_state.md R40). -/
abbrev BufferOk (cap : Nat) (b : Buffer) : Prop := b.bytes.wf = true ∧ (∀ c ∈ b.bytes, c.1 < cap) ∧ b.len ≤ cap

/-- Every buffer is within its capacity (10_state.md R40). -/
abbrev BuffersOk (s : State) : Prop := ∀ id : BufId, BufferOk (bufCap s.cfg id) (s.bufs.get id)

/-- The four buffers that PARSE_HEADER fills (40_bytefield_header.md R103). -/
def isHeaderBuffer : BufId → Bool
  | .hSalt => true
  | .hIv => true
  | .hSsalt => true
  | .hSecrets => true
  | .secret => false
  | .salt => false
  | .key => false
  | .iv => false

/-- The locals of a program point of the header body: a header buffer, and a place within a Byte-Field. -/
def HdrPointOk : HdrPoint → Prop
  | .fieldLen f => isHeaderBuffer f = true
  | .fieldData f i n => isHeaderBuffer f = true ∧ i ≤ n ∧ n ≤ 255
  | .magic0 => True
  | .magic1 _ => True
  | .version _ _ => True
  | .fields _ => True

/-- The continuation of a running command. CLOSE never starts, so it is never the first line to come. -/
def KontOk : Kont → Prop
  | .empty => False
  | .first i => i ≠ .close
  | .header _ p => HdrPointOk p
  | .fieldPull _ => True
  | .fieldPush _ _ => True
  | .keyPush _ => True
  | .cbcPull => True
  | .cbcPush _ => True
  | .inflate _ _ _ => True

/-- Whether the decoder runs: the only phase in which SB and Z are in use (10_state.md R47, R48). -/
def isInflating : Kont → Bool
  | .inflate _ _ _ => true
  | .empty => false
  | .first _ => false
  | .fieldPull _ => false
  | .fieldPush _ _ => false
  | .header _ _ => false
  | .keyPush _ => false
  | .cbcPull => false
  | .cbcPush _ => false

/-- A byte in hand is one that the decoder asked for: a point that asks for bits has too few of them
(45_inflate.md R231). -/
def InHandOk (z : InflateCtx) : Kont → Prop
  | .inflate _ p (some _) => ∀ n, zRequest z p = .bits n → z.bitcnt < n
  | .inflate _ _ none => True
  | .empty => True
  | .first _ => True
  | .fieldPull _ => True
  | .fieldPush _ _ => True
  | .header _ _ => True
  | .keyPush _ => True
  | .cbcPull => True
  | .cbcPush _ => True

/-- The sizes of the inflate context (10_state.md R48, 45_inflate.md R231, R233). -/
abbrev InflateOk (z : InflateCtx) : Prop :=
  z.hist.length = min z.total Config.window ∧ z.s1 < 65521 ∧ z.s2 < 65521 ∧ z.bitcnt ≤ 32

/-- The invariant of the machine: what 10_state.md R21, R26, R27, R37, R40 and R44 to R49 say of every state. -/
structure State.Inv (s : State) : Prop where
  /-- Outside BUSY no context is left and nothing holds (R21, R26, R49). -/
  released : s.st ≠ .busy → ContextsReleased s
  /-- In BUSY there is a continuation (R26). -/
  running  : s.st = .busy → KontOk s.k
  /-- An error is recorded exactly in ERROR (R27). -/
  errIff   : s.err ≠ none ↔ s.st = .error
  /-- INQ fits (R44). -/
  inqFits  : s.inq.length ≤ s.cfg.inFifoDepth
  /-- OUTQ fits (R44). -/
  outqFits : s.outq.length ≤ s.cfg.outFifoDepth
  /-- The buffers fit (R40). -/
  bufsOk   : BuffersOk s
  /-- BUF_PTR is at most CAP[SEL] (R37). -/
  ptrFits  : s.bufPtr ≤ s.selectedCap
  /-- U exists only inside UNWRAP, whose work is one step (R45). -/
  uZero    : s.u = .zero
  /-- SBPOS is 0 to 16 (R47). -/
  sbposFits : s.sbpos ≤ 16
  /-- At most 15 bytes of a block are received (R46). -/
  blkFits  : s.c.blk.length < Config.blockBytes
  /-- In IDLE no command has run: OP is 0 (R26). -/
  idleOp   : s.st = .idle → s.op = 0
  /-- OP is 0 or the opcode of a command that starts (R26). -/
  opLegal  : s.op = 0 ∨ ∃ i : Instr, i ≠ .close ∧ s.op = opcodeOf i
  /-- SB and Z are in use only while the decoder runs (R47, R48). -/
  idleZ    : isInflating s.k = false → s.sb = .zero ∧ s.sbpos = 16 ∧ s.z = .zero
  /-- Z is within its sizes (R48). -/
  zFits    : InflateOk s.z
  /-- A byte in hand was asked for (45_inflate.md R231). -/
  inHand   : InHandOk s.z s.k

/-! ### Schedules -/

/-- The same state with one event placed before its schedule: the event that the next step runs. -/
def State.withEvent (s : State) (e : Event) : State := { s with sched := e :: s.sched }

/-- `n` engine steps, before each of which the host has emptied OUTQ. -/
def drainedRun : Nat → State → State
  | 0, s => s
  | n + 1, s => drainedRun n (engineStep { s with outq := [] })

/-- The bytes pushed to OUTQ in `n` steps, in order: those that the engine steps among them append. -/
def pushedBytes : Nat → State → List Byte
  | 0, _ => []
  | n + 1, s =>
    match step s with
    | .next t => (if fetch s.sched = .engine then t.outq.drop s.outq.length else []) ++ pushedBytes n t
    | .fault _ => []
    | .refused _ => []

/-- An event of a host that only drains OUTQ: an engine step, or an OUT_DATA read. -/
def isDraining : Event → Bool
  | .engine => true
  | .host tx => tx == busRead .outData
  | .rst => false

/-- An event of a host that feeds INQ and drains OUTQ: a draining event, or an IN_DATA write. -/
def isFeeding : Event → Bool
  | .engine => true
  | .host tx => tx == busRead .outData || tx == busWrite .inData tx.data
  | .rst => false

/-- The bytes that an event offers to INQ. -/
def fedBytes : Event → List Byte
  | .engine => []
  | .host tx => if tx == busWrite .inData tx.data then [tx.data.extractLsb' 0 8] else []
  | .rst => []

/-! ### What a host cannot see -/

/-- Two buffers files that agree but for the bytes of SECRET, KEY and IV (10_state.md R40). -/
abbrev SameReadable (a b : Buffers) : Prop :=
  a.salt = b.salt ∧ a.hSalt = b.hSalt ∧ a.hIv = b.hIv ∧ a.hSsalt = b.hSsalt ∧ a.hSecrets = b.hSecrets ∧
    a.secret.len = b.secret.len ∧ a.key.len = b.key.len ∧ a.iv.len = b.iv.len

/-- Two states that agree on everything but the bytes of SECRET, KEY and IV, the continuation, and the contexts U, C, SB
and Z: the key material and working state that 60_exceptions.md R313 keeps from the host. -/
def SameVisible (s t : State) : Prop :=
  SameReadable s.bufs t.bufs ∧
  { s with bufs := .zero, k := .empty, u := .zero, c := .zero, sb := .zero, sbpos := 16, z := .zero } =
  { t with bufs := .zero, k := .empty, u := .zero, c := .zero, sb := .zero, sbpos := 16, z := .zero }

/-! ### Streams -/

/-- The Adler-32 sums (S1, S2) after more bytes (45_inflate.md R250). -/
def adlerSums : Nat × Nat → List Byte → Nat × Nat
  | p, [] => p
  | (s1, s2), b :: r => adlerSums ((s1 + b.toNat) % 65521, (s2 + (s1 + b.toNat) % 65521) % 65521) r

/-- The Adler-32 value of a byte sequence (45_inflate.md R250). -/
def adler32 (data : List Byte) : Nat := (adlerSums (1, 0) data).2 * 65536 + (adlerSums (1, 0) data).1

/-- The zlib stream that holds at most 65535 bytes as one final stored block: CMF 78, FLG 01, BFINAL 1 with BTYPE 0, LEN,
NLEN, the bytes, and the trailer (45_inflate.md R232, R234, R250). -/
def zlibStored (data : List Byte) : List Byte :=
  [0x78, 0x01, 0x01, BitVec.ofNat 8 data.length, BitVec.ofNat 8 (data.length / 256),
    BitVec.ofNat 8 (65535 - data.length), BitVec.ofNat 8 ((65535 - data.length) / 256)] ++
  data ++ be32 (BitVec.ofNat 32 (adler32 data))

/-- The bytes that a copy of `n` bytes from `distance` back appends, the newest byte of the history first
(45_inflate.md R241): it runs one byte at a time, so it may repeat bytes just written. -/
def lzCopy : Nat → Nat → List Byte → List Byte
  | 0, _, _ => []
  | n + 1, distance, hist => hist.getD (distance - 1) 0 :: lzCopy n distance (hist.getD (distance - 1) 0 :: hist)

/-! ### Canonical codes -/

/-- The code value of the first symbol of length `l` (45_inflate.md R236): shorter codes come before longer ones. -/
def firstCode (lens : List Nat) : Nat → Nat
  | 0 => 0
  | l + 1 => 2 * (firstCode lens l + if l = 0 then 0 else lens.count l)

/-- The code value of symbol `s`: symbols of one length take consecutive values in increasing symbol order
(45_inflate.md R236). -/
def canonicalCode (lens : List Nat) (s : Nat) : Nat :=
  firstCode lens (lens.getD s 0) + (lens.take s).count (lens.getD s 0)

/-- The `n` low bits of a code, the most significant first: the order in which a code is sent (45_inflate.md R231). -/
def codeBits : Nat → Nat → List Nat
  | 0, _ => []
  | n + 1, code => code / 2 ^ n % 2 :: codeBits n code

/-- `decode` over a list of bits (45_inflate.md R237). -/
def decodeBits (t : HTable) : SymDec → List Nat → SymRes
  | d, [] => .more d
  | d, b :: r =>
    match symBit t d b with
    | .more d' => decodeBits t d' r
    | .symbol n => if r = [] then .symbol n else .bad
    | .bad => .bad

/-- The `n` low unread bits, the next bit first (45_inflate.md R231). -/
def unreadBits (z : InflateCtx) (n : Nat) : List Nat := (List.range n).map fun i => z.bitbuf.toNat / 2 ^ i % 2

/-- The unread bits begin with the code, of `l` bits, that symbol `x` has in a code whose table is `t`
(45_inflate.md R236, R237). -/
def CodeIsNext (z : InflateCtx) (t : HTable) (x l : Nat) : Prop :=
  ∃ (lens : List Nat) (left : Nat), (∀ k ∈ lens, k ≤ 15) ∧ buildCode lens = some (left, t) ∧ x < lens.length ∧
    lens.getD x 0 = l ∧ 0 < l ∧ l ≤ z.bitcnt ∧ unreadBits z l = codeBits l (canonicalCode lens x)

/-- Fifteen bits are unread, and they begin with the code of no symbol in a code whose table is `t` (45_inflate.md R236,
R237). -/
def NoCodeIsNext (z : InflateCtx) (t : HTable) : Prop :=
  ∃ (lens : List Nat) (left : Nat), (∀ k ∈ lens, k ≤ 15) ∧ buildCode lens = some (left, t) ∧ 15 ≤ z.bitcnt ∧
    ∀ x : Nat, x < lens.length → 0 < lens.getD x 0 →
      unreadBits z (lens.getD x 0) ≠ codeBits (lens.getD x 0) (canonicalCode lens x)

/-- The share of the code space that some code lengths take, in units of a 15-bit code. A code is over-subscribed if it
takes more than 2^15, complete if it takes 2^15 (45_inflate.md R236). -/
def codeSpace (lens : List Nat) : Nat := (lens.map fun l => if l = 0 then 0 else 2 ^ (15 - l)).sum

/-- A literal/length or distance code that a dynamic block may have: complete, or with at most one code, of length 1
(45_inflate.md R239). -/
abbrev CodeAccepted (lens : List Nat) : Prop :=
  codeSpace lens = 2 ^ 15 ∨ codeSpace lens < 2 ^ 15 ∧ ∀ l ∈ lens, l ≤ 1

/-- The value of the next `n` unread bits behind `l` others, the first bit least significant (45_inflate.md R231). -/
def bitsBehind (z : InflateCtx) (l n : Nat) : Nat := z.bitbuf.toNat / 2 ^ l % 2 ^ n

/-! ### Acceptance -/

/-- A state in which a command starts (30_encoding.md R83). -/
abbrev Ready (s : State) : Prop := s.st = .idle ∨ s.st = .done

end Sys2Proof.Machine
end

