-- ==== Sys2Proof/Laws/State.lean ====
section
/-!
SUPPORT. One lemma per field per update of the state, so that no later proof unfolds a record update.
-/

namespace Sys2Proof.Machine

/-! ### `releaseContexts` (10_state.md R49) -/

@[simp] theorem releaseContexts_st (s : State) : (releaseContexts s).st = s.st := rfl
@[simp] theorem releaseContexts_op (s : State) : (releaseContexts s).op = s.op := rfl
@[simp] theorem releaseContexts_err (s : State) : (releaseContexts s).err = s.err := rfl
@[simp] theorem releaseContexts_intEn (s : State) : (releaseContexts s).intEn = s.intEn := rfl
@[simp] theorem releaseContexts_inq (s : State) : (releaseContexts s).inq = s.inq := rfl
@[simp] theorem releaseContexts_inEnd (s : State) : (releaseContexts s).inEnd = s.inEnd := rfl
@[simp] theorem releaseContexts_outq (s : State) : (releaseContexts s).outq = s.outq := rfl
@[simp] theorem releaseContexts_bufs (s : State) : (releaseContexts s).bufs = s.bufs := rfl
@[simp] theorem releaseContexts_bufSel (s : State) : (releaseContexts s).bufSel = s.bufSel := rfl
@[simp] theorem releaseContexts_bufPtr (s : State) : (releaseContexts s).bufPtr = s.bufPtr := rfl
@[simp] theorem releaseContexts_kdfIter (s : State) : (releaseContexts s).kdfIter = s.kdfIter := rfl
@[simp] theorem releaseContexts_kdfLen (s : State) : (releaseContexts s).kdfLen = s.kdfLen := rfl
@[simp] theorem releaseContexts_hdrMagic (s : State) : (releaseContexts s).hdrMagic = s.hdrMagic := rfl
@[simp] theorem releaseContexts_hdrVersion (s : State) : (releaseContexts s).hdrVersion = s.hdrVersion := rfl
@[simp] theorem releaseContexts_fieldLen (s : State) : (releaseContexts s).fieldLen = s.fieldLen := rfl
@[simp] theorem releaseContexts_inCount (s : State) : (releaseContexts s).inCount = s.inCount := rfl
@[simp] theorem releaseContexts_outCount (s : State) : (releaseContexts s).outCount = s.outCount := rfl
@[simp] theorem releaseContexts_hold (s : State) : (releaseContexts s).hold = .none := rfl
@[simp] theorem releaseContexts_k (s : State) : (releaseContexts s).k = .empty := rfl
@[simp] theorem releaseContexts_u (s : State) : (releaseContexts s).u = .zero := rfl
@[simp] theorem releaseContexts_c (s : State) : (releaseContexts s).c = .zero := rfl
@[simp] theorem releaseContexts_sb (s : State) : (releaseContexts s).sb = .zero := rfl
@[simp] theorem releaseContexts_sbpos (s : State) : (releaseContexts s).sbpos = 16 := rfl
@[simp] theorem releaseContexts_z (s : State) : (releaseContexts s).z = .zero := rfl
@[simp] theorem releaseContexts_cfg (s : State) : (releaseContexts s).cfg = s.cfg := rfl
@[simp] theorem releaseContexts_sched (s : State) : (releaseContexts s).sched = s.sched := rfl
@[simp] theorem releaseContexts_busData (s : State) : (releaseContexts s).busData = s.busData := rfl

/-! ### `finish` (60_exceptions.md R301) -/

@[simp] theorem finish_st (s : State) : (finish s).st = .done := rfl
@[simp] theorem finish_op (s : State) : (finish s).op = s.op := rfl
@[simp] theorem finish_err (s : State) : (finish s).err = s.err := rfl
@[simp] theorem finish_intEn (s : State) : (finish s).intEn = s.intEn := rfl
@[simp] theorem finish_inq (s : State) : (finish s).inq = s.inq := rfl
@[simp] theorem finish_inEnd (s : State) : (finish s).inEnd = s.inEnd := rfl
@[simp] theorem finish_outq (s : State) : (finish s).outq = s.outq := rfl
@[simp] theorem finish_bufs (s : State) : (finish s).bufs = s.bufs := rfl
@[simp] theorem finish_bufSel (s : State) : (finish s).bufSel = s.bufSel := rfl
@[simp] theorem finish_bufPtr (s : State) : (finish s).bufPtr = s.bufPtr := rfl
@[simp] theorem finish_kdfIter (s : State) : (finish s).kdfIter = s.kdfIter := rfl
@[simp] theorem finish_kdfLen (s : State) : (finish s).kdfLen = s.kdfLen := rfl
@[simp] theorem finish_hdrMagic (s : State) : (finish s).hdrMagic = s.hdrMagic := rfl
@[simp] theorem finish_hdrVersion (s : State) : (finish s).hdrVersion = s.hdrVersion := rfl
@[simp] theorem finish_fieldLen (s : State) : (finish s).fieldLen = s.fieldLen := rfl
@[simp] theorem finish_inCount (s : State) : (finish s).inCount = s.inCount := rfl
@[simp] theorem finish_outCount (s : State) : (finish s).outCount = s.outCount := rfl
@[simp] theorem finish_hold (s : State) : (finish s).hold = .none := rfl
@[simp] theorem finish_k (s : State) : (finish s).k = .empty := rfl
@[simp] theorem finish_u (s : State) : (finish s).u = .zero := rfl
@[simp] theorem finish_c (s : State) : (finish s).c = .zero := rfl
@[simp] theorem finish_sb (s : State) : (finish s).sb = .zero := rfl
@[simp] theorem finish_sbpos (s : State) : (finish s).sbpos = 16 := rfl
@[simp] theorem finish_z (s : State) : (finish s).z = .zero := rfl
@[simp] theorem finish_cfg (s : State) : (finish s).cfg = s.cfg := rfl
@[simp] theorem finish_sched (s : State) : (finish s).sched = s.sched := rfl
@[simp] theorem finish_busData (s : State) : (finish s).busData = s.busData := rfl

/-! ### `release` (44_payload_stream.md R220) -/

@[simp] theorem release_st (s : State) : (release s).st = .idle := rfl
@[simp] theorem release_op (s : State) : (release s).op = 0 := rfl
@[simp] theorem release_err (s : State) : (release s).err = none := rfl
@[simp] theorem release_intEn (s : State) : (release s).intEn = s.intEn := rfl
@[simp] theorem release_inq (s : State) : (release s).inq = [] := rfl
@[simp] theorem release_inEnd (s : State) : (release s).inEnd = .stillOpen := rfl
@[simp] theorem release_outq (s : State) : (release s).outq = [] := rfl
@[simp] theorem release_bufs (s : State) : (release s).bufs = .zero := rfl
@[simp] theorem release_bufSel (s : State) : (release s).bufSel = 0 := rfl
@[simp] theorem release_bufPtr (s : State) : (release s).bufPtr = 0 := rfl
@[simp] theorem release_kdfIter (s : State) : (release s).kdfIter = 0 := rfl
@[simp] theorem release_kdfLen (s : State) : (release s).kdfLen = 0 := rfl
@[simp] theorem release_hdrMagic (s : State) : (release s).hdrMagic = 0 := rfl
@[simp] theorem release_hdrVersion (s : State) : (release s).hdrVersion = 0 := rfl
@[simp] theorem release_fieldLen (s : State) : (release s).fieldLen = 0 := rfl
@[simp] theorem release_inCount (s : State) : (release s).inCount = 0 := rfl
@[simp] theorem release_outCount (s : State) : (release s).outCount = 0 := rfl
@[simp] theorem release_hold (s : State) : (release s).hold = .none := rfl
@[simp] theorem release_k (s : State) : (release s).k = .empty := rfl
@[simp] theorem release_u (s : State) : (release s).u = .zero := rfl
@[simp] theorem release_c (s : State) : (release s).c = .zero := rfl
@[simp] theorem release_sb (s : State) : (release s).sb = .zero := rfl
@[simp] theorem release_sbpos (s : State) : (release s).sbpos = 16 := rfl
@[simp] theorem release_z (s : State) : (release s).z = .zero := rfl
@[simp] theorem release_cfg (s : State) : (release s).cfg = s.cfg := rfl
@[simp] theorem release_sched (s : State) : (release s).sched = s.sched := rfl
@[simp] theorem release_busData (s : State) : (release s).busData = s.busData := rfl

/-! ### `startCommand` (30_encoding.md R84) -/

@[simp] theorem startCommand_st (i : Instr) (s : State) : (startCommand i s).st = .busy := rfl
@[simp] theorem startCommand_op (i : Instr) (s : State) : (startCommand i s).op = opcodeOf i := rfl
@[simp] theorem startCommand_err (i : Instr) (s : State) : (startCommand i s).err = s.err := rfl
@[simp] theorem startCommand_intEn (i : Instr) (s : State) : (startCommand i s).intEn = s.intEn := rfl
@[simp] theorem startCommand_inq (i : Instr) (s : State) : (startCommand i s).inq = s.inq := rfl
@[simp] theorem startCommand_inEnd (i : Instr) (s : State) : (startCommand i s).inEnd = s.inEnd := rfl
@[simp] theorem startCommand_outq (i : Instr) (s : State) : (startCommand i s).outq = s.outq := rfl
@[simp] theorem startCommand_bufs (i : Instr) (s : State) : (startCommand i s).bufs = s.bufs := rfl
@[simp] theorem startCommand_bufSel (i : Instr) (s : State) : (startCommand i s).bufSel = s.bufSel := rfl
@[simp] theorem startCommand_bufPtr (i : Instr) (s : State) : (startCommand i s).bufPtr = s.bufPtr := rfl
@[simp] theorem startCommand_kdfIter (i : Instr) (s : State) : (startCommand i s).kdfIter = s.kdfIter := rfl
@[simp] theorem startCommand_kdfLen (i : Instr) (s : State) : (startCommand i s).kdfLen = s.kdfLen := rfl
@[simp] theorem startCommand_hdrMagic (i : Instr) (s : State) : (startCommand i s).hdrMagic = s.hdrMagic := rfl
@[simp] theorem startCommand_hdrVersion (i : Instr) (s : State) : (startCommand i s).hdrVersion = s.hdrVersion := rfl
@[simp] theorem startCommand_fieldLen (i : Instr) (s : State) : (startCommand i s).fieldLen = s.fieldLen := rfl
@[simp] theorem startCommand_inCount (i : Instr) (s : State) : (startCommand i s).inCount = s.inCount := rfl
@[simp] theorem startCommand_outCount (i : Instr) (s : State) : (startCommand i s).outCount = s.outCount := rfl
@[simp] theorem startCommand_hold (i : Instr) (s : State) : (startCommand i s).hold = .none := rfl
@[simp] theorem startCommand_k (i : Instr) (s : State) : (startCommand i s).k = .first i := rfl
@[simp] theorem startCommand_u (i : Instr) (s : State) : (startCommand i s).u = s.u := rfl
@[simp] theorem startCommand_c (i : Instr) (s : State) : (startCommand i s).c = s.c := rfl
@[simp] theorem startCommand_sb (i : Instr) (s : State) : (startCommand i s).sb = s.sb := rfl
@[simp] theorem startCommand_sbpos (i : Instr) (s : State) : (startCommand i s).sbpos = s.sbpos := rfl
@[simp] theorem startCommand_z (i : Instr) (s : State) : (startCommand i s).z = s.z := rfl
@[simp] theorem startCommand_cfg (i : Instr) (s : State) : (startCommand i s).cfg = s.cfg := rfl
@[simp] theorem startCommand_sched (i : Instr) (s : State) : (startCommand i s).sched = s.sched := rfl
@[simp] theorem startCommand_busData (i : Instr) (s : State) : (startCommand i s).busData = s.busData := rfl

/-! ### `hardReset` (70_reset_and_hazards.md R331) -/

@[simp] theorem hardReset_st (s : State) : (hardReset s).st = .idle := rfl
@[simp] theorem hardReset_op (s : State) : (hardReset s).op = 0 := rfl
@[simp] theorem hardReset_err (s : State) : (hardReset s).err = none := rfl
@[simp] theorem hardReset_intEn (s : State) : (hardReset s).intEn = 0 := rfl
@[simp] theorem hardReset_inq (s : State) : (hardReset s).inq = [] := rfl
@[simp] theorem hardReset_inEnd (s : State) : (hardReset s).inEnd = .stillOpen := rfl
@[simp] theorem hardReset_outq (s : State) : (hardReset s).outq = [] := rfl
@[simp] theorem hardReset_bufs (s : State) : (hardReset s).bufs = .zero := rfl
@[simp] theorem hardReset_bufSel (s : State) : (hardReset s).bufSel = 0 := rfl
@[simp] theorem hardReset_bufPtr (s : State) : (hardReset s).bufPtr = 0 := rfl
@[simp] theorem hardReset_kdfIter (s : State) : (hardReset s).kdfIter = 0 := rfl
@[simp] theorem hardReset_kdfLen (s : State) : (hardReset s).kdfLen = 0 := rfl
@[simp] theorem hardReset_hdrMagic (s : State) : (hardReset s).hdrMagic = 0 := rfl
@[simp] theorem hardReset_hdrVersion (s : State) : (hardReset s).hdrVersion = 0 := rfl
@[simp] theorem hardReset_fieldLen (s : State) : (hardReset s).fieldLen = 0 := rfl
@[simp] theorem hardReset_inCount (s : State) : (hardReset s).inCount = 0 := rfl
@[simp] theorem hardReset_outCount (s : State) : (hardReset s).outCount = 0 := rfl
@[simp] theorem hardReset_hold (s : State) : (hardReset s).hold = .none := rfl
@[simp] theorem hardReset_k (s : State) : (hardReset s).k = .empty := rfl
@[simp] theorem hardReset_u (s : State) : (hardReset s).u = .zero := rfl
@[simp] theorem hardReset_c (s : State) : (hardReset s).c = .zero := rfl
@[simp] theorem hardReset_sb (s : State) : (hardReset s).sb = .zero := rfl
@[simp] theorem hardReset_sbpos (s : State) : (hardReset s).sbpos = 16 := rfl
@[simp] theorem hardReset_z (s : State) : (hardReset s).z = .zero := rfl
@[simp] theorem hardReset_cfg (s : State) : (hardReset s).cfg = s.cfg := rfl
@[simp] theorem hardReset_sched (s : State) : (hardReset s).sched = s.sched := rfl
@[simp] theorem hardReset_busData (s : State) : (hardReset s).busData = s.busData := rfl

/-! ### `clearHeader` (40_bytefield_header.md R103) -/

@[simp] theorem clearHeader_st (s : State) : (clearHeader s).st = s.st := rfl
@[simp] theorem clearHeader_op (s : State) : (clearHeader s).op = s.op := rfl
@[simp] theorem clearHeader_err (s : State) : (clearHeader s).err = s.err := rfl
@[simp] theorem clearHeader_intEn (s : State) : (clearHeader s).intEn = s.intEn := rfl
@[simp] theorem clearHeader_inq (s : State) : (clearHeader s).inq = s.inq := rfl
@[simp] theorem clearHeader_inEnd (s : State) : (clearHeader s).inEnd = s.inEnd := rfl
@[simp] theorem clearHeader_outq (s : State) : (clearHeader s).outq = s.outq := rfl
@[simp] theorem clearHeader_bufs (s : State) : (clearHeader s).bufs = { s.bufs with hSalt := .zero, hIv := .zero, hSsalt := .zero, hSecrets := .zero } := rfl
@[simp] theorem clearHeader_bufSel (s : State) : (clearHeader s).bufSel = s.bufSel := rfl
@[simp] theorem clearHeader_bufPtr (s : State) : (clearHeader s).bufPtr = s.bufPtr := rfl
@[simp] theorem clearHeader_kdfIter (s : State) : (clearHeader s).kdfIter = s.kdfIter := rfl
@[simp] theorem clearHeader_kdfLen (s : State) : (clearHeader s).kdfLen = s.kdfLen := rfl
@[simp] theorem clearHeader_hdrMagic (s : State) : (clearHeader s).hdrMagic = 0 := rfl
@[simp] theorem clearHeader_hdrVersion (s : State) : (clearHeader s).hdrVersion = 0 := rfl
@[simp] theorem clearHeader_fieldLen (s : State) : (clearHeader s).fieldLen = s.fieldLen := rfl
@[simp] theorem clearHeader_inCount (s : State) : (clearHeader s).inCount = s.inCount := rfl
@[simp] theorem clearHeader_outCount (s : State) : (clearHeader s).outCount = s.outCount := rfl
@[simp] theorem clearHeader_hold (s : State) : (clearHeader s).hold = s.hold := rfl
@[simp] theorem clearHeader_k (s : State) : (clearHeader s).k = s.k := rfl
@[simp] theorem clearHeader_u (s : State) : (clearHeader s).u = s.u := rfl
@[simp] theorem clearHeader_c (s : State) : (clearHeader s).c = s.c := rfl
@[simp] theorem clearHeader_sb (s : State) : (clearHeader s).sb = s.sb := rfl
@[simp] theorem clearHeader_sbpos (s : State) : (clearHeader s).sbpos = s.sbpos := rfl
@[simp] theorem clearHeader_z (s : State) : (clearHeader s).z = s.z := rfl
@[simp] theorem clearHeader_cfg (s : State) : (clearHeader s).cfg = s.cfg := rfl
@[simp] theorem clearHeader_sched (s : State) : (clearHeader s).sched = s.sched := rfl
@[simp] theorem clearHeader_busData (s : State) : (clearHeader s).busData = s.busData := rfl

/-! ### `consumeEvent` -/

@[simp] theorem consumeEvent_st (s : State) : (consumeEvent s).st = s.st := rfl
@[simp] theorem consumeEvent_op (s : State) : (consumeEvent s).op = s.op := rfl
@[simp] theorem consumeEvent_err (s : State) : (consumeEvent s).err = s.err := rfl
@[simp] theorem consumeEvent_intEn (s : State) : (consumeEvent s).intEn = s.intEn := rfl
@[simp] theorem consumeEvent_inq (s : State) : (consumeEvent s).inq = s.inq := rfl
@[simp] theorem consumeEvent_inEnd (s : State) : (consumeEvent s).inEnd = s.inEnd := rfl
@[simp] theorem consumeEvent_outq (s : State) : (consumeEvent s).outq = s.outq := rfl
@[simp] theorem consumeEvent_bufs (s : State) : (consumeEvent s).bufs = s.bufs := rfl
@[simp] theorem consumeEvent_bufSel (s : State) : (consumeEvent s).bufSel = s.bufSel := rfl
@[simp] theorem consumeEvent_bufPtr (s : State) : (consumeEvent s).bufPtr = s.bufPtr := rfl
@[simp] theorem consumeEvent_kdfIter (s : State) : (consumeEvent s).kdfIter = s.kdfIter := rfl
@[simp] theorem consumeEvent_kdfLen (s : State) : (consumeEvent s).kdfLen = s.kdfLen := rfl
@[simp] theorem consumeEvent_hdrMagic (s : State) : (consumeEvent s).hdrMagic = s.hdrMagic := rfl
@[simp] theorem consumeEvent_hdrVersion (s : State) : (consumeEvent s).hdrVersion = s.hdrVersion := rfl
@[simp] theorem consumeEvent_fieldLen (s : State) : (consumeEvent s).fieldLen = s.fieldLen := rfl
@[simp] theorem consumeEvent_inCount (s : State) : (consumeEvent s).inCount = s.inCount := rfl
@[simp] theorem consumeEvent_outCount (s : State) : (consumeEvent s).outCount = s.outCount := rfl
@[simp] theorem consumeEvent_hold (s : State) : (consumeEvent s).hold = s.hold := rfl
@[simp] theorem consumeEvent_k (s : State) : (consumeEvent s).k = s.k := rfl
@[simp] theorem consumeEvent_u (s : State) : (consumeEvent s).u = s.u := rfl
@[simp] theorem consumeEvent_c (s : State) : (consumeEvent s).c = s.c := rfl
@[simp] theorem consumeEvent_sb (s : State) : (consumeEvent s).sb = s.sb := rfl
@[simp] theorem consumeEvent_sbpos (s : State) : (consumeEvent s).sbpos = s.sbpos := rfl
@[simp] theorem consumeEvent_z (s : State) : (consumeEvent s).z = s.z := rfl
@[simp] theorem consumeEvent_cfg (s : State) : (consumeEvent s).cfg = s.cfg := rfl
@[simp] theorem consumeEvent_sched (s : State) : (consumeEvent s).sched = s.sched.tail := rfl
@[simp] theorem consumeEvent_busData (s : State) : (consumeEvent s).busData = s.busData := rfl

/-! ### `State.setBuf` -/

@[simp] theorem setBuf_st (s : State) (id : BufId) (x : Buffer) : (s.setBuf id x).st = s.st := rfl
@[simp] theorem setBuf_op (s : State) (id : BufId) (x : Buffer) : (s.setBuf id x).op = s.op := rfl
@[simp] theorem setBuf_err (s : State) (id : BufId) (x : Buffer) : (s.setBuf id x).err = s.err := rfl
@[simp] theorem setBuf_intEn (s : State) (id : BufId) (x : Buffer) : (s.setBuf id x).intEn = s.intEn := rfl
@[simp] theorem setBuf_inq (s : State) (id : BufId) (x : Buffer) : (s.setBuf id x).inq = s.inq := rfl
@[simp] theorem setBuf_inEnd (s : State) (id : BufId) (x : Buffer) : (s.setBuf id x).inEnd = s.inEnd := rfl
@[simp] theorem setBuf_outq (s : State) (id : BufId) (x : Buffer) : (s.setBuf id x).outq = s.outq := rfl
@[simp] theorem setBuf_bufs (s : State) (id : BufId) (x : Buffer) : (s.setBuf id x).bufs = s.bufs.set id x := rfl
@[simp] theorem setBuf_bufSel (s : State) (id : BufId) (x : Buffer) : (s.setBuf id x).bufSel = s.bufSel := rfl
@[simp] theorem setBuf_bufPtr (s : State) (id : BufId) (x : Buffer) : (s.setBuf id x).bufPtr = s.bufPtr := rfl
@[simp] theorem setBuf_kdfIter (s : State) (id : BufId) (x : Buffer) : (s.setBuf id x).kdfIter = s.kdfIter := rfl
@[simp] theorem setBuf_kdfLen (s : State) (id : BufId) (x : Buffer) : (s.setBuf id x).kdfLen = s.kdfLen := rfl
@[simp] theorem setBuf_hdrMagic (s : State) (id : BufId) (x : Buffer) : (s.setBuf id x).hdrMagic = s.hdrMagic := rfl
@[simp] theorem setBuf_hdrVersion (s : State) (id : BufId) (x : Buffer) : (s.setBuf id x).hdrVersion = s.hdrVersion := rfl
@[simp] theorem setBuf_fieldLen (s : State) (id : BufId) (x : Buffer) : (s.setBuf id x).fieldLen = s.fieldLen := rfl
@[simp] theorem setBuf_inCount (s : State) (id : BufId) (x : Buffer) : (s.setBuf id x).inCount = s.inCount := rfl
@[simp] theorem setBuf_outCount (s : State) (id : BufId) (x : Buffer) : (s.setBuf id x).outCount = s.outCount := rfl
@[simp] theorem setBuf_hold (s : State) (id : BufId) (x : Buffer) : (s.setBuf id x).hold = s.hold := rfl
@[simp] theorem setBuf_k (s : State) (id : BufId) (x : Buffer) : (s.setBuf id x).k = s.k := rfl
@[simp] theorem setBuf_u (s : State) (id : BufId) (x : Buffer) : (s.setBuf id x).u = s.u := rfl
@[simp] theorem setBuf_c (s : State) (id : BufId) (x : Buffer) : (s.setBuf id x).c = s.c := rfl
@[simp] theorem setBuf_sb (s : State) (id : BufId) (x : Buffer) : (s.setBuf id x).sb = s.sb := rfl
@[simp] theorem setBuf_sbpos (s : State) (id : BufId) (x : Buffer) : (s.setBuf id x).sbpos = s.sbpos := rfl
@[simp] theorem setBuf_z (s : State) (id : BufId) (x : Buffer) : (s.setBuf id x).z = s.z := rfl
@[simp] theorem setBuf_cfg (s : State) (id : BufId) (x : Buffer) : (s.setBuf id x).cfg = s.cfg := rfl
@[simp] theorem setBuf_sched (s : State) (id : BufId) (x : Buffer) : (s.setBuf id x).sched = s.sched := rfl
@[simp] theorem setBuf_busData (s : State) (id : BufId) (x : Buffer) : (s.setBuf id x).busData = s.busData := rfl

/-! ### `unwrapRelease` (43_unwrap.md R190) -/

@[simp] theorem unwrapRelease_st (s : State) : (unwrapRelease s).st = s.st := rfl
@[simp] theorem unwrapRelease_op (s : State) : (unwrapRelease s).op = s.op := rfl
@[simp] theorem unwrapRelease_err (s : State) : (unwrapRelease s).err = s.err := rfl
@[simp] theorem unwrapRelease_intEn (s : State) : (unwrapRelease s).intEn = s.intEn := rfl
@[simp] theorem unwrapRelease_inq (s : State) : (unwrapRelease s).inq = s.inq := rfl
@[simp] theorem unwrapRelease_inEnd (s : State) : (unwrapRelease s).inEnd = s.inEnd := rfl
@[simp] theorem unwrapRelease_outq (s : State) : (unwrapRelease s).outq = s.outq := rfl
@[simp] theorem unwrapRelease_bufs (s : State) : (unwrapRelease s).bufs = s.bufs := rfl
@[simp] theorem unwrapRelease_bufSel (s : State) : (unwrapRelease s).bufSel = s.bufSel := rfl
@[simp] theorem unwrapRelease_bufPtr (s : State) : (unwrapRelease s).bufPtr = s.bufPtr := rfl
@[simp] theorem unwrapRelease_kdfIter (s : State) : (unwrapRelease s).kdfIter = s.kdfIter := rfl
@[simp] theorem unwrapRelease_kdfLen (s : State) : (unwrapRelease s).kdfLen = s.kdfLen := rfl
@[simp] theorem unwrapRelease_hdrMagic (s : State) : (unwrapRelease s).hdrMagic = s.hdrMagic := rfl
@[simp] theorem unwrapRelease_hdrVersion (s : State) : (unwrapRelease s).hdrVersion = s.hdrVersion := rfl
@[simp] theorem unwrapRelease_fieldLen (s : State) : (unwrapRelease s).fieldLen = s.fieldLen := rfl
@[simp] theorem unwrapRelease_inCount (s : State) : (unwrapRelease s).inCount = s.inCount := rfl
@[simp] theorem unwrapRelease_outCount (s : State) : (unwrapRelease s).outCount = s.outCount := rfl
@[simp] theorem unwrapRelease_hold (s : State) : (unwrapRelease s).hold = s.hold := rfl
@[simp] theorem unwrapRelease_k (s : State) : (unwrapRelease s).k = s.k := rfl
@[simp] theorem unwrapRelease_u (s : State) : (unwrapRelease s).u = .zero := rfl
@[simp] theorem unwrapRelease_c (s : State) : (unwrapRelease s).c = s.c := rfl
@[simp] theorem unwrapRelease_sb (s : State) : (unwrapRelease s).sb = s.sb := rfl
@[simp] theorem unwrapRelease_sbpos (s : State) : (unwrapRelease s).sbpos = s.sbpos := rfl
@[simp] theorem unwrapRelease_z (s : State) : (unwrapRelease s).z = s.z := rfl
@[simp] theorem unwrapRelease_cfg (s : State) : (unwrapRelease s).cfg = s.cfg := rfl
@[simp] theorem unwrapRelease_sched (s : State) : (unwrapRelease s).sched = s.sched := rfl
@[simp] theorem unwrapRelease_busData (s : State) : (unwrapRelease s).busData = s.busData := rfl

/-! ### Fields that error entry keeps (60_exceptions.md R302) -/

@[simp] theorem raise_op (e : Err) (s : State) : (raise e s).op = s.op := by
  unfold raise; split <;> rfl
@[simp] theorem raise_intEn (e : Err) (s : State) : (raise e s).intEn = s.intEn := by
  unfold raise; split <;> rfl
@[simp] theorem raise_inq (e : Err) (s : State) : (raise e s).inq = s.inq := by
  unfold raise; split <;> rfl
@[simp] theorem raise_inEnd (e : Err) (s : State) : (raise e s).inEnd = s.inEnd := by
  unfold raise; split <;> rfl
@[simp] theorem raise_outq (e : Err) (s : State) : (raise e s).outq = s.outq := by
  unfold raise; split <;> rfl
@[simp] theorem raise_bufs (e : Err) (s : State) : (raise e s).bufs = s.bufs := by
  unfold raise; split <;> rfl
@[simp] theorem raise_bufSel (e : Err) (s : State) : (raise e s).bufSel = s.bufSel := by
  unfold raise; split <;> rfl
@[simp] theorem raise_bufPtr (e : Err) (s : State) : (raise e s).bufPtr = s.bufPtr := by
  unfold raise; split <;> rfl
@[simp] theorem raise_kdfIter (e : Err) (s : State) : (raise e s).kdfIter = s.kdfIter := by
  unfold raise; split <;> rfl
@[simp] theorem raise_kdfLen (e : Err) (s : State) : (raise e s).kdfLen = s.kdfLen := by
  unfold raise; split <;> rfl
@[simp] theorem raise_hdrMagic (e : Err) (s : State) : (raise e s).hdrMagic = s.hdrMagic := by
  unfold raise; split <;> rfl
@[simp] theorem raise_hdrVersion (e : Err) (s : State) : (raise e s).hdrVersion = s.hdrVersion := by
  unfold raise; split <;> rfl
@[simp] theorem raise_fieldLen (e : Err) (s : State) : (raise e s).fieldLen = s.fieldLen := by
  unfold raise; split <;> rfl
@[simp] theorem raise_inCount (e : Err) (s : State) : (raise e s).inCount = s.inCount := by
  unfold raise; split <;> rfl
@[simp] theorem raise_outCount (e : Err) (s : State) : (raise e s).outCount = s.outCount := by
  unfold raise; split <;> rfl
@[simp] theorem raise_cfg (e : Err) (s : State) : (raise e s).cfg = s.cfg := by
  unfold raise; split <;> rfl
@[simp] theorem raise_sched (e : Err) (s : State) : (raise e s).sched = s.sched := by
  unfold raise; split <;> rfl
@[simp] theorem raise_busData (e : Err) (s : State) : (raise e s).busData = s.busData := by
  unfold raise; split <;> rfl

end Sys2Proof.Machine
end

