-- ==== Sys2Proof/Laws/Memory.lean ====
section
/-!
SUPPORT. The laws of a buffer's bytes: every operation keeps the canonical form, a read after a write gives the value
written, and a write leaves every other index alone.
-/

namespace Sys2Proof.Machine

@[simp] theorem memory_wf_nil : Memory.wf [] = true := rfl

theorem memory_wf_cons (k : Nat) (v : Byte) (r : Memory) :
    Memory.wf ((k, v) :: r) = true ↔ v ≠ 0#8 ∧ (∀ c ∈ r, k < c.1) ∧ Memory.wf r = true := by
  simp [Memory.wf, and_assoc]

/-- Where the indices of a write's result come from. -/
theorem memory_mem_write {m : Memory} {a : Nat} {v : Byte} {c : Host.Cell} (h : c ∈ m.write a v) :
    c.1 = a ∨ c ∈ m := by
  induction m with
  | nil =>
    unfold Memory.write at h
    split at h <;> simp_all
  | cons x r ih =>
    obtain ⟨k, w⟩ := x
    unfold Memory.write at h
    split at h
    · split at h
      · exact .inr h
      · rcases List.mem_cons.1 h with rfl | h
        · exact .inl rfl
        · exact .inr h
    · split at h
      · split at h
        · exact .inr (List.mem_cons_of_mem _ h)
        · rcases List.mem_cons.1 h with rfl | h
          · exact .inl rfl
          · exact .inr (List.mem_cons_of_mem _ h)
      · rcases List.mem_cons.1 h with rfl | h
        · exact .inr List.mem_cons_self
        · rcases ih h with h | h
          · exact .inl h
          · exact .inr (List.mem_cons_of_mem _ h)

/-- A write keeps the canonical form. -/
theorem memory_write_wf {m : Memory} (h : m.wf = true) (a : Nat) (v : Byte) : (m.write a v).wf = true := by
  induction m with
  | nil =>
    unfold Memory.write
    split
    · rfl
    · simp_all [Memory.wf]
  | cons x r ih =>
    obtain ⟨k, w⟩ := x
    obtain ⟨hw, hk, hr⟩ := (memory_wf_cons k w r).1 h
    unfold Memory.write
    split
    · rename_i hlt
      split
      · exact h
      · rename_i hv
        refine (memory_wf_cons a v _).2 ⟨hv, fun c hc => ?_, h⟩
        rcases List.mem_cons.1 hc with rfl | hc
        · exact hlt
        · exact hlt.trans (hk c hc)
    · rename_i hge
      split
      · rename_i heq
        subst heq
        split
        · exact hr
        · rename_i hv
          exact (memory_wf_cons a v r).2 ⟨hv, hk, hr⟩
      · rename_i hne
        refine (memory_wf_cons k w _).2 ⟨hw, fun c hc => ?_, ih hr⟩
        rcases memory_mem_write hc with hc | hc
        · omega
        · exact hk c hc

/-- An index below every listed one reads 0. -/
theorem memory_read_below {m : Memory} {a : Nat} (h : ∀ c ∈ m, a < c.1) : m.read a = 0#8 := by
  induction m with
  | nil => rfl
  | cons x r ih =>
    obtain ⟨k, w⟩ := x
    have hk := h (k, w) List.mem_cons_self
    have hne : ¬ k = a := by simp at hk; omega
    simp [Memory.read, hne, ih fun c hc => h c (List.mem_cons_of_mem _ hc)]

/-- A read after a write: the value written at its index, the old value at every other. -/
theorem memory_read_write {m : Memory} (h : m.wf = true) (a b : Nat) (v : Byte) :
    (m.write a v).read b = if b = a then v else m.read b := by
  induction m with
  | nil =>
    by_cases hv : v = 0#8
    · simp [Memory.write, Memory.read, hv]
    · by_cases hb : b = a
      · simp [Memory.write, Memory.read, hv, hb]
      · have : ¬ a = b := fun h => hb h.symm
        simp [Memory.write, Memory.read, hv, hb, this]
  | cons x r ih =>
    obtain ⟨k, w⟩ := x
    obtain ⟨hw, hk, hr⟩ := (memory_wf_cons k w r).1 h
    have ih := ih hr
    unfold Memory.write
    by_cases hlt : a < k
    · have hbelow : Memory.read ((k, w) :: r) a = 0#8 := by
        refine memory_read_below fun c hc => ?_
        rcases List.mem_cons.1 hc with rfl | hc
        · exact hlt
        · exact hlt.trans (hk c hc)
      by_cases hv : v = 0#8
      · by_cases hb : b = a
        · subst hb; simp [hlt, hv, hbelow]
        · simp [hlt, hv, hb]
      · by_cases hb : b = a
        · subst hb; simp [hlt, hv, Memory.read]
        · have : ¬ a = b := fun h => hb h.symm
          simp [hlt, hv, hb, Memory.read, this]
    · by_cases heq : a = k
      · subst heq
        have hbelow : Memory.read r a = 0#8 := memory_read_below hk
        by_cases hv : v = 0#8
        · by_cases hb : b = a
          · subst hb; simp [hv, hbelow]
          · have : ¬ a = b := fun h => hb h.symm
            simp [hv, hb, Memory.read, this]
        · by_cases hb : b = a
          · subst hb; simp [hv, Memory.read]
          · have : ¬ a = b := fun h => hb h.symm
            simp [hv, hb, Memory.read, this]
      · by_cases hb : b = k
        · subst hb
          have : ¬ b = a := fun h => heq h.symm
          simp [heq, hlt, Memory.read, this]
        · have hkb : ¬ k = b := fun h => hb h.symm
          simp only [hlt, heq, if_false, Memory.read, hkb, ih]

@[simp] theorem memory_read_write_same {m : Memory} (h : m.wf = true) (a : Nat) (v : Byte) :
    (m.write a v).read a = v := by simp [memory_read_write h]

theorem memory_read_write_other {m : Memory} (h : m.wf = true) {a b : Nat} (hab : b ≠ a) (v : Byte) :
    (m.write a v).read b = m.read b := by simp [memory_read_write h, hab]

/-- The indices of `Memory.ofBytes a bs` lie in a, …, a + len − 1. -/
theorem memory_mem_ofBytes {bs : List Byte} {a : Nat} {c : Host.Cell} (h : c ∈ Memory.ofBytes a bs) :
    a ≤ c.1 ∧ c.1 < a + bs.length := by
  induction bs generalizing a with
  | nil => cases h
  | cons b r ih =>
    unfold Memory.ofBytes at h
    split at h
    · have := ih h
      simp only [List.length_cons]
      omega
    · rcases List.mem_cons.1 h with rfl | h
      · simp
      · have := ih h
        simp only [List.length_cons]
        omega

/-- `Memory.ofBytes` is canonical. -/
theorem memory_ofBytes_wf (a : Nat) (bs : List Byte) : (Memory.ofBytes a bs).wf = true := by
  induction bs generalizing a with
  | nil => rfl
  | cons b r ih =>
    unfold Memory.ofBytes
    split
    · exact ih _
    · rename_i hb
      refine (memory_wf_cons a b _).2 ⟨hb, fun c hc => ?_, ih _⟩
      have := (memory_mem_ofBytes hc).1
      omega

/-- What `Memory.ofBytes a bs` reads at an index from `a` on. -/
theorem memory_read_ofBytes (bs : List Byte) (a i : Nat) : (Memory.ofBytes a bs).read (a + i) = bs.getD i 0#8 := by
  induction bs generalizing a i with
  | nil => rfl
  | cons b r ih =>
    unfold Memory.ofBytes
    cases i with
    | zero =>
      split
      · rename_i hb
        rw [memory_read_below fun c hc => ?_]
        · simp [hb]
        · have := (memory_mem_ofBytes hc).1
          omega
      · simp [Memory.read]
    | succ i =>
      have := ih (a + 1) i
      rw [show a + (i + 1) = a + 1 + i by omega]
      split
      · simpa using this
      · have hne : ¬ a = a + 1 + i := by omega
        simpa [Memory.read, hne] using this

/-- The value of the buffer made of bytes is those bytes. -/
@[simp] theorem buffer_value_ofBytes (bs : List Byte) : (Buffer.ofBytes bs).value = bs := by
  refine List.ext_getElem (by simp [Buffer.value, Buffer.ofBytes]) fun i h1 h2 => ?_
  have := memory_read_ofBytes bs 0 i
  simp only [Nat.zero_add] at this
  rw [List.getD_eq_getElem _ _ h2] at this
  simp [Buffer.value, Buffer.ofBytes, this]

@[simp] theorem buffer_len_ofBytes (bs : List Byte) : (Buffer.ofBytes bs).len = bs.length := rfl

@[simp] theorem buffer_value_length (b : Buffer) : b.value.length = b.len := by simp [Buffer.value]

/-- Appending one byte to `Memory.ofBytes` by a write at its end. -/
theorem memory_write_end (bs : List Byte) (a : Nat) (b : Byte) :
    (Memory.ofBytes a bs).write (a + bs.length) b = Memory.ofBytes a (bs ++ [b]) := by
  induction bs generalizing a with
  | nil => simp [Memory.ofBytes, Memory.write]
  | cons x r ih =>
    have h := ih (a + 1)
    rw [show a + 1 + r.length = a + (x :: r).length by simp; omega] at h
    simp only [Memory.ofBytes, List.cons_append]
    split
    · exact h
    · have h1 : ¬ a + (x :: r).length < a := by omega
      have h2 : ¬ a + (x :: r).length = a := by simp
      simp only [Memory.write, h1, h2, if_false, h]

/-- Storing the next data byte of a field into the buffer that holds the bytes before it (40_bytefield_header.md R103). -/
@[simp] theorem buffer_storeField_end (bs : List Byte) (b : Byte) :
    (Buffer.ofBytes bs).storeField bs.length b = Buffer.ofBytes (bs ++ [b]) := by
  have := memory_write_end bs 0 b
  simp only [Nat.zero_add] at this
  simp [Buffer.storeField, Buffer.ofBytes, this]

theorem buffer_zero_eq : Buffer.zero = Buffer.ofBytes [] := rfl

/-! ### The eight buffers -/

@[simp] theorem buffers_get_set_same (bs : Buffers) (id : BufId) (x : Buffer) : (bs.set id x).get id = x := by
  cases id <;> rfl

theorem buffers_get_set_other (bs : Buffers) {id id' : BufId} (h : id' ≠ id) (x : Buffer) :
    (bs.set id x).get id' = bs.get id' := by
  cases id <;> cases id' <;> first | rfl | exact absurd rfl h

@[simp] theorem buffers_set_set (bs : Buffers) (id : BufId) (x y : Buffer) : (bs.set id x).set id y = bs.set id y := by
  cases id <;> rfl

@[simp] theorem buffers_set_get (bs : Buffers) (id : BufId) : bs.set id (bs.get id) = bs := by
  cases id <;> rfl

end Sys2Proof.Machine
end

