-- ==== Sys2Proof/Laws/Ops.lean ====
section
/-!
SUPPORT. One lemma for each shared operation that says once everything it can do; proofs cite these instead of unfolding
the operation.
-/

namespace Sys2Proof.Machine

/-! ### Error entry -/

/-- Everything `raise` can do (60_exceptions.md R302). -/
theorem raise_cases (e : Err) (s : State) :
    (s.st = .error ∧ raise e s = s) ∨
    (s.st ≠ .error ∧ raise e s = { releaseContexts s with st := .error, err := some e }) := by
  unfold raise
  split <;> simp_all

@[simp] theorem raise_of_error {s : State} (h : s.st = .error) (e : Err) : raise e s = s := by
  simp [raise, h]

theorem raise_of_not_error {s : State} (h : s.st ≠ .error) (e : Err) :
    raise e s = { releaseContexts s with st := .error, err := some e } := by
  rcases raise_cases e s with ⟨h', _⟩ | ⟨_, h'⟩
  · exact absurd h' h
  · exact h'

@[simp] theorem raise_of_busy {s : State} (h : s.st = .busy) (e : Err) :
    raise e s = { releaseContexts s with st := .error, err := some e } :=
  raise_of_not_error (by simp [h]) e

/-- After error entry the engine is in ERROR. -/
@[simp] theorem raise_st (e : Err) (s : State) : (raise e s).st = .error := by
  rcases raise_cases e s with ⟨h, h'⟩ | ⟨_, h'⟩
  · rw [h', h]
  · rw [h']

/-! ### Acceptance -/

/-- Everything the CMD write of a legal command other than CLOSE can do (30_encoding.md R83). -/
theorem acceptCommand_cases (i : Instr) (s : State) :
    (Ready s ∧ acceptCommand i s = startCommand i s) ∨
    (s.st = .busy ∧ acceptCommand i s = raise .cmdBusy s) ∨
    (s.st = .error ∧ acceptCommand i s = s) := by
  unfold acceptCommand Ready
  split <;> simp_all

/-- `exec` of a command other than CLOSE is its acceptance. -/
theorem exec_eq_accept {i : Instr} (h : i ≠ .close) (s : State) : exec i s = .next (acceptCommand i s) := by
  cases i <;> first | rfl | exact absurd rfl h

@[simp] theorem exec_close (s : State) : exec .close s = .next (release s) := rfl

theorem acceptCommand_of_ready {s : State} (h : Ready s) (i : Instr) : acceptCommand i s = startCommand i s := by
  rcases h with h | h <;> simp [acceptCommand, h]

/-! ### Streams -/

/-- Everything `pull()` can do (20_memory.md R62). -/
theorem pull_cases (s : State) (onByte : Byte → State → State) (onEof : State → State) :
    (∃ b rest, s.inq = b :: rest ∧
      pull s onByte onEof = onByte b { s with inq := rest, inCount := s.inCount + 1, hold := .none }) ∨
    (s.inq = [] ∧ s.inEnd = .eof ∧ pull s onByte onEof = onEof { s with hold := .none }) ∨
    (s.inq = [] ∧ s.inEnd = .ioerr ∧ pull s onByte onEof = raise .inputError { s with hold := .none }) ∨
    (s.inq = [] ∧ s.inEnd = .stillOpen ∧ pull s onByte onEof = { s with hold := .input }) := by
  unfold pull
  split
  · rename_i b rest h
    exact .inl ⟨b, rest, h, rfl⟩
  · rename_i h
    split <;> simp_all

theorem pull_cons {s : State} {b : Byte} {rest : List Byte} (h : s.inq = b :: rest)
    (onByte : Byte → State → State) (onEof : State → State) :
    pull s onByte onEof = onByte b { s with inq := rest, inCount := s.inCount + 1, hold := .none } := by
  simp [pull, h]

/-- Everything `push(b)` can do (20_memory.md R63). -/
theorem push_cases (b : Byte) (s : State) (onPushed : State → State) :
    (s.outq.length < s.cfg.outFifoDepth ∧
      push b s onPushed = onPushed { s with outq := s.outq ++ [b], outCount := s.outCount + 1, hold := .none }) ∨
    (¬ s.outq.length < s.cfg.outFifoDepth ∧ push b s onPushed = { s with hold := .output }) := by
  unfold push
  split <;> simp_all

theorem push_room {s : State} (h : s.outq.length < s.cfg.outFifoDepth) (b : Byte) (onPushed : State → State) :
    push b s onPushed = onPushed { s with outq := s.outq ++ [b], outCount := s.outCount + 1, hold := .none } := by
  simp [push, h]

/-! ### The cipher context -/

/-- When `loadCipher` succeeds, and what it loads (42_aes_cbc.md R163). -/
theorem loadCipher_ok {key iv : List Byte} {s t : State} (h : loadCipher key iv s = .ok t) :
    key.length ∈ Config.aesKeyLens ∧ iv.length = Config.blockBytes ∧
    t = { s with
      c := { nr := roundsOf (key.length / 4), w := keyExpansion key, chain := Block.ofBytes iv, blk := [] } } := by
  unfold loadCipher at h
  split at h
  · cases h
  · split at h
    · cases h
    · simp_all

/-- When `loadCipher` fails, and with which error: the key length is checked first (42_aes_cbc.md R163). -/
theorem loadCipher_error {key iv : List Byte} {s : State} {e : Err} (h : loadCipher key iv s = .error e) :
    (key.length ∉ Config.aesKeyLens ∧ e = .badKeyLen) ∨
    (key.length ∈ Config.aesKeyLens ∧ iv.length ≠ Config.blockBytes ∧ e = .badIvLen) := by
  unfold loadCipher at h
  split at h
  · cases h
    exact .inl ⟨‹_›, rfl⟩
  · split at h
    · cases h
      exact .inr ⟨by simp_all, ‹_›, rfl⟩
    · cases h

/-- The block loop of UNWRAP changes C and U only. -/
theorem unwrapBlocks_frame (n : Nat) (bs : List Byte) (s : State) :
    unwrapBlocks n bs s = { s with c := (unwrapBlocks n bs s).c, u := (unwrapBlocks n bs s).u } := by
  induction n generalizing bs s with
  | zero => rfl
  | succ n ih =>
    unfold unwrapBlocks
    rw [ih]

/-- The outer-key step of UNWRAP changes U.OK only. -/
theorem unwrapOuterKey_frame (s : State) : ∃ ok, unwrapOuterKey s = { s with u := { s.u with ok := ok } } := by
  unfold unwrapOuterKey
  generalize deriveKey _ _ _ _ = ok
  exact ⟨ok, rfl⟩

/-- The decryption step of UNWRAP changes C and U only. -/
theorem unwrapDecrypt_ok {s t : State} (h : unwrapDecrypt s = .ok t) : ∃ c u, t = { s with c := c, u := u } := by
  unfold unwrapDecrypt at h
  split at h
  · cases h
  · rename_i v hv
    obtain ⟨-, -, rfl⟩ := loadCipher_ok hv
    injection h with h
    exact ⟨_, _, h.symm.trans (unwrapBlocks_frame _ _ _)⟩

/-- The parse step of UNWRAP changes U only. -/
theorem unwrapParse_ok {s t : State} (h : unwrapParse s = .ok t) : ∃ u, t = { s with u := u } := by
  unfold unwrapParse at h
  split at h
  · cases h
  · split at h
    · cases h
    · injection h with h
      exact ⟨_, h.symm⟩

/-- The checksum step of UNWRAP changes U only. -/
theorem unwrapCheck_ok {s t : State} (h : unwrapCheck s = .ok t) : ∃ u, t = { s with u := u } := by
  unfold unwrapCheck at h
  generalize deriveKey _ _ _ _ = exp at h
  simp only at h
  split at h
  · cases h
  · injection h with h
    exact ⟨_, h.symm⟩

/-- The last step of UNWRAP changes KEY and IV only, and only to values of the lengths that the payload cipher accepts
(43_unwrap.md R189). -/
theorem unwrapStore_ok {s t : State} (h : unwrapStore s = .ok t) :
    s.u.ik.length ∈ Config.aesKeyLens ∧ s.u.iiv.length = Config.blockBytes ∧
    t = { s with bufs := { s.bufs with key := Buffer.ofBytes s.u.ik, iv := Buffer.ofBytes s.u.iiv } } := by
  unfold unwrapStore at h
  split at h
  · cases h
  · split at h
    · cases h
    · injection h with h
      exact ⟨by simp_all, by simp_all, h.symm⟩

/-- What the part of UNWRAP after the outer key changes where it succeeds. -/
theorem unwrapWithKey_ok {s t : State} (h : unwrapWithKey s = .ok t) :
    ∃ (c : CipherCtx) (ik iiv : List Byte), ik.length ∈ Config.aesKeyLens ∧ iiv.length = Config.blockBytes ∧
      t = { s with
        c := c, u := .zero, bufs := { s.bufs with key := Buffer.ofBytes ik, iv := Buffer.ofBytes iiv } } := by
  unfold unwrapWithKey at h
  split at h
  · cases h
  rename_i s1 h1
  obtain ⟨c1, u1, rfl⟩ := unwrapDecrypt_ok h1
  split at h
  · cases h
  rename_i s2 h2
  obtain ⟨u2, rfl⟩ := unwrapParse_ok h2
  split at h
  · cases h
  rename_i s3 h3
  obtain ⟨u3, rfl⟩ := unwrapCheck_ok h3
  split at h
  · cases h
  rename_i s4 h4
  obtain ⟨hk, hiv, rfl⟩ := unwrapStore_ok h4
  injection h with h
  exact ⟨c1, u3.ik, u3.iiv, hk, hiv, h.symm⟩

/-- What the password-dependent part of UNWRAP changes where it succeeds. -/
theorem unwrapSecrets_ok {s t : State} (h : unwrapSecrets s = .ok t) :
    ∃ (c : CipherCtx) (ik iiv : List Byte), ik.length ∈ Config.aesKeyLens ∧ iiv.length = Config.blockBytes ∧
      t = { s with
        c := c, u := .zero, bufs := { s.bufs with key := Buffer.ofBytes ik, iv := Buffer.ofBytes iiv } } := by
  unfold unwrapSecrets at h
  obtain ⟨ok, hok⟩ := unwrapOuterKey_frame s
  rw [hok] at h
  obtain ⟨c, ik, iiv, hk, hiv, rfl⟩ := unwrapWithKey_ok h
  exact ⟨c, ik, iiv, hk, hiv, rfl⟩

/-- What `unwrapBody` changes where it succeeds: C, U (which it leaves zeroized), KEY and IV, whose new values have the
lengths the payload cipher accepts (43_unwrap.md R189, R190). -/
theorem unwrapBody_ok {s t : State} (h : unwrapBody s = .ok t) :
    ∃ (c : CipherCtx) (ik iiv : List Byte), ik.length ∈ Config.aesKeyLens ∧ iiv.length = Config.blockBytes ∧
      t = { s with
        c := c, u := .zero, bufs := { s.bufs with key := Buffer.ofBytes ik, iv := Buffer.ofBytes iiv } } := by
  unfold unwrapBody at h
  split at h
  · cases h
  split at h
  · cases h
  exact unwrapSecrets_ok h

/-! ### Steps -/

/-- Everything a step can do (00_scope.md R6, 20_memory.md R71). -/
theorem step_cases (s : State) :
    (fetch s.sched = .engine ∧ step s = .next (engineStep (consumeEvent s))) ∨
    (fetch s.sched = .reset ∧ step s = .next (hardReset (consumeEvent s))) ∨
    (∃ i, fetch s.sched = .command i ∧ step s = exec i (consumeEvent s)) ∨
    (∃ e, fetch s.sched = .illegal e ∧ step s = .next (illegalWord e (consumeEvent s))) ∨
    (∃ tx, fetch s.sched = .access tx ∧ step s = busAccess tx (consumeEvent s)) := by
  unfold step
  cases fetch s.sched <;> simp

/-- The engine steps only in BUSY (60_exceptions.md R319). -/
theorem engineStep_of_not_busy {s : State} (h : s.st ≠ .busy) : engineStep s = s := by
  unfold engineStep
  split <;> simp_all

theorem engineStep_of_busy {s : State} (h : s.st = .busy) : engineStep s = advance s := by
  simp [engineStep, h]

@[simp] theorem engineRun_zero (s : State) : engineRun 0 s = s := rfl

theorem engineRun_succ (n : Nat) (s : State) : engineRun (n + 1) s = engineRun n (engineStep s) := rfl

theorem engineRun_add (m n : Nat) (s : State) : engineRun (m + n) s = engineRun n (engineRun m s) := by
  induction m generalizing s with
  | zero => simp
  | succ m ih => rw [Nat.succ_add, engineRun_succ, ih, engineRun_succ]

/-- Everything a host transaction other than a legal CMD write can do (20_memory.md R60, R64). -/
theorem busAccess_cases (tx : HostTx) (s : State) :
    (¬ tx.offset < 256 ∧ busAccess tx s = .fault .outsideWindow) ∨
    (tx.offset < 256 ∧ tx.aligned32 = false ∧ busAccess tx s = .next (badAccess tx s)) ∨
    (tx.offset < 256 ∧ tx.aligned32 = true ∧ busAccess tx s = .next (alignedAccess tx s)) := by
  unfold busAccess HostTx.inWindow
  by_cases h : tx.offset < 256 <;> cases h' : tx.aligned32 <;> simp [h]

/-- A register's offset names it (10_state.md R23). -/
@[simp] theorem regAt_regOffset (r : Reg) : regAt (regOffset r) = some r := by cases r <;> rfl

@[simp] theorem consumeEvent_withEvent (s : State) (e : Event) : consumeEvent (s.withEvent e) = s := rfl

/-- The step of a register read (20_memory.md R60, R65). -/
theorem step_busRead (r : Reg) (s : State) :
    step (s.withEvent (.host (busRead r))) = .next (answerRead (readReg r s)) := by
  cases r <;> rfl

/-- The step of a write of a register other than CMD (10_state.md R23, 20_memory.md R60). -/
theorem step_busWrite {r : Reg} (h : r ≠ .cmd) (v : Word) (s : State) :
    step (s.withEvent (.host (busWrite r v))) = .next (writeReg r v s) := by
  have hc : cmdWordOf (busWrite r v) = none := by
    cases r <;> first | exact absurd rfl h | simp [cmdWordOf, busWrite, regOffset]
  simp only [step, State.withEvent, fetch, hc, busAccess]
  cases r <;> simp [busWrite, HostTx.inWindow, HostTx.aligned32, regOffset, alignedAccess, regAt, consumeEvent]

end Sys2Proof.Machine
end

