-- ==== Sys2Proof/Laws/Zlib.lean ====
section
/-!
SUPPORT. The decoder between two visible steps: the bound `silentBound` falls at every silent move, so the fuel of
`inflateRun` is never used up (log 16); and how it reads bits and a symbol that are unread already.
-/

namespace Sys2Proof.Machine

theorem zRank_le_one (p : ZPoint) : zRank p ≤ 1 := by cases p <;> simp [zRank]

/-- The end of a block adds no unread bit. -/
theorem endBlock_bitcnt (z : InflateCtx) : (endBlock z).1.bitcnt ≤ z.bitcnt := by
  unfold endBlock byteAlign
  split <;> simp

theorem endBlockRes_bitcnt {z z' : InflateCtx} {q : ZPoint} (h : endBlockRes z = .cont z' q) : z'.bitcnt ≤ z.bitcnt := by
  unfold endBlockRes at h
  cases h
  exact endBlock_bitcnt z

theorem startBlock_bitcnt {z z' : InflateCtx} {q : ZPoint} {t : Nat} (h : startBlock z t = .cont z' q) :
    z'.bitcnt ≤ z.bitcnt := by
  unfold startBlock byteAlign at h
  repeat' split at h
  all_goals cases h
  all_goals simp

theorem codeLengthTable_bitcnt {z z' : InflateCtx} {q : ZPoint} {a b : Nat} {got : List Nat}
    (h : codeLengthTable z a b got = .cont z' q) : z'.bitcnt ≤ z.bitcnt := by
  unfold codeLengthTable at h
  split at h <;> cases h
  exact Nat.le_refl _

theorem dynamicTables_bitcnt {z z' : InflateCtx} {q : ZPoint} {a : Nat} {lens : List Nat}
    (h : dynamicTables z a lens = .cont z' q) : z'.bitcnt ≤ z.bitcnt := by
  unfold dynamicTables at h
  repeat' split at h
  all_goals cases h
  exact Nat.le_refl _

theorem moreLengths_bitcnt {z z' : InflateCtx} {q : ZPoint} {a b : Nat} {lens : List Nat}
    (h : moreLengths z a b lens = .cont z' q) : z'.bitcnt ≤ z.bitcnt := by
  unfold moreLengths at h
  split at h
  · cases h
    exact Nat.le_refl _
  · exact dynamicTables_bitcnt h

theorem codeLengthSymbol_bitcnt {z z' : InflateCtx} {q : ZPoint} {a b n : Nat} {lens : List Nat}
    (h : codeLengthSymbol z a b lens n = .cont z' q) : z'.bitcnt ≤ z.bitcnt := by
  unfold codeLengthSymbol at h
  split at h
  · exact moreLengths_bitcnt h
  · split at h <;> cases h
    exact Nat.le_refl _

theorem repeatLengths_bitcnt {z z' : InflateCtx} {q : ZPoint} {a b n v : Nat} {lens : List Nat}
    (h : repeatLengths z a b lens n v = .cont z' q) : z'.bitcnt ≤ z.bitcnt := by
  unfold repeatLengths at h
  simp only at h
  generalize (if n = 16 then lens.getLastD 0 else 0) = x at h
  generalize (if n = 18 then 11 else 3) + v = y at h
  split at h
  · cases h
  · exact moreLengths_bitcnt h

theorem litSymbol_bitcnt {z z' : InflateCtx} {q : ZPoint} {n : Nat} (h : litSymbol z n = .cont z' q) :
    z'.bitcnt ≤ z.bitcnt := by
  unfold litSymbol at h
  split at h
  · cases h
    exact Nat.le_refl _
  · split at h
    · exact endBlockRes_bitcnt h
    · split at h <;> cases h
      exact Nat.le_refl _

/-- A point answered with bits adds no unread bit. -/
theorem zOnBits_bitcnt {z z' : InflateCtx} {p q : ZPoint} {v : Nat} (h : zOnBits z p v = .cont z' q) :
    z'.bitcnt ≤ z.bitcnt := by
  cases p <;> simp only [zOnBits, afterSymBit, distSymbol, startCopy] at h
  case btype => exact startBlock_bitcnt (z := { z with btype := BitVec.ofNat 2 _ }) h
  case clens => split at h; exacts [codeLengthTable_bitcnt h, by cases h; exact Nat.le_refl _]
  case lens => split at h; exacts [by cases h; exact Nat.le_refl _, codeLengthSymbol_bitcnt h, by cases h]
  case rep => exact repeatLengths_bitcnt h
  case sym => split at h; exacts [by cases h; exact Nat.le_refl _, litSymbol_bitcnt h, by cases h]
  all_goals repeat' split at h
  all_goals cases h
  all_goals exact Nat.le_refl _

theorem storedHeader_bitcnt {z z' : InflateCtx} {q : ZPoint} {a b c d : Byte}
    (h : storedHeader z a b c d = .cont z' q) : z'.bitcnt ≤ z.bitcnt := by
  unfold storedHeader at h
  simp only at h
  split at h
  · cases h
  · split at h
    · exact endBlockRes_bitcnt h
    · cases h
      exact Nat.le_refl _

/-- A byte adds at most eight unread bits. -/
theorem zOnByte_bitcnt {z z' : InflateCtx} {p q : ZPoint} {b : Byte} (h : zOnByte z p b = .cont z' q) :
    z'.bitcnt ≤ z.bitcnt + 8 := by
  cases p <;> simp only [zOnByte, feedBits, zlibHeader, storedHeaderByte, trailerByte] at h
  case storedHdr =>
    split at h
    · exact (storedHeader_bitcnt h).trans (Nat.le_add_right _ _)
    · cases h
      exact Nat.le_add_right _ _
  all_goals repeat' split at h
  all_goals cases h
  all_goals simp

/-- Only a point of rank 1 asks for `bits(0)`, and one of rank 0 follows it. -/
theorem zRank_of_zero_bits {z z' w : InflateCtx} {p q : ZPoint} {v : Nat} (hp : zRequest w p = .bits 0)
    (h : zOnBits z p v = .cont z' q) : zRank p = 1 ∧ zRank q = 0 := by
  cases p <;> simp [zRequest] at hp
  case rep sym =>
    unfold repeatBits at hp
    repeat' split at hp
    all_goals omega
  case lext =>
    cases h
    exact ⟨rfl, rfl⟩
  case dext =>
    simp only [zOnBits, startCopy] at h
    split at h <;> cases h
    exact ⟨rfl, rfl⟩

/-- A silent move lowers the bound on the silent moves to come. -/
theorem silentBound_falls {src : Source} {p q : ZPoint} {s : State} {z : InflateCtx} {pos : Nat}
    (h : zMove src p s = .silent (.cont z q) pos) : silentBound q { s with z := z, sbpos := pos } < silentBound p s := by
  have hq := zRank_le_one q
  have source : ∀ {src}, zSource src p s = .silent (.cont z q) pos →
      silentBound q { s with z := z, sbpos := pos } < silentBound p s := by
    intro src h
    unfold zSource at h
    split at h
    · cases h
    · split at h
      · injection h with h1 h2
        have := zOnByte_bitcnt h1
        simp only [silentBound]
        omega
      · cases h
  unfold zMove at h
  split at h
  · cases h
  · exact source h
  · rename_i n hn
    split at h
    · exact source h
    · injection h with h1 h2
      have hb := zOnBits_bitcnt h1
      simp only [dropBits] at hb
      simp only [silentBound]
      by_cases h0 : n = 0
      · subst h0
        have hr := zRank_of_zero_bits hn h1
        omega
      · omega

/-- The fuel is enough: with more of it the decoder does the same. -/
theorem inflateRun_more_fuel (src : Source) :
    ∀ (m n : Nat) (p : ZPoint) (s : State), silentBound p s < m → m ≤ n → inflateRun n src p s = inflateRun m src p s
  | 0, _, _, _, h, _ => absurd h (Nat.not_lt_zero _)
  | _ + 1, 0, _, _, _, h => absurd h (Nat.not_succ_le_zero _)
  | m + 1, n + 1, p, s, hm, hn => by
    unfold inflateRun
    split
    · rfl
    · rfl
    · rename_i z q pos hz
      exact inflateRun_more_fuel src m n q _ (by have := silentBound_falls hz; omega) (by omega)
    · rfl
    · rfl

/-- Any fuel of at least `inflateFuel` gives the decoder's one result. -/
theorem inflateRun_of_fuel_le {src : Source} {p : ZPoint} {s : State} {n : Nat} (h : inflateFuel p s ≤ n) :
    inflateRun n src p s = inflateRun (inflateFuel p s) src p s :=
  inflateRun_more_fuel src _ _ p s (Nat.lt_succ_self _) h

/-- At a point whose next move is a pull, the decoder pulls. -/
theorem inflateRun_of_pull {src : Source} {p : ZPoint} {s : State} (h : zMove src p s = .pull) (n : Nat) :
    inflateRun (n + 1) src p s = inflatePull src p s := by simp [inflateRun, h]

/-- At a point whose next move is an output, the decoder outputs. -/
theorem inflateRun_of_emit {src : Source} {p : ZPoint} {s : State} {b : Byte} (h : zMove src p s = .emit b) (n : Nat) :
    inflateRun (n + 1) src p s = inflateEmit src p b s := by simp [inflateRun, h]

/-- Everything the decoder can do from a point: silent moves, which change Z and SBPOS, up to a visible step. -/
theorem inflateRun_cases (src : Source) :
    ∀ (n : Nat) (p : ZPoint) (s : State), silentBound p s < n → ∃ (q : ZPoint) (z : InflateCtx) (pos : Nat),
      (zMove src q { s with z := z, sbpos := pos } = .pull ∧
        inflateRun n src p s = inflatePull src q { s with z := z, sbpos := pos }) ∨
      (∃ b, zMove src q { s with z := z, sbpos := pos } = .emit b ∧
        inflateRun n src p s = inflateEmit src q b { s with z := z, sbpos := pos }) ∨
      (∃ e, inflateRun n src p s = raise e { s with z := z, sbpos := pos }) ∨
      inflateRun n src p s = finish { s with z := z, sbpos := pos }
  | 0, _, _, h => absurd h (Nat.not_lt_zero _)
  | n + 1, p, s, h => by
    unfold inflateRun
    split
    · rename_i hz
      exact ⟨p, s.z, s.sbpos, .inl ⟨hz, rfl⟩⟩
    · rename_i b hz
      exact ⟨p, s.z, s.sbpos, .inr (.inl ⟨b, hz, rfl⟩)⟩
    · rename_i z q pos hz
      have hf := silentBound_falls hz
      obtain ⟨q', z', pos', h'⟩ := inflateRun_cases src n q { s with z := z, sbpos := pos } (by omega)
      exact ⟨q', z', pos', h'⟩
    · rename_i e pos hz
      exact ⟨p, s.z, s.sbpos, .inr (.inr (.inl ⟨e, rfl⟩))⟩
    · exact ⟨p, s.z, s.sbpos, .inr (.inr (.inr rfl))⟩

/-- Everything one step of the decoder can do, with a byte in hand or without. -/
theorem inflateStep_cases (src : Source) (p : ZPoint) (h : Option Byte) (s : State) :
    ∃ (q : ZPoint) (z : InflateCtx) (pos : Nat),
      (zMove src q { s with z := z, sbpos := pos } = .pull ∧
        inflateStep src p h s = inflatePull src q { s with z := z, sbpos := pos }) ∨
      (∃ b, zMove src q { s with z := z, sbpos := pos } = .emit b ∧
        inflateStep src p h s = inflateEmit src q b { s with z := z, sbpos := pos }) ∨
      (∃ e, inflateStep src p h s = raise e { s with z := z, sbpos := pos }) ∨
      inflateStep src p h s = finish { s with z := z, sbpos := pos } := by
  unfold inflateStep
  split
  · exact inflateRun_cases src _ p s (Nat.lt_succ_self _)
  · rename_i b
    split
    · rename_i z q _
      obtain ⟨q', z', pos', h⟩ :=
        inflateRun_cases src (inflateFuel q { s with z := z }) q { s with z := z } (Nat.lt_succ_self _)
      exact ⟨q', z', pos', h⟩
    · rename_i e _
      exact ⟨p, s.z, s.sbpos, .inr (.inr (.inl ⟨e, rfl⟩))⟩
    · exact ⟨p, s.z, s.sbpos, .inr (.inr (.inr rfl))⟩

/-! ### Bits that are unread already -/

/-- What follows an answer, with the state before it: it changes Z only. -/
def inflateAfter (n : Nat) (src : Source) (s : State) (r : ZRes) : State :=
  match r with
  | .cont z q => inflateRun n src q { s with z := z }
  | .fail e => raise e s
  | .done => finish s

/-- At a point that asks for bits, with enough of them unread, the decoder goes on without a byte. -/
theorem inflateRun_bits {src : Source} {p : ZPoint} {s : State} {n : Nat} (h : zRequest s.z p = .bits n)
    (hn : n ≤ s.z.bitcnt) (m : Nat) :
    inflateRun (m + 1) src p s = inflateAfter m src s (zOnBits (dropBits s.z n) p (peekBits s.z n)) := by
  have hz : zMove src p s = .silent (zOnBits (dropBits s.z n) p (peekBits s.z n)) s.sbpos := by
    simp [zMove, h, Nat.not_lt.mpr hn]
  rw [inflateRun, hz]
  cases zOnBits (dropBits s.z n) p (peekBits s.z n) <;> rfl

theorem dropBits_dropBits (z : InflateCtx) (m n : Nat) : dropBits (dropBits z m) n = dropBits z (m + n) := by
  simp [dropBits, BitVec.shiftRight_add, Nat.sub_sub]

theorem peekBits_eq {z : InflateCtx} {n : Nat} (h : n < 32) : peekBits z n = bitsBehind z 0 n := by
  have hm : ((1 <<< n) - 1 : BitVec 32).toNat = 2 ^ n - 1 := by
    have h1 : 1 ≤ 2 ^ n := Nat.one_le_two_pow
    have h2 : 2 ^ n < 2 ^ 32 := Nat.pow_lt_pow_right (by decide) h
    simp [BitVec.toNat_sub, Nat.shiftLeft_eq]
    omega
  rw [peekBits, BitVec.toNat_and, hm, Nat.and_two_pow_sub_one_eq_mod, bitsBehind]
  simp

theorem bitsBehind_dropBits (z : InflateCtx) (m l n : Nat) : bitsBehind (dropBits z m) l n = bitsBehind z (m + l) n := by
  simp [bitsBehind, dropBits, Nat.shiftRight_eq_div_pow, Nat.div_div_eq_div_mul, Nat.pow_add]

theorem unreadBits_succ (z : InflateCtx) (n : Nat) :
    unreadBits z (n + 1) = peekBits z 1 :: unreadBits (dropBits z 1) n := by
  rw [peekBits_eq (by decide)]
  simp only [unreadBits, List.range_succ_eq_map, List.map_cons, List.map_map]
  congr 1
  apply List.map_congr_left
  intro i _
  simp [dropBits, Nat.shiftRight_eq_div_pow, Nat.div_div_eq_div_mul, Nat.pow_succ, Nat.mul_comm]

/-- The decoder over the code of a symbol that is unread in full: `p` is the point at each bit, `f` what follows the
symbol. -/
theorem inflateRun_symbol {src : Source} {p : SymDec → ZPoint} {t : HTable} {f : InflateCtx → Nat → ZRes} {x : Nat}
    (hp : ∀ z d, zRequest z (p d) = .bits 1) :
    ∀ (bits : List Nat) (d : SymDec) (s : State) (m : Nat), s.st = .busy → bits = unreadBits s.z bits.length →
      bits.length ≤ s.z.bitcnt → decodeBits t d bits = .symbol x →
      (∀ n d v, zOnBits (dropBits s.z n) (p d) v =
        afterSymBit (symBit t d v) (fun d' => .cont (dropBits s.z n) (p d')) (f (dropBits s.z n))) →
      inflateRun (m + bits.length) src (p d) s = inflateAfter m src s (f (dropBits s.z bits.length) x)
  | [], d, s, m, _, _, _, hd, _ => by simp [decodeBits] at hd
  | b :: r, d, s, m, hb, hbits, hl, hd, hon => by
    simp only [List.length_cons] at hbits hl ⊢
    rw [unreadBits_succ] at hbits
    obtain ⟨hb0, hr⟩ := List.cons.inj hbits
    rw [← Nat.add_assoc, inflateRun_bits (hp _ _) (by omega), hon, ← hb0]
    unfold decodeBits at hd
    cases hs : symBit t d b with
    | more d' =>
      rw [hs] at hd
      simp only [afterSymBit, inflateAfter]
      rw [inflateRun_symbol hp r d' { s with z := dropBits s.z 1 } m hb hr (by simp [dropBits]; omega) hd
        (by intro n d v; simp only [dropBits_dropBits]; exact hon _ d v)]
      simp only [dropBits_dropBits, Nat.add_comm 1]
      cases f (dropBits s.z (r.length + 1)) x with
      | cont z q => rfl
      | fail e => simp only [inflateAfter]; rw [raise_of_busy (by exact hb), raise_of_busy hb]; rfl
      | done => rfl
    | symbol n =>
      rw [hs] at hd
      simp only at hd
      split at hd
      · rename_i hr0
        injection hd with hd
        subst hr0 hd
        simp [afterSymBit]
      · cases hd
    | bad => rw [hs] at hd; cases hd

end Sys2Proof.Machine
end

