-- ==== Sys2Proof/Machine/HostProgram.lean ====
section
/-!
DEFINITION. Host programs: the pseudo-instructions of 30_encoding.md R91 as the transactions they stand for. They are
events of the schedule and no part of the engine. A loop's number of polls is an argument, since the schedule decides it;
the tests below say when the loop ends (log 17).
-/

namespace Sys2Proof.Machine

/-- The 3-bit number of a buffer (10_state.md R40). -/
def BufId.sel : BufId → BitVec 3
  | .secret => 0
  | .salt => 1
  | .hSalt => 2
  | .hIv => 3
  | .hSsalt => 4
  | .hSecrets => 5
  | .key => 6
  | .iv => 7

/-- `cmd NAME`, and `close` for CLOSE. -/
def hostCmd (i : Instr) : List HostTx := [busWrite .cmd (encode i)]

/-- `load BUF, "..."`. -/
def hostLoad (id : BufId) (bytes : List Byte) : List HostTx :=
  busWrite .bufSel (id.sel.setWidth 32) :: busWrite .bufLen 0 :: bytes.map fun b => busWrite .bufData (b.setWidth 32)

/-- `feed` of one byte after `polls` reads of a full FIFO. -/
def hostFeedByte (b : Byte) (polls : Nat) : List HostTx :=
  List.replicate (polls + 1) (busRead .inLevel) ++ [busWrite .inData (b.setWidth 32)]

/-- `feed "..."`, each byte with its number of polls. -/
def hostFeed (bytes : List (Byte × Nat)) : List HostTx := bytes.flatMap fun x => hostFeedByte x.1 x.2

/-- `eof`. -/
def hostEof : List HostTx := [busWrite .inCtrl 1]

/-- `ioerr`. -/
def hostIoerr : List HostTx := [busWrite .inCtrl 2]

/-- `wait` or `waitend` with `polls` reads before the last. -/
def hostWait (polls : Nat) : List HostTx := List.replicate (polls + 1) (busRead .status)

/-- `drain n`. -/
def hostDrain (n : Nat) : List HostTx := List.replicate n (busRead .outData)

/-- Whether the IN_LEVEL value just read ends the loop of `feed`: bits [15:0] are below bits [31:16]. -/
def feedReady (v : Word) : Bool := (v.extractLsb' 0 16).toNat < (v.extractLsb' 16 16).toNat

/-- Whether the STATUS value just read ends `wait`: STATE is not 1, or IN_WAIT, or OUT_WAIT. -/
def waitOver (v : Word) : Bool := v.extractLsb' 0 2 != 1 || v.getLsbD 4 || v.getLsbD 5

/-- Whether the STATUS value just read ends `waitend`: STATE is 2 or 3. -/
def waitEndOver (v : Word) : Bool := v.getLsbD 1

/-- Host transactions as events of the schedule. -/
def hostEvents (txs : List HostTx) : List Event := txs.map .host

end Sys2Proof.Machine
end

