-- ==== Sys2Proof/Certificates/Slice0/Obligations.lean ====
section
/-!
DEFINITION. The statements for the provers, from the numbered rules of spec/.
-/

open Sys2Proof Sys2Proof.Machine

/-! ### Command words -/

/-- 30_encoding.md R80, R81: a word decodes to a command exactly if it is that command's word. -/
def Obligations.DecodeExactlyTheEncodedWords : Prop :=
  ∀ (w : Word) (i : Instr), decode w = .ok i ↔ w = encode i

/-- 30_encoding.md R80, R81: the nine command words, written out. -/
def Obligations.CommandWordsDecode : Prop :=
  decode 0x00000001 = .ok .readBytefield ∧ decode 0x00000002 = .ok .parseHeader ∧
  decode 0x00000003 = .ok .deriveKey ∧ decode 0x00000004 = .ok .aesCbcDecrypt ∧
  decode 0x00000005 = .ok .unwrap ∧ decode 0x00000006 = .ok .openPlaintext ∧
  decode 0x00000007 = .ok .inflate ∧ decode 0x00000008 = .ok .decrypt ∧ decode 0x0000000F = .ok .close

/-- 30_encoding.md R82: the CMD write of an illegal word raises RESERVED_BITS where RSVD is not 0, else BAD_OPCODE. Every
other word is one of the nine. In ERROR the raise changes nothing (60_exceptions.md R302). -/
def Obligations.IllegalWordsRaise : Prop :=
  ∀ (s : State) (w : Word),
    (w.extractLsb' 8 24 ≠ 0 → step (s.withEvent (.host (busWrite .cmd w))) = .next (raise .reservedBits s)) ∧
    (w.extractLsb' 8 24 = 0 →
      ((w.extractLsb' 0 8).toNat = 0 ∨ (9 ≤ (w.extractLsb' 0 8).toNat ∧ (w.extractLsb' 0 8).toNat ≤ 14) ∨
        16 ≤ (w.extractLsb' 0 8).toNat) →
      step (s.withEvent (.host (busWrite .cmd w))) = .next (raise .badOpcode s)) ∧
    (w.extractLsb' 8 24 = 0 → (w.extractLsb' 0 8).toNat ≠ 0 →
      ((w.extractLsb' 0 8).toNat < 9 ∨ (w.extractLsb' 0 8).toNat = 15) → ∃ i, decode w = .ok i)

/-- 00_scope.md R6, 30_encoding.md R83, 70_reset_and_hazards.md R331: a step runs what the schedule holds next. The CMD
write of a legal word is `exec` of its instruction, an engine step is `engineStep`, and a reset gives the reset state with
no error recorded. The model's choices: with nothing scheduled the engine runs alone (log 1), and reset keeps what stands
outside the engine (log 13). -/
def Obligations.StepRunsTheScheduledEvent : Prop :=
  (∀ (s : State) (w : Word) (i : Instr), decode w = .ok i →
    step (s.withEvent (.host (busWrite .cmd w))) = exec i s) ∧
  (∀ (s : State) (nbits w : Nat) (i : Instr), decodeTableWord nbits w = some i →
    step (s.withFetchWord nbits w) = exec i s) ∧
  (∀ s : State, step (s.withEvent .engine) = .next (engineStep s)) ∧
  (∀ s : State,
    step (s.withEvent .rst) = .next { State.resetWith s.cfg with sched := s.sched, busData := s.busData }) ∧
  (∀ s : State, s.sched = [] → step s = .next (engineStep s))

/-- The model's choice (log 1): with nothing scheduled, `n` steps of the machine are `n` engine steps. -/
def Obligations.EngineRunsAloneWithoutEvents : Prop :=
  ∀ (n : Nat) (s : State), s.sched = [] → Host.Core.run Sys2Proof.core n s = .next (engineRun n s)

/-! ### Acceptance, completion, errors and CLOSE -/

/-- 30_encoding.md R83, R84, 44_payload_stream.md R220, 60_exceptions.md R302: acceptance of a legal word by STATE, what the
write that starts a command sets, and an illegal word in ERROR. CLOSE keeps the model's fields outside the engine (log 13). -/
def Obligations.AcceptanceByState : Prop :=
  ∀ s : State,
    (∀ i : Instr, i ≠ .close → Ready s →
      exec i s = .next { s with st := .busy, op := opcodeOf i, hold := .none, k := .first i }) ∧
    (s.Inv → Ready s → s.errorWord = 0) ∧
    (∀ i : Instr, i ≠ .close → s.st = .busy →
      exec i s = .next { releaseContexts s with st := .error, err := some .cmdBusy }) ∧
    (∀ i : Instr, i ≠ .close → s.st = .error → exec i s = .next s) ∧
    exec .close s =
      .next { State.resetWith s.cfg with intEn := s.intEn, sched := s.sched, busData := s.busData } ∧
    (∀ e : DecodeError, s.st = .error → illegalWord e s = s) ∧
    ∀ i : Instr, opcodeOf i = (encode i).extractLsb' 0 8

/-- 44_payload_stream.md R220: in every STATE, CLOSE takes effect in full within the CMD write. Every register but INT_EN
then reads as after reset. The schedule and what the host last read are outside the engine and stay (log 13). -/
def Obligations.CloseReleasesEverything : Prop :=
  ∀ s : State, ∃ t : State,
    step (s.withEvent (.host (busWrite .cmd 0x0000000F))) = .next t ∧ exec .close s = .next t ∧
    t = { State.resetWith s.cfg with intEn := s.intEn, sched := s.sched, busData := s.busData } ∧
    t.statusWord = 0 ∧ t.errorWord = 0 ∧ (s.cfg.Valid → t.intStatus = 8) ∧
    ∀ r : Reg, r ≠ .intEn → (readReg r t).1 = (readReg r (State.resetWith s.cfg)).1

/-- 60_exceptions.md R301, R302: normal completion; error entry, which in ERROR changes nothing; and that a host transaction
that raises has no other effect: a write stores nothing and a read returns 0. -/
def Obligations.CompletionAndErrorEntry : Prop :=
  (∀ s : State,
    finish s =
      { s with st := .done, k := .empty, hold := .none, u := .zero, c := .zero, sb := .zero, sbpos := 16, z := .zero }) ∧
  (∀ (e : Err) (s : State), s.st = .error → raise e s = s) ∧
  (∀ (e : Err) (s : State), s.st ≠ .error →
    raise e s =
      { s with st := .error, err := some e, k := .empty, hold := .none, u := .zero, c := .zero, sb := .zero, sbpos := 16,
               z := .zero }) ∧
  (∀ (tx : HostTx) (s t : State), s.st ≠ .error → step (s.withEvent (.host tx)) = .next t → t.st = .error →
    ∃ e : Err, t = { raise e s with busData := if tx.kind = .read then 0 else s.busData })

/-- 60_exceptions.md R305, R307, R309, R310: a step from ERROR keeps ERROR with its first error, unless it is CLOSE or
reset, which give IDLE. -/
def Obligations.ErrorIsLeftOnlyByCloseOrReset : Prop :=
  ∀ s t : State, s.st = .error → step s = .next t →
    (t.st = .error ∧ t.err = s.err ∧ t.k = s.k ∧ t.inCount = s.inCount ∧ t.outCount = s.outCount) ∨
    ((fetch s.sched = .command .close ∨ fetch s.sched = .reset) ∧ t.st = .idle ∧ t.err = none)

/-! ### Reset and the invariant -/

/-- 70_reset_and_hazards.md R330: the reset state, register by register, and the state that CLOSE leaves (the model's
fields outside the engine stay, log 13; zero contexts are the model's, log 14). -/
def Obligations.ResetState : Prop :=
  ∀ c : Config, c.Valid →
    let s := State.resetWith c
    (s.st = .idle ∧ s.op = 0 ∧ s.hold = .none ∧ readReg .status s = (0, s)) ∧
    (s.errKind = 0 ∧ s.errReason = 0 ∧ readReg .error s = (0, s)) ∧
    readReg .intEn s = (0, s) ∧ readReg .intStatus s = (8, s) ∧
    (s.inq = [] ∧ s.inEnd = .stillOpen ∧ readReg .inLevel s = (BitVec.ofNat 32 (c.inFifoDepth * 65536), s) ∧
      readReg .inCtrl s = (0, s)) ∧
    (s.outq = [] ∧ readReg .outLevel s = (BitVec.ofNat 32 (c.outFifoDepth * 65536), s) ∧ readReg .outData s = (0, s)) ∧
    ((∀ (id : BufId) (i : Nat), s.bufByte id i = 0 ∧ s.bufLen id = 0) ∧
      ∀ sel : BitVec 3, (readReg .bufLen { s with bufSel := sel }).1 = 0) ∧
    (readReg .bufSel s = (0, s) ∧ readReg .bufPtr s = (0, s) ∧ readReg .bufData s = (0, s)) ∧
    (readReg .kdfIter s = (0, s) ∧ readReg .kdfLen s = (0, s)) ∧
    (readReg .hdrMagic s = (0, s) ∧ readReg .hdrVersion s = (0, s) ∧ readReg .fieldLen s = (0, s)) ∧
    (readReg .inCount s = (0, s) ∧ readReg .outCount s = (0, s)) ∧
    (s.k = .empty ∧ s.u = .zero ∧ s.c = .zero ∧ s.z = .zero ∧ s.sb = .zero ∧ s.sbpos = 16) ∧
    (readReg .id s = (0x53494344, s) ∧ readReg .version s = (0x00000101, s)) ∧
    (∀ offset : Nat, 0x5C ≤ offset → offset < 256 → offset % 4 = 0 →
      step (s.withEvent (.host { kind := .read, offset := offset, width := 4, data := 0 })) = .next { s with busData := 0 }) ∧
    ∀ t : State, t.cfg = c → exec .close t = .next { s with intEn := t.intEn, sched := t.sched, busData := t.busData }

/-- The invariant holds after reset, whatever the configuration. -/
def Obligations.ResetSatisfiesInv : Prop :=
  (∀ c : Config, (State.resetWith c).Inv) ∧ State.reset.Inv

/-- 10_state.md R21, R26, R27, R37, R40, R44 to R49: every step keeps the invariant, from every state and under every
schedule. -/
def Obligations.StepKeepsInv : Prop :=
  ∀ s t : State, s.Inv → step s = .next t → t.Inv

/-! ### The engine agent -/

/-- 60_exceptions.md R319, 30_encoding.md R86, 20_memory.md R61: in IDLE, DONE and ERROR the engine takes no step; what no
engine step changes; and what only the steps of one command change. -/
def Obligations.EngineStepFrame : Prop :=
  ∀ s : State,
    (s.st ≠ .busy → engineStep s = s) ∧
    ((engineStep s).op = s.op ∧ (engineStep s).intEn = s.intEn ∧ (engineStep s).inEnd = s.inEnd ∧
      (engineStep s).bufSel = s.bufSel ∧ (engineStep s).bufPtr = s.bufPtr ∧ (engineStep s).kdfIter = s.kdfIter ∧
      (engineStep s).kdfLen = s.kdfLen ∧ (engineStep s).cfg = s.cfg ∧ (engineStep s).sched = s.sched ∧
      (engineStep s).busData = s.busData) ∧
    (s.k ≠ .first .readBytefield → (engineStep s).fieldLen = s.fieldLen) ∧
    (s.k ≠ .first .parseHeader → s.k ≠ .first .decrypt → (∀ d p, s.k ≠ .header d p) →
      (engineStep s).hdrMagic = s.hdrMagic ∧ (engineStep s).hdrVersion = s.hdrVersion ∧
      (s.k ≠ .first .unwrap → (engineStep s).bufs = s.bufs)) ∧
    (s.Inv →
      (engineStep s).bufs.secret = s.bufs.secret ∧ (engineStep s).bufs.salt = s.bufs.salt ∧
      (s.k ≠ .first .unwrap → (∀ p, s.k ≠ .header true p) →
        (engineStep s).bufs.key = s.bufs.key ∧ (engineStep s).bufs.iv = s.bufs.iv))

/-- 20_memory.md R61, 70_reset_and_hazards.md R340: while a command runs, no step of either agent but CLOSE and reset
changes its operands. The host changes no buffer and no parameter register, and the engine only what the header body and
UNWRAP write: UNWRAP keeps the buffers that it reads, and the other commands keep all of them. -/
def Obligations.OperandsAreFrozenWhileBusy : Prop :=
  ∀ s t : State, s.Inv → s.st = .busy → step s = .next t → fetch s.sched ≠ .command .close → fetch s.sched ≠ .reset →
    t.bufs.secret = s.bufs.secret ∧ t.bufs.salt = s.bufs.salt ∧ t.kdfIter = s.kdfIter ∧ t.kdfLen = s.kdfLen ∧
    t.bufSel = s.bufSel ∧ (fetch s.sched ≠ .engine → t.bufs = s.bufs) ∧
    (s.k ≠ .first .unwrap → s.k ≠ .first .parseHeader → s.k ≠ .first .decrypt → (∀ d p, s.k ≠ .header d p) →
      t.bufs = s.bufs) ∧
    (s.k = .first .unwrap → t.bufs = { s.bufs with key := t.bufs.key, iv := t.bufs.iv })

/-- 20_memory.md R62, R63: `pull()` and `push(b)`.
What follows EOF belongs to the same step (log 7), and a hold is lifted by the evaluation (log 8). -/
def Obligations.StreamPrimitives : Prop :=
  (∀ (s : State) (onByte : Byte → State → State) (onEof : State → State),
    (∀ (b : Byte) (rest : List Byte), s.inq = b :: rest →
      pull s onByte onEof = onByte b { s with inq := rest, inCount := s.inCount + 1, hold := .none }) ∧
    (s.inq = [] → s.inEnd = .eof → pull s onByte onEof = onEof { s with hold := .none }) ∧
    (s.inq = [] → s.inEnd = .ioerr → pull s onByte onEof = raise .inputError { s with hold := .none }) ∧
    (s.inq = [] → s.inEnd = .stillOpen → pull s onByte onEof = { s with hold := .input })) ∧
  (∀ (b : Byte) (s : State) (onPushed : State → State),
    (s.outq.length < s.cfg.outFifoDepth →
      push b s onPushed = onPushed { s with outq := s.outq ++ [b], outCount := s.outCount + 1, hold := .none }) ∧
    (¬ s.outq.length < s.cfg.outFifoDepth → push b s onPushed = { s with hold := .output }))

/-- 20_memory.md R62, R63, 70_reset_and_hazards.md R342: a step that ends in a hold leaves the engine there: the next engine
step changes nothing.
HOLD is the one of log 8. -/
def Obligations.HoldLastsUntilTheHostActs : Prop :=
  ∀ s : State, (engineStep s).hold ≠ .none → engineStep (engineStep s) = engineStep s

/-- 20_memory.md R71: an IN_DATA append or an end of input commutes with an engine step that does not find INQ empty, and
the pop of a byte of OUTQ commutes with one that does not find OUTQ full. -/
def Obligations.StreamsCommuteWithEngine : Prop :=
  (∀ s : State, s.inq ≠ [] →
    (∀ b : Byte,
      engineStep { s with inq := s.inq ++ [b] } = { engineStep s with inq := (engineStep s).inq ++ [b] }) ∧
    (∀ e : InEnd, engineStep { s with inEnd := e } = { engineStep s with inEnd := e })) ∧
  (∀ (s : State) (b : Byte) (rest : List Byte), s.outq = b :: rest → s.outq.length < s.cfg.outFifoDepth →
    engineStep { s with outq := rest } = { engineStep s with outq := (engineStep s).outq.tail })

/-- 20_memory.md R71: the bytes pushed, the final ERROR and IN_COUNT at the end of a command do not depend on the schedule.
Two schedules feed the same bytes and the same end of input to one running command, and drain OUTQ at any points; no
IN_DATA write is turned away. -/
def Obligations.ResultsDoNotDependOnSchedule : Prop :=
  ∀ (s t₁ t₂ : State) (a₁ b₁ a₂ b₂ : List Event) (v : Word), s.st = .busy →
    (∀ e ∈ a₁ ++ a₂, isFeeding e = true) → (∀ e ∈ b₁ ++ b₂, isDraining e = true) →
    a₁.flatMap fedBytes = a₂.flatMap fedBytes →
    Host.Core.run Sys2Proof.core (a₁.length + 1 + b₁.length)
      { s with sched := a₁ ++ [.host (busWrite .inCtrl v)] ++ b₁ } = .next t₁ →
    Host.Core.run Sys2Proof.core (a₂.length + 1 + b₂.length)
      { s with sched := a₂ ++ [.host (busWrite .inCtrl v)] ++ b₂ } = .next t₂ →
    t₁.st ≠ .busy → t₂.st ≠ .busy →
    t₁.err ≠ some .inOverflow → t₁.err ≠ some .inClosed → t₂.err ≠ some .inOverflow → t₂.err ≠ some .inClosed →
    pushedBytes (a₁.length + 1 + b₁.length) { s with sched := a₁ ++ [.host (busWrite .inCtrl v)] ++ b₁ } =
      pushedBytes (a₂.length + 1 + b₂.length) { s with sched := a₂ ++ [.host (busWrite .inCtrl v)] ++ b₂ } ∧
    t₁.st = t₂.st ∧ t₁.err = t₂.err ∧ t₁.inCount = t₂.inCount

/-- 70_reset_and_hazards.md R351: with its input ended and OUTQ drained, every command ends after finitely many engine
steps. -/
def Obligations.CommandsTerminate : Prop :=
  ∀ s : State, s.Inv → s.cfg.Valid → s.inEnd ≠ .stillOpen → ∃ n : Nat, (drainedRun n s).st ≠ .busy

/-! ### READ_BYTEFIELD and PARSE_HEADER -/

/-- 40_bytefield_header.md R101: READ_BYTEFIELD of a whole field. -/
def Obligations.ReadBytefieldCompletes : Prop :=
  ∀ (s : State) (data rest : List Byte), Ready s → data.length ≤ 255 → s.inq = byteField data ++ rest →
    s.outq.length + data.length ≤ s.cfg.outFifoDepth →
    ∃ t : State, exec .readBytefield s = .next t ∧
      engineRun (2 * data.length + 2) t =
        { releaseContexts s with
          st := .done, op := 0x01, inq := rest, inCount := s.inCount + BitVec.ofNat 32 (data.length + 1),
          fieldLen := BitVec.ofNat 8 data.length, outq := s.outq ++ data,
          outCount := s.outCount + BitVec.ofNat 32 data.length }

/-- 40_bytefield_header.md R101: a stream that ends inside the field gives TRUNCATED_FIELD. The data bytes before the end
stand in OUTQ, and FIELD_LEN is written if its byte was there.
The number of engine steps follows the model's reading that EOF is no step of its own (log 7). -/
def Obligations.ReadBytefieldTruncated : Prop :=
  ∀ (s : State) (n : Byte) (data : List Byte), Ready s → data.length < n.toNat → s.inq = n :: data → s.inEnd = .eof →
    s.outq.length + data.length ≤ s.cfg.outFifoDepth →
    (∃ t : State, exec .readBytefield s = .next t ∧
      engineRun (2 * data.length + 2) t =
        { releaseContexts s with
          st := .error, err := some .truncatedField, op := 0x01, inq := [],
          inCount := s.inCount + BitVec.ofNat 32 (data.length + 1), fieldLen := n, outq := s.outq ++ data,
          outCount := s.outCount + BitVec.ofNat 32 data.length }) ∧
    (∃ t : State, exec .readBytefield { s with inq := [] } = .next t ∧
      engineStep t =
        { releaseContexts s with st := .error, err := some .truncatedField, op := 0x01, inq := [] })

/-- 40_bytefield_header.md R103, R106, 30_encoding.md R87: PARSE_HEADER of a whole header. -/
def Obligations.ParseHeaderCompletes : Prop :=
  ∀ (s : State) (h : FileHeader) (rest : List Byte), Ready s → h.Fits → s.inq = h.bytes ++ rest →
    ∃ t : State, exec .parseHeader s = .next t ∧
      engineRun (h.bytes.length + 1) t =
        { releaseContexts s with
          st := .done, op := 0x02, inq := rest, inCount := s.inCount + BitVec.ofNat 32 h.bytes.length,
          hdrMagic := 0x0505, hdrVersion := 0x01,
          bufs := { s.bufs with
            hSalt := Buffer.ofBytes h.salt, hIv := Buffer.ofBytes h.iv, hSsalt := Buffer.ofBytes h.secretSalt,
            hSecrets := Buffer.ofBytes h.secrets } }

/-- 40_bytefield_header.md R104, R105, R107: a bad magic, or a version other than 1, in PARSE_HEADER and in DECRYPT,
whatever the buffers hold. -/
def Obligations.BadMagicOrVersionIsMalformedFile : Prop :=
  ∀ (s : State) (i : Instr) (rest : List Byte), Ready s → i = .parseHeader ∨ i = .decrypt →
    (∀ b0 b1 : Byte, s.inq = b0 :: b1 :: rest → ¬(b0 = 0x05 ∧ b1 = 0x05) →
      ∃ t : State, exec i s = .next t ∧
        engineRun 3 t =
          { releaseContexts s with
            st := .error, err := some .badMagic, op := opcodeOf i, inq := rest, inCount := s.inCount + 2,
            hdrMagic := b1 ++ b0, hdrVersion := 0,
            bufs := { s.bufs with hSalt := .zero, hIv := .zero, hSsalt := .zero, hSecrets := .zero } }) ∧
    (∀ v : Byte, s.inq = 0x05 :: 0x05 :: v :: rest → v ≠ 0x01 →
      ∃ t : State, exec i s = .next t ∧
        engineRun 4 t =
          { releaseContexts s with
            st := .error, err := some .unsupportedVersion, op := opcodeOf i, inq := rest, inCount := s.inCount + 3,
            hdrMagic := 0x0505, hdrVersion := v,
            bufs := { s.bufs with hSalt := .zero, hIv := .zero, hSsalt := .zero, hSecrets := .zero } })

/-- 40_bytefield_header.md R102, R103, R107, 92_eei_decisions.md D46: a stream that ends inside the header, in
PARSE_HEADER and in DECRYPT. Every byte that was there is consumed, the header registers and the four header buffers hold
what was received, and nothing is pushed. The data of the fields begin at offsets 4, 5 + n1, 6 + n1 + n2 and
7 + n1 + n2 + n3 (30_encoding.md R87).
The number of engine steps follows the model's reading that EOF is no step of its own (log 7). -/
def Obligations.TruncatedHeaderIsMalformedFile : Prop :=
  ∀ (s : State) (i : Instr) (h : FileHeader) (bytes : List Byte), Ready s → i = .parseHeader ∨ i = .decrypt → h.Fits →
    bytes <+: h.bytes → bytes ≠ h.bytes → s.inq = bytes → s.inEnd = .eof →
    ∃ t : State, exec i s = .next t ∧
      engineRun (bytes.length + 1) t =
        { releaseContexts s with
          st := .error, err := some .truncatedHeader, op := opcodeOf i, inq := [],
          inCount := s.inCount + BitVec.ofNat 32 bytes.length, hdrMagic := bytes.getD 1 0 ++ bytes.getD 0 0,
          hdrVersion := bytes.getD 2 0,
          bufs := { s.bufs with
            hSalt := Buffer.ofBytes (h.salt.take (bytes.length - 4)),
            hIv := Buffer.ofBytes (h.iv.take (bytes.length - (5 + h.salt.length))),
            hSsalt := Buffer.ofBytes (h.secretSalt.take (bytes.length - (6 + h.salt.length + h.iv.length))),
            hSecrets :=
              Buffer.ofBytes
                (h.secrets.take (bytes.length - (7 + h.salt.length + h.iv.length + h.secretSalt.length))) } }

/-! ### DERIVE_KEY -/

/-- 41_kdf.md R130: DERIVE_KEY with legal parameters. -/
def Obligations.DeriveKeyCompletes : Prop :=
  ∀ s : State, Ready s → s.kdfIter ≠ 0 → s.kdfLen ≠ 0 → s.outq.length + s.kdfLen.toNat ≤ s.cfg.outFifoDepth →
    ∃ t : State, exec .deriveKey s = .next t ∧
      engineRun (s.kdfLen.toNat + 1) t =
        { releaseContexts s with
          st := .done, op := 0x03,
          outq := s.outq ++ deriveKey (s.bufValue .secret) (s.bufValue .salt) s.kdfIter.toNat s.kdfLen.toNat,
          outCount := s.outCount + BitVec.ofNat 32 s.kdfLen.toNat }

/-- 41_kdf.md R127: the first `a` bytes of a derivation of `b` bytes are the derivation of `a` bytes. -/
def Obligations.DerivationsArePrefixes : Prop :=
  ∀ (p salt : List Byte) (c a b : Nat), a ≤ b → (deriveKey p salt c b).take a = deriveKey p salt c a

/-- 41_kdf.md R121: the padding of SHA-1. -/
def Obligations.Sha1PaddingFillsBlocks : Prop :=
  ∀ m : List Byte, m.length < 2 ^ 61 → ∃ k : Nat,
    (m.length + 1 + k) % 64 = 56 ∧ (∀ j : Nat, j < k → (m.length + 1 + j) % 64 ≠ 56) ∧
    (∃ len : List Byte, sha1Pad m = m ++ [0x80] ++ List.replicate k 0 ++ len ∧ len.length = 8 ∧
      len.foldl (fun n b => n * 256 + b.toNat) 0 = 8 * m.length) ∧
    (sha1Pad m).length % 64 = 0

/-- 41_kdf.md R124, R126, R127, 42_aes_cbc.md R160, 45_inflate.md R260, 95_test_vectors.md V-HMAC-1 to V-HMAC-3, V-KDF-1,
V-KDF-2, V-KDF-6, V-KDF-11, V-INF-1, V-INF-4, V-INF-6, V-INF-7, V-INF-9 and V-INF-19 to V-INF-22: the digests, MACs, derived
keys, decryptions and decompressions that the spec gives. An INFLATE vector is run from reset, and says what is pushed, the
error, and IN_COUNT. -/
def Obligations.KnownAnswers : Prop :=
  sha1 [0x61, 0x62, 0x63] =
    [0xa9, 0x99, 0x3e, 0x36, 0x47, 0x06, 0x81, 0x6a, 0xba, 0x3e, 0x25, 0x71, 0x78, 0x50, 0xc2, 0x6c, 0x9c, 0xd0, 0xd8,
      0x9d] ∧
  sha1 [] =
    [0xda, 0x39, 0xa3, 0xee, 0x5e, 0x6b, 0x4b, 0x0d, 0x32, 0x55, 0xbf, 0xef, 0x95, 0x60, 0x18, 0x90, 0xaf, 0xd8, 0x07,
      0x09] ∧
  hmac (List.replicate 20 0x0b)
      [0x48, 0x69, 0x20, 0x54, 0x68, 0x65, 0x72, 0x65] =
    [0xb6, 0x17, 0x31, 0x86, 0x55, 0x05, 0x72, 0x64, 0xe2, 0x8b, 0xc0, 0xb6, 0xfb, 0x37, 0x8c, 0x8e, 0xf1,
      0x46, 0xbe, 0x00] ∧
  hmac [0x4a, 0x65, 0x66, 0x65]
      [0x77, 0x68, 0x61, 0x74, 0x20, 0x64, 0x6f, 0x20, 0x79, 0x61, 0x20, 0x77, 0x61, 0x6e, 0x74, 0x20, 0x66,
        0x6f, 0x72, 0x20, 0x6e, 0x6f, 0x74, 0x68, 0x69, 0x6e, 0x67, 0x3f] =
    [0xef, 0xfc, 0xdf, 0x6a, 0xe5, 0xeb, 0x2f, 0xa2, 0xd2, 0x74, 0x16, 0xd5, 0xf1, 0x84, 0xdf, 0x9c, 0x25,
      0x9a, 0x7c, 0x79] ∧
  hmac (List.replicate 80 0xaa)
      [0x54, 0x65, 0x73, 0x74, 0x20, 0x55, 0x73, 0x69, 0x6e, 0x67, 0x20, 0x4c, 0x61, 0x72, 0x67, 0x65, 0x72,
        0x20, 0x54, 0x68, 0x61, 0x6e, 0x20, 0x42, 0x6c, 0x6f, 0x63, 0x6b, 0x2d, 0x53, 0x69, 0x7a, 0x65, 0x20,
        0x4b, 0x65, 0x79, 0x20, 0x2d, 0x20, 0x48, 0x61, 0x73, 0x68, 0x20, 0x4b, 0x65, 0x79, 0x20, 0x46, 0x69,
        0x72, 0x73, 0x74] =
    [0xaa, 0x4a, 0xe5, 0xe1, 0x52, 0x72, 0xd0, 0x0e, 0x95, 0x70, 0x56, 0x37, 0xce, 0x8a, 0x3b, 0x55, 0xed,
      0x40, 0x21, 0x12] ∧
  deriveKey [0x70, 0x61, 0x73, 0x73, 0x77, 0x6f, 0x72, 0x64] [0x73, 0x61, 0x6c, 0x74] 1 20 =
    [0x0c, 0x60, 0xc8, 0x0f, 0x96, 0x1f, 0x0e, 0x71, 0xf3, 0xa9, 0xb5, 0x24, 0xaf, 0x60, 0x12, 0x06, 0x2f,
      0xe0, 0x37, 0xa6] ∧
  deriveKey [0x70, 0x61, 0x73, 0x73, 0x77, 0x6f, 0x72, 0x64] [0x73, 0x61, 0x6c, 0x74] 2 20 =
    [0xea, 0x6c, 0x01, 0x4d, 0xc7, 0x2d, 0x6f, 0x8c, 0xcd, 0x1e, 0xd9, 0x2a, 0xce, 0x1d, 0x41, 0xf0, 0xd8,
      0xde, 0x89, 0x57] ∧
  deriveKey [] [] 1 32 =
    [0x1e, 0x43, 0x7a, 0x1c, 0x79, 0xd7, 0x5b, 0xe6, 0x1e, 0x91, 0x14, 0x1d, 0xae, 0x20, 0xaf, 0xfc, 0x48,
      0x92, 0xcc, 0x99, 0xab, 0xcc, 0x3f, 0xe7, 0x53, 0x88, 0x7b, 0xcc, 0xc8, 0x92, 0x01, 0x76] ∧
  deriveKey (List.replicate 100 0x00) [0x73, 0x61, 0x6c, 0x74] 1 20 =
    [0x5c, 0x48, 0xe7, 0x18, 0xd1, 0x4a, 0xad, 0x5e, 0xbc, 0xc0, 0xd9, 0xbc, 0x68, 0xaa, 0xfa, 0xa8, 0xeb,
      0x7c, 0x3d, 0x4c] ∧
  let plain : List Byte :=
    [0x00, 0x11, 0x22, 0x33, 0x44, 0x55, 0x66, 0x77, 0x88, 0x99, 0xaa, 0xbb, 0xcc, 0xdd, 0xee, 0xff]
  let key : Nat → List Byte := fun n => (List.range n).map fun i => BitVec.ofNat 8 i
  let inflates : List Byte → List Byte → Option Err → Word → Prop := fun input output e count =>
    ∃ t : State, exec .inflate { State.reset with inq := input, inEnd := .eof } = .next t ∧
      (engineRun (input.length + output.length + 1) t).outq = output ∧
      (engineRun (input.length + output.length + 1) t).err = e ∧
      (engineRun (input.length + output.length + 1) t).inCount = count ∧
      (engineRun (input.length + output.length + 1) t).st = if e = none then .done else .error
  (invCipher (keyExpansion (key 16)) 10 (Block.ofBytes
    [0x69, 0xc4, 0xe0, 0xd8, 0x6a, 0x7b, 0x04, 0x30, 0xd8, 0xcd, 0xb7, 0x80, 0x70, 0xb4, 0xc5, 0x5a])).bytes = plain ∧
  (invCipher (keyExpansion (key 24)) 12 (Block.ofBytes
    [0xdd, 0xa9, 0x7c, 0xa4, 0x86, 0x4c, 0xdf, 0xe0, 0x6e, 0xaf, 0x70, 0xa0, 0xec, 0x0d, 0x71, 0x91])).bytes = plain ∧
  (invCipher (keyExpansion (key 32)) 14 (Block.ofBytes
    [0x8e, 0xa2, 0xb7, 0xca, 0x51, 0x67, 0x45, 0xbf, 0xea, 0xfc, 0x49, 0x90, 0x4b, 0x49, 0x60, 0x89])).bytes = plain ∧
  inflates [0x78, 0x9c, 0x03, 0x00, 0x00, 0x00, 0x00, 0x01]
    [] none 8 ∧
  inflates [0x78, 0x9c, 0x4b, 0x4c, 0x4a, 0x4e, 0x04, 0x23, 0x00, 0x11, 0x3d, 0x03, 0x73]
    [0x61, 0x62, 0x63, 0x61, 0x62, 0x63, 0x61, 0x62, 0x63] none 13 ∧
  inflates [0x78, 0xda, 0x25, 0xc8, 0x81, 0x09, 0x00, 0x00, 0x0c, 0xc2, 0xb0, 0x5b, 0xe3, 0xff, 0x47, 0x0c, 0x3a,
      0x11, 0xc4, 0x6c, 0xc5, 0x68, 0xaa, 0x4e, 0x64, 0x39, 0x7b, 0x74, 0xd3, 0x8e, 0x12, 0xaf]
    [0x62, 0x62, 0x62, 0x62, 0x62, 0x62, 0x62, 0x61, 0x62, 0x61, 0x61, 0x62, 0x62, 0x62, 0x61, 0x62, 0x62,
      0x61, 0x62, 0x62, 0x61, 0x61, 0x61, 0x61, 0x62, 0x62, 0x62, 0x62, 0x61, 0x61, 0x62, 0x62, 0x61, 0x62,
      0x61, 0x62, 0x62, 0x62, 0x61, 0x61, 0x61, 0x62, 0x61, 0x61, 0x61, 0x62, 0x62, 0x62, 0x61] none 32 ∧
  inflates [0x78, 0x01, 0x00, 0x02, 0x00, 0xfd, 0xff, 0x61, 0x62, 0x4b, 0x06, 0x00, 0x02, 0x4d, 0x01, 0x27]
    [0x61, 0x62, 0x63] none 16 ∧
  inflates [0x78, 0x01, 0x07]
    [] (some .badBlockType) 3 ∧
  inflates [0x78, 0x01, 0x03, 0x02, 0x00, 0x00, 0x00, 0x00, 0x01]
    [] (some .distanceTooFar) 4 ∧
  inflates [0x78, 0x01, 0x1b, 0x03, 0x00, 0x00, 0x00, 0x00, 0x01]
    [] (some .badSymbol) 4 ∧
  inflates [0x78, 0x01, 0x4b, 0x04, 0x3e, 0x00, 0x00, 0x00, 0x00, 0x01]
    [0x61] (some .badSymbol) 5 ∧
  inflates [0x78, 0x01, 0xf5, 0x00, 0x00, 0x00, 0x00, 0x00, 0x00, 0x00, 0x00]
    [] (some .badCodeLengths) 5

/-! ### AES_CBC_DECRYPT -/

/-- 42_aes_cbc.md R165, R162: AES_CBC_DECRYPT of whole blocks up to EOF.
The number of engine steps follows the model's reading that EOF is no step of its own (log 7). -/
def Obligations.AesCbcDecryptCompletes : Prop :=
  ∀ (s : State) (m : Nat), Ready s → s.bufLen .key ∈ [16, 24, 32] → s.bufLen .iv = 16 → s.inq.length = 16 * m →
    s.inEnd = .eof → s.outq.length + 16 * m ≤ s.cfg.outFifoDepth →
    ∃ t : State, exec .aesCbcDecrypt s = .next t ∧
      engineRun (32 * m + 1) t =
        { releaseContexts s with
          st := .done, op := 0x04, inq := [], inCount := s.inCount + BitVec.ofNat 32 (16 * m),
          outq := s.outq ++ cbcDecrypt (s.bufValue .key) (s.bufValue .iv) s.inq,
          outCount := s.outCount + BitVec.ofNat 32 (16 * m) }

/-- 42_aes_cbc.md R165, R162: EOF inside a block gives PARTIAL_BLOCK. Every full block before it is pushed, and the
partial bytes are discarded.
The number of engine steps follows the model's reading that EOF is no step of its own (log 7). -/
def Obligations.AesCbcPartialBlock : Prop :=
  ∀ (s : State) (m : Nat) (full tail : List Byte), Ready s → s.bufLen .key ∈ [16, 24, 32] → s.bufLen .iv = 16 →
    full.length = 16 * m → 0 < tail.length → tail.length < 16 → s.inq = full ++ tail → s.inEnd = .eof →
    s.outq.length + 16 * m ≤ s.cfg.outFifoDepth →
    ∃ t : State, exec .aesCbcDecrypt s = .next t ∧
      engineRun (32 * m + tail.length + 1) t =
        { releaseContexts s with
          st := .error, err := some .partialBlock, op := 0x04, inq := [],
          inCount := s.inCount + BitVec.ofNat 32 (16 * m + tail.length),
          outq := s.outq ++ cbcDecrypt (s.bufValue .key) (s.bufValue .iv) full,
          outCount := s.outCount + BitVec.ofNat 32 (16 * m) }

/-- 41_kdf.md R130, 42_aes_cbc.md R163, R165, 44_payload_stream.md R200: the parameter checks of DERIVE_KEY, and those of
`loadCipher`, the key length first. They come before any pull and any push. -/
def Obligations.ParameterChecksComeFirst : Prop :=
  ∀ s : State, Ready s →
    (s.kdfIter = 0 ∨ s.kdfLen = 0 → ∃ t : State, exec .deriveKey s = .next t ∧
      engineStep t = { releaseContexts s with st := .error, err := some .badKdfParams, op := 0x03 }) ∧
    ∀ i : Instr, i = .aesCbcDecrypt ∨ i = .openPlaintext →
      (s.bufLen .key ∉ [16, 24, 32] → ∃ t : State, exec i s = .next t ∧
        engineStep t = { releaseContexts s with st := .error, err := some .badKeyLen, op := opcodeOf i }) ∧
      (s.bufLen .key ∈ [16, 24, 32] → s.bufLen .iv ≠ 16 → ∃ t : State, exec i s = .next t ∧
        engineStep t = { releaseContexts s with st := .error, err := some .badIvLen, op := opcodeOf i })

/-- 42_aes_cbc.md R161: every plaintext block is InvCipher of its ciphertext block XOR the ciphertext block before it (the
IV before the first), and the plaintext is as long as the ciphertext. -/
def Obligations.CbcBlockEquation : Prop :=
  ∀ (key iv bs : List Byte), key.length ∈ [16, 24, 32] → iv.length = 16 → bs.length % 16 = 0 →
    (cbcDecrypt key iv bs).length = bs.length ∧
    ∀ j : Nat, j < bs.length / 16 →
      ((cbcDecrypt key iv bs).drop (16 * j)).take 16 =
        ((invCipher (keyExpansion key) (roundsOf (key.length / 4)) (Block.ofBytes ((bs.drop (16 * j)).take 16))).xor
          (Block.ofBytes (if j = 0 then iv else (bs.drop (16 * (j - 1))).take 16))).bytes

/-- 42_aes_cbc.md R153: the key schedule. -/
def Obligations.KeyScheduleRecurrence : Prop :=
  ∀ (key : List Byte) (nk nr : Nat), (nk = 4 ∧ nr = 10) ∨ (nk = 6 ∧ nr = 12) ∨ (nk = 8 ∧ nr = 14) →
    key.length = 4 * nk →
    (keyExpansion key).length = 4 * (nr + 1) ∧
    (∀ i : Nat, i < nk → ∃ a b c d : Byte, (key.drop (4 * i)).take 4 = [a, b, c, d] ∧
      (keyExpansion key)[i]? = some { a0 := a, a1 := b, a2 := c, a3 := d }) ∧
    (∀ i : Nat, nk ≤ i → i < 4 * (nr + 1) → ∃ old prev : Column,
      (keyExpansion key)[i - nk]? = some old ∧ (keyExpansion key)[i - 1]? = some prev ∧
      (keyExpansion key)[i]? =
        some (old.xor
          (if i % nk = 0 then
            (subWord { a0 := prev.a1, a1 := prev.a2, a2 := prev.a3, a3 := prev.a0 }).xor
              { a0 := rcon (i / nk), a1 := 0, a2 := 0, a3 := 0 }
          else if nk = 8 ∧ i % nk = 4 then subWord prev
          else prev)))

/-- 42_aes_cbc.md R152: the S-box from the inverse in GF(2^8), and InvS as its inverse permutation. -/
def Obligations.SboxFromFieldInverse : Prop :=
  ∀ a : Byte,
    (∃ b : Byte, (a = 0 → b = 0) ∧ (a ≠ 0 → gfMul a b = 1) ∧
      sbox a = b ^^^ b.rotateLeft 1 ^^^ b.rotateLeft 2 ^^^ b.rotateLeft 3 ^^^ b.rotateLeft 4 ^^^ 0x63) ∧
    invSbox (sbox a) = a ∧ sbox (invSbox a) = a

/-! ### UNWRAP -/

/-- 43_unwrap.md R180, R183 to R190: UNWRAP with the right password.
Its body is one engine step (log 20). -/
def Obligations.UnwrapCompletes : Prop :=
  ∀ (s : State) (iiv ik ck extra : List Byte), Ready s → s.bufLen .hSecrets % 16 = 0 → s.bufLen .hIv = 16 →
    cbcDecrypt (deriveKey (s.bufValue .secret) (s.bufValue .hSalt) 10000 32) (s.bufValue .hIv) (s.bufValue .hSecrets) =
      byteField iiv ++ byteField ik ++ byteField ck ++ extra →
    iiv.length = 16 → ik.length ∈ [16, 24, 32] → 0 < ck.length → ck.length ≤ 255 →
    ck = deriveKey ik (s.bufValue .hSsalt) 1000 ck.length →
    ∃ t : State, exec .unwrap s = .next t ∧
      engineStep t =
        { releaseContexts s with
          st := .done, op := 0x05, bufs := { s.bufs with key := Buffer.ofBytes ik, iv := Buffer.ofBytes iiv } }

/-- 43_unwrap.md R180 to R189, 60_exceptions.md R306: the errors of UNWRAP in their order. On every one of them KEY and IV
keep their values, and so does everything else but STATE, OP, ERROR and the contexts.
The body is one engine step (log 20). -/
def Obligations.UnwrapErrorsInOrder : Prop :=
  ∀ s : State, Ready s →
    let pt :=
      cbcDecrypt (deriveKey (s.bufValue .secret) (s.bufValue .hSalt) 10000 32) (s.bufValue .hIv) (s.bufValue .hSecrets)
    let fails := fun e : Err =>
      ∃ t : State, exec .unwrap s = .next t ∧
        engineStep t = { releaseContexts s with st := .error, err := some e, op := 0x05 }
    (s.bufLen .hSecrets % 16 ≠ 0 → fails .secretsMisaligned) ∧
    (s.bufLen .hSecrets % 16 = 0 → s.bufLen .hIv ≠ 16 → fails .headerIvLen) ∧
    (s.bufLen .hSecrets % 16 = 0 → s.bufLen .hIv = 16 →
      (parseSecrets pt = none → fails .secretsTruncated) ∧
      ∀ iiv ik ck : List Byte, parseSecrets pt = some (iiv, ik, ck) →
        (ck = [] → fails .checksumEmpty) ∧
        (ck ≠ [] → ck ≠ deriveKey ik (s.bufValue .hSsalt) 1000 ck.length → fails .checksumMismatch) ∧
        (ck ≠ [] → ck = deriveKey ik (s.bufValue .hSsalt) 1000 ck.length →
          (ik.length ∉ [16, 24, 32] → fails .innerKeyLen) ∧
          (ik.length ∈ [16, 24, 32] → iiv.length ≠ 16 → fails .innerIvLen)))

/-- 43_unwrap.md R185, R188: the parse of the secrets succeeds exactly if the three fields fit, bytes after them are ignored,
and the comparison of two checksums of one length accepts equal ones only. -/
def Obligations.SecretsParseAndCompare : Prop :=
  (∀ pt iiv ik ck : List Byte,
    parseSecrets pt = some (iiv, ik, ck) ↔
      iiv.length ≤ 255 ∧ ik.length ≤ 255 ∧ ck.length ≤ 255 ∧
      ∃ extra : List Byte, pt = byteField iiv ++ byteField ik ++ byteField ck ++ extra) ∧
  (∀ x y : List Byte, x.length = y.length → (checksumDiff x y = 0 ↔ x = y))

/-! ### INFLATE, OPEN_PLAINTEXT and DECRYPT -/

/-- 45_inflate.md R232, R234, R250, R260: INFLATE of a zlib stream of one stored block. -/
def Obligations.InflateStoredCompletes : Prop :=
  ∀ (s : State) (data rest : List Byte), Ready s → data.length ≤ 65535 → s.inq = zlibStored data ++ rest →
    s.outq.length + data.length ≤ s.cfg.outFifoDepth →
    ∃ t : State, exec .inflate s = .next t ∧
      engineRun (2 * data.length + 12) t =
        { releaseContexts s with
          st := .done, op := 0x07, inq := rest, inCount := s.inCount + BitVec.ofNat 32 (data.length + 11),
          outq := s.outq ++ data, outCount := s.outCount + BitVec.ofNat 32 data.length }

/-- 45_inflate.md R260: INFLATE of a stored stream that ends early gives TRUNCATED_STREAM. Every byte that was there is
consumed, and the data bytes among them are pushed.
The number of engine steps follows the model's reading that EOF is no step of its own (log 7). -/
def Obligations.InflateTruncated : Prop :=
  ∀ (s : State) (data bytes : List Byte), Ready s → data.length ≤ 65535 → bytes <+: zlibStored data →
    bytes ≠ zlibStored data → s.inq = bytes → s.inEnd = .eof →
    s.outq.length + data.length ≤ s.cfg.outFifoDepth →
    ∃ t : State, exec .inflate s = .next t ∧
      engineRun (bytes.length + min (bytes.length - 7) data.length + 1) t =
        { releaseContexts s with
          st := .error, err := some .truncatedStream, op := 0x07, inq := [],
          inCount := s.inCount + BitVec.ofNat 32 bytes.length, outq := s.outq ++ data.take (bytes.length - 7),
          outCount := s.outCount + BitVec.ofNat 32 (min (bytes.length - 7) data.length) }

/-- 45_inflate.md R232, R250: a trailer that is not the Adler-32 of the output gives ADLER_MISMATCH, after all output. -/
def Obligations.InflateChecksAdler : Prop :=
  ∀ (s : State) (data rest : List Byte) (a b c d : Byte), Ready s → data.length ≤ 65535 →
    s.inq = (zlibStored data).take (data.length + 7) ++ [a, b, c, d] ++ rest →
    ((a.toNat * 256 + b.toNat) * 256 + c.toNat) * 256 + d.toNat ≠ adler32 data →
    s.outq.length + data.length ≤ s.cfg.outFifoDepth →
    ∃ t : State, exec .inflate s = .next t ∧
      engineRun (2 * data.length + 12) t =
        { releaseContexts s with
          st := .error, err := some .adlerMismatch, op := 0x07, inq := rest,
          inCount := s.inCount + BitVec.ofNat 32 (data.length + 11), outq := s.outq ++ data,
          outCount := s.outCount + BitVec.ofNat 32 data.length }

/-- 45_inflate.md R232, R234, R239: the checks of INFLATE up to the tables of a block.
From the command: the header checks, after both header bytes, BAD_ZLIB_HEADER before ZLIB_DICT; behind a good header,
BTYPE 3 is BAD_BLOCK_TYPE; a stored block whose LEN is not the complement of NLEN is STORED_LEN_MISMATCH, after NLEN; a
dynamic block of more than 286 literal/length or 30 distance codes is BAD_CODE_LENGTHS, after HCLEN.
In a dynamic block, whatever the byte source: after the last 3-bit length, a code-length code that is not complete is
BAD_CODE_LENGTHS, and else its table is built, the lengths in ORDER. A code-length symbol below 16 is one length; 16, 17
and 18 repeat the last length or zero, with 2, 3 and 7 extra bits. After the last length the two tables are built, or
BAD_CODE_LENGTHS if symbol 256 has no code or a code is not acceptable. Symbol 16 before any length is BAD_CODE_LENGTHS, and
so is a repeat beyond the last length. Where a step goes on, its clause has just the unread bits that are used up, so that
the step pulls the next byte `b`. -/
def Obligations.InflateChecksHeaderAndBlocks : Prop :=
  (∀ (s : State) (cmf flg : Byte) (rest : List Byte), Ready s → s.inq = cmf :: flg :: rest →
    let bad :=
      (cmf.toNat * 256 + flg.toNat) % 31 ≠ 0 ∨ (cmf.extractLsb' 0 4).toNat ≠ 8 ∨ (cmf.extractLsb' 4 4).toNat > 7
    let fails := fun (n : Nat) (e : Err) =>
      ∃ t : State, exec .inflate s = .next t ∧
        engineRun (n + 1) t =
          { releaseContexts s with
            st := .error, err := some e, op := 0x07, inq := s.inq.drop n, inCount := s.inCount + BitVec.ofNat 32 n }
    (bad → fails 2 .badZlibHeader) ∧ (¬ bad → flg.getLsbD 5 = true → fails 2 .zlibDict) ∧
    (¬ bad → flg.getLsbD 5 = false → ∀ (b0 : Byte) (r0 : List Byte), rest = b0 :: r0 →
      ((b0.extractLsb' 1 2).toNat = 3 → fails 3 .badBlockType) ∧
      ((b0.extractLsb' 1 2).toNat = 0 → ∀ (l0 l1 n0 n1 : Byte) (r1 : List Byte), r0 = l0 :: l1 :: n0 :: n1 :: r1 →
        l1 ++ l0 ≠ ~~~(n1 ++ n0) → fails 7 .storedLenMismatch) ∧
      ((b0.extractLsb' 1 2).toNat = 2 → ∀ (b1 b2 : Byte) (r1 : List Byte), r0 = b1 :: b2 :: r1 →
        (b0.extractLsb' 3 5).toNat + 257 > 286 ∨ (b1.extractLsb' 0 5).toNat + 1 > 30 → fails 5 .badCodeLengths))) ∧
  ∀ (s : State) (src : Source) (hlit hdist : Nat) (lens : List Nat) (b : Byte) (rest : List Byte), s.st = .busy →
    (∀ l ∈ lens, l ≤ 15) →
    let goesOn := fun (n : Nat) => src = .raw ∧ s.z.bitcnt = n ∧ s.inq = b :: rest
    let pulls := fun (z : InflateCtx) (p : ZPoint) =>
      engineStep s =
        { s with inq := rest, inCount := s.inCount + 1, hold := .none, z := z, k := .inflate .raw p (some b) }
    let ends := fun (all : List Nat) (n : Nat) =>
      (all.getD 256 0 = 0 ∨ ¬ CodeAccepted (all.take hlit) ∨ ¬ CodeAccepted (all.drop hlit) →
        engineStep s = raise .badCodeLengths s) ∧
      (all.getD 256 0 ≠ 0 → CodeAccepted (all.take hlit) → CodeAccepted (all.drop hlit) → goesOn n →
        ∃ (left left' : Nat) (lit dist : HTable), buildCode (all.take hlit) = some (left, lit) ∧
          buildCode (all.drop hlit) = some (left', dist) ∧
          pulls { dropBits s.z n with lit := lit, dist := dist } (.sym symStart))
    (s.k = .inflate src (.clens hlit hdist 1 lens) none → 3 ≤ s.z.bitcnt → lens.length < 19 →
      (codeSpace (lens ++ [bitsBehind s.z 0 3]) ≠ 2 ^ 15 → engineStep s = raise .badCodeLengths s) ∧
      (codeSpace (lens ++ [bitsBehind s.z 0 3]) = 2 ^ 15 → goesOn 3 → ∃ (cl : List Nat) (t : HTable),
        cl.length = 19 ∧
        (∀ i : Nat, i < 19 → cl.getD (codeLengthOrder.getD i 0) 0 = (lens ++ [bitsBehind s.z 0 3]).getD i 0) ∧
        buildCode cl = some (0, t) ∧ pulls { dropBits s.z 3 with clen := t } (.lens hlit hdist [] symStart))) ∧
    (∀ x l : Nat, s.k = .inflate src (.lens hlit hdist lens symStart) none → CodeIsNext s.z s.z.clen x l →
      (x < 16 → lens.length + 1 < hlit + hdist → goesOn l →
        pulls (dropBits s.z l) (.lens hlit hdist (lens ++ [x]) symStart)) ∧
      (x < 16 → lens.length + 1 = hlit + hdist → ends (lens ++ [x]) l) ∧
      (x = 16 → lens = [] → engineStep s = raise .badCodeLengths s) ∧
      (16 ≤ x → ¬(x = 16 ∧ lens = []) → goesOn l → pulls (dropBits s.z l) (.rep hlit hdist lens x))) ∧
    ∀ x n : Nat, s.k = .inflate src (.rep hlit hdist lens x) none →
      (x = 16 ∧ n = 2) ∨ (x = 17 ∧ n = 3) ∨ (x = 18 ∧ n = 7) → n ≤ s.z.bitcnt →
      let all :=
        lens ++ List.replicate ((if x = 18 then 11 else 3) + bitsBehind s.z 0 n) (if x = 16 then lens.getLastD 0 else 0)
      (all.length > hlit + hdist → engineStep s = raise .badCodeLengths s) ∧
      (all.length = hlit + hdist → ends all n) ∧
      (all.length < hlit + hdist → goesOn n → pulls (dropBits s.z n) (.lens hlit hdist all symStart))

/-- 45_inflate.md R231: the bit reader is exact. With `n` of at most 13 bits asked for and fewer than 13 unread, a byte goes
in above the unread bits, and the low bits come out first. -/
def Obligations.BitReaderIsExact : Prop :=
  ∀ (z : InflateCtx) (b : Byte) (n : Nat), z.bitbuf.toNat < 2 ^ z.bitcnt → z.bitcnt ≤ 24 →
    (z.bitcnt < 13 → (feedBits z b).bitbuf.toNat = z.bitbuf.toNat + b.toNat * 2 ^ z.bitcnt ∧
      (feedBits z b).bitcnt = z.bitcnt + 8) ∧
    (n ≤ 13 → n ≤ z.bitcnt →
      peekBits z n = z.bitbuf.toNat % 2 ^ n ∧ (dropBits z n).bitbuf.toNat = z.bitbuf.toNat / 2 ^ n ∧
      (dropBits z n).bitcnt = z.bitcnt - n)

/-- 45_inflate.md R236, R237: for every code that `build` does not reject, `decode` reads the canonical code of every used
symbol as that symbol, and not before the last of its bits. -/
def Obligations.CanonicalCodesDecode : Prop :=
  ∀ (lens : List Nat) (left : Nat) (t : HTable) (x : Nat), (∀ l ∈ lens, l ≤ 15) → buildCode lens = some (left, t) →
    x < lens.length → lens.getD x 0 ≠ 0 →
    decodeBits t symStart (codeBits (lens.getD x 0) (canonicalCode lens x)) = .symbol x ∧
    ∀ n : Nat, n < lens.getD x 0 →
      ∃ d : SymDec, decodeBits t symStart ((codeBits (lens.getD x 0) (canonicalCode lens x)).take n) = .more d

/-- 45_inflate.md R237, R241, R242, R243, R233: the symbols of a compressed block, whatever its tables. A literal is output;
256 ends the block, and the final block leads to the trailer with the rest of the byte discarded; 257 to 285 are a length,
LBASE plus LEXT extra bits; 286 and above are BAD_SYMBOL. A distance symbol of 30 and above is BAD_SYMBOL; below, the
distance is DBASE plus DEXT extra bits, and DISTANCE_TOO_FAR if it is above the number of bytes output, else the copy begins.
Where 15 bits form no code, it is BAD_SYMBOL.
A copy in progress pushes byte after byte, each the one `distance` positions before the end, so that it repeats bytes it has
just written. Where a symbol pushes nothing and is no error, its clause has just the unread bits that are used up, so that
the step pulls the next byte `b`. -/
def Obligations.CompressedBlockSymbolsAndCopies : Prop :=
  (∀ (s : State) (src : Source) (x l : Nat) (b : Byte) (rest : List Byte), s.st = .busy →
    let outputs := fun (z : InflateCtx) (c : Byte) (p : ZPoint) =>
      s.outq.length < s.cfg.outFifoDepth →
        engineStep s =
          { s with
            outq := s.outq ++ [c], outCount := s.outCount + 1, hold := .none, z := recordOut z c,
            k := .inflate src p none }
    let pulls := fun (z : InflateCtx) (p : ZPoint) =>
      src = .raw → s.inq = b :: rest →
        engineStep s =
          { s with inq := rest, inCount := s.inCount + 1, hold := .none, z := z, k := .inflate .raw p (some b) }
    (s.k = .inflate src (.sym symStart) none → CodeIsNext s.z s.z.lit x l →
      (x < 256 → outputs (dropBits s.z l) (BitVec.ofNat 8 x) (.sym symStart)) ∧
      (x = 256 → s.z.bfinal = true → pulls (byteAlign s.z) (.trailer 0 0)) ∧
      (x = 256 → s.z.bfinal = false → s.z.bitcnt = l → pulls (dropBits s.z l) .bfinal) ∧
      (257 ≤ x → x < 286 → s.z.bitcnt = l + lengthExtra.getD (x - 257) 0 →
        pulls (dropBits s.z (l + lengthExtra.getD (x - 257) 0))
          (.dsym (lengthBase.getD (x - 257) 0 + bitsBehind s.z l (lengthExtra.getD (x - 257) 0)) symStart)) ∧
      (286 ≤ x → engineStep s = raise .badSymbol s)) ∧
    ∀ n : Nat, s.k = .inflate src (.dsym n symStart) none → CodeIsNext s.z s.z.dist x l →
      (30 ≤ x → engineStep s = raise .badSymbol s) ∧
      (x < 30 → l + distExtra.getD x 0 ≤ s.z.bitcnt →
        let distance := distBase.getD x 0 + bitsBehind s.z l (distExtra.getD x 0)
        (s.z.total < distance → engineStep s = raise .distanceTooFar s) ∧
        (distance ≤ s.z.total →
          outputs (dropBits s.z (l + distExtra.getD x 0)) (s.z.hist.getD (distance - 1) 0)
            (if n ≤ 1 then .sym symStart else .copy (n - 1) distance)))) ∧
  (∀ (s : State) (src : Source) (n : Nat), s.st = .busy →
    (s.k = .inflate src (.sym symStart) none ∧ NoCodeIsNext s.z s.z.lit) ∨
      (s.k = .inflate src (.dsym n symStart) none ∧ NoCodeIsNext s.z s.z.dist) →
    engineStep s = raise .badSymbol s) ∧
  ∀ (s : State) (src : Source) (n distance : Nat), s.st = .busy → 0 < n → 1 ≤ distance →
    distance ≤ s.z.hist.length → s.z.hist.length ≤ 32768 → s.k = .inflate src (.copy n distance) none →
    s.outq.length + n ≤ s.cfg.outFifoDepth →
    (engineRun n s).outq = s.outq ++ lzCopy n distance s.z.hist ∧
    (engineRun n s).z.total = s.z.total + n ∧
    ((engineRun n s).z.s1, (engineRun n s).z.s2) = adlerSums (s.z.s1, s.z.s2) (lzCopy n distance s.z.hist) ∧
    (engineRun n s).k = .inflate src (.sym symStart) none ∧
    (engineRun n s).inq = s.inq ∧ (engineRun n s).bufs = s.bufs

/-- 44_payload_stream.md R200 to R205: OPEN_PLAINTEXT of a payload whose plaintext is a stored zlib stream and less than one
block of further bytes. It pulls the whole blocks that the stream needs, and no byte more. -/
def Obligations.OpenPlaintextStoredCompletes : Prop :=
  ∀ (s : State) (cipher data extra rest : List Byte), Ready s → s.bufLen .key ∈ [16, 24, 32] → s.bufLen .iv = 16 →
    cipher.length % 16 = 0 →
    cbcDecrypt (s.bufValue .key) (s.bufValue .iv) cipher = zlibStored data ++ extra → extra.length < 16 →
    data.length ≤ 65535 → s.inq = cipher ++ rest → s.outq.length + data.length ≤ s.cfg.outFifoDepth →
    ∃ t : State, exec .openPlaintext s = .next t ∧
      engineRun (cipher.length + data.length + 1) t =
        { releaseContexts s with
          st := .done, op := 0x06, inq := rest, inCount := s.inCount + BitVec.ofNat 32 cipher.length,
          outq := s.outq ++ data, outCount := s.outCount + BitVec.ofNat 32 data.length }

/-- 44_payload_stream.md R202: a payload of less than one block. EOF at the block boundary gives TRUNCATED_STREAM, EOF
inside the block gives PARTIAL_BLOCK, and nothing is pushed.
The number of engine steps follows the model's reading that EOF is no step of its own (log 7). -/
def Obligations.OpenPlaintextShortPayload : Prop :=
  ∀ s : State, Ready s → s.bufLen .key ∈ [16, 24, 32] → s.bufLen .iv = 16 → s.inq.length < 16 → s.inEnd = .eof →
    ∃ t : State, exec .openPlaintext s = .next t ∧
      engineRun (s.inq.length + 1) t =
        { releaseContexts s with
          st := .error, err := some (if s.inq = [] then .truncatedStream else .partialBlock), op := 0x06, inq := [],
          inCount := s.inCount + BitVec.ofNat 32 s.inq.length }

/-- 44_payload_stream.md R210, R205, 30_encoding.md R87, R89: DECRYPT of a whole database file with the right password: the
header is parsed, the secrets unwrapped, and the payload, whose plaintext is a stored zlib stream, decrypted and
inflated. -/
def Obligations.DecryptStoredCompletes : Prop :=
  ∀ (s : State) (h : FileHeader) (iiv ik ck spare cipher data extra rest : List Byte), Ready s → h.Fits →
    s.inq = h.bytes ++ cipher ++ rest → h.secrets.length % 16 = 0 → h.iv.length = 16 →
    cbcDecrypt (deriveKey (s.bufValue .secret) h.salt 10000 32) h.iv h.secrets =
      byteField iiv ++ byteField ik ++ byteField ck ++ spare →
    iiv.length = 16 → ik.length ∈ [16, 24, 32] → 0 < ck.length → ck.length ≤ 255 →
    ck = deriveKey ik h.secretSalt 1000 ck.length →
    cipher.length % 16 = 0 → cbcDecrypt ik iiv cipher = zlibStored data ++ extra → extra.length < 16 →
    data.length ≤ 65535 → s.outq.length + data.length ≤ s.cfg.outFifoDepth →
    ∃ t : State, exec .decrypt s = .next t ∧
      engineRun (h.bytes.length + cipher.length + data.length + 1) t =
        { releaseContexts s with
          st := .done, op := 0x08, inq := rest,
          inCount := s.inCount + BitVec.ofNat 32 (h.bytes.length + cipher.length), hdrMagic := 0x0505,
          hdrVersion := 0x01, outq := s.outq ++ data, outCount := s.outCount + BitVec.ofNat 32 data.length,
          bufs := { s.bufs with
            hSalt := Buffer.ofBytes h.salt, hIv := Buffer.ofBytes h.iv, hSsalt := Buffer.ofBytes h.secretSalt,
            hSecrets := Buffer.ofBytes h.secrets, key := Buffer.ofBytes ik, iv := Buffer.ofBytes iiv } }

/-- 44_payload_stream.md R211: DECRYPT is PARSE_HEADER, then UNWRAP, then OPEN_PLAINTEXT, each issued after the previous one
reaches DONE; the first command that ends in ERROR ends both in the same state. The states differ in OP only. -/
def Obligations.DecryptIsTheThreeCommands : Prop :=
  ∀ s : State, s.Inv → Ready s → ∃ p d : State, exec .parseHeader s = .next p ∧ exec .decrypt s = .next d ∧
    (∀ n : Nat, (engineRun n p).st = .error → engineRun n d = { engineRun n p with op := 0x08 }) ∧
    (∀ n : Nat, (engineRun n p).st = .busy → (engineRun (n + 1) p).st = .done →
      ∃ u : State, exec .unwrap (engineRun (n + 1) p) = .next u ∧
        ((engineStep u).st = .error → engineRun (n + 1) d = { engineStep u with op := 0x08 }) ∧
        ((engineStep u).st = .done →
          ∃ o : State, exec .openPlaintext (engineStep u) = .next o ∧
            ∀ m : Nat, engineRun (n + 1 + m) d = { engineRun (m + 1) o with op := 0x08 }))

/-! ### The register window -/

/-- 20_memory.md R64: an access that is not 32 bits wide or not aligned does BAD_ACCESS and nothing else. A legal access to
a reserved offset is RAZ/WI, and a legal access never raises BAD_ACCESS. -/
def Obligations.BadAccessRaises : Prop :=
  ∀ (s : State) (tx : HostTx), tx.offset < 256 →
    (tx.width ≠ 4 ∨ tx.offset % 4 ≠ 0 →
      step (s.withEvent (.host tx)) =
        .next (match tx.kind with
          | .read => { raise .badAccess s with busData := 0 }
          | .write => raise .badAccess s)) ∧
    (tx.width = 4 → tx.offset % 4 = 0 → 0x5C ≤ tx.offset →
      step (s.withEvent (.host tx)) =
        .next (match tx.kind with
          | .read => { s with busData := 0 }
          | .write => s)) ∧
    (tx.width = 4 → tx.offset % 4 = 0 → ∀ t : State, step (s.withEvent (.host tx)) = .next t →
      t.err = some .badAccess → s.err = some .badAccess)

/-- 20_memory.md R60, R69: the window has the offsets 0x00 to 0xFF. An access outside it stops the machine (the model's
choice, log 12), and no other step stops. -/
def Obligations.OnlyAccessesOutsideTheWindowStop : Prop :=
  (∀ (s : State) (tx : HostTx), 256 ≤ tx.offset → step (s.withEvent (.host tx)) = .fault .outsideWindow) ∧
  (∀ s : State, (∃ t : State, step s = .next t) ∨
    ∃ (tx : HostTx) (rest : List Event), s.sched = .host tx :: rest ∧ 256 ≤ tx.offset ∧ step s = .fault .outsideWindow)

/-- 10_state.md R30, R31: IN_DATA and IN_CTRL.
That an accepted IN_DATA write and an IN_CTRL write leave HOLD, and so STATUS.IN_WAIT, until the engine's next evaluation of
`pull()` is the model's choice (log 8): 20_memory.md R62 and 10_state.md R50 can be read as the write itself lifting the
hold. -/
def Obligations.InputPortAccesses : Prop :=
  ∀ (s : State) (v : Word),
    step (s.withEvent (.host (busWrite .inData v))) =
      .next (if s.inEnd ≠ .stillOpen then raise .inClosed s
        else if s.inq.length = s.cfg.inFifoDepth then raise .inOverflow s
        else { s with inq := s.inq ++ [v.extractLsb' 0 8] }) ∧
    step (s.withEvent (.host (busRead .inData))) = .next { s with busData := 0 } ∧
    step (s.withEvent (.host (busWrite .inCtrl v))) =
      .next (if s.inEnd = .stillOpen then
          (if v.getLsbD 1 = true then { s with inEnd := .ioerr }
            else if v.getLsbD 0 = true then { s with inEnd := .eof }
            else s)
        else s) ∧
    step (s.withEvent (.host (busRead .inCtrl))) =
      .next { s with
        busData := match s.inEnd with
          | .stillOpen => 0
          | .eof => 1
          | .ioerr => 2 }

/-- 10_state.md R23 to R25, R27 to R29, R33, R41, R42, 20_memory.md R65: an OUT_DATA read pops a byte; what the reads of the
registers without a statement of their own return; every register read but those of OUT_DATA and BUF_DATA leaves the engine
as it is; and writes of the read-only registers and of OUT_DATA are ignored.
That the pop leaves HOLD, and so STATUS.OUT_WAIT, until the engine's next evaluation of `push` is the model's choice (log 8):
20_memory.md R63 and 10_state.md R50 can be read as the pop itself lifting the hold. -/
def Obligations.ReadsAndTheirSideEffects : Prop :=
  ∀ (s : State) (v : Word),
    (∀ (b : Byte) (rest : List Byte), s.outq = b :: rest →
      step (s.withEvent (.host (busRead .outData))) =
        .next { s with outq := rest, busData := (1 <<< 8) ||| b.setWidth 32 }) ∧
    (s.outq = [] → step (s.withEvent (.host (busRead .outData))) = .next { s with busData := 0 }) ∧
    (∀ r : Reg, r ≠ .outData → r ≠ .bufData →
      ∃ w : Word, step (s.withEvent (.host (busRead r))) = .next { s with busData := w } ∧
        (r = .id → w = 0x53494344) ∧
        (r = .version → w = 0x00000101) ∧
        (r = .cmd → w = 0) ∧
        (r = .error →
          w.extractLsb' 0 8 = s.errKind ∧ w.extractLsb' 8 8 = s.errReason ∧ w.extractLsb' 16 16 = 0) ∧
        (r = .intEn → w.extractLsb' 0 4 = s.intEn ∧ w.extractLsb' 4 28 = 0) ∧
        (r = .intStatus →
          w.getLsbD 0 = decide (s.st = .done) ∧ w.getLsbD 1 = decide (s.st = .error) ∧
          w.getLsbD 2 = decide (0 < s.outq.length) ∧
          w.getLsbD 3 = decide (s.inq.length < s.cfg.inFifoDepth ∧ s.inEnd = .stillOpen) ∧ w.extractLsb' 4 28 = 0) ∧
        (r = .hdrMagic → w.extractLsb' 0 16 = s.hdrMagic ∧ w.extractLsb' 16 16 = 0) ∧
        (r = .hdrVersion → w.extractLsb' 0 8 = s.hdrVersion ∧ w.extractLsb' 8 24 = 0) ∧
        (r = .fieldLen → w.extractLsb' 0 8 = s.fieldLen ∧ w.extractLsb' 8 24 = 0) ∧
        (r = .inCount → w = s.inCount) ∧
        (r = .outCount → w = s.outCount)) ∧
    ∀ r : Reg,
      r ∈ [Reg.id, .version, .status, .error, .intStatus, .inLevel, .outData, .outLevel, .hdrMagic, .hdrVersion,
        .fieldLen, .inCount, .outCount] →
      step (s.withEvent (.host (busWrite r v))) = .next s

/-- 10_state.md R35, R36, R37, R39: the writes of BUF_SEL, BUF_LEN, BUF_PTR, KDF_ITER and KDF_LEN while no command runs, and
their reads. The whole 32-bit value of BUF_LEN and BUF_PTR is compared with CAP. -/
def Obligations.ParameterRegisterAccesses : Prop :=
  ∀ (s : State) (v : Word),
    (s.st ≠ .busy →
      step (s.withEvent (.host (busWrite .bufSel v))) = .next { s with bufSel := v.extractLsb' 0 3, bufPtr := 0 } ∧
      (v.toNat ≤ bufCap s.cfg s.selected →
        step (s.withEvent (.host (busWrite .bufLen v))) =
          .next { s with bufs := s.bufs.set s.selected { s.bufs.get s.selected with len := v.toNat } } ∧
        step (s.withEvent (.host (busWrite .bufPtr v))) = .next { s with bufPtr := v.toNat }) ∧
      (v.toNat > bufCap s.cfg s.selected →
        step (s.withEvent (.host (busWrite .bufLen v))) = .next (raise .bufRange s) ∧
        step (s.withEvent (.host (busWrite .bufPtr v))) = .next (raise .bufRange s)) ∧
      step (s.withEvent (.host (busWrite .kdfIter v))) = .next { s with kdfIter := v } ∧
      step (s.withEvent (.host (busWrite .kdfLen v))) = .next { s with kdfLen := v.extractLsb' 0 8 }) ∧
    step (s.withEvent (.host (busRead .bufSel))) = .next { s with busData := s.bufSel.setWidth 32 } ∧
    (s.Inv → s.cfg.Valid →
      step (s.withEvent (.host (busRead .bufLen))) = .next { s with busData := BitVec.ofNat 32 (s.bufLen s.selected) } ∧
      step (s.withEvent (.host (busRead .bufPtr))) = .next { s with busData := BitVec.ofNat 32 s.bufPtr }) ∧
    step (s.withEvent (.host (busRead .kdfIter))) = .next { s with busData := s.kdfIter } ∧
    step (s.withEvent (.host (busRead .kdfLen))) = .next { s with busData := s.kdfLen.setWidth 32 }

/-- 10_state.md R38: BUF_DATA. A read answers a byte only of a readable buffer, within its length, while no command runs. -/
def Obligations.BufDataReadsAndWrites : Prop :=
  ∀ (s : State) (v : Word),
    (s.st ≠ .busy → s.selected ∉ [BufId.secret, .key, .iv] → s.bufPtr < s.bufLen s.selected →
      step (s.withEvent (.host (busRead .bufData))) =
        .next { s with bufPtr := s.bufPtr + 1, busData := (1 <<< 8) ||| (s.bufByte s.selected s.bufPtr).setWidth 32 }) ∧
    (s.st = .busy ∨ s.selected ∈ [BufId.secret, .key, .iv] ∨ s.bufLen s.selected ≤ s.bufPtr →
      step (s.withEvent (.host (busRead .bufData))) = .next { s with busData := 0 }) ∧
    (s.st ≠ .busy → s.bufPtr ≥ bufCap s.cfg s.selected →
      step (s.withEvent (.host (busWrite .bufData v))) = .next (raise .bufRange s)) ∧
    (s.st ≠ .busy → s.bufPtr < bufCap s.cfg s.selected → s.Inv →
      ∃ t : State, step (s.withEvent (.host (busWrite .bufData v))) = .next t ∧
        t = { s with bufPtr := s.bufPtr + 1, bufs := t.bufs } ∧
        t.bufByte s.selected s.bufPtr = v.extractLsb' 0 8 ∧
        t.bufLen s.selected = max (s.bufLen s.selected) (s.bufPtr + 1) ∧
        (∀ i : Nat, i ≠ s.bufPtr → t.bufByte s.selected i = s.bufByte s.selected i) ∧
        ∀ id : BufId, id ≠ s.selected → t.bufs.get id = s.bufs.get id) ∧
    (s.st = .busy → step (s.withEvent (.host (busWrite .bufData v))) = .next (raise .regBusy s))

/-- 70_reset_and_hazards.md R340: a buffer or parameter write while BUSY raises REG_BUSY, which aborts the command. -/
def Obligations.WritesWhileBusyRaise : Prop :=
  ∀ (s : State) (r : Reg) (v : Word), s.st = .busy → r ∈ [Reg.bufSel, .bufLen, .bufPtr, .bufData, .kdfIter, .kdfLen] →
    step (s.withEvent (.host (busWrite r v))) =
      .next { releaseContexts s with st := .error, err := some .regBusy }

/-- 30_encoding.md R91, 10_state.md R35, R36, R38: `load BUF, "..."` makes the bytes the buffer's value, for readable and
unreadable buffers, and changes no other buffer and no byte past them. -/
def Obligations.LoadFillsTheBuffer : Prop :=
  ∀ (s : State) (id : BufId) (bytes : List Byte), s.Inv → s.st ≠ .busy → bytes.length ≤ bufCap s.cfg id →
    ∃ t : State,
      Host.Core.run Sys2Proof.core (bytes.length + 2) { s with sched := hostEvents (hostLoad id bytes) ++ s.sched } =
        .next t ∧
      t = { s with bufSel := id.sel, bufPtr := bytes.length, bufs := t.bufs } ∧
      t.bufValue id = bytes ∧ (∀ i : Nat, bytes.length ≤ i → t.bufByte id i = s.bufByte id i) ∧
      ∀ id' : BufId, id' ≠ id → t.bufs.get id' = s.bufs.get id'

/-- 10_state.md R26, R28, R29, 60_exceptions.md R311: the fields of STATUS, the interrupt output, and the enables, which a
write sets in every STATE. -/
def Obligations.StatusFieldsAndIrq : Prop :=
  ∀ (s : State) (v : Word),
    (∃ w : Word, step (s.withEvent (.host (busRead .status))) = .next { s with busData := w } ∧
      w.extractLsb' 0 2 =
        (match s.st with
          | .idle => 0
          | .busy => 1
          | .done => 2
          | .error => 3) ∧
      w.extractLsb' 2 2 = 0 ∧ w.getLsbD 4 = decide (s.st = .busy ∧ s.hold = .input) ∧
      w.getLsbD 5 = decide (s.st = .busy ∧ s.hold = .output) ∧ w.extractLsb' 6 2 = 0 ∧ w.extractLsb' 8 8 = s.op ∧
      w.extractLsb' 16 16 = 0) ∧
    (s.irq = true ↔
      (s.intEn.getLsbD 0 = true ∧ s.st = .done) ∨ (s.intEn.getLsbD 1 = true ∧ s.st = .error) ∨
      (s.intEn.getLsbD 2 = true ∧ 0 < s.outq.length) ∨
      (s.intEn.getLsbD 3 = true ∧ s.inq.length < s.cfg.inFifoDepth ∧ s.inEnd = .stillOpen)) ∧
    step (s.withEvent (.host (busWrite .intEn v))) = .next { s with intEn := v.extractLsb' 0 4 }

/-- 10_state.md R27, 60_exceptions.md R300: ERROR is not 0 exactly in ERROR, in every state that keeps the invariant; KIND is
at most 4; and the ERROR words of the errors are REASON * 256 + KIND, in the order of the table. -/
def Obligations.ErrorWordIsTheTable : Prop :=
  (∀ s : State, s.Inv → (s.errorWord ≠ 0 ↔ s.st = .error) ∧ (s.errorWord.extractLsb' 0 8).toNat ≤ 4 ∧
    (s.errorWord.extractLsb' 0 8 = 0 → s.errorWord.extractLsb' 8 8 = 0) ∧ s.errorWord.extractLsb' 16 16 = 0) ∧
  ([Err.badMagic, .unsupportedVersion, .truncatedHeader, .secretsMisaligned, .headerIvLen, .innerKeyLen, .innerIvLen,
    .partialBlock, .truncatedStream, .badZlibHeader, .zlibDict, .badBlockType, .storedLenMismatch, .badCodeLengths,
    .badSymbol, .distanceTooFar, .adlerMismatch, .truncatedField, .secretsTruncated, .checksumMismatch, .checksumEmpty,
    .inputError, .badOpcode, .reservedBits, .cmdBusy, .badKeyLen, .badIvLen, .badKdfParams, .inOverflow, .inClosed,
    .bufRange, .regBusy, .badAccess].map fun e => (State.errorWord { State.reset with err := some e }).toNat) =
  [0x0101, 0x0201, 0x0301, 0x0401, 0x0501, 0x0601, 0x0701, 0x0801, 0x0901, 0x0A01, 0x0B01, 0x0C01, 0x0D01, 0x0E01] ++
  [0x0F01, 0x1001, 0x1101, 0x1201, 0x0102, 0x0202, 0x0302, 0x0103, 0x0104, 0x0204, 0x0304, 0x0404, 0x0504, 0x0604] ++
  [0x0704, 0x0804, 0x0904, 0x0A04, 0x0B04]

/-- 10_state.md R32, R34: the levels, in every state that keeps the invariant, under a valid configuration. -/
def Obligations.LevelRegistersCount : Prop :=
  ∀ s : State, s.Inv → s.cfg.Valid →
    ∃ a b : Word,
      step (s.withEvent (.host (busRead .inLevel))) = .next { s with busData := a } ∧
      step (s.withEvent (.host (busRead .outLevel))) = .next { s with busData := b } ∧
      (a.extractLsb' 0 16).toNat = s.inq.length ∧ (a.extractLsb' 16 16).toNat = s.cfg.inFifoDepth ∧
      (b.extractLsb' 0 16).toNat = s.outq.length ∧ (b.extractLsb' 16 16).toNat = s.cfg.outFifoDepth

/-- 60_exceptions.md R313: what a host transaction answers and leaves visible does not depend on the bytes of SECRET, KEY
and IV, on the continuation, or on a context. -/
def Obligations.HostCannotSeeKeyMaterial : Prop :=
  ∀ (s t s' t' : State) (tx : HostTx), SameVisible s t →
    step (s.withEvent (.host tx)) = .next s' → step (t.withEvent (.host tx)) = .next t' →
    SameVisible s' t' ∧ s'.busData = t'.busData ∧ s'.statusWord = t'.statusWord ∧ s'.irq = t'.irq
end

