-- ==== Sys2Proof/Laws/Codes.lean ====
section
/-!
SUPPORT. What `build` of 45_inflate.md R236 answers, in terms of the code space that the lengths take, and when a code of a
dynamic block is accepted (R239).
-/

namespace Sys2Proof.Machine

/-- The share of the code space that counts of lengths take: the last count is of codes of one unit. -/
def countSpace : List Nat → Nat
  | [] => 0
  | c :: cs => c * 2 ^ cs.length + countSpace cs

/-- The status `left` is the code space that is not taken. -/
theorem codeLeft_eq : ∀ (cs : List Nat) (left : Nat),
    codeLeft left cs =
      if countSpace cs ≤ left * 2 ^ cs.length then some (left * 2 ^ cs.length - countSpace cs) else none
  | [], left => by simp [codeLeft, countSpace]
  | c :: cs, left => by
    have e : left * 2 ^ (cs.length + 1) = 2 * left * 2 ^ cs.length := by rw [Nat.pow_succ]; ring
    have e0 : countSpace (c :: cs) = c * 2 ^ cs.length + countSpace cs := rfl
    rw [List.length_cons, e, e0, codeLeft]
    split
    · rename_i h
      have : (2 * left + 1) * 2 ^ cs.length ≤ c * 2 ^ cs.length := Nat.mul_le_mul_right _ h
      have : 1 ≤ 2 ^ cs.length := Nat.one_le_two_pow
      rw [Nat.add_mul] at *
      rw [if_neg (by omega)]
    · rename_i h
      obtain ⟨d, hd⟩ := Nat.exists_eq_add_of_le (Nat.not_lt.mp h)
      rw [codeLeft_eq, show 2 * left - c = d by omega, hd, Nat.add_mul]
      by_cases hq : countSpace cs ≤ d * 2 ^ cs.length
      · rw [if_pos hq, if_pos (by omega)]
        congr 1
        omega
      · rw [if_neg hq, if_neg (by omega)]

/-- One more length, in the counts of the lengths from `a` on. -/
theorem countSpace_cons (l : Nat) (r : List Nat) : ∀ n a : Nat, a + n = 16 →
    countSpace ((List.range' a n).map fun k => (l :: r).count k) =
      (if a ≤ l ∧ l ≤ 15 then 2 ^ (15 - l) else 0) + countSpace ((List.range' a n).map fun k => r.count k)
  | 0, a, h => by rw [if_neg (by omega)]; rfl
  | n + 1, a, h => by
    simp only [List.range'_succ, List.map_cons, countSpace, List.length_map, List.length_range']
    rw [countSpace_cons l r n (a + 1) (by omega), List.count_cons]
    simp only [beq_iff_eq]
    by_cases ha : l = a
    · subst ha
      rw [if_pos rfl, if_neg (by omega), if_pos (by omega), show 15 - l = n by omega, Nat.add_mul]
      omega
    · rw [if_neg ha, Nat.add_zero]
      by_cases hl : a ≤ l ∧ l ≤ 15
      · rw [if_pos hl, if_pos (by omega)]
        omega
      · rw [if_neg hl, if_neg (by omega)]
        omega

theorem countSpace_lengthCounts (lens : List Nat) (h : ∀ l ∈ lens, l ≤ 15) :
    countSpace ((lengthCounts lens).drop 1) = codeSpace lens := by
  have e : ∀ x, (lengthCounts x).drop 1 = (List.range' 1 15).map fun k => x.count k := fun _ => rfl
  rw [e]
  induction lens with
  | nil => rfl
  | cons l r ih =>
    have hl := h l (by simp)
    rw [countSpace_cons l r 15 1 rfl, ih fun x hx => h x (List.mem_cons_of_mem _ hx)]
    simp only [codeSpace, List.map_cons, List.sum_cons]
    by_cases h0 : l = 0
    · rw [if_pos h0, if_neg (by omega)]
    · rw [if_neg h0, if_pos (by omega)]

/-- Everything `build` can answer: none for an over-subscribed code (45_inflate.md R236). -/
theorem buildCode_eq (lens : List Nat) (h : ∀ l ∈ lens, l ≤ 15) :
    buildCode lens =
      if codeSpace lens ≤ 2 ^ 15 then
        some (2 ^ 15 - codeSpace lens, { count := lengthCounts lens, symbol := canonicalSymbols lens })
      else none := by
  have hl : ((lengthCounts lens).drop 1).length = 15 := by simp [lengthCounts]
  simp only [buildCode, codeLeft_eq, hl, countSpace_lengthCounts lens h]
  by_cases hc : codeSpace lens ≤ 2 ^ 15
  · rw [if_pos (by omega), if_pos hc]
    simp
  · rw [if_neg (by omega), if_neg hc]

theorem acceptCode_iff (lens symbol : List Nat) (left : Nat) :
    acceptCode lens.length left { count := lengthCounts lens, symbol := symbol } = true ↔
      left = 0 ∨ ∀ l ∈ lens, l ≤ 1 := by
  have h0 : (lengthCounts lens).getD 0 0 = lens.count 0 := by simp [lengthCounts, List.range_succ_eq_map]
  have h1 : (lengthCounts lens).getD 1 0 = lens.count 1 := by simp [lengthCounts, List.range_succ_eq_map]
  have h2 : lens.count 0 + lens.count 1 = lens.countP fun l => decide (l ≤ 1) := by
    clear h0 h1
    induction lens with
    | nil => rfl
    | cons l r ih =>
      simp only [List.count_cons, List.countP_cons]
      rcases l with _ | _ | l <;> simp <;> omega
  simp only [acceptCode, h0, h1, Bool.or_eq_true, beq_iff_eq]
  rw [h2, eq_comm (a := lens.length), List.countP_eq_length]
  simp

/-- A code of a dynamic block is accepted exactly if `build` and the check of its status accept it (45_inflate.md
R239). -/
theorem codeAccepted_iff (lens : List Nat) (h : ∀ l ∈ lens, l ≤ 15) :
    CodeAccepted lens ↔ ∃ left t, buildCode lens = some (left, t) ∧ acceptCode lens.length left t = true := by
  rw [buildCode_eq lens h]
  unfold CodeAccepted
  split
  · simp only [Option.some.injEq, Prod.mk.injEq, exists_and_left, and_assoc, exists_eq_left', acceptCode_iff]
    by_cases hp : ∀ l ∈ lens, l ≤ 1
    · refine ⟨fun _ => .inr hp, fun _ => ?_⟩
      rcases Nat.lt_or_ge (codeSpace lens) (2 ^ 15) with hlt | hge
      · exact .inr ⟨hlt, hp⟩
      · exact .inl (by omega)
    · simp only [hp, and_false, or_false]
      omega
  · simp
    omega

end Sys2Proof.Machine
end

