-- ==== Sys2Proof/Laws/Crypto.lean ====
section
/-!
SUPPORT. Sizes in the key derivation, blocks and their bytes, and ciphertexts chosen for a plaintext: CBC decryption of
`backCipher` gives the blocks it was made from.
-/

namespace Sys2Proof.Machine

@[simp] theorem be32_length (x : Word) : (be32 x).length = 4 := rfl

@[simp] theorem be64_length (x : Nat) : (be64 x).length = 8 := rfl

/-- A digest has 20 bytes (41_kdf.md R124). -/
@[simp] theorem sha1_length (m : List Byte) : (sha1 m).length = 20 := by simp [sha1]

/-- HMAC has 20 bytes (41_kdf.md R126). -/
@[simp] theorem hmac_length (k m : List Byte) : (hmac k m).length = 20 := by simp [hmac]

@[simp] theorem xorBytes_length (x y : List Byte) : (xorBytes x y).length = min x.length y.length := by
  induction x generalizing y with
  | nil => simp [xorBytes]
  | cons a x ih =>
    cases y with
    | nil => simp [xorBytes]
    | cons b y => simp [xorBytes, ih]

@[simp] theorem pbkdf2Iterate_length (p : List Byte) (n : Nat) (u t : List Byte) (h : t.length = 20) :
    (pbkdf2Iterate p n u t).length = 20 := by
  induction n generalizing u t with
  | zero => simp [pbkdf2Iterate, h]
  | succ n ih =>
    rw [pbkdf2Iterate]
    exact ih _ _ (by simp [h])

@[simp] theorem pbkdf2Block_length (p salt : List Byte) (c i : Nat) : (pbkdf2Block p salt c i).length = 20 := by
  simp [pbkdf2Block]

theorem flatMap_block_length (p salt : List Byte) (c n : Nat) :
    ((List.range n).flatMap fun i => pbkdf2Block p salt c (i + 1)).length = 20 * n := by
  induction n with
  | zero => simp
  | succ n ih => simp [List.range_succ, ih]; omega

/-- A derivation of `n` bytes has `n` bytes (41_kdf.md R127). -/
@[simp] theorem deriveKey_length (p salt : List Byte) (c n : Nat) : (deriveKey p salt c n).length = n := by
  rw [deriveKey, pbkdf2, List.length_take, flatMap_block_length]
  simp only [pbkdf2Count, Config.hlen]
  omega

/-! ### Blocks -/

@[simp] theorem block_bytes_length (x : Block) : x.bytes.length = 16 := rfl

@[simp] theorem block_ofBytes_bytes (x : Block) : Block.ofBytes x.bytes = x := rfl

@[simp] theorem block_xor_xor_cancel (x y : Block) : x.xor (x.xor y) = y := by
  simp [Block.xor, Column.xor]

/-- A chain value and ciphertext blocks whose CBC decryption is the given blocks; the last ciphertext block is 0. -/
def backCipher (w : List Column) (nr : Nat) : List Block → Block × List Block
  | [] => (.zero, [])
  | p :: ps =>
    let r := backCipher w nr ps
    ((invCipher w nr r.1).xor p, r.1 :: r.2)

@[simp] theorem backCipher_length (w : List Column) (nr : Nat) (ps : List Block) :
    (backCipher w nr ps).2.length = ps.length := by
  induction ps with
  | nil => rfl
  | cons p ps ih => simp [backCipher, ih]

theorem flatMap_bytes_length (xs : List Block) : (xs.flatMap Block.bytes).length = 16 * xs.length := by
  induction xs with
  | nil => rfl
  | cons x xs ih => simp [ih]; omega

theorem cbcBlocks_backCipher (w : List Column) (nr : Nat) (ps : List Block) :
    cbcBlocks w nr ps.length (backCipher w nr ps).1 ((backCipher w nr ps).2.flatMap Block.bytes) =
      ps.flatMap Block.bytes := by
  induction ps with
  | nil => rfl
  | cons p ps ih =>
    have ht : ∀ (x : Block) (r : List Byte), (x.bytes ++ r).take Config.blockBytes = x.bytes := fun _ _ => rfl
    have hd : ∀ (x : Block) (r : List Byte), (x.bytes ++ r).drop Config.blockBytes = r := fun _ _ => rfl
    simp only [backCipher, List.length_cons, cbcBlocks, List.flatMap_cons, ht, hd, block_ofBytes_bytes,
      block_xor_xor_cancel, ih]

/-- CBC decryption of the ciphertext that `backCipher` makes for a key (42_aes_cbc.md R161). -/
theorem cbcDecrypt_backCipher (key : List Byte) (ps : List Block) :
    cbcDecrypt key (backCipher (keyExpansion key) (roundsOf (key.length / 4)) ps).1.bytes
        ((backCipher (keyExpansion key) (roundsOf (key.length / 4)) ps).2.flatMap Block.bytes) =
      ps.flatMap Block.bytes := by
  rw [cbcDecrypt, block_ofBytes_bytes, flatMap_bytes_length, backCipher_length]
  have : 16 * ps.length / Config.blockBytes = ps.length := by simp [Config.blockBytes]
  rw [this, cbcBlocks_backCipher]

end Sys2Proof.Machine
end

