-- ==== Sys2Proof/Laws/Header.lean ====
section
/-!
SUPPORT. The header body over a whole header, up to the point behind its last byte: PARSE_HEADER and DECRYPT both pass
through it (40_bytefield_header.md R103, 44_payload_stream.md R210).
-/

namespace Sys2Proof.Machine

/-- The data bytes of one field, one engine step each (40_bytefield_header.md R103). -/
theorem headerFieldData_run (d : Bool) (f : BufId) (n : Nat) (data : List Byte) :
    ∀ (s : State) (done rest : List Byte), s.st = .busy → s.k = .header d (.fieldData f done.length n) →
      s.inq = data ++ rest → done.length + data.length ≤ n → s.bufs.get f = Buffer.ofBytes done → s.hold = .none →
      engineRun data.length s =
        { s with
          inq := rest, inCount := s.inCount + BitVec.ofNat 32 data.length,
          bufs := s.bufs.set f (Buffer.ofBytes (done ++ data)),
          k := .header d (.fieldData f (done.length + data.length) n) } := by
  induction data with
  | nil =>
    intro s done rest hb hk hq hn hf hh
    cases s
    simp_all [← hf]
  | cons b data ih =>
    intro s done rest hb hk hq hn hf hh
    simp only [List.cons_append] at hq
    simp only [List.length_cons] at hn ⊢
    rw [engineRun_succ, engineStep_of_busy hb]
    simp only [advance, hk, headerStep, headerFieldData]
    rw [if_pos (by omega), pull_cons (by exact hq)]
    rw [ih _ (done ++ [b]) rest (by exact hb) (by simp) (by rfl) (by simp; omega)
      (by simp [hf]) (by rfl)]
    simp [hf, hh, BitVec.ofNat_add, add_comm, add_left_comm]
    omega

/-- One whole field, from a point whose next line is its `n <- pull()` (40_bytefield_header.md R100, R103). -/
theorem headerField_run {d : Bool} {f : BufId} {s : State} {data rest : List Byte} (hb : s.st = .busy)
    (hadv : advance s = headerFieldLen d f s) (hl : data.length ≤ 255) (hq : s.inq = byteField data ++ rest)
    (hf : s.bufs.get f = .zero) :
    engineRun (data.length + 1) s =
      { s with
        inq := rest, inCount := s.inCount + BitVec.ofNat 32 (data.length + 1), hold := .none,
        bufs := s.bufs.set f (Buffer.ofBytes data), k := .header d (.fieldData f data.length data.length) } := by
  rw [engineRun_succ, engineStep_of_busy hb, hadv, headerFieldLen]
  rw [pull_cons (b := BitVec.ofNat 8 data.length) (rest := data ++ rest) (by simpa [byteField] using hq)]
  rw [headerFieldData_run d f data.length data _ [] rest (by exact hb) (by simp; omega) (by rfl) (by simp)
    (by simpa [buffer_zero_eq] using hf) (by rfl)]
  simp [BitVec.ofNat_add, add_comm, add_left_comm]

/-- A whole header, from a command whose first line is the header body. The step after it is at the line behind the body
(40_bytefield_header.md R103). -/
theorem header_run {d : Bool} {onDone : State → State} {s : State} {h : FileHeader} {rest : List Byte}
    (hb : s.st = .busy) (hadv : advance s = headerStart d onDone s) (hh : h.Fits) (hq : s.inq = h.bytes ++ rest) :
    engineRun h.bytes.length s =
      { s with
        inq := rest, inCount := s.inCount + BitVec.ofNat 32 h.bytes.length, hold := .none, hdrMagic := 0x0505,
        hdrVersion := 0x01,
        bufs := { s.bufs with
          hSalt := Buffer.ofBytes h.salt, hIv := Buffer.ofBytes h.iv, hSsalt := Buffer.ofBytes h.secretSalt,
          hSecrets := Buffer.ofBytes h.secrets },
        k := .header d (.fieldData .hSecrets h.secrets.length h.secrets.length) } := by
  obtain ⟨h1, h2, h3, h4⟩ := hh
  have hlen : h.bytes.length =
      ((((2 + 1) + (h.salt.length + 1)) + (h.iv.length + 1)) + (h.secretSalt.length + 1)) + (h.secrets.length + 1) := by
    simp [FileHeader.bytes, byteField]
    omega
  have hq' : s.inq = 0x05 :: 0x05 :: 0x01 :: (byteField h.salt ++ (byteField h.iv ++ (byteField h.secretSalt ++
      (byteField h.secrets ++ rest)))) := by
    simp [hq, FileHeader.bytes]
  have first : engineRun (2 + 1) s =
      { s with
        inq := byteField h.salt ++ (byteField h.iv ++ (byteField h.secretSalt ++ (byteField h.secrets ++ rest))),
        inCount := s.inCount + 3, hold := .none, hdrMagic := 0x0505, hdrVersion := 0x01,
        bufs := { s.bufs with hSalt := .zero, hIv := .zero, hSsalt := .zero, hSecrets := .zero },
        k := .header d (.fields 0x01) } := by
    rw [engineRun_succ, engineStep_of_busy hb, hadv, headerStart, headerStep]
    rw [pull_cons (by exact hq'), engineRun_succ, engineStep_of_busy (by exact hb)]
    simp only [clearHeader, advance, headerStep]
    rw [pull_cons (by rfl), engineRun_succ, engineStep_of_busy (by exact hb)]
    simp only [advance, headerStep, headerVersion]
    rw [if_pos (by decide), pull_cons (by rfl)]
    simp [add_assoc]
  rw [hlen, engineRun_add _ (h.secrets.length + 1), engineRun_add _ (h.secretSalt.length + 1),
    engineRun_add _ (h.iv.length + 1), engineRun_add _ (h.salt.length + 1), first]
  rw [headerField_run (d := d) (f := .hSalt) (by exact hb) (by rfl) h1 (by rfl) (by rfl)]
  rw [headerField_run (d := d) (f := .hIv) (by exact hb) (by simp [advance, headerStep, headerFieldData, nextField]) h2
    (by rfl) (by rfl)]
  rw [headerField_run (d := d) (f := .hSsalt) (by exact hb) (by simp [advance, headerStep, headerFieldData, nextField]) h3
    (by rfl) (by rfl)]
  rw [headerField_run (d := d) (f := .hSecrets) (by exact hb) (by simp [advance, headerStep, headerFieldData, nextField])
    h4 (by rfl) (by rfl)]
  simp [Buffers.set, BitVec.ofNat_add, add_assoc]

end Sys2Proof.Machine
end

