-- ==== Sys2Proof/Laws/Unwrap.lean ====
section
/-!
SUPPORT. The unwrap body on secrets that decrypt to three Byte-Fields with a matching checksum (43_unwrap.md R180).
-/

namespace Sys2Proof.Machine

/-- The block loop decrypts: U.PT grows by the plaintext of CBC decryption (42_aes_cbc.md R163, 43_unwrap.md R184). -/
theorem unwrapBlocks_u (n : Nat) (bs : List Byte) (s : State) :
    (unwrapBlocks n bs s).u = { s.u with pt := s.u.pt ++ cbcBlocks s.c.w s.c.nr n s.c.chain bs } := by
  induction n generalizing bs s with
  | zero => simp [unwrapBlocks, cbcBlocks]
  | succ n ih =>
    unfold unwrapBlocks
    simp only
    rw [ih]
    simp [cbcBlocks, cbcStep]

/-- Everything the block loop does. -/
theorem unwrapBlocks_eq (n : Nat) (bs : List Byte) (s : State) :
    unwrapBlocks n bs s =
      { s with
        c := (unwrapBlocks n bs s).c, u := { s.u with pt := s.u.pt ++ cbcBlocks s.c.w s.c.nr n s.c.chain bs } } := by
  rw [← unwrapBlocks_u]
  exact unwrapBlocks_frame n bs s

/-- `loadCipher` with lengths that it accepts (42_aes_cbc.md R163). -/
theorem loadCipher_of_lens {key iv : List Byte} (hk : key.length ∈ Config.aesKeyLens)
    (hiv : iv.length = Config.blockBytes) (s : State) :
    loadCipher key iv s =
      .ok { s with
        c := { nr := roundsOf (key.length / 4), w := keyExpansion key, chain := Block.ofBytes iv, blk := [] } } := by
  simp [loadCipher, hk, hiv]

theorem byteField_length (data : List Byte) : (byteField data).length = data.length + 1 := rfl

/-- A Byte-Field taken from the front of a sequence that begins with one (30_encoding.md R88). -/
@[simp] theorem takeField_byteField {data : List Byte} (h : data.length ≤ 255) (rest : List Byte) :
    takeField (byteField data ++ rest) = some (data, rest) := by
  have : data.length % 256 = data.length := by omega
  simp [takeField, byteField, this]

/-- Three Byte-Fields and further bytes parse as the three fields (43_unwrap.md R185). -/
theorem parseSecrets_byteFields {a b c : List Byte} (ha : a.length ≤ 255) (hb : b.length ≤ 255) (hc : c.length ≤ 255)
    (extra : List Byte) : parseSecrets (byteField a ++ byteField b ++ byteField c ++ extra) = some (a, b, c) := by
  simp [parseSecrets, ha, hb, hc]

@[simp] theorem checksumDiff_self (x : List Byte) : checksumDiff x x = 0 := by
  induction x with
  | nil => rfl
  | cons a x ih => simp [checksumDiff, ih]

/-- The decryption step with a key that the cipher accepts. -/
theorem unwrapDecrypt_of_key {s : State} (hk : s.u.ok.length ∈ Config.aesKeyLens) (hiv : s.bufLen .hIv = 16) :
    ∃ c, unwrapDecrypt s =
      .ok { s with
        c := c,
        u := { s.u with
          pt := cbcBlocks (keyExpansion s.u.ok) (roundsOf (s.u.ok.length / 4)) (s.bufLen .hSecrets / 16)
            (Block.ofBytes (s.bufValue .hIv)) (s.bufValue .hSecrets) } } := by
  have hl : (s.bufValue .hIv).length = Config.blockBytes := by
    simpa [State.bufValue, State.bufLen, Config.blockBytes] using hiv
  unfold unwrapDecrypt
  rw [loadCipher_of_lens hk hl]
  exact ⟨_, congrArg Except.ok (unwrapBlocks_eq _ _ _)⟩

/-- The body after the outer key, on secrets that decrypt to three Byte-Fields with a matching checksum. -/
theorem unwrapWithKey_of_fields {s : State} {iiv ik ck extra : List Byte} (hk : s.u.ok.length ∈ Config.aesKeyLens)
    (hl : s.bufLen .hIv = 16)
    (hpt : cbcBlocks (keyExpansion s.u.ok) (roundsOf (s.u.ok.length / 4)) (s.bufLen .hSecrets / 16)
      (Block.ofBytes (s.bufValue .hIv)) (s.bufValue .hSecrets) =
        byteField iiv ++ byteField ik ++ byteField ck ++ extra)
    (hiv : iiv.length = 16) (hik : ik.length ∈ Config.aesKeyLens) (hc : 0 < ck.length) (hc' : ck.length ≤ 255)
    (hck : ck = deriveKey ik (s.bufValue .hSsalt) Config.checkIter ck.length) :
    ∃ c, unwrapWithKey s =
      .ok { s with
        c := c, u := .zero, bufs := { s.bufs with key := Buffer.ofBytes ik, iv := Buffer.ofBytes iiv } } := by
  have hik' : ik.length ≤ 255 := by
    simp [Config.aesKeyLens] at hik
    omega
  obtain ⟨c, hd⟩ := unwrapDecrypt_of_key hk hl
  rw [hpt] at hd
  refine ⟨c, ?_⟩
  unfold unwrapWithKey
  rw [hd]
  simp only [unwrapParse]
  rw [parseSecrets_byteFields (by omega) hik' hc']
  simp only
  rw [if_neg (by omega)]
  simp only [unwrapCheck]
  have hval : ∀ u, ({ s with c := c, u := u } : State).bufValue .hSsalt = s.bufValue .hSsalt := fun _ => rfl
  rw [hval, ← hck, checksumDiff_self]
  simp only [ne_eq, not_true_eq_false, if_false, unwrapStore]
  rw [if_neg (by simpa using hik), if_neg (by simpa [Config.blockBytes] using hiv)]
  rfl

/-- The outer-key step, with the derived key named. -/
theorem unwrapOuterKey_of {s : State} {ok : List Byte}
    (h : deriveKey (s.bufValue .secret) (s.bufValue .hSalt) Config.outerIter Config.outerKeyLen = ok) :
    unwrapOuterKey s = { s with u := { s.u with ok := ok } } := by
  unfold unwrapOuterKey
  rw [h]

/-- The body after the structural checks, with the derived key named. -/
theorem unwrapSecrets_of {s : State} {ok : List Byte}
    (h : deriveKey (s.bufValue .secret) (s.bufValue .hSalt) Config.outerIter Config.outerKeyLen = ok) :
    unwrapSecrets s = unwrapWithKey { s with u := { s.u with ok := ok } } := by
  unfold unwrapSecrets
  rw [unwrapOuterKey_of h]

/-- The body where both structural checks pass (43_unwrap.md R181, R182). -/
theorem unwrapBody_of_structure {s : State} (hs : s.bufLen .hSecrets % 16 = 0) (hl : s.bufLen .hIv = 16) :
    unwrapBody s = unwrapSecrets s := by
  unfold unwrapBody
  rw [if_neg (by simpa [Config.blockBytes] using hs), if_neg (by simpa [Config.blockBytes] using hl)]

/-- UNWRAP's body with the right password (43_unwrap.md R180, R189, R190); `ok` is the outer key. -/
theorem unwrapBody_of_fields {s : State} {ok iiv ik ck extra : List Byte} (hs : s.bufLen .hSecrets % 16 = 0)
    (hl : s.bufLen .hIv = 16)
    (hok : deriveKey (s.bufValue .secret) (s.bufValue .hSalt) Config.outerIter Config.outerKeyLen = ok)
    (hpt : cbcDecrypt ok (s.bufValue .hIv) (s.bufValue .hSecrets) =
      byteField iiv ++ byteField ik ++ byteField ck ++ extra)
    (hiv : iiv.length = 16) (hik : ik.length ∈ Config.aesKeyLens) (hc : 0 < ck.length) (hc' : ck.length ≤ 255)
    (hck : ck = deriveKey ik (s.bufValue .hSsalt) Config.checkIter ck.length) :
    ∃ c, unwrapBody s =
      .ok { s with
        c := c, u := .zero, bufs := { s.bufs with key := Buffer.ofBytes ik, iv := Buffer.ofBytes iiv } } := by
  have hkl : ok.length = Config.outerKeyLen := hok ▸ deriveKey_length _ _ _ _
  have hsl : (s.bufValue .hSecrets).length / Config.blockBytes = s.bufLen .hSecrets / 16 := by
    simp [State.bufValue, State.bufLen, Config.blockBytes]
  rw [cbcDecrypt, hsl] at hpt
  rw [unwrapBody_of_structure hs hl, unwrapSecrets_of hok]
  exact unwrapWithKey_of_fields (s := { s with u := { s.u with ok := ok } })
    (by simp [hkl, Config.outerKeyLen, Config.aesKeyLens]) hl hpt hiv hik hc hc' hck

end Sys2Proof.Machine
end

