-- ==== Sys2Proof/Tests/Slice0.lean ====
section
/-!
SUPPORT. Small tests: the checks of WellFormed, every command word, the spec's own values for the pure functions, one step
of each command, and a state for the hypotheses of each statement.
-/

namespace Sys2Proof.Tests

open Sys2Proof.Machine

/-- Whether an outcome is a next state with a property. -/
def okNext (o : Host.Outcome State Fault Refusal) (p : State → Bool) : Bool :=
  match o with
  | .next t => p t
  | .fault _ => false
  | .refused _ => false

/-- The reset state with some input. -/
def fed (bytes : List Byte) (e : InEnd) : State := { State.reset with inq := bytes, inEnd := e }

/-- A running command at a point. -/
def running (k : Kont) (bytes : List Byte) (e : InEnd) : State := { fed bytes e with st := .busy, k := k }

/-- A buffer of `n` bytes 0. -/
def zeros (n : Nat) : Buffer := { bytes := [], len := n }

/-! ### WellFormed -/

theorem test_rsvd_refused : rsvdZero 0x00000105 = false := by decide
theorem test_opcode_zero_refused : opAssigned 0x00 = false := by decide
theorem test_opcode_nine_refused : opAssigned 0x09 = false := by decide
theorem test_word_refused : wordWellFormed 0x00000010 = false := by decide
theorem test_window_refused : HostTx.inWindow { kind := .read, offset := 256, width := 4, data := 0 } = false := by decide
theorem test_width_refused : HostTx.aligned32 { kind := .write, offset := 0x0C, width := 2, data := 0 } = false := by
  decide
theorem test_offset_refused : HostTx.aligned32 { kind := .read, offset := 0x0E, width := 4, data := 0 } = false := by
  decide
theorem test_config_refused : ¬ Config.Valid { Config.reference with outFifoDepth := 0 } := by decide
theorem test_config_reference : Config.Valid Config.reference := by decide

/-! ### Command words (30_encoding.md R80, R81), written out bit by bit: RSVD, then OP -/

theorem test_decode_readBytefield : decode 0b000000000000000000000000_00000001 = .ok .readBytefield := by decide
theorem test_decode_parseHeader : decode 0b000000000000000000000000_00000010 = .ok .parseHeader := by decide
theorem test_decode_deriveKey : decode 0b000000000000000000000000_00000011 = .ok .deriveKey := by decide
theorem test_decode_aesCbcDecrypt : decode 0b000000000000000000000000_00000100 = .ok .aesCbcDecrypt := by decide
theorem test_decode_unwrap : decode 0b000000000000000000000000_00000101 = .ok .unwrap := by decide
theorem test_decode_openPlaintext : decode 0b000000000000000000000000_00000110 = .ok .openPlaintext := by decide
theorem test_decode_inflate : decode 0b000000000000000000000000_00000111 = .ok .inflate := by decide
theorem test_decode_decrypt : decode 0b000000000000000000000000_00001000 = .ok .decrypt := by decide
theorem test_decode_close : decode 0b000000000000000000000000_00001111 = .ok .close := by decide
theorem test_decode_reserved : decode 0b000000000000000000000001_00000101 = .error .reservedBits := by decide
theorem test_decode_unassigned : decode 0b000000000000000000000000_00001001 = .error .badOpcode := by decide
theorem test_table_word : decodeTableWord 32 0x0F = some .close := by decide

/-! ### Pure functions, with the values of the spec -/

/-- 45_inflate.md R250: the Adler-32 of "abc". -/
theorem test_adler_abc : adler32 [0x61, 0x62, 0x63] = 0x024d0127 := by decide

/-- 45_inflate.md R242: a length and a distance at the end of the tables. -/
theorem test_length_table : lengthBase.length = 29 ∧ lengthBase.getD 28 0 = 258 ∧ lengthExtra.getD 27 0 = 5 := by decide
theorem test_distance_table : distBase.length = 30 ∧ distBase.getD 29 0 = 24577 ∧ distExtra.getD 29 0 = 13 := by decide

/-- 45_inflate.md R238: both fixed codes are complete. -/
theorem test_fixed_codes : buildCode (List.replicate 32 5) = some (0, fixedDist) ∧ fixedLit.symbol.length = 288 := by
  decide +kernel

/-- 42_aes_cbc.md R152: the two examples, and a product. -/
theorem test_sbox : sbox 0x53 = 0xED ∧ invSbox 0xED = 0x53 ∧ gfMul 0x02 0x80 = 0x1B := by decide

/-- 42_aes_cbc.md R154: the last round constants. -/
theorem test_rcon : rcon 8 = 0x80 ∧ rcon 9 = 0x1B ∧ rcon 10 = 0x36 := by decide

/-- 42_aes_cbc.md R153: w[8] of the key 00 01 … 1f. -/
theorem test_key_schedule : (keyExpansion ((List.range 32).map fun i => BitVec.ofNat 8 i))[8]? =
    some { a0 := 0xa5, a1 := 0x73, a2 := 0xc2, a3 := 0x9f } := by decide +kernel

/-- 41_kdf.md R121: 52 zero bytes for 3 bytes, 63 for 56. -/
theorem test_sha1_padding : sha1ZeroBytes 3 = 52 ∧ sha1ZeroBytes 56 = 63 ∧ sha1ZeroBytes 55 = 0 := by decide

/-- 20_memory.md R66: little-endian byte lanes; 10_state.md R24: ID spells "DCIS". -/
theorem test_bus_lanes : busLanes idWord = [0x44, 0x43, 0x49, 0x53] := by decide

/-- 20_memory.md R69: the window at a base of 0x1000. -/
theorem test_window_offset : windowOffset { Config.reference with engineBase := 0x1000 } 0x10FC = some 0xFC ∧
    windowOffset { Config.reference with engineBase := 0x1000 } 0x1100 = none := by decide

/-- 45_inflate.md R231: three bits of two bytes, the first bit least significant. -/
theorem test_bit_reader : peekBits (feedBits InflateCtx.zero 0x05) 3 = 5 ∧
    (dropBits (feedBits InflateCtx.zero 0x85) 3).bitbuf = 0x10 := by decide

/-! ### The bus, with the values of 95_test_vectors.md V-BUS -/

theorem test_bus_2 : okNext (step (State.reset.withEvent (.host (busWrite .cmd 0x105))))
    (fun t => t.statusWord == 0x003 && t.errorWord == 0x0204) = true := by decide
theorem test_bus_3 : okNext (step (State.reset.withEvent (.host (busWrite .cmd 0x09))))
    (fun t => t.statusWord == 0x003 && t.errorWord == 0x0104) = true := by decide
theorem test_bus_7 :
    okNext (step (State.reset.withEvent (.host { kind := .write, offset := 0x0E, width := 2, data := 0 })))
      (fun t => t.statusWord == 0x003 && t.errorWord == 0x0B04) = true := by decide
theorem test_bus_8 : okNext (step ({ State.reset with bufSel := 7 }.withEvent (.host (busWrite .bufLen 17))))
    (fun t => t.statusWord == 0x003 && t.errorWord == 0x0904) = true := by decide
theorem test_bus_9 : okNext (step ((fed [] .eof).withEvent (.host (busWrite .inData 0))))
    (fun t => t.statusWord == 0x003 && t.errorWord == 0x0804) = true := by decide
theorem test_bus_17 : okNext (step (State.reset.withEvent (.host (busRead .intStatus))))
    (fun t => t.busData == 0x00000008 && t.st == .idle) = true := by decide
theorem test_outside_window :
    okNext (step (State.reset.withEvent (.host { kind := .read, offset := 256, width := 4, data := 0 })))
      (fun _ => true) = false := by decide

/-! ### One step of each command -/

/-- R101: FIELD_LEN is written when the length byte is consumed. -/
theorem test_readBytefield_length : (engineStep (running (.first .readBytefield) [0x03, 0x41] .stillOpen)).fieldLen = 3 ∧
    (engineStep (running (.first .readBytefield) [0x03, 0x41] .stillOpen)).inCount = 1 := by decide

/-- R101: a full OUTQ holds between the pull of a byte and its push. -/
theorem test_readBytefield_hold :
    let s := { running (.fieldPush 0x41 2) [0x42] .stillOpen with outq := List.replicate 64 0 }
    (engineStep s).hold = .output ∧ (engineStep s).inq = [0x42] := by decide

/-- V-BUS-5: PARSE_HEADER with no input. -/
theorem test_parseHeader_wait :
    (engineStep { running (.first .parseHeader) [] .stillOpen with op := 2 }).statusWord = 0x211 := by decide

/-- R103: the second magic byte goes to bits [15:8]. -/
theorem test_parseHeader_magic :
    (engineStep { running (.header false (.magic1 0x05)) [0x07] .eof with hdrMagic := 0x0005 }).hdrMagic = 0x0705 := by
  decide

/-- V-BUS-11. -/
theorem test_deriveKey_params :
    (engineStep { running (.first .deriveKey) [] .stillOpen with op := 3 }).statusWord = 0x303 ∧
    (engineStep { running (.first .deriveKey) [] .stillOpen with op := 3 }).errorWord = 0x0604 := by decide

/-- V-KDF-1: "password", "salt", one iteration; the first byte pushed is 0c and 19 are left. -/
theorem test_deriveKey_first_byte :
    let s := { running (.first .deriveKey) [] .stillOpen with
      kdfIter := 1, kdfLen := 20,
      bufs := { Buffers.zero with
        secret := Buffer.ofBytes [0x70, 0x61, 0x73, 0x73, 0x77, 0x6f, 0x72, 0x64],
        salt := Buffer.ofBytes [0x73, 0x61, 0x6c, 0x74] } }
    (engineStep s).outq = [0x0c] := by decide +kernel

/-- R165: an EOF at a block boundary finishes. -/
theorem test_aesCbcDecrypt_end : (engineStep (running .cbcPull [] .eof)).st = .done := by decide

/-- R165: an EOF inside a block is PARTIAL_BLOCK. -/
theorem test_aesCbcDecrypt_partial :
    (engineStep { running .cbcPull [] .eof with c := { CipherCtx.zero with blk := [0x01] } }).errorWord = 0x0801 := by
  decide

/-- R181: a secrets length of 15 is misaligned, whatever the password. -/
theorem test_unwrap_misaligned :
    (engineStep { running (.first .unwrap) [] .eof with bufs := { Buffers.zero with hSecrets := zeros 15 } }).errorWord =
      0x0401 := by decide

/-- R182: checked after the alignment. -/
theorem test_unwrap_iv :
    (engineStep { running (.first .unwrap) [] .eof with bufs := { Buffers.zero with hIv := zeros 15 } }).errorWord =
      0x0501 := by decide

/-- V-BUS-12. -/
theorem test_openPlaintext_key :
    (engineStep { running (.first .openPlaintext) [0x00] .stillOpen with op := 6 }).statusWord = 0x603 ∧
    (engineStep { running (.first .openPlaintext) [0x00] .stillOpen with op := 6 }).errorWord = 0x0404 := by decide

/-- V-PAY-3: EOF after 8 bytes of a block. -/
theorem test_openPlaintext_partial :
    (engineStep { running (.inflate .stageB .cmf none) [] .eof with
      c := { CipherCtx.zero with blk := List.replicate 8 0 } }).errorWord = 0x0801 := by decide

/-- V-INF-3: the LEN check, at the fourth header byte. -/
theorem test_inflate_len :
    (engineStep (running (.inflate .raw (.storedHdr [0x03, 0x00, 0xfd]) (some 0xff)) [0x61] .eof)).errorWord = 0x0D01 := by
  decide

/-- R241: distance 1 repeats the last byte. -/
theorem test_inflate_copy :
    (engineStep { running (.inflate .raw (.copy 4 1) none) [] .stillOpen with
      z := { InflateCtx.zero with hist := [0x61], total := 1 } }).outq = [0x61] := by decide

/-- V-DEC-1: a bad magic. -/
theorem test_decrypt_magic :
    (engineStep { running (.header true (.version 0x05 0x06)) [0x01] .stillOpen with op := 8 }).errorWord = 0x0101 := by
  decide

/-- R331: CLOSE and the platform's reset abort a command, and only reset clears INT_EN. -/
theorem test_close_keeps_intEn : okNext (exec .close { running .cbcPull [0x01] .eof with intEn := 0xF })
    (fun t => t.intEn == 0xF && t.inq.isEmpty && t.st == .idle) = true := by decide
theorem test_reset_clears_intEn : okNext (step ({ running .cbcPull [0x01] .eof with intEn := 0xF }.withEvent .rst))
    (fun t => t.intEn == 0 && t.inq.isEmpty && t.st == .idle) = true := by decide

/-! ### A state for the hypotheses of each statement -/

/-- A command that is to run its first line, with its input ended. -/
def busyFirst (i : Instr) : State := { running (.first i) [0x78] .eof with op := opcodeOf i }

/-- A running INFLATE with its input ended. -/
def busyInflate : State := busyFirst .inflate

/-- A state that an error has ended. -/
def failed : State := { State.reset with st := .error, err := some .badOpcode }

/-- The reset state with a key and an IV of legal lengths. -/
def keyed (bytes : List Byte) (e : InEnd) : State :=
  { fed bytes e with bufs := { Buffers.zero with key := zeros 16, iv := zeros 16 } }

/-- A buffer of zeros is within its capacity. -/
theorem bufferOk_zeros {n cap : Nat} (h : n ≤ cap) : BufferOk cap (zeros n) := ⟨rfl, by simp [zeros], h⟩

theorem test_inv_fed (bytes : List Byte) (e : InEnd) (h : bytes.length ≤ 64) : (fed bytes e).Inv where
  released := fun _ => ⟨rfl, rfl, rfl, rfl, rfl, rfl, rfl⟩
  running := fun h => by cases h
  errIff := by simp [fed, State.reset, State.resetWith]
  inqFits := h
  outqFits := Nat.zero_le _
  bufsOk := fun id => by cases id <;> exact bufferOk_zeros (Nat.zero_le _)
  ptrFits := Nat.zero_le _
  uZero := rfl
  sbposFits := Nat.le_refl _
  blkFits := Nat.succ_pos 15
  idleOp := fun _ => rfl
  opLegal := .inl rfl
  idleZ := fun _ => ⟨rfl, rfl, rfl⟩
  zFits := (by decide : InflateOk InflateCtx.zero)
  inHand := trivial

theorem test_inv_first {i : Instr} (h : i ≠ .close) : (busyFirst i).Inv where
  released := fun h => absurd rfl h
  running := fun _ => h
  errIff := by simp [busyFirst, running, fed, State.reset, State.resetWith]
  inqFits := (by decide : 1 ≤ 64)
  outqFits := Nat.zero_le _
  bufsOk := fun id => by cases id <;> exact bufferOk_zeros (Nat.zero_le _)
  ptrFits := Nat.zero_le _
  uZero := rfl
  sbposFits := Nat.le_refl _
  blkFits := Nat.succ_pos 15
  idleOp := fun h => by cases h
  opLegal := .inr ⟨i, h, rfl⟩
  idleZ := fun _ => ⟨rfl, rfl, rfl⟩
  zFits := (by decide : InflateOk InflateCtx.zero)
  inHand := trivial

theorem test_inv_busy : busyInflate.Inv := test_inv_first (by decide)

theorem test_inv_failed : failed.Inv where
  released := fun _ => by decide
  running := fun h => by cases h
  errIff := by simp [failed]
  inqFits := by decide
  outqFits := by decide
  bufsOk := fun id => by cases id <;> exact bufferOk_zeros (Nat.zero_le _)
  ptrFits := Nat.zero_le _
  uZero := rfl
  sbposFits := Nat.le_refl _
  blkFits := by decide
  idleOp := fun h => by cases h
  opLegal := .inl rfl
  idleZ := fun _ => ⟨rfl, rfl, rfl⟩
  zFits := by decide
  inHand := trivial

/-- IllegalWordsRaise: each clause at the ends of its range of words. -/
theorem test_witness_IllegalWordsRaise :
    BitVec.extractLsb' 8 24 (0x00000100 : Word) ≠ 0 ∧ BitVec.extractLsb' 8 24 (0xFFFFFF0F : Word) ≠ 0 ∧
    (BitVec.extractLsb' 8 24 (0x00000000 : Word) = 0 ∧ (BitVec.extractLsb' 0 8 (0x00000000 : Word)).toNat = 0) ∧
    (BitVec.extractLsb' 0 8 (0x00000009 : Word)).toNat = 9 ∧ (BitVec.extractLsb' 0 8 (0x0000000E : Word)).toNat = 14 ∧
    16 ≤ (BitVec.extractLsb' 0 8 (0x00000010 : Word)).toNat ∧ 16 ≤ (BitVec.extractLsb' 0 8 (0x000000FF : Word)).toNat ∧
    ((BitVec.extractLsb' 0 8 (0x00000001 : Word)).toNat ≠ 0 ∧ (BitVec.extractLsb' 0 8 (0x00000008 : Word)).toNat < 9 ∧
      (BitVec.extractLsb' 0 8 (0x0000000F : Word)).toNat = 15) := by decide

theorem test_witness_StepRunsTheScheduledEvent :
    decode 0x00000008 = .ok .decrypt ∧ decodeTableWord 32 1 = some .readBytefield ∧ State.reset.sched = [] := by decide

theorem test_witness_EngineRunsAloneWithoutEvents : busyInflate.sched = [] := rfl

theorem test_witness_AcceptanceByState :
    (Instr.decrypt ≠ .close ∧ Ready State.reset ∧ Ready { busyInflate with st := .done } ∧ busyInflate.st = .busy ∧
      failed.st = .error) ∧ (fed [] .stillOpen).Inv :=
  ⟨by decide, test_inv_fed [] .stillOpen (by decide)⟩

theorem test_witness_CompletionAndErrorEntry :
    failed.st = .error ∧ State.reset.st ≠ .error ∧
    okNext (step (State.reset.withEvent (.host { kind := .read, offset := 0x0E, width := 2, data := 0 })))
      (fun t => t.st == .error) = true ∧
    okNext (step (busyInflate.withEvent (.host (busWrite .bufSel 1)))) (fun t => t.st == .error) = true := by decide

theorem test_witness_ErrorIsLeftOnlyByCloseOrReset :
    failed.st = .error ∧ okNext (step (failed.withEvent (.host (busWrite .cmd 0x0F)))) (fun t => t.st == .idle) = true ∧
    okNext (step (failed.withEvent (.host (busWrite .cmd 0x08)))) (fun t => t.st == .error) = true ∧
    okNext (step (failed.withEvent .rst)) (fun t => t.st == .idle) = true := by decide

theorem test_witness_ResetState :
    Config.Valid { inFifoDepth := 1, outFifoDepth := 65535, secretCap := 0, engineBase := 0, irqLine := 0 } ∧
    Config.Valid { inFifoDepth := 65535, outFifoDepth := 1, secretCap := 65535, engineBase := 0, irqLine := 0 } ∧
    (0x5C ≤ 0x5C ∧ 0xFC < 256 ∧ 0xFC % 4 = 0) := by decide

theorem test_witness_StepKeepsInv :
    busyInflate.Inv ∧ step busyInflate = .next (engineStep busyInflate) ∧
    (engineStep busyInflate).k = .inflate .raw .cmf (some 0x78) :=
  ⟨test_inv_busy, rfl, by decide⟩

theorem test_witness_EngineStepFrame :
    (State.reset.st ≠ .busy ∧ busyInflate.k ≠ .first .readBytefield ∧ busyInflate.k ≠ .first .parseHeader ∧
      busyInflate.k ≠ .first .decrypt ∧ busyInflate.k ≠ .first .unwrap) ∧
    (∀ d p, busyInflate.k ≠ .header d p) ∧ busyInflate.Inv :=
  ⟨by decide, (by intro d p h; cases h), test_inv_busy⟩

/-- OperandsAreFrozenWhileBusy: INFLATE, which writes no buffer, and UNWRAP. -/
theorem test_witness_OperandsAreFrozenWhileBusy :
    (busyInflate.Inv ∧ busyInflate.st = .busy ∧ step busyInflate = .next (engineStep busyInflate) ∧
      fetch busyInflate.sched ≠ .command .close ∧ fetch busyInflate.sched ≠ .reset ∧
      busyInflate.k ≠ .first .unwrap ∧ busyInflate.k ≠ .first .parseHeader ∧ busyInflate.k ≠ .first .decrypt ∧
      ∀ d p, busyInflate.k ≠ .header d p) ∧
    (busyFirst .unwrap).Inv ∧ (busyFirst .unwrap).st = .busy ∧
    step (busyFirst .unwrap) = .next (engineStep (busyFirst .unwrap)) ∧
    fetch (busyFirst .unwrap).sched ≠ .command .close ∧ fetch (busyFirst .unwrap).sched ≠ .reset ∧
    (busyFirst .unwrap).k = .first .unwrap :=
  ⟨⟨test_inv_busy, rfl, rfl, by decide, by decide, by decide, by decide, by decide, fun _ _ h => by cases h⟩,
    test_inv_first (by decide), rfl, rfl, by decide, by decide, rfl⟩

theorem test_witness_StreamPrimitives :
    (fed [0x01] .eof).inq = 0x01 :: [] ∧ ((fed [] .eof).inq = [] ∧ (fed [] .eof).inEnd = .eof) ∧
    (fed [] .ioerr).inEnd = .ioerr ∧ (fed [] .stillOpen).inEnd = .stillOpen ∧
    State.reset.outq.length < State.reset.cfg.outFifoDepth ∧
    ¬ (List.replicate 64 (0 : Byte)).length < State.reset.cfg.outFifoDepth := by decide

theorem test_witness_HoldLastsUntilTheHostActs :
    (engineStep (running .cbcPull [] .stillOpen)).hold = .input ∧
    (engineStep { running (.keyPush [0x01]) [] .eof with outq := List.replicate 64 0 }).hold = .output := by decide

theorem test_witness_StreamsCommuteWithEngine :
    (running .cbcPull [0x01] .stillOpen).inq ≠ [] ∧
    ({ State.reset with outq := List.replicate 63 0 }.outq = 0 :: List.replicate 62 0 ∧
      { State.reset with outq := List.replicate 63 0 }.outq.length < State.reset.cfg.outFifoDepth) := by decide

/-- ResultsDoNotDependOnSchedule: the one-byte field 01 41, fed at once or byte by byte, and drained while it runs or not. -/
theorem test_witness_ResultsDoNotDependOnSchedule :
    ∃ (s t₁ t₂ : State) (a₁ b₁ a₂ b₂ : List Event) (v : Word), s.st = .busy ∧
      (∀ e ∈ a₁ ++ a₂, isFeeding e = true) ∧ (∀ e ∈ b₁ ++ b₂, isDraining e = true) ∧
      a₁.flatMap fedBytes = a₂.flatMap fedBytes ∧
      Host.Core.run Sys2Proof.core (a₁.length + 1 + b₁.length)
        { s with sched := a₁ ++ [.host (busWrite .inCtrl v)] ++ b₁ } = .next t₁ ∧
      Host.Core.run Sys2Proof.core (a₂.length + 1 + b₂.length)
        { s with sched := a₂ ++ [.host (busWrite .inCtrl v)] ++ b₂ } = .next t₂ ∧
      t₁.st ≠ .busy ∧ t₂.st ≠ .busy ∧ t₁.err ≠ some .inOverflow ∧ t₁.err ≠ some .inClosed ∧
      t₂.err ≠ some .inOverflow ∧ t₂.err ≠ some .inClosed :=
  ⟨running (.first .readBytefield) [] .stillOpen, _, _,
    [.engine, .host (busWrite .inData 0x01), .engine, .host (busWrite .inData 0x41)],
    [.engine, .engine, .host (busRead .outData), .engine],
    [.host (busWrite .inData 0x01), .host (busWrite .inData 0x41)], [.engine, .engine, .engine, .engine], 1,
    rfl, by decide, by decide, by decide, rfl, rfl, by decide, by decide, by decide, by decide, by decide, by decide⟩

theorem test_witness_CommandsTerminate :
    busyInflate.Inv ∧ busyInflate.cfg.Valid ∧ busyInflate.inEnd ≠ .stillOpen ∧ busyInflate.st = .busy :=
  ⟨test_inv_busy, by decide, by decide, rfl⟩

/-- ReadBytefieldCompletes: an empty field and one of 255 bytes. -/
theorem test_witness_ReadBytefieldCompletes :
    Ready (fed [0x00, 0x99] .eof) ∧ (fed [0x00, 0x99] .eof).inq = byteField [] ++ [0x99] ∧
    (fed [0x00, 0x99] .eof).outq.length + ([] : List Byte).length ≤ (fed [0x00, 0x99] .eof).cfg.outFifoDepth ∧
    (List.replicate 255 (0 : Byte)).length ≤ 255 ∧
    (byteField (List.replicate 255 0)).length = 256 ∧ 0 + 255 ≤ ({ Config.reference with outFifoDepth := 255 }).outFifoDepth := by
  decide +kernel

theorem test_witness_ReadBytefieldTruncated :
    Ready (fed [0x02, 0x41] .eof) ∧ [(0x41 : Byte)].length < (0x02 : Byte).toNat ∧
    (fed [0x02, 0x41] .eof).inq = 0x02 :: [0x41] ∧ (fed [0x02, 0x41] .eof).inEnd = .eof ∧
    (fed [0x02, 0x41] .eof).outq.length + [(0x41 : Byte)].length ≤ (fed [0x02, 0x41] .eof).cfg.outFifoDepth := by decide

/-- The header of a file with one field of 255 bytes and three empty ones. -/
def oneField : FileHeader := { salt := List.replicate 255 0, iv := [], secretSalt := [], secrets := [] }

theorem test_witness_ParseHeaderCompletes :
    Ready (fed (oneField.bytes ++ [0x99]) .eof) ∧ oneField.Fits ∧
    (fed (oneField.bytes ++ [0x99]) .eof).inq = oneField.bytes ++ [0x99] := by decide +kernel

theorem test_witness_BadMagicOrVersionIsMalformedFile :
    Ready (fed [0x05, 0x04] .eof) ∧ (fed [0x05, 0x04] .eof).inq = 0x05 :: 0x04 :: [] ∧
    ¬((0x05 : Byte) = 0x05 ∧ (0x04 : Byte) = 0x05) ∧
    (Ready (fed [0x05, 0x05, 0x02] .eof) ∧ (fed [0x05, 0x05, 0x02] .eof).inq = 0x05 :: 0x05 :: 0x02 :: [] ∧
      (0x02 : Byte) ≠ 0x01) := by decide

/-- TruncatedHeaderIsMalformedFile: an empty stream, and one that lacks the last byte. -/
theorem test_witness_TruncatedHeaderIsMalformedFile :
    Ready (fed [] .eof) ∧ oneField.Fits ∧ [] <+: oneField.bytes ∧ [] ≠ oneField.bytes ∧
    oneField.bytes.dropLast <+: oneField.bytes ∧ oneField.bytes.dropLast ≠ oneField.bytes ∧
    (fed oneField.bytes.dropLast .eof).inq = oneField.bytes.dropLast := by decide +kernel

theorem test_witness_DeriveKeyCompletes :
    let s := { State.reset with kdfIter := 0xFFFFFFFF, kdfLen := 64 }
    Ready s ∧ s.kdfIter ≠ 0 ∧ s.kdfLen ≠ 0 ∧ s.outq.length + s.kdfLen.toNat ≤ s.cfg.outFifoDepth := by decide

theorem test_witness_DerivationsArePrefixes : 16 ≤ 32 := by decide

theorem test_witness_Sha1PaddingFillsBlocks : (List.replicate 56 (0 : Byte)).length < 2 ^ 61 := by decide

theorem test_witness_AesCbcDecryptCompletes :
    let s := keyed (List.replicate 32 0) .eof
    Ready s ∧ s.bufLen .key ∈ [16, 24, 32] ∧ s.bufLen .iv = 16 ∧ s.inq.length = 16 * 2 ∧ s.inEnd = .eof ∧
    s.outq.length + 16 * 2 ≤ s.cfg.outFifoDepth := by decide

theorem test_witness_AesCbcPartialBlock :
    let s := keyed (List.replicate 16 0 ++ List.replicate 15 1) .eof
    Ready s ∧ s.bufLen .key ∈ [16, 24, 32] ∧ s.bufLen .iv = 16 ∧ (List.replicate 16 (0 : Byte)).length = 16 * 1 ∧
    0 < (List.replicate 15 (1 : Byte)).length ∧ (List.replicate 15 (1 : Byte)).length < 16 ∧
    s.inq = List.replicate 16 0 ++ List.replicate 15 1 ∧ s.inEnd = .eof ∧
    s.outq.length + 16 * 1 ≤ s.cfg.outFifoDepth := by decide

/-- ParameterChecksComeFirst: no parameters, a key of 17 bytes, and an IV of 15. -/
theorem test_witness_ParameterChecksComeFirst :
    let noKey := { State.reset with bufs := { Buffers.zero with key := zeros 17 } }
    let noIv := { State.reset with bufs := { Buffers.zero with key := zeros 32, iv := zeros 15 } }
    Ready State.reset ∧ (State.reset.kdfIter = 0 ∨ State.reset.kdfLen = 0) ∧
    ({ State.reset with kdfIter := 1 }.kdfIter = 0 ∨ { State.reset with kdfIter := 1 }.kdfLen = 0) ∧
    (Ready noKey ∧ noKey.bufLen .key ∉ [16, 24, 32]) ∧
    (Ready noIv ∧ noIv.bufLen .key ∈ [16, 24, 32] ∧ noIv.bufLen .iv ≠ 16) := by decide

theorem test_witness_CbcBlockEquation :
    (List.replicate 24 (0 : Byte)).length ∈ [16, 24, 32] ∧ (List.replicate 16 (0 : Byte)).length = 16 ∧
    (List.replicate 32 (0 : Byte)).length % 16 = 0 ∧ 0 < (List.replicate 32 (0 : Byte)).length / 16 ∧
    1 < (List.replicate 32 (0 : Byte)).length / 16 := by decide

theorem test_witness_KeyScheduleRecurrence :
    ((6 = 4 ∧ 12 = 10) ∨ (6 = 6 ∧ 12 = 12) ∨ (6 = 8 ∧ 12 = 14)) ∧ (List.replicate 24 (0 : Byte)).length = 4 * 6 ∧
    5 < 6 ∧ 6 ≤ 6 ∧ 51 < 4 * (12 + 1) := by decide

/-- Header buffers whose secrets decrypt, under the key derived from the empty password, to the given three blocks. -/
def sealed (ps : List Block) : Block × List Block :=
  backCipher (keyExpansion (deriveKey [] [] 10000 32)) (roundsOf ((deriveKey [] [] 10000 32).length / 4)) ps

/-- The 48 bytes of a SecretsPayload: the fields of an IV, a key and one checksum byte, then 12 bytes more. -/
def payloadBlocks (iiv : Block) (ck : Byte) : List Block :=
  [Block.ofBytes ([0x10] ++ iiv.bytes.take 15), Block.ofBytes (iiv.bytes.drop 15 ++ [0x10] ++ List.replicate 14 0),
    Block.ofBytes ([0x00, 0x00, 0x01, ck] ++ List.replicate 12 0)]

theorem payloadBlocks_bytes (iiv : Block) (ck : Byte) :
    (payloadBlocks iiv ck).flatMap Block.bytes =
      byteField iiv.bytes ++ byteField (List.replicate 16 0) ++ byteField [ck] ++ List.replicate 12 0 := rfl

/-- The secrets of `sealed`, as a header buffer holds them. -/
theorem sealed_decrypts (iiv : Block) (ck : Byte) :
    cbcDecrypt (deriveKey [] [] 10000 32) (sealed (payloadBlocks iiv ck)).1.bytes
        ((sealed (payloadBlocks iiv ck)).2.flatMap Block.bytes) =
      byteField iiv.bytes ++ byteField (List.replicate 16 0) ++ byteField [ck] ++ List.replicate 12 0 :=
  (cbcDecrypt_backCipher _ _).trans (payloadBlocks_bytes iiv ck)

theorem sealed_length (iiv : Block) (ck : Byte) :
    ((sealed (payloadBlocks iiv ck)).2.flatMap Block.bytes).length = 48 := by
  rw [flatMap_bytes_length, sealed, backCipher_length]
  rfl

/-- A checksum of one byte that matches an inner key and the empty salt. -/
theorem checksum_matches (ik : List Byte) : ∃ ck : Byte, [ck] = deriveKey ik [] 1000 1 := by
  have h := deriveKey_length ik [] 1000 1
  generalize deriveKey ik [] 1000 1 = d at h
  match d, h with
  | [c], _ => exact ⟨c, rfl⟩

/-- Header buffers with the given IV and secrets. -/
def withSecrets (iv secrets : List Byte) : State :=
  { State.reset with
    bufs := { Buffers.zero with hIv := Buffer.ofBytes iv, hSecrets := Buffer.ofBytes secrets } }

theorem withSecrets_values (iv secrets : List Byte) :
    (withSecrets iv secrets).bufValue .secret = [] ∧ (withSecrets iv secrets).bufValue .hSalt = [] ∧
    (withSecrets iv secrets).bufValue .hSsalt = [] ∧ (withSecrets iv secrets).bufValue .hIv = iv ∧
    (withSecrets iv secrets).bufValue .hSecrets = secrets ∧ (withSecrets iv secrets).bufLen .hIv = iv.length ∧
    (withSecrets iv secrets).bufLen .hSecrets = secrets.length :=
  ⟨rfl, rfl, rfl, buffer_value_ofBytes iv, buffer_value_ofBytes secrets, rfl, rfl⟩

theorem test_witness_UnwrapCompletes :
    ∃ (s : State) (iiv ik ck extra : List Byte), Ready s ∧ s.bufLen .hSecrets % 16 = 0 ∧ s.bufLen .hIv = 16 ∧
      cbcDecrypt (deriveKey (s.bufValue .secret) (s.bufValue .hSalt) 10000 32) (s.bufValue .hIv)
        (s.bufValue .hSecrets) = byteField iiv ++ byteField ik ++ byteField ck ++ extra ∧
      iiv.length = 16 ∧ ik.length ∈ [16, 24, 32] ∧ 0 < ck.length ∧ ck.length ≤ 255 ∧
      ck = deriveKey ik (s.bufValue .hSsalt) 1000 ck.length := by
  obtain ⟨ck, hck⟩ := checksum_matches (List.replicate 16 0)
  obtain ⟨h1, h2, h3, h4, h5, h6, h7⟩ := withSecrets_values (sealed (payloadBlocks .zero ck)).1.bytes
    ((sealed (payloadBlocks .zero ck)).2.flatMap Block.bytes)
  refine ⟨withSecrets (sealed (payloadBlocks .zero ck)).1.bytes
    ((sealed (payloadBlocks .zero ck)).2.flatMap Block.bytes), Block.zero.bytes, List.replicate 16 0, [ck],
    List.replicate 12 0, .inl rfl, ?_, ?_, ?_, rfl, by decide, by simp, by simp, ?_⟩
  · rw [h7, sealed_length]
  · rw [h6, block_bytes_length]
  · rw [h1, h2, h4, h5]
    exact sealed_decrypts .zero ck
  · rw [h3]
    exact hck

/-! #### UNWRAP -/

/-- A state in whose header the secrets decrypt to the given blocks under the empty password. -/
def sealedState (ps : List Block) : State := withSecrets (sealed ps).1.bytes ((sealed ps).2.flatMap Block.bytes)

theorem sealedState_ready (ps : List Block) :
    Ready (sealedState ps) ∧ (sealedState ps).bufLen .hSecrets % 16 = 0 ∧ (sealedState ps).bufLen .hIv = 16 := by
  obtain ⟨-, -, -, -, -, h6, h7⟩ := withSecrets_values (sealed ps).1.bytes ((sealed ps).2.flatMap Block.bytes)
  refine ⟨.inl rfl, ?_, by rw [sealedState, h6, block_bytes_length]⟩
  rw [sealedState, h7, flatMap_bytes_length]
  omega

theorem sealedState_plain (ps : List Block) :
    cbcDecrypt (deriveKey ((sealedState ps).bufValue .secret) ((sealedState ps).bufValue .hSalt) 10000 32)
        ((sealedState ps).bufValue .hIv) ((sealedState ps).bufValue .hSecrets) = ps.flatMap Block.bytes := by
  obtain ⟨h1, h2, -, h4, h5, -, -⟩ := withSecrets_values (sealed ps).1.bytes ((sealed ps).2.flatMap Block.bytes)
  rw [sealedState, h1, h2, h4, h5]
  exact cbcDecrypt_backCipher _ ps

/-- A byte that is not the first byte of a given list. -/
theorem wrong_byte (d : List Byte) : ∃ ck : Byte, [ck] ≠ d := by
  rcases d with _ | ⟨c, _ | ⟨e, r⟩⟩
  · exact ⟨0, by simp⟩
  · refine ⟨c + 1, fun h => ?_⟩
    simp at h
  · exact ⟨0, by simp⟩

/-- UnwrapErrorsInOrder, the structural errors: secrets of 1 and 15 bytes, IVs of 15 and 17 bytes. -/
theorem test_witness_UnwrapErrorsInOrder_structure :
    Ready (withSecrets [] [0x00]) ∧ (withSecrets [] [0x00]).bufLen .hSecrets % 16 ≠ 0 ∧
    (withSecrets [] (List.replicate 15 0)).bufLen .hSecrets % 16 ≠ 0 ∧
    ((withSecrets (List.replicate 15 0) []).bufLen .hSecrets % 16 = 0 ∧
      (withSecrets (List.replicate 15 0) []).bufLen .hIv ≠ 16) ∧
    (withSecrets (List.replicate 17 0) []).bufLen .hIv ≠ 16 := by decide

/-- UnwrapErrorsInOrder, the parse: no secrets; and an empty checksum. -/
theorem test_witness_UnwrapErrorsInOrder_parse :
    (Ready (sealedState []) ∧ (sealedState []).bufLen .hSecrets % 16 = 0 ∧ (sealedState []).bufLen .hIv = 16) ∧
    parseSecrets (cbcDecrypt (deriveKey ((sealedState []).bufValue .secret) ((sealedState []).bufValue .hSalt) 10000 32)
      ((sealedState []).bufValue .hIv) ((sealedState []).bufValue .hSecrets)) = none ∧
    parseSecrets (cbcDecrypt
      (deriveKey ((sealedState [.zero]).bufValue .secret) ((sealedState [.zero]).bufValue .hSalt) 10000 32)
      ((sealedState [.zero]).bufValue .hIv) ((sealedState [.zero]).bufValue .hSecrets)) = some ([], [], []) := by
  refine ⟨sealedState_ready [], ?_, ?_⟩ <;> rw [sealedState_plain] <;> decide

/-- The blocks of a SecretsPayload with no IV and no key, and a checksum of one byte. -/
def noKeyBlocks (ck : Byte) : List Block := [Block.ofBytes ([0x00, 0x00, 0x01, ck] ++ List.replicate 12 0)]

/-- The blocks of a SecretsPayload with an IV of 15 bytes, a key of 16 and a checksum of one byte. -/
def shortIvBlocks (ck : Byte) : List Block :=
  [Block.ofBytes (0x0F :: List.replicate 15 0), Block.ofBytes (0x10 :: List.replicate 15 0),
    Block.ofBytes ([0x00, 0x01, ck] ++ List.replicate 13 0)]

theorem noKeyBlocks_parse (ck : Byte) : parseSecrets ((noKeyBlocks ck).flatMap Block.bytes) = some ([], [], [ck]) := rfl

theorem shortIvBlocks_parse (ck : Byte) :
    parseSecrets ((shortIvBlocks ck).flatMap Block.bytes) = some (List.replicate 15 0, List.replicate 16 0, [ck]) := rfl

/-- UnwrapErrorsInOrder, the three errors after the parse: a wrong checksum, an inner key of no bytes, an inner IV of 15. -/
theorem test_witness_UnwrapErrorsInOrder_checks :
    (∃ (ps : List Block) (ck : Byte), Ready (sealedState ps) ∧
      parseSecrets (cbcDecrypt
        (deriveKey ((sealedState ps).bufValue .secret) ((sealedState ps).bufValue .hSalt) 10000 32)
        ((sealedState ps).bufValue .hIv) ((sealedState ps).bufValue .hSecrets)) = some ([], [], [ck]) ∧
      [ck] ≠ deriveKey [] ((sealedState ps).bufValue .hSsalt) 1000 [ck].length) ∧
    (∃ (ps : List Block) (ck : Byte), Ready (sealedState ps) ∧
      parseSecrets (cbcDecrypt
        (deriveKey ((sealedState ps).bufValue .secret) ((sealedState ps).bufValue .hSalt) 10000 32)
        ((sealedState ps).bufValue .hIv) ((sealedState ps).bufValue .hSecrets)) = some ([], [], [ck]) ∧
      [ck] = deriveKey [] ((sealedState ps).bufValue .hSsalt) 1000 [ck].length ∧ ([] : List Byte).length ∉ [16, 24, 32]) ∧
    ∃ (ps : List Block) (ck : Byte) (iiv ik : List Byte), Ready (sealedState ps) ∧
      parseSecrets (cbcDecrypt
        (deriveKey ((sealedState ps).bufValue .secret) ((sealedState ps).bufValue .hSalt) 10000 32)
        ((sealedState ps).bufValue .hIv) ((sealedState ps).bufValue .hSecrets)) = some (iiv, ik, [ck]) ∧
      [ck] = deriveKey ik ((sealedState ps).bufValue .hSsalt) 1000 [ck].length ∧ ik.length ∈ [16, 24, 32] ∧
      iiv.length ≠ 16 := by
  have hs : ∀ ps, (sealedState ps).bufValue .hSsalt = [] := fun _ => rfl
  refine ⟨?_, ?_, ?_⟩
  · obtain ⟨ck, h⟩ := wrong_byte (deriveKey [] [] 1000 1)
    refine ⟨noKeyBlocks ck, ck, .inl rfl, ?_, ?_⟩
    · rw [sealedState_plain, noKeyBlocks_parse]
    · rw [hs]; exact h
  · obtain ⟨ck, h⟩ := checksum_matches []
    refine ⟨noKeyBlocks ck, ck, .inl rfl, ?_, ?_, by decide⟩
    · rw [sealedState_plain, noKeyBlocks_parse]
    · rw [hs]; exact h
  · obtain ⟨ck, h⟩ := checksum_matches (List.replicate 16 0)
    refine ⟨shortIvBlocks ck, ck, List.replicate 15 0, List.replicate 16 0, .inl rfl, ?_, ?_, by decide, by decide⟩
    · rw [sealedState_plain, shortIvBlocks_parse]
    · rw [hs]; exact h

/-- SecretsParseAndCompare: the ends of the range of a field's length, and lists of one length. -/
theorem test_witness_SecretsParseAndCompare :
    parseSecrets [0x00, 0x00, 0x00] = some ([], [], []) ∧ parseSecrets [0x00, 0x00] = none ∧
    parseSecrets (0xFF :: List.replicate 255 0 ++ [0x00, 0x00]) = some (List.replicate 255 0, [], []) ∧
    [(0x01 : Byte)].length = [(0x02 : Byte)].length := by decide +kernel

/-! #### INFLATE and the payload stream -/

theorem test_witness_InflateStoredCompletes :
    Ready (fed (zlibStored [] ++ [0x99]) .stillOpen) ∧
    (fed (zlibStored [] ++ [0x99]) .stillOpen).inq = zlibStored [] ++ [0x99] ∧
    (fed [] .eof).outq.length + (List.replicate 64 (0x61 : Byte)).length ≤ (fed [] .eof).cfg.outFifoDepth := by decide

/-- InflateTruncated: no byte at all, and the stream without its last byte. -/
theorem test_witness_InflateTruncated :
    Ready (fed [] .eof) ∧ [] <+: zlibStored [0x61] ∧ [] ≠ zlibStored [0x61] ∧ (fed [] .eof).inEnd = .eof ∧
    (zlibStored [0x61]).dropLast <+: zlibStored [0x61] ∧ (zlibStored [0x61]).dropLast ≠ zlibStored [0x61] ∧
    (fed (zlibStored [0x61]).dropLast .eof).outq.length + [(0x61 : Byte)].length ≤ 64 := by decide

theorem test_witness_InflateChecksAdler :
    let s := fed ((zlibStored [0x61]).take 8 ++ [0x00, 0x62, 0x00, 0x63] ++ []) .eof
    Ready s ∧ s.inq = (zlibStored [0x61]).take ([(0x61 : Byte)].length + 7) ++ [0x00, 0x62, 0x00, 0x63] ++ [] ∧
    (((0x00 : Byte).toNat * 256 + (0x62 : Byte).toNat) * 256 + (0x00 : Byte).toNat) * 256 + (0x63 : Byte).toNat ≠
      adler32 [0x61] ∧ s.outq.length + [(0x61 : Byte)].length ≤ s.cfg.outFifoDepth := by decide

/-- InflateChecksHeaderAndBlocks, the zlib header: a bad check value, a bad method, a window of 64 KiB, and a preset
dictionary. -/
theorem test_witness_InflateChecksHeaderAndBlocks_header :
    Ready (fed [0x78, 0x02] .eof) ∧ (fed [0x78, 0x02] .eof).inq = 0x78 :: 0x02 :: [] ∧ (0x78 * 256 + 0x02) % 31 ≠ 0 ∧
    ((0x77 * 256 + 0x09) % 31 = 0 ∧ ((0x77 : Byte).extractLsb' 0 4).toNat ≠ 8) ∧
    ((0x88 * 256 + 0x1C) % 31 = 0 ∧ ((0x88 : Byte).extractLsb' 4 4).toNat > 7) ∧
    ((0x78 * 256 + 0x20) % 31 = 0 ∧ ((0x78 : Byte).extractLsb' 0 4).toNat = 8 ∧ ((0x78 : Byte).extractLsb' 4 4).toNat = 7 ∧
      (0x20 : Byte).getLsbD 5 = true) := by decide

/-- InflateChecksHeaderAndBlocks, the first block behind a good header: BTYPE 3, a stored block with LEN = NLEN = 0, and a
dynamic block with 287 literal/length or 31 distance codes. -/
theorem test_witness_InflateChecksHeaderAndBlocks_block :
    ((0x78 * 256 + 0x01) % 31 = 0 ∧ (0x01 : Byte).getLsbD 5 = false) ∧ ((0x07 : Byte).extractLsb' 1 2).toNat = 3 ∧
    (((0x01 : Byte).extractLsb' 1 2).toNat = 0 ∧ (0x00 : Byte) ++ (0x00 : Byte) ≠ ~~~((0x00 : Byte) ++ (0x00 : Byte))) ∧
    (((0xF5 : Byte).extractLsb' 1 2).toNat = 2 ∧ ((0xF5 : Byte).extractLsb' 3 5).toNat + 257 = 287) ∧
    (((0x05 : Byte).extractLsb' 1 2).toNat = 2 ∧ ((0x1E : Byte).extractLsb' 0 5).toNat + 1 = 31) := by decide

/-- A decoder at a point, with a byte of input. -/
def decoding (p : ZPoint) (z : InflateCtx) : State := { running (.inflate .raw p none) [0x99] .stillOpen with z := z }

/-- A context whose three tables are those of `lens`, with the code of `x` and `extra` bits 0 unread. -/
def codeUnread (lens : List Nat) (x extra : Nat) : InflateCtx :=
  { InflateCtx.zero with
    bitbuf := BitVec.ofNat 32 ((codeBits (lens.getD x 0) (canonicalCode lens x)).foldr (fun b v => b + 2 * v) 0)
    bitcnt := lens.getD x 0 + extra, lit := codeTable lens, dist := codeTable lens, clen := codeTable lens }

theorem codeUnread_tables (lens : List Nat) (x extra : Nat) :
    (codeUnread lens x extra).lit = codeTable lens ∧ (codeUnread lens x extra).dist = codeTable lens ∧
    (codeUnread lens x extra).clen = codeTable lens := ⟨rfl, rfl, rfl⟩

/-- A complete code-length code: 0 to 3 and 15 to 18, of three bits each. -/
def clenLens : List Nat := List.replicate 4 3 ++ List.replicate 11 0 ++ List.replicate 4 3

/-- The lengths of the fixed literal/length code. -/
def litLens : List Nat := List.replicate 144 8 ++ List.replicate 112 9 ++ List.replicate 24 7 ++ List.replicate 8 8

/-- What makes the code of `x` the next one in `codeUnread`. -/
abbrev CodeFits (lens : List Nat) (x extra : Nat) : Prop :=
  (∀ k ∈ lens, k ≤ 15) ∧ buildCode lens = some (0, codeTable lens) ∧ x < lens.length ∧ 0 < lens.getD x 0 ∧
    unreadBits (codeUnread lens x extra) (lens.getD x 0) = codeBits (lens.getD x 0) (canonicalCode lens x)

theorem codeIsNext_of {lens : List Nat} {x extra : Nat} (h : CodeFits lens x extra) :
    CodeIsNext (codeUnread lens x extra) (codeTable lens) x (lens.getD x 0) :=
  ⟨lens, 0, h.1, h.2.1, h.2.2.1, rfl, h.2.2.2.1, Nat.le_add_right _ _, h.2.2.2.2⟩

/-- Code lengths that make the two codes of a dynamic block. -/
abbrev MakesCodes (hlit : Nat) (all : List Nat) : Prop :=
  all.getD 256 0 ≠ 0 ∧ CodeAccepted (all.take hlit) ∧ CodeAccepted (all.drop hlit)

/-- InflateChecksHeaderAndBlocks, the code-length code: complete and not, with 19 lengths and with fewer. -/
theorem test_witness_InflateChecksHeaderAndBlocks_clens :
    let z := { InflateCtx.zero with bitbuf := 1, bitcnt := 3 }
    let lens := List.replicate 17 0 ++ [1]
    (decoding (.clens 257 1 1 lens) z).k = .inflate .raw (.clens 257 1 1 lens) none ∧
    (decoding (.clens 257 1 1 lens) z).inq = 0x99 :: [] ∧ lens.length < 19 ∧ (∀ l ∈ lens, l ≤ 15) ∧
    codeSpace (lens ++ [bitsBehind z 0 3]) = 2 ^ 15 ∧ codeSpace ([1, 1] ++ [bitsBehind z 0 3]) ≠ 2 ^ 15 ∧
    codeSpace ([] ++ [bitsBehind z 0 3]) ≠ 2 ^ 15 := by decide

/-- InflateChecksHeaderAndBlocks, the code lengths: a symbol of each clause is next, and the ends of lengths that make two
codes, and that do not: no end-of-block code, and a literal/length and a distance code of one code of two bits. -/
theorem test_witness_InflateChecksHeaderAndBlocks_lens :
    (∀ x ∈ [0, 1, 2, 15, 16, 18],
      CodeIsNext (codeUnread clenLens x 0) (codeTable clenLens) x (clenLens.getD x 0)) ∧
    (15 < 16 ∧ ([] : List Nat).length + 1 < 257 + 1) ∧ (List.replicate 256 0 ++ [1]).length + 1 = 257 + 1 ∧
    MakesCodes 257 (List.replicate 256 0 ++ [1] ++ [1]) ∧ (List.replicate 257 0 ++ [1]).getD 256 0 = 0 ∧
    ¬ CodeAccepted ((List.replicate 256 0 ++ [2] ++ [1]).take 257) ∧
    ¬ CodeAccepted ((List.replicate 256 0 ++ [1] ++ [2]).drop 257) := by
  have h : ∀ x ∈ [0, 1, 2, 15, 16, 18], CodeFits clenLens x 0 := by decide +kernel
  exact ⟨fun x hx => codeIsNext_of (h x hx), by decide +kernel⟩

/-- InflateChecksHeaderAndBlocks, a repeat: the longest, to just below the last length and beyond it, and one that ends with
the last length of two codes. -/
theorem test_witness_InflateChecksHeaderAndBlocks_rep :
    bitsBehind { InflateCtx.zero with bitbuf := 127, bitcnt := 7 } 0 7 = 127 ∧
    (List.replicate 119 0 ++ List.replicate (11 + 127) 0).length < 257 + 1 ∧
    (List.replicate 121 0 ++ List.replicate (11 + 127) 0).length > 257 + 1 ∧
    bitsBehind { InflateCtx.zero with bitcnt := 2 } 0 2 = 0 ∧
    (List.replicate 255 0 ++ [1] ++ List.replicate (3 + 0) 1).length = 257 + 2 ∧
    MakesCodes 257 (List.replicate 255 0 ++ [1] ++ List.replicate (3 + 0) 1) := by
  decide +kernel

/-- BitReaderIsExact: 12 unread bits, and 13 of 24 asked for. -/
theorem test_witness_BitReaderIsExact :
    ({ InflateCtx.zero with bitbuf := 0xFFF, bitcnt := 12 }.bitbuf.toNat <
      2 ^ { InflateCtx.zero with bitbuf := 0xFFF, bitcnt := 12 }.bitcnt) ∧ 12 < 13 ∧
    ({ InflateCtx.zero with bitbuf := 0xFFFFFF, bitcnt := 24 }.bitbuf.toNat <
      2 ^ { InflateCtx.zero with bitbuf := 0xFFFFFF, bitcnt := 24 }.bitcnt) ∧ 13 ≤ 24 := by decide

/-- CanonicalCodesDecode: a complete code, and one with a single symbol of 15 bits. -/
theorem test_witness_CanonicalCodesDecode :
    ((∀ l ∈ [2, 1, 0, 2], l ≤ 15) ∧ ((buildCode [2, 1, 0, 2]).map fun p => p.1) = some 0 ∧ [2, 1, 0, 2].getD 3 0 ≠ 0) ∧
    (∀ l ∈ [0, 15], l ≤ 15) ∧ (buildCode [0, 15]).isSome = true ∧ [0, 15].getD 1 0 ≠ 0 := by decide

/-- CompressedBlockSymbolsAndCopies: the first and last symbol of each clause is next, with the fixed codes; distance
symbol 29 with its 13 extra bits. -/
theorem test_witness_CompressedBlockSymbolsAndCopies_symbols :
    (∀ x ∈ [0, 255, 256, 257, 285, 286, 287],
      CodeIsNext (codeUnread litLens x 0) (codeTable litLens) x (litLens.getD x 0)) ∧
    (∀ x ∈ [0, 29, 30, 31], CodeIsNext (codeUnread (List.replicate 32 5) x 13)
      (codeTable (List.replicate 32 5)) x ((List.replicate 32 5).getD x 0)) ∧
    (lengthExtra.getD (257 - 257) 0 = 0 ∧ lengthExtra.getD (285 - 257) 0 = 0 ∧ distExtra.getD 29 0 = 13) ∧
    (decoding (.sym symStart) (codeUnread litLens 256 0)).inq = 0x99 :: [] ∧
    ((codeUnread litLens 256 0).bfinal = false ∧ (codeUnread litLens 256 0).total < distBase.getD 0 0) := by
  have hl : ∀ x ∈ [0, 255, 256, 257, 285, 286, 287], CodeFits litLens x 0 := by decide +kernel
  have hd : ∀ x ∈ [0, 29, 30, 31], CodeFits (List.replicate 32 5) x 13 := by decide +kernel
  exact ⟨fun x hx => codeIsNext_of (hl x hx), fun x hx => codeIsNext_of (hd x hx), by decide, rfl, by decide⟩

/-- CompressedBlockSymbolsAndCopies: a distance code with no codes, and one with a single code of one bit, the other bit
unread. -/
theorem test_witness_CompressedBlockSymbolsAndCopies_noCode :
    NoCodeIsNext { InflateCtx.zero with bitcnt := 15 } (codeTable [0]) ∧
    NoCodeIsNext { InflateCtx.zero with bitcnt := 15, bitbuf := 1 } (codeTable [1]) :=
  ⟨⟨[0], 32768, by decide⟩, ⟨[1], 16384, by decide⟩⟩

/-- CompressedBlockSymbolsAndCopies: the longest copy, from the last byte of the history. -/
theorem test_witness_CompressedBlockSymbolsAndCopies_copy :
    let s : State := { running (.inflate .raw (.copy 258 1) none) [] .stillOpen with
      cfg := { Config.reference with outFifoDepth := 258 }, z := { InflateCtx.zero with hist := [0x61], total := 1 } }
    s.st = .busy ∧ 0 < 258 ∧ 1 ≤ s.z.hist.length ∧ s.z.hist.length ≤ 32768 ∧ distBase.getD 0 0 ≤ s.z.total ∧
    s.k = .inflate .raw (.copy 258 1) none ∧ s.outq.length + 258 ≤ s.cfg.outFifoDepth := by decide +kernel

/-- The plaintext of a payload of one block: the empty stored stream, and 5 bytes more. -/
def storedBlock : Block := Block.ofBytes (zlibStored [] ++ List.replicate 5 0)

/-- An IV and a ciphertext of one block whose plaintext is `storedBlock`, under a key of 16 zeros. -/
def payload : Block × List Block :=
  backCipher (keyExpansion (List.replicate 16 0)) (roundsOf ((List.replicate 16 (0 : Byte)).length / 4)) [storedBlock]

theorem payload_decrypts :
    cbcDecrypt (List.replicate 16 0) payload.1.bytes (payload.2.flatMap Block.bytes) =
      zlibStored [] ++ List.replicate 5 0 :=
  (cbcDecrypt_backCipher (List.replicate 16 0) [storedBlock]).trans (by decide)

/-- A state whose KEY, IV and input are those of `payload`. -/
def openable : State :=
  { fed (payload.2.flatMap Block.bytes ++ [0x99]) .stillOpen with
    bufs := { Buffers.zero with key := zeros 16, iv := Buffer.ofBytes payload.1.bytes } }

theorem openable_values :
    openable.bufValue .key = List.replicate 16 0 ∧ openable.bufValue .iv = payload.1.bytes :=
  ⟨by decide, buffer_value_ofBytes payload.1.bytes⟩

theorem test_witness_OpenPlaintextStoredCompletes :
    ∃ (s : State) (cipher data extra rest : List Byte), Ready s ∧ s.bufLen .key ∈ [16, 24, 32] ∧ s.bufLen .iv = 16 ∧
      cipher.length % 16 = 0 ∧ cbcDecrypt (s.bufValue .key) (s.bufValue .iv) cipher = zlibStored data ++ extra ∧
      extra.length < 16 ∧ data.length ≤ 65535 ∧ s.inq = cipher ++ rest ∧
      s.outq.length + data.length ≤ s.cfg.outFifoDepth := by
  refine ⟨openable, payload.2.flatMap Block.bytes, [], List.replicate 5 0, [0x99], .inl rfl, by decide,
    rfl, ?_, ?_, by decide, by decide, rfl, by decide⟩
  · rw [flatMap_bytes_length]; omega
  · rw [openable_values.1, openable_values.2]
    exact payload_decrypts

theorem test_witness_OpenPlaintextShortPayload :
    Ready (keyed [] .eof) ∧ (keyed [] .eof).bufLen .key ∈ [16, 24, 32] ∧ (keyed [] .eof).bufLen .iv = 16 ∧
    (keyed [] .eof).inq.length < 16 ∧ (keyed [] .eof).inEnd = .eof ∧
    (keyed (List.replicate 15 0) .eof).inq.length < 16 := by decide

/-- A whole file for the empty password: secrets of 48 bytes, and a payload of one block. -/
def fileHeader (ck : Byte) : FileHeader :=
  { salt := [], iv := (sealed (payloadBlocks payload.1 ck)).1.bytes, secretSalt := [],
    secrets := (sealed (payloadBlocks payload.1 ck)).2.flatMap Block.bytes }

theorem fileHeader_fits (ck : Byte) : (fileHeader ck).Fits := by
  refine ⟨Nat.zero_le _, ?_, Nat.zero_le _, ?_⟩
  · simp [fileHeader]
  · rw [fileHeader, sealed_length]; decide

/-- The reset state of an engine with an INQ of 256 bytes, and some input. -/
def fedWide (bytes : List Byte) : State :=
  { fed bytes .eof with cfg := { Config.reference with inFifoDepth := 256 } }

theorem test_inv_fedWide (bytes : List Byte) (h : bytes.length ≤ 256) : (fedWide bytes).Inv where
  released := fun _ => ⟨rfl, rfl, rfl, rfl, rfl, rfl, rfl⟩
  running := fun h => by cases h
  errIff := by simp [fedWide, fed, State.reset, State.resetWith]
  inqFits := h
  outqFits := Nat.zero_le _
  bufsOk := fun id => by cases id <;> exact bufferOk_zeros (Nat.zero_le _)
  ptrFits := Nat.zero_le _
  uZero := rfl
  sbposFits := Nat.le_refl _
  blkFits := Nat.succ_pos 15
  idleOp := fun _ => rfl
  opLegal := .inl rfl
  idleZ := fun _ => ⟨rfl, rfl, rfl⟩
  zFits := (by decide : InflateOk InflateCtx.zero)
  inHand := trivial

theorem test_witness_DecryptStoredCompletes :
    ∃ (s : State) (h : FileHeader) (iiv ik ck spare cipher data extra rest : List Byte), Ready s ∧ h.Fits ∧
      s.inq = h.bytes ++ cipher ++ rest ∧ h.secrets.length % 16 = 0 ∧ h.iv.length = 16 ∧
      cbcDecrypt (deriveKey (s.bufValue .secret) h.salt 10000 32) h.iv h.secrets =
        byteField iiv ++ byteField ik ++ byteField ck ++ spare ∧
      iiv.length = 16 ∧ ik.length ∈ [16, 24, 32] ∧ 0 < ck.length ∧ ck.length ≤ 255 ∧
      ck = deriveKey ik h.secretSalt 1000 ck.length ∧
      cipher.length % 16 = 0 ∧ cbcDecrypt ik iiv cipher = zlibStored data ++ extra ∧ extra.length < 16 ∧
      data.length ≤ 65535 ∧ s.outq.length + data.length ≤ s.cfg.outFifoDepth := by
  obtain ⟨ck, hck⟩ := checksum_matches (List.replicate 16 0)
  refine ⟨fedWide ((fileHeader ck).bytes ++ payload.2.flatMap Block.bytes ++ []), fileHeader ck, payload.1.bytes,
    List.replicate 16 0, [ck], List.replicate 12 0, payload.2.flatMap Block.bytes, [], List.replicate 5 0, [], .inl rfl,
    fileHeader_fits ck, rfl, ?_, rfl, ?_, rfl, by decide, by simp, by simp, hck, ?_, payload_decrypts, by decide,
    by decide, Nat.zero_le _⟩
  · rw [fileHeader, sealed_length]
  · have hv : (fedWide ((fileHeader ck).bytes ++ payload.2.flatMap Block.bytes ++ [])).bufValue .secret = [] := rfl
    rw [hv]
    exact sealed_decrypts payload.1 ck
  · rw [flatMap_bytes_length]; omega

/-- DecryptIsTheThreeCommands: the header ends in ERROR; the header is good and UNWRAP ends in ERROR. -/
theorem test_witness_DecryptIsTheThreeCommands_errors :
    let bad := fedWide [0x05, 0x04]
    let empty := fedWide [0x05, 0x05, 0x01, 0x00, 0x00, 0x00, 0x00]
    (Ready bad ∧ okNext (exec .parseHeader bad) (fun p => (engineRun 3 p).st == .error) = true) ∧
    Ready empty ∧
    okNext (exec .parseHeader empty) (fun p =>
      (engineRun 7 p).st == .busy && (engineRun 8 p).st == .done &&
        okNext (exec .unwrap (engineRun 8 p)) fun u => (engineStep u).st == .error) = true := by decide

theorem test_witness_DecryptIsTheThreeCommands_inv :
    (fedWide [0x05, 0x04]).Inv ∧ (fedWide [0x05, 0x05, 0x01, 0x00, 0x00, 0x00, 0x00]).Inv :=
  ⟨test_inv_fedWide _ (by decide), test_inv_fedWide _ (by decide)⟩

/-- The step of PARSE_HEADER behind the last field. -/
theorem parse_end {s : State} {n : Nat} (hb : s.st = .busy) (hk : s.k = .header false (.fieldData .hSecrets n n)) :
    engineRun 1 s = finish s := by
  rw [engineRun_succ, engineStep_of_busy hb]
  simp [advance, hk, headerStep, headerFieldData, nextField, afterHeader]

/-- UNWRAP of the header buffers of `fileHeader` ends in DONE. -/
theorem unwrap_done {s : State} {ck : Byte} (hb : s.st = .busy) (hk : s.k = .first .unwrap)
    (hf : s.bufValue .secret = [] ∧ s.bufValue .hSalt = [] ∧ s.bufValue .hSsalt = [] ∧
      s.bufValue .hIv = (fileHeader ck).iv ∧ s.bufValue .hSecrets = (fileHeader ck).secrets ∧
      s.bufLen .hIv = 16 ∧ s.bufLen .hSecrets = 48)
    (hck : [ck] = deriveKey (List.replicate 16 0) [] 1000 1) : (engineStep s).st = .done := by
  obtain ⟨h1, h2, h3, h4, h5, h6, h7⟩ := hf
  have hpt := sealed_decrypts payload.1 ck
  generalize hok : deriveKey [] [] 10000 32 = ok at hpt
  obtain ⟨c, h⟩ := unwrapBody_of_fields (s := s) (ok := ok) (iiv := payload.1.bytes) (ik := List.replicate 16 0)
    (ck := [ck]) (extra := List.replicate 12 0) (by rw [h7]) h6 (by rw [h1, h2]; exact hok)
    (by rw [h4, h5]; exact hpt) rfl (by decide) (by simp) (by simp) (by rw [h3]; exact hck)
  rw [engineStep_of_busy hb]
  simp only [advance, hk, firstStep, unwrapStart, h]
  rfl

/-- DecryptIsTheThreeCommands: UNWRAP ends in DONE. -/
theorem test_witness_DecryptIsTheThreeCommands_done :
    ∃ s p u : State, s.Inv ∧ Ready s ∧ exec .parseHeader s = .next p ∧ ∃ n : Nat, (engineRun n p).st = .busy ∧
      (engineRun (n + 1) p).st = .done ∧ exec .unwrap (engineRun (n + 1) p) = .next u ∧ (engineStep u).st = .done := by
  obtain ⟨ck, hck⟩ := checksum_matches (List.replicate 16 0)
  have hlen : (fileHeader ck).bytes.length ≤ 256 := by
    have := sealed_length payload.1 ck
    simp only [FileHeader.bytes, byteField, fileHeader, List.length_append, List.length_cons, List.length_nil,
      block_bytes_length, this]
    decide
  have hrun := header_run (d := false) (onDone := finish) (s := startCommand .parseHeader (fedWide (fileHeader ck).bytes))
    (rest := []) rfl rfl (fileHeader_fits ck) (List.append_nil _).symm
  refine ⟨fedWide (fileHeader ck).bytes, _, _, test_inv_fedWide _ hlen, .inl rfl, rfl, (fileHeader ck).bytes.length, ?_, ?_,
    rfl, ?_⟩
  · exact congrArg State.st hrun
  · rw [engineRun_add]
    exact (congrArg (fun t => (engineRun 1 t).st) hrun).trans (congrArg State.st (parse_end (by rfl) (by rfl)))
  · rw [engineRun_add, acceptCommand_of_ready (s := fedWide _) (.inl rfl), hrun, parse_end (by rfl) (by rfl),
      acceptCommand_of_ready (.inr rfl)]
    exact unwrap_done rfl rfl ⟨rfl, buffer_value_ofBytes _, buffer_value_ofBytes _, buffer_value_ofBytes _,
      buffer_value_ofBytes _, rfl, sealed_length payload.1 ck⟩ hck

/-! #### The register window -/

theorem test_witness_BadAccessRaises :
    (0xFF < 256 ∧ (1 ≠ 4 ∨ 0xFF % 4 ≠ 0)) ∧ (0x5C % 4 = 0 ∧ 0x5C ≤ 0x5C) ∧ (0xFC < 256 ∧ 0xFC % 4 = 0) ∧
    okNext (step (State.reset.withEvent (.host (busRead .cmd)))) (fun t => t.err == none) = true := by decide

theorem test_witness_OnlyAccessesOutsideTheWindowStop :
    256 ≤ ({ kind := .read, offset := 256, width := 4, data := 0 } : HostTx).offset := by decide

theorem test_witness_ReadsAndTheirSideEffects :
    ({ State.reset with outq := [0x61] }.outq = 0x61 :: [] ∧ State.reset.outq = []) ∧ Reg.status ≠ .outData ∧
    Reg.status ≠ .bufData := by decide

/-- ParameterRegisterAccesses: the capacity of SECRET, and one more. -/
theorem test_witness_ParameterRegisterAccesses :
    (State.reset.st ≠ .busy ∧ (0x00000100 : Word).toNat = bufCap State.reset.cfg State.reset.selected ∧
      (0x00000101 : Word).toNat > bufCap State.reset.cfg State.reset.selected) ∧
    (fed [] .stillOpen).Inv ∧ (fed [] .stillOpen).cfg.Valid :=
  ⟨by decide, test_inv_fed [] .stillOpen (by decide), by decide⟩

/-- BufDataReadsAndWrites: the last byte of SALT and the place behind it, IV (unreadable), and its capacity. -/
theorem test_witness_BufDataReadsAndWrites :
    let salt := { State.reset with bufSel := 1, bufs := { Buffers.zero with salt := zeros 2 } }
    let iv := { State.reset with bufSel := 7 }
    (salt.selected ∉ [BufId.secret, .key, .iv] ∧ { salt with bufPtr := 1 }.bufPtr < { salt with bufPtr := 1 }.bufLen .salt ∧
      { salt with bufPtr := 2 }.bufLen .salt ≤ { salt with bufPtr := 2 }.bufPtr) ∧
    (iv.selected ∈ [BufId.secret, .key, .iv] ∧ { iv with bufPtr := 15 }.bufPtr < bufCap iv.cfg iv.selected ∧
      { iv with bufPtr := 16 }.bufPtr ≥ bufCap iv.cfg iv.selected) ∧
    busyInflate.st = .busy ∧ iv.st ≠ .busy := by decide

theorem test_witness_BufDataReadsAndWrites_inv : (fed [] .stillOpen).Inv ∧
    (fed [] .stillOpen).bufPtr < bufCap (fed [] .stillOpen).cfg (fed [] .stillOpen).selected :=
  ⟨test_inv_fed [] .stillOpen (by decide), by decide⟩

theorem test_witness_WritesWhileBusyRaise :
    busyInflate.st = .busy ∧ Reg.kdfLen ∈ [Reg.bufSel, .bufLen, .bufPtr, .bufData, .kdfIter, .kdfLen] := by decide

/-- LoadFillsTheBuffer: no bytes, and a whole KEY. -/
theorem test_witness_LoadFillsTheBuffer :
    (fed [] .stillOpen).Inv ∧ (fed [] .stillOpen).st ≠ .busy ∧
    (List.replicate 32 (0xFF : Byte)).length = bufCap (fed [] .stillOpen).cfg .key ∧
    ([] : List Byte).length ≤ bufCap (fed [] .stillOpen).cfg .iv :=
  ⟨test_inv_fed [] .stillOpen (by decide), by decide, by decide, by decide⟩

theorem test_witness_ErrorWordIsTheTable : failed.Inv ∧ failed.errorWord = 0x0104 ∧ State.reset.errorWord = 0 :=
  ⟨test_inv_failed, by decide, by decide⟩

theorem test_witness_LevelRegistersCount : (fed (List.replicate 64 0) .stillOpen).Inv ∧
    (fed (List.replicate 64 0) .stillOpen).cfg.Valid := ⟨test_inv_fed _ _ (by decide), by decide⟩

/-- HostCannotSeeKeyMaterial: two passwords of one length. -/
theorem test_witness_HostCannotSeeKeyMaterial :
    let s := { State.reset with bufs := { Buffers.zero with secret := Buffer.ofBytes [0x61] } }
    let t := { State.reset with bufs := { Buffers.zero with secret := Buffer.ofBytes [0x62] } }
    SameVisible s t ∧ s ≠ t ∧ okNext (step (s.withEvent (.host (busRead .bufData)))) (fun _ => true) = true ∧
    okNext (step (t.withEvent (.host (busRead .bufData)))) (fun _ => true) = true := by
  refine ⟨⟨by decide, rfl⟩, by decide, by decide, by decide⟩

end Sys2Proof.Tests
end

section
/-!
SUPPORT. What the head of the schedule makes a step do, and what no engine step changes; from these, the statements on
the two agents (00_scope.md R6).
-/

namespace Sys2Proof.Machine

/-! ### Fetch -/

/-- The CMD write of a legal word is fetched as its command (30_encoding.md R80). -/
theorem fetch_busWrite_cmd_of_ok {w : Word} {i : Instr} (h : decode w = .ok i) (rest : List Event) :
    fetch (.host (busWrite .cmd w) :: rest) = .command i := by
  have hw : cmdWordOf (busWrite .cmd w) = some w := rfl
  simp only [fetch, hw, h]

theorem decodeTableWord_eq_some_iff (nbits w : Nat) (i : Instr) :
    decodeTableWord nbits w = some i ↔ decode (tableWord nbits w) = .ok i := by
  unfold decodeTableWord
  split <;> simp_all

/-- Placing a fetch word is scheduling its CMD write next (20_memory.md R74; log 2). -/
theorem withFetchWord_eq_withEvent (s : State) (nbits w : Nat) :
    s.withFetchWord nbits w = s.withEvent (.host (busWrite .cmd (tableWord nbits w))) := rfl

/-! ### Steps by what is fetched -/

theorem step_of_fetch_engine {s : State} (h : fetch s.sched = .engine) :
    step s = .next (engineStep (consumeEvent s)) := by simp only [step, h]

theorem step_of_fetch_reset {s : State} (h : fetch s.sched = .reset) :
    step s = .next (hardReset (consumeEvent s)) := by simp only [step, h]

theorem step_of_fetch_command {s : State} {i : Instr} (h : fetch s.sched = .command i) :
    step s = exec i (consumeEvent s) := by simp only [step, h]

/-- With nothing scheduled there is no event to lose. -/
theorem consumeEvent_of_sched_nil {s : State} (h : s.sched = []) : consumeEvent s = s := by
  have htail : s.sched.tail = s.sched := by rw [h]; rfl
  rw [consumeEvent, htail]

/-- The step of the CMD write of a legal word (30_encoding.md R83). -/
theorem step_cmdWrite {w : Word} {i : Instr} (h : decode w = .ok i) (s : State) :
    step (s.withEvent (.host (busWrite .cmd w))) = exec i s :=
  step_of_fetch_command (fetch_busWrite_cmd_of_ok h s.sched)

theorem step_withFetchWord {nbits w : Nat} {i : Instr} (h : decodeTableWord nbits w = some i) (s : State) :
    step (s.withFetchWord nbits w) = exec i s := by
  rw [withFetchWord_eq_withEvent, step_cmdWrite ((decodeTableWord_eq_some_iff nbits w i).mp h)]

theorem step_engineEvent (s : State) : step (s.withEvent .engine) = .next (engineStep s) :=
  step_of_fetch_engine rfl

theorem step_rstEvent (s : State) : step (s.withEvent .rst) = .next (hardReset s) := step_of_fetch_reset rfl

/-- With nothing scheduled the engine runs alone (log 1). -/
theorem step_of_sched_nil {s : State} (h : s.sched = []) : step s = .next (engineStep s) := by
  rw [step_of_fetch_engine (by rw [h]; rfl), consumeEvent_of_sched_nil h]

/-- Settles O4, clause by clause from the step lemmas of the five kinds of event. -/
theorem stepRunsTheScheduledEvent : Obligations.StepRunsTheScheduledEvent :=
  ⟨fun s _ _ h => step_cmdWrite h s, fun s _ _ _ h => step_withFetchWord h s, step_engineEvent, step_rstEvent,
    fun _ h => step_of_sched_nil h⟩

/-! ### What no engine step changes -/

/-- The part of a state that no engine step changes, all else at its reset value: OP and what else only host transactions
write (20_memory.md R61), and the model's own fields. -/
def hostSide (s : State) : State :=
  { State.resetWith s.cfg with
    op := s.op, intEn := s.intEn, inEnd := s.inEnd, bufSel := s.bufSel, bufPtr := s.bufPtr, kdfIter := s.kdfIter,
    kdfLen := s.kdfLen, sched := s.sched, busData := s.busData }

/-- A part of an engine step that leaves the host's side alone. -/
def KeepsHostSide (f : State → State) : Prop := ∀ s : State, hostSide (f s) = hostSide s

theorem finish_keepsHostSide : KeepsHostSide finish := fun _ => rfl

theorem raise_keepsHostSide (e : Err) : KeepsHostSide (raise e) := fun s => by
  rcases raise_cases e s with ⟨-, h⟩ | ⟨-, h⟩ <;> rw [h]
  rfl

/-- `pull()` keeps what its two continuations keep. -/
theorem hostSide_pull {onByte : Byte → State → State} {onEof : State → State} (hb : ∀ b, KeepsHostSide (onByte b))
    (he : KeepsHostSide onEof) (s : State) : hostSide (pull s onByte onEof) = hostSide s := by
  rcases pull_cases s onByte onEof with ⟨b, rest, -, h⟩ | ⟨-, -, h⟩ | ⟨-, -, h⟩ | ⟨-, -, h⟩ <;> rw [h]
  · exact hb b _
  · exact he _
  · exact raise_keepsHostSide .inputError _
  · rfl

/-- `push(b)` keeps what its continuation keeps. -/
theorem hostSide_push {onPushed : State → State} (hp : KeepsHostSide onPushed) (b : Byte) (s : State) :
    hostSide (push b s onPushed) = hostSide s := by
  rcases push_cases b s onPushed with ⟨-, h⟩ | ⟨-, h⟩ <;> rw [h]
  · exact hp _
  · rfl

/-! #### READ_BYTEFIELD and the header body -/

theorem readFieldStart_keepsHostSide : KeepsHostSide readFieldStart :=
  hostSide_pull (fun _ _ => by rfl) (raise_keepsHostSide _)

theorem fieldPullStep_keepsHostSide (left : Nat) : KeepsHostSide (fieldPullStep left) :=
  match left with
  | 0 => finish_keepsHostSide
  | _ + 1 => hostSide_pull (fun _ _ => by rfl) (raise_keepsHostSide _)

theorem fieldPushStep_keepsHostSide (b : Byte) (left : Nat) : KeepsHostSide (fieldPushStep b left) :=
  hostSide_push (fun _ => by rfl) b

theorem headerFieldLen_keepsHostSide (d : Bool) (f : BufId) : KeepsHostSide (headerFieldLen d f) := fun _ =>
  hostSide_pull (fun _ _ => by rfl) (raise_keepsHostSide _) _

theorem headerFieldData_keepsHostSide (d : Bool) {onDone : State → State} (hd : KeepsHostSide onDone) (f : BufId)
    (i n : Nat) : KeepsHostSide (headerFieldData d onDone f i n) := fun s => by
  unfold headerFieldData
  split
  · exact hostSide_pull (fun _ _ => by rfl) (raise_keepsHostSide _) _
  · split
    · exact headerFieldLen_keepsHostSide d _ s
    · exact hd s

theorem headerVersion_keepsHostSide (d : Bool) (b0 b1 : Byte) : KeepsHostSide (headerVersion d b0 b1) := fun s => by
  unfold headerVersion
  split
  · exact hostSide_pull (fun _ _ => by rfl) (raise_keepsHostSide _) _
  · exact raise_keepsHostSide _ s

theorem headerFields_keepsHostSide (d : Bool) (v : Byte) : KeepsHostSide (headerFields d v) := fun s => by
  unfold headerFields
  split
  · exact headerFieldLen_keepsHostSide d _ s
  · exact raise_keepsHostSide _ s

theorem headerStep_keepsHostSide (d : Bool) {onDone : State → State} (hd : KeepsHostSide onDone) (p : HdrPoint) :
    KeepsHostSide (headerStep d onDone p) := fun s =>
  match p with
  | .magic0 => hostSide_pull (fun _ _ => by rfl) (raise_keepsHostSide _) _
  | .magic1 _ => hostSide_pull (fun _ _ => by rfl) (raise_keepsHostSide _) _
  | .version b0 b1 => headerVersion_keepsHostSide d b0 b1 s
  | .fields v => headerFields_keepsHostSide d v s
  | .fieldLen f => headerFieldLen_keepsHostSide d f s
  | .fieldData f i n => headerFieldData_keepsHostSide d hd f i n s

theorem headerStart_keepsHostSide (d : Bool) {onDone : State → State} (hd : KeepsHostSide onDone) :
    KeepsHostSide (headerStart d onDone) := fun s => headerStep_keepsHostSide d hd .magic0 (clearHeader s)

/-! #### DERIVE_KEY, AES_CBC_DECRYPT and UNWRAP -/

theorem keyPushStep_keepsHostSide (rest : List Byte) : KeepsHostSide (keyPushStep rest) :=
  match rest with
  | [] => finish_keepsHostSide
  | b :: _ => fun _ => hostSide_push (fun _ => by rfl) b _

theorem deriveKeyStart_keepsHostSide : KeepsHostSide deriveKeyStart := fun s => by
  unfold deriveKeyStart
  split
  · exact raise_keepsHostSide _ s
  · exact keyPushStep_keepsHostSide _ s

theorem cbcAccept_keepsHostSide (b : Byte) : KeepsHostSide (cbcAccept b) := fun s => by
  unfold cbcAccept
  dsimp only
  split <;> rfl

theorem cbcEnd_keepsHostSide : KeepsHostSide cbcEnd := fun s => by
  unfold cbcEnd
  split
  · rfl
  · exact raise_keepsHostSide _ s

theorem cbcPullStep_keepsHostSide : KeepsHostSide cbcPullStep := fun _ =>
  hostSide_pull cbcAccept_keepsHostSide cbcEnd_keepsHostSide _

theorem cbcPushStep_keepsHostSide (rest : List Byte) : KeepsHostSide (cbcPushStep rest) :=
  match rest with
  | [] => cbcPullStep_keepsHostSide
  | b :: _ => fun _ => hostSide_push (fun _ => by rfl) b _

theorem hostSide_loadCipher {key iv : List Byte} {s t : State} (h : loadCipher key iv s = .ok t) :
    hostSide t = hostSide s := by
  obtain ⟨-, -, rfl⟩ := loadCipher_ok h
  rfl

theorem cbcStart_keepsHostSide : KeepsHostSide cbcStart := fun s => by
  unfold cbcStart
  split
  case h_1 t h => rw [cbcPullStep_keepsHostSide t, hostSide_loadCipher h]
  case h_2 e _ => exact raise_keepsHostSide e s

theorem hostSide_unwrapBody {s t : State} (h : unwrapBody s = .ok t) : hostSide t = hostSide s := by
  obtain ⟨c, ik, iiv, -, -, rfl⟩ := unwrapBody_ok h
  rfl

theorem unwrapStart_keepsHostSide : KeepsHostSide unwrapStart := fun s => by
  unfold unwrapStart
  split
  case h_1 t h => rw [finish_keepsHostSide t, hostSide_unwrapBody h]
  case h_2 e _ => exact raise_keepsHostSide e s

/-! #### The payload stream -/

theorem stageAAccept_keepsHostSide (b : Byte) : KeepsHostSide (stageAAccept b) := fun s => by
  unfold stageAAccept
  dsimp only
  split <;> rfl

theorem stageAEnd_keepsHostSide : KeepsHostSide stageAEnd := fun s => by
  unfold stageAEnd
  split <;> exact raise_keepsHostSide _ s

theorem inflatePull_keepsHostSide (src : Source) (p : ZPoint) : KeepsHostSide (inflatePull src p) := fun _ =>
  match src with
  | .raw => hostSide_pull (fun _ _ => by rfl) (raise_keepsHostSide _) _
  | .stageB => hostSide_pull stageAAccept_keepsHostSide stageAEnd_keepsHostSide _

theorem inflateEmit_keepsHostSide (src : Source) (p : ZPoint) (b : Byte) : KeepsHostSide (inflateEmit src p b) :=
  fun _ => hostSide_push (fun _ => by rfl) b _

/-- The silent moves write Z and SBPOS only, so the visible step that ends them decides. -/
theorem inflateStep_keepsHostSide (src : Source) (p : ZPoint) (inHand : Option Byte) :
    KeepsHostSide (inflateStep src p inHand) := fun s => by
  obtain ⟨q, z, pos, ⟨-, h⟩ | ⟨b, -, h⟩ | ⟨e, h⟩ | h⟩ := inflateStep_cases src p inHand s <;> rw [h]
  · exact inflatePull_keepsHostSide src q _
  · exact inflateEmit_keepsHostSide src q b _
  · exact raise_keepsHostSide e _
  · rfl

theorem inflateStart_keepsHostSide : KeepsHostSide inflateStart := fun _ => inflateStep_keepsHostSide _ _ _ _

theorem openBody_keepsHostSide : KeepsHostSide openBody := fun s => by
  unfold openBody
  split
  case h_1 e _ => exact raise_keepsHostSide e s
  case h_2 t h =>
    have ht : hostSide t = hostSide s := hostSide_loadCipher h
    exact (inflateStep_keepsHostSide _ _ _ _).trans ht

theorem decryptTail_keepsHostSide : KeepsHostSide decryptTail := fun s => by
  unfold decryptTail
  split
  case h_1 e _ => exact raise_keepsHostSide e s
  case h_2 t h => rw [openBody_keepsHostSide t, hostSide_unwrapBody h]

/-! #### The engine agent -/

theorem firstStep_keepsHostSide (i : Instr) : KeepsHostSide (firstStep i) :=
  match i with
  | .readBytefield => readFieldStart_keepsHostSide
  | .parseHeader => headerStart_keepsHostSide false finish_keepsHostSide
  | .deriveKey => deriveKeyStart_keepsHostSide
  | .aesCbcDecrypt => cbcStart_keepsHostSide
  | .unwrap => unwrapStart_keepsHostSide
  | .openPlaintext => openBody_keepsHostSide
  | .inflate => inflateStart_keepsHostSide
  | .decrypt => headerStart_keepsHostSide true decryptTail_keepsHostSide
  | .close => fun _ => rfl

theorem afterHeader_keepsHostSide (d : Bool) : KeepsHostSide (afterHeader d) :=
  match d with
  | true => decryptTail_keepsHostSide
  | false => finish_keepsHostSide

theorem advance_keepsHostSide : KeepsHostSide advance := fun s => by
  unfold advance
  split
  · rfl
  · exact firstStep_keepsHostSide _ s
  · exact fieldPullStep_keepsHostSide _ s
  · exact fieldPushStep_keepsHostSide _ _ s
  · exact headerStep_keepsHostSide _ (afterHeader_keepsHostSide _) _ s
  · exact keyPushStep_keepsHostSide _ s
  · exact cbcPullStep_keepsHostSide s
  · exact cbcPushStep_keepsHostSide _ s
  · exact inflateStep_keepsHostSide _ _ _ s

theorem engineStep_keepsHostSide : KeepsHostSide engineStep := fun s => by
  by_cases h : s.st = .busy
  · rw [engineStep_of_busy h, advance_keepsHostSide]
  · rw [engineStep_of_not_busy h]

@[simp] theorem engineStep_sched (s : State) : (engineStep s).sched = s.sched := by
  have h : (hostSide (engineStep s)).sched = (hostSide s).sched := by rw [engineStep_keepsHostSide]
  exact h

/-! ### Runs -/

/-- A run of a machine goes on from where its first step leads. -/
theorem run_succ_of_step_next {M : Host.Core} {s t : M.State} (h : M.step s = .next t) (n : Nat) :
    M.run (n + 1) s = M.run n t := by
  rw [Host.Core.run, h]

/-- Settles O5, by induction on the number of steps: an engine step leaves the schedule empty. -/
theorem engineRunsAloneWithoutEvents : Obligations.EngineRunsAloneWithoutEvents := by
  intro n
  induction n with
  | zero => exact fun _ _ => rfl
  | succ n ih =>
    intro s h
    calc Host.Core.run Sys2Proof.core (n + 1) s
        = Host.Core.run Sys2Proof.core n (engineStep s) := run_succ_of_step_next (step_of_sched_nil h) n
      _ = .next (engineRun n (engineStep s)) := ih _ ((engineStep_sched s).trans h)

end Sys2Proof.Machine
end

section
/-!
SUPPORT. The invariant (10_state.md R21 to R49) under the operations that all commands share, and under the commands'
parts outside the decoder.
-/

namespace Sys2Proof.Machine

/-! ### Buffers within their capacities (10_state.md R40) -/

theorem bufferOk_zero (cap : Nat) : BufferOk cap .zero := ⟨rfl, by simp [Buffer.zero], Nat.zero_le _⟩

/-- A buffer whose bytes are given from index 0 on is within every capacity that holds them. -/
theorem bufferOk_ofBytes {bs : List Byte} {cap : Nat} (h : bs.length ≤ cap) : BufferOk cap (Buffer.ofBytes bs) := by
  refine ⟨memory_ofBytes_wf 0 bs, fun c hc => ?_, h⟩
  have hlt := (memory_mem_ofBytes hc).2
  omega

/-- A byte written below the capacity, and a new length within it. -/
theorem bufferOk_write {x : Buffer} {cap i n : Nat} (h : BufferOk cap x) (hi : i < cap) (hn : n ≤ cap) (b : Byte) :
    BufferOk cap { bytes := x.bytes.write i b, len := n } := by
  obtain ⟨hwf, hlt, -⟩ := h
  refine ⟨memory_write_wf hwf i b, fun c hc => ?_, hn⟩
  rcases memory_mem_write hc with hc | hc
  · omega
  · exact hlt c hc

theorem bufferOk_storeField {x : Buffer} {cap i : Nat} (h : BufferOk cap x) (hi : i < cap) (b : Byte) :
    BufferOk cap (x.storeField i b) := bufferOk_write h hi hi b

theorem bufferOk_storeHost {x : Buffer} {cap p : Nat} (h : BufferOk cap x) (hp : p < cap) (b : Byte) :
    BufferOk cap (x.storeHost p b) := by
  have ⟨_, _, hlen⟩ := h
  exact bufferOk_write h hp (Nat.max_le.2 ⟨hlen, hp⟩) b

/-- A header buffer has the capacity of a Byte-Field (10_state.md R40). -/
theorem bufCap_of_headerBuffer {f : BufId} (h : isHeaderBuffer f = true) (cfg : Config) :
    bufCap cfg f = Config.fieldMax := by
  cases f
  case hSalt | hIv | hSsalt | hSecrets => rfl
  all_goals cases h

/-- A key of a legal length fits KEY. -/
theorem keyLen_le {n : Nat} (h : n ∈ Config.aesKeyLens) : n ≤ 32 := by
  simp only [Config.aesKeyLens, List.mem_cons, List.not_mem_nil, or_false] at h
  omega

/-- The buffers stay within their capacities if the one that is set does. -/
theorem buffersOk_setBuf {s : State} (h : BuffersOk s) {id : BufId} {x : Buffer} (hx : BufferOk (bufCap s.cfg id) x) :
    BuffersOk (s.setBuf id x) := fun id' => by
  by_cases hid : id' = id
  · subst hid
    simpa [State.setBuf] using hx
  · simpa [State.setBuf, buffers_get_set_other _ hid] using h id'

/-! ### The invariant under the shared operations -/

/-- Outside the decoder no byte is in hand. -/
theorem inHandOk_of_not_inflating {k : Kont} (h : isInflating k = false) (z : InflateCtx) : InHandOk z k := by
  cases k
  case inflate => cases h
  all_goals trivial

/-- The contexts released outside BUSY, with an error exactly in ERROR, restore the invariant of any state that had it:
the queues, the buffers and OP stay. -/
theorem inv_of_released {s : State} (h : s.Inv) {st : EngState} {err : Option Err} (hb : st ≠ .busy) (hi : st ≠ .idle)
    (he : err ≠ none ↔ st = .error) : State.Inv { releaseContexts s with st := st, err := err } where
  released := fun _ => ⟨rfl, rfl, rfl, rfl, rfl, rfl, rfl⟩
  running := fun h' => absurd h' hb
  errIff := he
  inqFits := h.inqFits
  outqFits := h.outqFits
  bufsOk := h.bufsOk
  ptrFits := h.ptrFits
  uZero := rfl
  sbposFits := Nat.le_refl _
  blkFits := Nat.succ_pos 15
  idleOp := fun h' => absurd h' hi
  opLegal := h.opLegal
  idleZ := fun _ => ⟨rfl, rfl, rfl⟩
  zFits := (by decide : InflateOk InflateCtx.zero)
  inHand := trivial

/-- Error entry does not depend on the continuation and the cipher context that it releases. -/
theorem raise_setReleased {s : State} (hb : s.st = .busy) (k : Kont) (c : CipherCtx) (e : Err) :
    raise e { s with k := k, c := c } = raise e s := by
  rw [raise_of_busy (by exact hb), raise_of_busy hb]
  rfl

/-- Error entry keeps the invariant (60_exceptions.md R302). -/
theorem inv_raise {s : State} (h : s.Inv) (e : Err) : (raise e s).Inv := by
  rcases raise_cases e s with ⟨-, he⟩ | ⟨-, he⟩ <;> rw [he]
  · exact h
  · exact inv_of_released h (by simp) (by simp) (by simp)

theorem inv_err_of_busy {s : State} (h : s.Inv) (hb : s.st = .busy) : s.err = none := by
  by_contra hne
  have := h.errIff.mp hne
  simp [hb] at this

/-- Completion keeps the invariant (60_exceptions.md R301). -/
theorem inv_finish {s : State} (h : s.Inv) (hb : s.st = .busy) : (finish s).Inv :=
  inv_of_released h (st := .done) (by simp) (by simp) (by simp [inv_err_of_busy h hb])

/-- The reset state has the invariant, under every configuration (70_reset_and_hazards.md R330). -/
theorem inv_resetWith (cfg : Config) : (State.resetWith cfg).Inv where
  released := fun _ => ⟨rfl, rfl, rfl, rfl, rfl, rfl, rfl⟩
  running := fun h => by cases h
  errIff := by simp [State.resetWith]
  inqFits := Nat.zero_le _
  outqFits := Nat.zero_le _
  bufsOk := fun id => by cases id <;> exact bufferOk_zero _
  ptrFits := Nat.zero_le _
  uZero := rfl
  sbposFits := Nat.le_refl _
  blkFits := Nat.succ_pos 15
  idleOp := fun _ => rfl
  opLegal := .inl rfl
  idleZ := fun _ => ⟨rfl, rfl, rfl⟩
  zFits := (by decide : InflateOk InflateCtx.zero)
  inHand := trivial

theorem inv_hardReset (s : State) : (hardReset s).Inv := { inv_resetWith s.cfg with }

theorem inv_release (s : State) : (release s).Inv := { inv_resetWith s.cfg with }

/-- A buffer set to a value within its capacity keeps the invariant. -/
theorem inv_setBuf {s : State} (h : s.Inv) {id : BufId} {x : Buffer} (hx : BufferOk (bufCap s.cfg id) x) :
    (s.setBuf id x).Inv :=
  { h with bufsOk := buffersOk_setBuf h.bufsOk hx }

/-- Command start keeps the invariant (30_encoding.md R84). -/
theorem inv_startCommand {s : State} (h : s.Inv) (hs : Ready s) {i : Instr} (hi : i ≠ .close) :
    (startCommand i s).Inv := by
  have hb : s.st ≠ .busy := by rcases hs with hs | hs <;> simp [hs]
  have he : s.st ≠ .error := by rcases hs with hs | hs <;> simp [hs]
  obtain ⟨-, -, -, -, hsb, hpos, hz⟩ := h.released hb
  exact { h with
    released := fun h' => absurd rfl h'
    running := fun _ => hi
    errIff := by simpa [he] using h.errIff
    idleOp := fun h' => by simp at h'
    opLegal := .inr ⟨i, hi, rfl⟩
    idleZ := fun _ => ⟨hsb, hpos, hz⟩
    inHand := trivial }

/-- Acceptance by state keeps the invariant (30_encoding.md R83). -/
theorem inv_acceptCommand {s : State} (h : s.Inv) {i : Instr} (hi : i ≠ .close) : (acceptCommand i s).Inv := by
  rcases acceptCommand_cases i s with ⟨hs, ha⟩ | ⟨-, ha⟩ | ⟨-, ha⟩ <;> rw [ha]
  · exact inv_startCommand h hs hi
  · exact inv_raise h _
  · exact h

/-- `pull()` keeps the invariant if its continuations do, in states with the same K and Z (20_memory.md R62). -/
theorem inv_pull {s : State} (h : s.Inv) (hb : s.st = .busy) {onByte : Byte → State → State} {onEof : State → State}
    (hbyte : ∀ (b : Byte) (t : State), t.Inv → t.st = .busy → t.k = s.k → t.z = s.z → (onByte b t).Inv)
    (heof : ∀ t : State, t.Inv → t.st = .busy → t.k = s.k → (onEof t).Inv) : (pull s onByte onEof).Inv := by
  have hold : ∀ x : Hold, State.Inv { s with hold := x } := fun x => { h with released := fun h' => absurd hb h' }
  rcases pull_cases s onByte onEof with ⟨b, rest, hq, he⟩ | ⟨-, -, he⟩ | ⟨-, -, he⟩ | ⟨-, -, he⟩ <;> rw [he]
  · have hlen : rest.length ≤ s.cfg.inFifoDepth := by
      have := h.inqFits
      rw [hq, List.length_cons] at this
      omega
    exact hbyte b _ { h with released := fun h' => absurd hb h', inqFits := hlen } hb rfl rfl
  · exact heof _ (hold _) hb rfl
  · exact inv_raise (hold _) _
  · exact hold _

/-- `push(b)` keeps the invariant if its continuation does, in states with the same K and Z (20_memory.md R63). -/
theorem inv_push {s : State} (h : s.Inv) (hb : s.st = .busy) (b : Byte) {onPushed : State → State}
    (hp : ∀ t : State, t.Inv → t.st = .busy → t.k = s.k → t.z = s.z → (onPushed t).Inv) : (push b s onPushed).Inv := by
  rcases push_cases b s onPushed with ⟨hlt, he⟩ | ⟨-, he⟩ <;> rw [he]
  · have hlen : (s.outq ++ [b]).length ≤ s.cfg.outFifoDepth := by simpa using hlt
    exact hp _ { h with released := fun h' => absurd hb h', outqFits := hlen } hb rfl rfl
  · exact { h with released := fun h' => absurd hb h' }

/-! ### Commands outside the decoder -/

/-- A running command outside the decoder, with the invariant: SB and Z are not in use. -/
structure Plain (s : State) : Prop where
  inv : s.Inv
  busy : s.st = .busy
  notInflating : isInflating s.k = false

/-- A part of an engine step after which the invariant holds. -/
def RestoresInv (f : State → State) : Prop := ∀ s : State, Plain s → (f s).Inv

theorem finish_restoresInv : RestoresInv finish := fun _ h => inv_finish h.inv h.busy

theorem raise_restoresInv (e : Err) : RestoresInv (raise e) := fun _ h => inv_raise h.inv e

/-- Moving K between points outside the decoder. -/
theorem plain_setKont {s : State} (h : Plain s) {k : Kont} (hk : KontOk k) (hi : isInflating k = false) :
    Plain { s with k := k } where
  inv := { h.inv with
    released := fun h' => absurd h.busy h'
    running := fun _ => hk
    idleZ := fun _ => h.inv.idleZ h.notInflating
    inHand := inHandOk_of_not_inflating hi _ }
  busy := h.busy
  notInflating := hi

/-- `pull()` at a point outside the decoder. -/
theorem inv_pull_of_plain {s : State} (h : Plain s) {onByte : Byte → State → State} {onEof : State → State}
    (hbyte : ∀ b, RestoresInv (onByte b)) (heof : RestoresInv onEof) : (pull s onByte onEof).Inv :=
  inv_pull h.inv h.busy (fun b t ht hb hk _ => hbyte b t ⟨ht, hb, hk ▸ h.notInflating⟩)
    fun t ht hb hk => heof t ⟨ht, hb, hk ▸ h.notInflating⟩

/-- `push(b)` at a point outside the decoder. -/
theorem inv_push_of_plain {s : State} (h : Plain s) (b : Byte) {onPushed : State → State} (hp : RestoresInv onPushed) :
    (push b s onPushed).Inv :=
  inv_push h.inv h.busy b fun t ht hb hk _ => hp t ⟨ht, hb, hk ▸ h.notInflating⟩

/-! #### READ_BYTEFIELD and the header body -/

theorem readFieldStart_restoresInv : RestoresInv readFieldStart := fun _ h =>
  inv_pull_of_plain h (fun _ _ ht => { (plain_setKont ht (k := .fieldPull _) trivial rfl).inv with })
    (raise_restoresInv _)

theorem fieldPullStep_restoresInv (left : Nat) : RestoresInv (fieldPullStep left) := fun s h =>
  match left with
  | 0 => finish_restoresInv s h
  | _ + 1 =>
    inv_pull_of_plain h (fun _ _ ht => (plain_setKont ht (k := .fieldPush _ _) trivial rfl).inv) (raise_restoresInv _)

theorem fieldPushStep_restoresInv (b : Byte) (left : Nat) : RestoresInv (fieldPushStep b left) := fun _ h =>
  inv_push_of_plain h b fun _ ht => (plain_setKont ht (k := .fieldPull left) trivial rfl).inv

/-- Moving K within the header body. -/
theorem plain_setHeader {s : State} (h : Plain s) (d : Bool) {p : HdrPoint} (hp : HdrPointOk p) :
    Plain { s with k := .header d p } := plain_setKont h hp rfl

theorem nextField_isHeaderBuffer {f g : BufId} (h : nextField f = some g) : isHeaderBuffer g = true := by
  cases f <;> cases h <;> rfl

theorem plain_clearHeader {s : State} (h : Plain s) : Plain (clearHeader s) where
  inv := { h.inv with
    bufsOk := fun id => by
      cases id
      case hSalt | hIv | hSsalt | hSecrets => exact bufferOk_zero _
      case secret => exact h.inv.bufsOk .secret
      case salt => exact h.inv.bufsOk .salt
      case key => exact h.inv.bufsOk .key
      case iv => exact h.inv.bufsOk .iv }
  busy := h.busy
  notInflating := h.notInflating

theorem headerFieldLen_restoresInv (d : Bool) {f : BufId} (hf : isHeaderBuffer f = true) :
    RestoresInv (headerFieldLen d f) := fun _ h =>
  inv_pull_of_plain (plain_setHeader h d (p := .fieldLen f) hf)
    (fun n _ ht =>
      (plain_setHeader ht d (p := .fieldData f 0 n.toNat) ⟨hf, Nat.zero_le _, Nat.le_of_lt_succ n.isLt⟩).inv)
    (raise_restoresInv _)

/-- A data byte of a header field, stored below the capacity of its buffer (40_bytefield_header.md R103). -/
theorem plain_storeField {s : State} (h : Plain s) {f : BufId} (hf : isHeaderBuffer f = true) {i : Nat} (hi : i < 255)
    (b : Byte) : Plain (s.setBuf f ((s.bufs.get f).storeField i b)) where
  inv := inv_setBuf h.inv (bufferOk_storeField (h.inv.bufsOk f) (by rw [bufCap_of_headerBuffer hf]; exact hi) b)
  busy := h.busy
  notInflating := h.notInflating

theorem headerFieldData_restoresInv (d : Bool) {onDone : State → State} (hd : RestoresInv onDone) {f : BufId}
    {i n : Nat} (hp : HdrPointOk (.fieldData f i n)) : RestoresInv (headerFieldData d onDone f i n) := fun s h => by
  have ⟨hf, _, hn⟩ := hp
  unfold headerFieldData
  split
  case isTrue hi =>
    refine inv_pull_of_plain (plain_setHeader h d hp) (fun b t ht => ?_) (raise_restoresInv _)
    exact (plain_setHeader (plain_storeField ht hf (by omega) b) d (p := .fieldData f (i + 1) n) ⟨hf, hi, hn⟩).inv
  case isFalse =>
    split
    case h_1 g hg => exact headerFieldLen_restoresInv d (nextField_isHeaderBuffer hg) s h
    case h_2 => exact hd s h

theorem headerVersion_restoresInv (d : Bool) (b0 b1 : Byte) : RestoresInv (headerVersion d b0 b1) := fun s h => by
  unfold headerVersion
  split
  · exact inv_pull_of_plain (plain_setHeader h d (p := .version b0 b1) trivial)
      (fun v _ ht => { (plain_setHeader ht d (p := .fields v) trivial).inv with }) (raise_restoresInv _)
  · exact raise_restoresInv _ s h

theorem headerFields_restoresInv (d : Bool) (v : Byte) : RestoresInv (headerFields d v) := fun s h => by
  unfold headerFields
  split
  · exact headerFieldLen_restoresInv d rfl s h
  · exact raise_restoresInv _ s h

theorem headerStep_restoresInv (d : Bool) {onDone : State → State} (hd : RestoresInv onDone) {p : HdrPoint}
    (hp : HdrPointOk p) : RestoresInv (headerStep d onDone p) := fun s h => by
  unfold headerStep
  split
  case h_1 =>
    exact inv_pull_of_plain (plain_setHeader h d (p := .magic0) trivial)
      (fun b _ ht => { (plain_setHeader ht d (p := .magic1 b) trivial).inv with }) (raise_restoresInv _)
  case h_2 b0 =>
    exact inv_pull_of_plain (plain_setHeader h d (p := .magic1 b0) trivial)
      (fun b _ ht => { (plain_setHeader ht d (p := .version b0 b) trivial).inv with }) (raise_restoresInv _)
  case h_3 b0 b1 => exact headerVersion_restoresInv d b0 b1 s h
  case h_4 v => exact headerFields_restoresInv d v s h
  case h_5 => exact headerFieldLen_restoresInv d hp s h
  case h_6 => exact headerFieldData_restoresInv d hd hp s h

theorem headerStart_restoresInv (d : Bool) {onDone : State → State} (hd : RestoresInv onDone) :
    RestoresInv (headerStart d onDone) := fun s h =>
  headerStep_restoresInv d hd (p := .magic0) trivial (clearHeader s) (plain_clearHeader h)

/-! #### DERIVE_KEY, AES_CBC_DECRYPT and UNWRAP -/

theorem keyPushStep_restoresInv (rest : List Byte) : RestoresInv (keyPushStep rest) := fun s h =>
  match rest with
  | [] => finish_restoresInv s h
  | b :: r =>
    inv_push_of_plain (plain_setKont h (k := .keyPush (b :: r)) trivial rfl) b
      fun _ ht => (plain_setKont ht (k := .keyPush r) trivial rfl).inv

theorem deriveKeyStart_restoresInv : RestoresInv deriveKeyStart := fun s h => by
  unfold deriveKeyStart
  split
  · exact raise_restoresInv _ s h
  · exact keyPushStep_restoresInv _ s h

/-- A cipher context with at most 15 bytes of a block (10_state.md R46). -/
theorem plain_setCipher {s : State} (h : Plain s) {c : CipherCtx} (hc : c.blk.length < Config.blockBytes) :
    Plain { s with c := c } where
  inv := { h.inv with released := fun h' => absurd h.busy h', blkFits := hc }
  busy := h.busy
  notInflating := h.notInflating

theorem plain_loadCipher {key iv : List Byte} {s t : State} (h : Plain s) (ht : loadCipher key iv s = .ok t) :
    Plain t := by
  obtain ⟨-, -, rfl⟩ := loadCipher_ok ht
  exact plain_setCipher h (Nat.succ_pos 15)

/-- A block that has not its 16th byte yet has at most 15. -/
theorem blk_append_lt {blk : List Byte} {b : Byte} (h : blk.length < Config.blockBytes)
    (hne : (blk ++ [b]).length ≠ Config.blockBytes) : (blk ++ [b]).length < Config.blockBytes := by
  simp only [List.length_append, List.length_singleton] at hne ⊢
  omega

theorem cbcAccept_restoresInv (b : Byte) : RestoresInv (cbcAccept b) := fun s h => by
  unfold cbcAccept
  dsimp only
  split
  · have hc : (cbcStep { s.c with blk := [] } (Block.ofBytes (s.c.blk ++ [b]))).2.blk.length < Config.blockBytes :=
      Nat.succ_pos 15
    exact (plain_setKont (plain_setCipher h hc) (k := .cbcPush _) trivial rfl).inv
  case isFalse hne =>
    have hc : { s.c with blk := s.c.blk ++ [b] }.blk.length < Config.blockBytes := blk_append_lt h.inv.blkFits hne
    exact (plain_setKont (plain_setCipher h hc) (k := .cbcPull) trivial rfl).inv

theorem cbcEnd_restoresInv : RestoresInv cbcEnd := fun s h => by
  unfold cbcEnd
  split
  · exact finish_restoresInv s h
  · exact raise_restoresInv _ s h

theorem cbcPullStep_restoresInv : RestoresInv cbcPullStep := fun _ h =>
  inv_pull_of_plain (plain_setKont h (k := .cbcPull) trivial rfl) cbcAccept_restoresInv cbcEnd_restoresInv

theorem cbcPushStep_restoresInv (rest : List Byte) : RestoresInv (cbcPushStep rest) := fun s h => by
  unfold cbcPushStep
  split
  case h_1 => exact cbcPullStep_restoresInv s h
  case h_2 b r =>
    refine inv_push_of_plain (plain_setKont h (k := .cbcPush (b :: r)) trivial rfl) b fun t ht => ?_
    exact (plain_setKont ht (k := if r = [] then .cbcPull else .cbcPush r) (by split <;> trivial)
      (by split <;> rfl)).inv

theorem cbcStart_restoresInv : RestoresInv cbcStart := fun s h => by
  unfold cbcStart
  split
  case h_1 t ht => exact cbcPullStep_restoresInv t (plain_loadCipher h ht)
  case h_2 e _ => exact raise_restoresInv e s h

/-- KEY and IV with the lengths that UNWRAP stores (43_unwrap.md R189). -/
theorem plain_setKeyIv {s : State} (h : Plain s) {ik iiv : List Byte} (hk : ik.length ∈ Config.aesKeyLens)
    (hiv : iiv.length = Config.blockBytes) :
    Plain { s with bufs := { s.bufs with key := Buffer.ofBytes ik, iv := Buffer.ofBytes iiv } } where
  inv := inv_setBuf (inv_setBuf h.inv (id := .key) (bufferOk_ofBytes (keyLen_le hk))) (id := .iv)
    (bufferOk_ofBytes hiv.le)
  busy := h.busy
  notInflating := h.notInflating

/-- Where the unwrap body succeeds it leaves a running command, but for the cipher context that the next command line
loads afresh or releases. -/
theorem unwrapBody_plain {s t : State} (h : Plain s) (ht : unwrapBody s = .ok t) :
    ∃ (t' : State) (c : CipherCtx), Plain t' ∧ t = { t' with c := c } := by
  obtain ⟨c, ik, iiv, hk, hiv, rfl⟩ := unwrapBody_ok ht
  refine ⟨_, c, plain_setKeyIv h hk hiv, ?_⟩
  rw [← h.inv.uZero]

theorem unwrapStart_restoresInv : RestoresInv unwrapStart := fun s h => by
  unfold unwrapStart
  split
  case h_1 t ht =>
    obtain ⟨t', c, hp, rfl⟩ := unwrapBody_plain h ht
    exact finish_restoresInv t' hp
  case h_2 e _ => exact raise_restoresInv e s h

end Sys2Proof.Machine
end

section
/-!
SUPPORT. The invariant under the decoder, whose context stays within its sizes, under the engine agent and under the
host's transactions: every step keeps it.
-/

namespace Sys2Proof.Machine

/-! ### The decoder's sizes (45_inflate.md R231, R233) -/

/-- The record of the output, all else of Z zeroized: the part of Z that only `out(b)` and the stream's start write. -/
def outputRecord (z : InflateCtx) : InflateCtx :=
  { InflateCtx.zero with hist := z.hist, total := z.total, s1 := z.s1, s2 := z.s2 }

/-- An answer that leaves the record of the output alone. -/
def KeepsOutput (z : InflateCtx) (r : ZRes) : Prop :=
  ∀ (z' : InflateCtx) (q : ZPoint), r = .cont z' q → outputRecord z' = outputRecord z

theorem keepsOutput_cont {z z' : InflateCtx} {q : ZPoint} (h : outputRecord z' = outputRecord z) :
    KeepsOutput z (.cont z' q) := fun _ _ he => by
  cases he
  exact h

theorem keepsOutput_fail (z : InflateCtx) (e : Err) : KeepsOutput z (.fail e) := fun _ _ he => by cases he

theorem keepsOutput_done (z : InflateCtx) : KeepsOutput z .done := fun _ _ he => by cases he

theorem outputRecord_endBlock (z : InflateCtx) : outputRecord (endBlock z).1 = outputRecord z := by
  unfold endBlock
  split <;> rfl

theorem endBlockRes_keepsOutput (z : InflateCtx) : KeepsOutput z (endBlockRes z) :=
  keepsOutput_cont (outputRecord_endBlock z)

theorem zlibHeader_keepsOutput (z : InflateCtx) (cmf flg : Byte) : KeepsOutput z (zlibHeader z cmf flg) := by
  unfold zlibHeader
  split
  · exact keepsOutput_fail z _
  · split
    · exact keepsOutput_fail z _
    · exact keepsOutput_cont rfl

theorem storedHeader_keepsOutput (z : InflateCtx) (a b c d : Byte) : KeepsOutput z (storedHeader z a b c d) := by
  unfold storedHeader
  dsimp only
  split
  · exact keepsOutput_fail z _
  · split
    · exact endBlockRes_keepsOutput z
    · exact keepsOutput_cont rfl

theorem storedHeaderByte_keepsOutput (z : InflateCtx) (got : List Byte) (b : Byte) :
    KeepsOutput z (storedHeaderByte z got b) := by
  unfold storedHeaderByte
  split
  · exact storedHeader_keepsOutput z _ _ _ _
  · exact keepsOutput_cont rfl

theorem trailerByte_keepsOutput (z : InflateCtx) (got acc : Nat) (b : Byte) :
    KeepsOutput z (trailerByte z got acc b) := by
  unfold trailerByte
  dsimp only
  split
  · exact keepsOutput_cont rfl
  · split
    · exact keepsOutput_fail z _
    · exact keepsOutput_done z

theorem outputRecord_setTables (z : InflateCtx) (lit dist : HTable) :
    outputRecord { z with lit := lit, dist := dist } = outputRecord z := rfl

theorem startBlock_keepsOutput (z : InflateCtx) (t : Nat) : KeepsOutput z (startBlock z t) := by
  unfold startBlock
  split
  · exact keepsOutput_cont rfl
  · split
    · exact keepsOutput_cont (outputRecord_setTables z _ _)
    · split
      · exact keepsOutput_cont rfl
      · exact keepsOutput_fail z _

theorem codeLengthTable_keepsOutput (z : InflateCtx) (hlit hdist : Nat) (got : List Nat) :
    KeepsOutput z (codeLengthTable z hlit hdist got) := by
  unfold codeLengthTable
  split
  · exact keepsOutput_cont rfl
  · exact keepsOutput_fail z _

theorem dynamicTables_keepsOutput (z : InflateCtx) (hlit : Nat) (lens : List Nat) :
    KeepsOutput z (dynamicTables z hlit lens) := by
  unfold dynamicTables
  split
  · exact keepsOutput_fail z _
  · split
    · exact keepsOutput_fail z _
    · split
      · exact keepsOutput_fail z _
      · split
        · exact keepsOutput_fail z _
        · split
          · exact keepsOutput_fail z _
          · exact keepsOutput_cont rfl

theorem moreLengths_keepsOutput (z : InflateCtx) (hlit hdist : Nat) (lens : List Nat) :
    KeepsOutput z (moreLengths z hlit hdist lens) := by
  unfold moreLengths
  split
  · exact keepsOutput_cont rfl
  · exact dynamicTables_keepsOutput z hlit lens

theorem codeLengthSymbol_keepsOutput (z : InflateCtx) (hlit hdist : Nat) (lens : List Nat) (n : Nat) :
    KeepsOutput z (codeLengthSymbol z hlit hdist lens n) := by
  unfold codeLengthSymbol
  split
  · exact moreLengths_keepsOutput z hlit hdist _
  · split
    · exact keepsOutput_fail z _
    · exact keepsOutput_cont rfl

theorem repeatLengths_keepsOutput (z : InflateCtx) (hlit hdist : Nat) (lens : List Nat) (n v : Nat) :
    KeepsOutput z (repeatLengths z hlit hdist lens n v) := by
  unfold repeatLengths
  dsimp only
  generalize (if n = 16 then lens.getLastD 0 else 0) = value
  generalize (if n = 18 then 11 else 3) + v = r
  split
  · exact keepsOutput_fail z _
  · exact moreLengths_keepsOutput z hlit hdist _

theorem litSymbol_keepsOutput (z : InflateCtx) (n : Nat) : KeepsOutput z (litSymbol z n) := by
  unfold litSymbol
  split
  · exact keepsOutput_cont rfl
  · split
    · exact endBlockRes_keepsOutput z
    · split
      · exact keepsOutput_fail z _
      · exact keepsOutput_cont rfl

theorem distSymbol_keepsOutput (z : InflateCtx) (length n : Nat) : KeepsOutput z (distSymbol z length n) := by
  unfold distSymbol
  split
  · exact keepsOutput_fail z _
  · exact keepsOutput_cont rfl

theorem startCopy_keepsOutput (z : InflateCtx) (length distance : Nat) :
    KeepsOutput z (startCopy z length distance) := by
  unfold startCopy
  split
  · exact keepsOutput_fail z _
  · exact keepsOutput_cont rfl

theorem afterSymBit_keepsOutput {z : InflateCtx} {again : SymDec → ZRes} {sym : Nat → ZRes}
    (ha : ∀ d, KeepsOutput z (again d)) (hs : ∀ n, KeepsOutput z (sym n)) (r : SymRes) :
    KeepsOutput z (afterSymBit r again sym) :=
  match r with
  | .more d => ha d
  | .symbol n => hs n
  | .bad => keepsOutput_fail z _

/-- What follows `bits(n)` leaves the record of the output alone. -/
theorem zOnBits_keepsOutput (z : InflateCtx) (p : ZPoint) (v : Nat) : KeepsOutput z (zOnBits z p v) := by
  cases p
  case btype => exact startBlock_keepsOutput _ v
  case hclen => simp only [zOnBits]; split; exacts [keepsOutput_fail z _, keepsOutput_cont rfl]
  case clens => simp only [zOnBits]; split; exacts [codeLengthTable_keepsOutput z _ _ _, keepsOutput_cont rfl]
  case lens => exact afterSymBit_keepsOutput (fun _ => keepsOutput_cont rfl) (codeLengthSymbol_keepsOutput z _ _ _) _
  case rep => exact repeatLengths_keepsOutput z _ _ _ _ v
  case sym => exact afterSymBit_keepsOutput (fun _ => keepsOutput_cont rfl) (litSymbol_keepsOutput z) _
  case dsym => exact afterSymBit_keepsOutput (fun _ => keepsOutput_cont rfl) (distSymbol_keepsOutput z _) _
  case dext => exact startCopy_keepsOutput z _ _
  all_goals exact keepsOutput_cont rfl

/-- What follows a byte leaves the record of the output alone. -/
theorem zOnByte_keepsOutput (z : InflateCtx) (p : ZPoint) (b : Byte) : KeepsOutput z (zOnByte z p b) := by
  cases p
  case flg => exact zlibHeader_keepsOutput z _ b
  case storedHdr => exact storedHeaderByte_keepsOutput z _ b
  case trailer => exact trailerByte_keepsOutput z _ _ b
  all_goals exact keepsOutput_cont rfl

/-- Within its sizes is what the record of the output and the count of unread bits say. -/
theorem inflateOk_of_sameOutput {z z' : InflateCtx} (h : InflateOk z) (ho : outputRecord z' = outputRecord z)
    (hc : z'.bitcnt ≤ 32) : InflateOk z' := by
  obtain ⟨hhist, h1, h2, -⟩ := h
  simp only [outputRecord, InflateCtx.mk.injEq] at ho
  obtain ⟨-, -, eh, et, e1, e2, -⟩ := ho
  exact ⟨by rw [eh, et]; exact hhist, by rw [e1]; exact h1, by rw [e2]; exact h2, hc⟩

theorem bitcnt_le_of_inflateOk {z : InflateCtx} (h : InflateOk z) : z.bitcnt ≤ 32 := by
  obtain ⟨-, -, -, hc⟩ := h
  exact hc

theorem inflateOk_endBlock {z : InflateCtx} (h : InflateOk z) : InflateOk (endBlock z).1 :=
  inflateOk_of_sameOutput h (outputRecord_endBlock z) ((endBlock_bitcnt z).trans (bitcnt_le_of_inflateOk h))

/-- An output byte keeps the history at its length and the sums below their modulus (45_inflate.md R233, R250). -/
theorem inflateOk_recordOut {z : InflateCtx} (h : InflateOk z) (b : Byte) : InflateOk (recordOut z b) := by
  obtain ⟨hhist, -, -, hc⟩ := h
  refine ⟨?_, Nat.mod_lt _ (by decide), Nat.mod_lt _ (by decide), hc⟩
  simp only [recordOut, List.length_take, List.length_cons, hhist]
  omega

theorem inflateOk_zAfterOut {z : InflateCtx} (h : InflateOk z) (p : ZPoint) : InflateOk (zAfterOut z p).1 := by
  cases p
  case storedOut => simp only [zAfterOut]; split; exacts [inflateOk_endBlock h, h]
  case copy => simp only [zAfterOut]; split <;> exact h
  all_goals exact h

theorem getD_le_of_forall_mem {l : List Nat} {m : Nat} (h : ∀ x ∈ l, x ≤ m) (i : Nat) : l.getD i 0 ≤ m := by
  rcases Nat.lt_or_ge i l.length with hi | hi
  · rw [List.getD_eq_getElem _ _ hi]
    exact h _ (List.getElem_mem hi)
  · rw [List.getD_eq_default _ _ hi]
    exact Nat.zero_le _

/-- No point asks for more than 13 bits, the most extra bits of a distance (45_inflate.md R242). -/
theorem bits_le_of_zRequest {z : InflateCtx} {p : ZPoint} {n : Nat} (h : zRequest z p = .bits n) : n ≤ 13 := by
  have hl : ∀ i, lengthExtra.getD i 0 ≤ 13 := getD_le_of_forall_mem (by decide)
  have hd : ∀ i, distExtra.getD i 0 ≤ 13 := getD_le_of_forall_mem (by decide)
  have hr : ∀ sym, repeatBits sym ≤ 13 := fun sym => by unfold repeatBits; split_ifs <;> decide
  cases p <;> simp only [zRequest, ZRequest.bits.injEq, reduceCtorEq] at h
  case lext i => exact h ▸ hl i
  case dext j => exact h ▸ hd j
  case rep sym => exact h ▸ hr sym
  all_goals omega

/-- At a point that does not ask for bits, a byte adds no unread bit. -/
theorem zOnByte_bitcnt_of_not_bits {z z' : InflateCtx} {p q : ZPoint} {b : Byte} (hp : ∀ n, zRequest z p ≠ .bits n)
    (h : zOnByte z p b = .cont z' q) : z'.bitcnt ≤ z.bitcnt := by
  cases p
  case storedHdr =>
    simp only [zOnByte, storedHeaderByte] at h
    split at h
    · exact storedHeader_bitcnt h
    · cases h; exact Nat.le_refl _
  case flg | trailer =>
    simp only [zOnByte, zlibHeader, trailerByte] at h
    split at h
    · cases h <;> exact Nat.le_refl _
    · split at h <;> cases h <;> exact Nat.le_refl _
  case cmf | storedByte | storedOut | litOut | copy => cases h; exact Nat.le_refl _
  all_goals exact absurd rfl (hp _)

/-- A byte that the decoder asked for keeps Z within its sizes: bits are asked for where fewer than 13 are unread. -/
theorem inflateOk_zOnByte {z z' : InflateCtx} {p q : ZPoint} {b : Byte} (hz : InflateOk z)
    (hask : ∀ n, zRequest z p = .bits n → z.bitcnt < n) (h : zOnByte z p b = .cont z' q) : InflateOk z' := by
  refine inflateOk_of_sameOutput hz (zOnByte_keepsOutput z p b z' q h) ?_
  by_cases hp : ∃ n, zRequest z p = .bits n
  · obtain ⟨n, hn⟩ := hp
    have hlt := hask n hn
    have hle := bits_le_of_zRequest hn
    have hadd := zOnByte_bitcnt h
    omega
  · exact (zOnByte_bitcnt_of_not_bits (fun n hn => hp ⟨n, hn⟩) h).trans (bitcnt_le_of_inflateOk hz)

/-- An answer of bits keeps Z within its sizes. -/
theorem inflateOk_zOnBits {z z' : InflateCtx} {p q : ZPoint} {n v : Nat} (hz : InflateOk z)
    (h : zOnBits (dropBits z n) p v = .cont z' q) : InflateOk z' := by
  have hout : outputRecord z' = outputRecord z := zOnBits_keepsOutput (dropBits z n) p v z' q h
  have hc : z'.bitcnt ≤ z.bitcnt - n := zOnBits_bitcnt h
  have h32 := bitcnt_le_of_inflateOk hz
  exact inflateOk_of_sameOutput hz hout (by omega)

/-! ### The decoder (44_payload_stream.md R202, 45_inflate.md R230) -/

/-- The decoder pulls only where it asks for a byte, or for bits and has too few. -/
theorem bitcnt_lt_of_pull {src : Source} {p : ZPoint} {s : State} (h : zMove src p s = .pull) (n : Nat)
    (hn : zRequest s.z p = .bits n) : s.z.bitcnt < n := by
  by_contra hge
  simp [zMove, hn, hge] at h

/-- A silent move keeps Z and SBPOS within their sizes. -/
theorem fits_of_zMove_silent {src : Source} {p q : ZPoint} {s : State} {z : InflateCtx} {pos : Nat} (hz : InflateOk s.z)
    (hpos : s.sbpos ≤ 16) (h : zMove src p s = .silent (.cont z q) pos) : InflateOk z ∧ pos ≤ 16 := by
  have source : (∀ n, zRequest s.z p = .bits n → s.z.bitcnt < n) →
      zSource src p s = .silent (.cont z q) pos → InflateOk z ∧ pos ≤ 16 := fun hask h => by
    unfold zSource at h
    split at h
    · cases h
    · split at h
      · injection h with hr hp
        exact ⟨inflateOk_zOnByte hz hask hr, by omega⟩
      · cases h
  unfold zMove at h
  split at h
  case h_1 => cases h
  case h_2 hreq => exact source (fun n hn => by simp [hreq] at hn) h
  case h_3 n hreq =>
    split at h
    case isTrue hlt => exact source (fun m hm => by rw [hreq] at hm; injection hm with hm; omega) h
    case isFalse =>
      injection h with hr hp
      exact ⟨inflateOk_zOnBits hz hr, hp ▸ hpos⟩

/-- A running command at a point of the decoder, with whatever C, SB and Z it has there within their sizes. -/
theorem inv_setDecoder {s : State} (h : s.Inv) (hb : s.st = .busy) {c : CipherCtx} {pos : Nat} {z : InflateCtx}
    {src : Source} {p : ZPoint} {inHand : Option Byte} (sb : Block) (hc : c.blk.length < Config.blockBytes)
    (hpos : pos ≤ 16) (hz : InflateOk z) (hin : InHandOk z (.inflate src p inHand)) :
    State.Inv { s with c := c, sb := sb, sbpos := pos, z := z, k := .inflate src p inHand } :=
  { h with
    released := fun h' => absurd hb h'
    running := fun _ => trivial
    blkFits := hc
    sbposFits := hpos
    idleZ := fun h' => by cases h'
    zFits := hz
    inHand := hin }

/-- A byte into stage A's block (44_payload_stream.md R202). -/
theorem inv_stageAAccept {s : State} (h : s.Inv) (hb : s.st = .busy) {p : ZPoint} (hk : s.k = .inflate .stageB p none)
    (b : Byte) : (stageAAccept b s).Inv := by
  unfold stageAAccept
  dsimp only
  split
  · have hc : (cbcStep { s.c with blk := [] } (Block.ofBytes (s.c.blk ++ [b]))).2.blk.length < Config.blockBytes :=
      Nat.succ_pos 15
    have := inv_setDecoder h hb (src := .stageB) (p := p) (inHand := none)
      (cbcStep { s.c with blk := [] } (Block.ofBytes (s.c.blk ++ [b]))).1 hc (Nat.zero_le 16) h.zFits trivial
    rwa [← hk] at this
  case isFalse hne =>
    have hc : { s.c with blk := s.c.blk ++ [b] }.blk.length < Config.blockBytes := blk_append_lt h.blkFits hne
    exact { h with released := fun h' => absurd hb h', blkFits := hc }

theorem inv_stageAEnd {s : State} (h : s.Inv) : (stageAEnd s).Inv := by
  unfold stageAEnd
  split <;> exact inv_raise h _

/-- A byte of INQ for the decoder, at a point whose move is a pull. -/
theorem inv_inflatePull {src : Source} {p : ZPoint} {s : State} (h : State.Inv { s with k := .inflate src p none })
    (hb : s.st = .busy) (hp : zMove src p s = .pull) : (inflatePull src p s).Inv := by
  cases src
  case raw =>
    unfold inflatePull
    refine inv_pull h hb (fun b t ht htb _ hz => ?_) (fun t ht _ _ => inv_raise ht _)
    exact inv_setDecoder ht htb t.sb ht.blkFits ht.sbposFits ht.zFits (by rw [hz]; exact bitcnt_lt_of_pull (s := s) hp)
  case stageB =>
    exact inv_pull h hb (fun b t ht htb hk _ => inv_stageAAccept ht htb hk b) fun t ht _ _ => inv_stageAEnd ht

/-- `out(b)` (45_inflate.md R233). -/
theorem inv_inflateEmit {src : Source} {p : ZPoint} {s : State} (h : State.Inv { s with k := .inflate src p none })
    (hb : s.st = .busy) (b : Byte) : (inflateEmit src p b s).Inv := by
  refine inv_push h hb b fun t ht htb _ _ => ?_
  exact inv_setDecoder ht htb t.sb ht.blkFits ht.sbposFits
    (inflateOk_zAfterOut (inflateOk_recordOut ht.zFits b) p) trivial

theorem finish_setKont (s : State) (k : Kont) : finish { s with k := k } = finish s := rfl

/-- The decoder from a point to its next visible step, by induction on its silent moves. -/
theorem inv_inflateRun (src : Source) (n : Nat) {p : ZPoint} {s : State}
    (h : State.Inv { s with k := .inflate src p none }) (hb : s.st = .busy) : (inflateRun n src p s).Inv := by
  induction n generalizing p s with
  | zero => exact h
  | succ n ih =>
    unfold inflateRun
    split
    case h_1 hm => exact inv_inflatePull h hb hm
    case h_2 b _ => exact inv_inflateEmit h hb b
    case h_3 z q pos hm =>
      obtain ⟨hz, hpos⟩ := fits_of_zMove_silent h.zFits h.sbposFits hm
      exact ih (inv_setDecoder h hb s.sb h.blkFits hpos hz trivial) hb
    case h_4 e _ _ => exact raise_setReleased hb _ s.c e ▸ inv_raise h e
    case h_5 => exact finish_setKont s _ ▸ inv_finish h hb

/-- One step of the decoder from its continuation. -/
theorem inv_inflateStep {src : Source} {p : ZPoint} {inHand : Option Byte} {s : State} (h : s.Inv) (hb : s.st = .busy)
    (hk : s.k = .inflate src p inHand) : (inflateStep src p inHand s).Inv := by
  have hin : InHandOk s.z (.inflate src p inHand) := hk ▸ h.inHand
  unfold inflateStep
  split
  case h_1 => exact inv_inflateRun src _ (inv_setDecoder h hb s.sb h.blkFits h.sbposFits h.zFits trivial) hb
  case h_2 b =>
    split
    case h_1 z q hz =>
      exact inv_inflateRun src _
        (inv_setDecoder h hb s.sb h.blkFits h.sbposFits (inflateOk_zOnByte h.zFits hin hz) trivial) hb
    case h_2 e _ => exact inv_raise h e
    case h_3 => exact inv_finish h hb

/-- The decoder's first step: Z, which was not in use, is initialised (45_inflate.md R232). -/
theorem inv_startDecoder {s : State} (h : Plain s) (src : Source) {pos : Nat} (hpos : pos ≤ 16) :
    (inflateStep src .cmf none { s with sbpos := pos, z := inflateInit s.z }).Inv := by
  obtain ⟨-, -, hz⟩ := h.inv.idleZ h.notInflating
  have hinit : InflateOk (inflateInit s.z) := by
    rw [hz]
    decide
  exact inv_inflateRun src _ (inv_setDecoder h.inv h.busy s.sb h.inv.blkFits hpos hinit trivial) h.busy

theorem inflateStart_restoresInv : RestoresInv inflateStart := fun _ h => inv_startDecoder h .raw h.inv.sbposFits

theorem openBody_restoresInv : RestoresInv openBody := fun s h => by
  unfold openBody
  split
  case h_1 e _ => exact raise_restoresInv e s h
  case h_2 t ht => exact inv_startDecoder (plain_loadCipher h ht) .stageB (Nat.le_refl 16)

/-- `loadCipher` does not read C (42_aes_cbc.md R163). -/
theorem loadCipher_setCipher (key iv : List Byte) (s : State) (c : CipherCtx) :
    (∃ e, loadCipher key iv { s with c := c } = .error e ∧ loadCipher key iv s = .error e) ∨
    (∃ t, loadCipher key iv { s with c := c } = .ok t ∧ loadCipher key iv s = .ok t) := by
  unfold loadCipher
  split
  · exact .inl ⟨_, rfl, rfl⟩
  · split
    · exact .inl ⟨_, rfl, rfl⟩
    · exact .inr ⟨_, rfl, rfl⟩

/-- `openBody()` loads C afresh or releases it, so it does not read it. -/
theorem openBody_setCipher {s : State} (hb : s.st = .busy) (c : CipherCtx) :
    openBody { s with c := c } = openBody s := by
  have hkey : State.bufValue { s with c := c } .key = s.bufValue .key := rfl
  have hiv : State.bufValue { s with c := c } .iv = s.bufValue .iv := rfl
  unfold openBody
  rw [hkey, hiv]
  rcases loadCipher_setCipher (s.bufValue .key) (s.bufValue .iv) s c with ⟨e, h1, h2⟩ | ⟨t, h1, h2⟩ <;> rw [h1, h2]
  exact raise_setReleased hb s.k c e

theorem decryptTail_restoresInv : RestoresInv decryptTail := fun s h => by
  unfold decryptTail
  split
  case h_1 e _ => exact raise_restoresInv e s h
  case h_2 t ht =>
    obtain ⟨t', c, hp, rfl⟩ := unwrapBody_plain h ht
    rw [openBody_setCipher hp.busy]
    exact openBody_restoresInv t' hp

/-! ### The engine agent -/

theorem firstStep_restoresInv {i : Instr} (hi : i ≠ .close) : RestoresInv (firstStep i) :=
  match i with
  | .readBytefield => readFieldStart_restoresInv
  | .parseHeader => headerStart_restoresInv false finish_restoresInv
  | .deriveKey => deriveKeyStart_restoresInv
  | .aesCbcDecrypt => cbcStart_restoresInv
  | .unwrap => unwrapStart_restoresInv
  | .openPlaintext => openBody_restoresInv
  | .inflate => inflateStart_restoresInv
  | .decrypt => headerStart_restoresInv true decryptTail_restoresInv
  | .close => absurd rfl hi

theorem afterHeader_restoresInv (d : Bool) : RestoresInv (afterHeader d) :=
  match d with
  | true => decryptTail_restoresInv
  | false => finish_restoresInv

/-- The running command keeps the invariant from every continuation. -/
theorem inv_advance {s : State} (h : s.Inv) (hb : s.st = .busy) : (advance s).Inv := by
  have hrun := h.running hb
  have plain : isInflating s.k = false → Plain s := fun hi => ⟨h, hb, hi⟩
  unfold advance
  split
  case h_1 => exact h
  case h_2 i hk => rw [hk] at hrun plain; exact firstStep_restoresInv hrun s (plain rfl)
  case h_3 left hk => rw [hk] at plain; exact fieldPullStep_restoresInv left s (plain rfl)
  case h_4 b left hk => rw [hk] at plain; exact fieldPushStep_restoresInv b left s (plain rfl)
  case h_5 d p hk =>
    rw [hk] at hrun plain
    exact headerStep_restoresInv d (afterHeader_restoresInv d) hrun s (plain rfl)
  case h_6 rest hk => rw [hk] at plain; exact keyPushStep_restoresInv rest s (plain rfl)
  case h_7 hk => rw [hk] at plain; exact cbcPullStep_restoresInv s (plain rfl)
  case h_8 rest hk => rw [hk] at plain; exact cbcPushStep_restoresInv rest s (plain rfl)
  case h_9 src p inHand hk => exact inv_inflateStep h hb hk

theorem inv_engineStep {s : State} (h : s.Inv) : (engineStep s).Inv := by
  by_cases hb : s.st = .busy
  · exact engineStep_of_busy hb ▸ inv_advance h hb
  · exact (engineStep_of_not_busy hb).symm ▸ h

/-! ### Host transactions -/

theorem inv_unlessBusy {s t : State} (h : s.Inv) (ht : s.st ≠ .busy → t.Inv) : (unlessBusy s t).Inv := by
  unfold unlessBusy
  split
  case isTrue => exact inv_raise h _
  case isFalse hb => exact ht hb

theorem inv_writeInData {s : State} (h : s.Inv) (v : Word) : (writeInData v s).Inv := by
  unfold writeInData
  split
  · exact inv_raise h _
  · split
    · exact inv_raise h _
    case isFalse hne =>
      have hlen : (s.inq ++ [v.extractLsb' 0 8]).length ≤ s.cfg.inFifoDepth := by
        have hle := h.inqFits
        rw [List.length_append, List.length_singleton]
        omega
      exact { h with inqFits := hlen }

theorem inv_writeInCtrl {s : State} (h : s.Inv) (v : Word) : (writeInCtrl v s).Inv := by
  unfold writeInCtrl
  split
  · split
    · exact { h with }
    · split
      · exact { h with }
      · exact h
  · exact h
  · exact h

theorem inv_writeBufSel {s : State} (h : s.Inv) (v : Word) : (writeBufSel v s).Inv :=
  inv_unlessBusy h fun _ => { h with ptrFits := Nat.zero_le _ }

theorem inv_writeBufLen {s : State} (h : s.Inv) (v : Word) : (writeBufLen v s).Inv :=
  inv_unlessBusy h fun _ => by
    split
    · exact inv_raise h _
    case isFalse hle =>
      obtain ⟨hwf, hlt, -⟩ := h.bufsOk s.selected
      exact inv_setBuf h ⟨hwf, hlt, Nat.not_lt.mp hle⟩

theorem inv_writeBufPtr {s : State} (h : s.Inv) (v : Word) : (writeBufPtr v s).Inv :=
  inv_unlessBusy h fun _ => by
    split
    · exact inv_raise h _
    case isFalse hle => exact { h with ptrFits := Nat.not_lt.mp hle }

theorem inv_writeBufData {s : State} (h : s.Inv) (v : Word) : (writeBufData v s).Inv :=
  inv_unlessBusy h fun _ => by
    split
    · exact inv_raise h _
    case isFalse hge =>
      have hlt : s.bufPtr < s.selectedCap := Nat.not_le.mp hge
      exact { inv_setBuf h (bufferOk_storeHost (h.bufsOk s.selected) hlt (v.extractLsb' 0 8)) with ptrFits := hlt }

/-- Every register write keeps the invariant (10_state.md R23). -/
theorem inv_writeReg {s : State} (h : s.Inv) (r : Reg) (v : Word) : (writeReg r v s).Inv := by
  cases r
  case intEn => exact { h with }
  case inData => exact inv_writeInData h v
  case inCtrl => exact inv_writeInCtrl h v
  case bufSel => exact inv_writeBufSel h v
  case bufLen => exact inv_writeBufLen h v
  case bufPtr => exact inv_writeBufPtr h v
  case bufData => exact inv_writeBufData h v
  case kdfIter => exact inv_unlessBusy h fun _ => { h with }
  case kdfLen => exact inv_unlessBusy h fun _ => { h with }
  all_goals exact h

theorem inv_readOutData {s : State} (h : s.Inv) : (readOutData s).2.Inv := by
  unfold readOutData
  split
  · exact h
  case h_2 b rest hq =>
    have hlen : rest.length ≤ s.cfg.outFifoDepth := by
      have hle := h.outqFits
      rw [hq, List.length_cons] at hle
      omega
    exact { h with outqFits := hlen }

theorem inv_readBufData {s : State} (h : s.Inv) : (readBufData s).2.Inv := by
  unfold readBufData
  split
  case isTrue hr =>
    obtain ⟨-, -, hlt⟩ := hr
    obtain ⟨-, -, hlen⟩ := h.bufsOk s.selected
    exact { h with ptrFits := Nat.le_trans hlt hlen }
  case isFalse => exact h

/-- Every register read keeps the invariant: OUT_DATA and BUF_DATA alone have a side effect (20_memory.md R65). -/
theorem inv_readReg {s : State} (h : s.Inv) (r : Reg) : (readReg r s).2.Inv := by
  cases r
  case outData => exact inv_readOutData h
  case bufData => exact inv_readBufData h
  all_goals exact h

theorem inv_badAccess {s : State} (h : s.Inv) (tx : HostTx) : (badAccess tx s).Inv := by
  unfold badAccess
  split
  · exact { inv_raise h .badAccess with }
  · exact inv_raise h _

theorem inv_alignedAccess {s : State} (h : s.Inv) (tx : HostTx) : (alignedAccess tx s).Inv := by
  unfold alignedAccess
  split
  case h_1 r _ _ => exact { inv_readReg h r with }
  case h_2 => exact { h with }
  case h_3 r _ _ => exact inv_writeReg h r _
  case h_4 => exact h

theorem inv_busAccess {s t : State} (h : s.Inv) {tx : HostTx} (ht : busAccess tx s = .next t) : t.Inv := by
  rcases busAccess_cases tx s with ⟨-, he⟩ | ⟨-, -, he⟩ | ⟨-, -, he⟩ <;> rw [he] at ht <;> cases ht
  · exact inv_badAccess h tx
  · exact inv_alignedAccess h tx

theorem inv_illegalWord {s : State} (h : s.Inv) (e : DecodeError) : (illegalWord e s).Inv :=
  match e with
  | .reservedBits => inv_raise h _
  | .badOpcode => inv_raise h _

theorem inv_exec {s t : State} (h : s.Inv) {i : Instr} (ht : exec i s = .next t) : t.Inv := by
  by_cases hi : i = .close
  · subst hi
    cases ht
    exact inv_release s
  · rw [exec_eq_accept hi] at ht
    cases ht
    exact inv_acceptCommand h hi

theorem inv_consumeEvent {s : State} (h : s.Inv) : (consumeEvent s).Inv := { h with }

/-- Settles O12, by the kind of event that the step runs. -/
theorem stepKeepsInv : Obligations.StepKeepsInv := by
  intro s t h hstep
  have hc := inv_consumeEvent h
  rcases step_cases s with ⟨-, he⟩ | ⟨-, he⟩ | ⟨i, -, he⟩ | ⟨e, -, he⟩ | ⟨tx, -, he⟩ <;> rw [he] at hstep
  · cases hstep
    exact inv_engineStep hc
  · cases hstep
    exact inv_hardReset _
  · exact inv_exec hc hstep
  · cases hstep
    exact inv_illegalWord hc e
  · exact inv_busAccess hc hstep

end Sys2Proof.Machine
end

section
/-!
SUPPORT. The fields of the words that register reads answer (10_state.md R26 to R42), and the register accesses; from
these, the statements on the register window.
-/

namespace Sys2Proof.Machine

/-! ### Fields of a word -/

/-- A field that begins `start` bits above the lower part of a word. -/
theorem extractLsb'_append_above {v w : Nat} (hi : BitVec v) (lo : BitVec w) (start len : Nat) :
    (hi ++ lo).extractLsb' (w + start) len = hi.extractLsb' start len := by
  rw [BitVec.extractLsb'_append_eq_of_le (Nat.le_add_right w start), Nat.add_sub_cancel_left]

/-- A bit above the lower part of a word. -/
theorem getLsbD_append_above {v w : Nat} (hi : BitVec v) (lo : BitVec w) (i : Nat) :
    (hi ++ lo).getLsbD (w + i) = hi.getLsbD i := by
  rw [BitVec.getLsbD_append, if_neg (by omega), Nat.add_sub_cancel_left]

/-- A register value narrower than the word, read back from its low bits. -/
theorem extractLsb'_setWidth_low {n : Nat} (h : n ≤ 32) (x : BitVec n) : (x.setWidth 32).extractLsb' 0 n = x := by
  ext i hi
  have h32 : i < 32 := by omega
  simp [h32, BitVec.getLsbD_eq_getElem hi]

theorem getLsbD_setWidth_low {n i : Nat} (h : i < 32) (x : BitVec n) : (x.setWidth 32).getLsbD i = x.getLsbD i := by
  simp [h]

/-- Above a register value narrower than the word there is 0. -/
theorem extractLsb'_setWidth_above {n : Nat} (x : BitVec n) (m : Nat) : (x.setWidth 32).extractLsb' n m = 0 := by
  ext i hi
  simp

/-- A number of 16 bits, zero-extended. -/
theorem setWidth_ofNat16 {n : Nat} (h : n ≤ 65535) : (BitVec.ofNat 16 n).setWidth 32 = BitVec.ofNat 32 n := by
  apply BitVec.eq_of_toNat_eq
  simp only [BitVec.toNat_setWidth, BitVec.toNat_ofNat]
  omega

/-! #### VALID with its byte, the levels (10_state.md R32 to R34) -/

theorem validByte_eq (b : Byte) : validByte b = (1 <<< 8) ||| b.setWidth 32 := by
  apply BitVec.eq_of_toNat_eq
  have hb : b.toNat < 4294967296 := by omega
  have happ : (validByte b).toNat = 1 <<< 8 ||| b.toNat := BitVec.toNat_append _ _
  simp [happ, Nat.mod_eq_of_lt hb]

theorem levelWord_fill {fill : Nat} (h : fill ≤ 65535) (depth : Nat) :
    ((levelWord fill depth).extractLsb' 0 16).toNat = fill := by
  have hx : (levelWord fill depth).extractLsb' 0 16 = BitVec.ofNat 16 fill := BitVec.extractLsb'_append_eq_right
  rw [hx, BitVec.toNat_ofNat]
  omega

theorem levelWord_depth {depth : Nat} (h : depth ≤ 65535) (fill : Nat) :
    ((levelWord fill depth).extractLsb' 16 16).toNat = depth := by
  have hx : (levelWord fill depth).extractLsb' 16 16 = BitVec.ofNat 16 depth := BitVec.extractLsb'_append_eq_left
  rw [hx, BitVec.toNat_ofNat]
  omega

/-! #### STATUS (10_state.md R26) -/

theorem statusWord_state (s : State) : s.statusWord.extractLsb' 0 2 = stateCode s.st :=
  BitVec.extractLsb'_append_eq_right

theorem statusWord_zero3_2 (s : State) : s.statusWord.extractLsb' 2 2 = 0 :=
  (extractLsb'_append_above _ (stateCode s.st) 0 2).trans BitVec.extractLsb'_append_eq_right

/-- STATUS from bit 4 up. -/
theorem statusWord_getLsbD_above4 (s : State) (i : Nat) :
    s.statusWord.getLsbD (4 + i) =
      ((0 : BitVec 16) ++ s.op ++ (0 : BitVec 2) ++ BitVec.ofBool s.outWait ++ BitVec.ofBool s.inWait).getLsbD i := by
  rw [Nat.add_assoc 2 2 i]
  exact (getLsbD_append_above _ (stateCode s.st) (2 + i)).trans (getLsbD_append_above _ (0 : BitVec 2) i)

theorem statusWord_inWait (s : State) : s.statusWord.getLsbD 4 = s.inWait :=
  (statusWord_getLsbD_above4 s 0).trans (by rw [BitVec.getLsbD_append]; simp)

theorem statusWord_outWait (s : State) : s.statusWord.getLsbD 5 = s.outWait :=
  (statusWord_getLsbD_above4 s 1).trans ((getLsbD_append_above _ (BitVec.ofBool s.inWait) 0).trans
    (by rw [BitVec.getLsbD_append]; simp))

/-- STATUS from bit 6 up. -/
theorem statusWord_extractLsb'_above6 (s : State) (start len : Nat) :
    s.statusWord.extractLsb' (6 + start) len =
      ((0 : BitVec 16) ++ s.op ++ (0 : BitVec 2)).extractLsb' start len := by
  calc s.statusWord.extractLsb' (6 + start) len
      = s.statusWord.extractLsb' (2 + (2 + (1 + (1 + start)))) len := by congr 1; omega
    _ = _ := extractLsb'_append_above _ (stateCode s.st) _ len
    _ = _ := extractLsb'_append_above _ (0 : BitVec 2) _ len
    _ = _ := extractLsb'_append_above _ (BitVec.ofBool s.inWait) _ len
    _ = _ := extractLsb'_append_above _ (BitVec.ofBool s.outWait) _ len

theorem statusWord_zero7_6 (s : State) : s.statusWord.extractLsb' 6 2 = 0 :=
  (statusWord_extractLsb'_above6 s 0 2).trans BitVec.extractLsb'_append_eq_right

theorem statusWord_op (s : State) : s.statusWord.extractLsb' 8 8 = s.op :=
  (statusWord_extractLsb'_above6 s 2 8).trans
    ((extractLsb'_append_above _ (0 : BitVec 2) 0 8).trans BitVec.extractLsb'_append_eq_right)

theorem statusWord_zero31_16 (s : State) : s.statusWord.extractLsb' 16 16 = 0 :=
  (statusWord_extractLsb'_above6 s 10 16).trans
    ((extractLsb'_append_above _ (0 : BitVec 2) 8 16).trans (extractLsb'_append_above _ s.op 0 16))

/-! #### ERROR (10_state.md R27) -/

theorem errorWord_kind (s : State) : s.errorWord.extractLsb' 0 8 = s.errKind := BitVec.extractLsb'_append_eq_right

theorem errorWord_reason (s : State) : s.errorWord.extractLsb' 8 8 = s.errReason :=
  (extractLsb'_append_above _ s.errKind 0 8).trans BitVec.extractLsb'_append_eq_right

theorem errorWord_zero31_16 (s : State) : s.errorWord.extractLsb' 16 16 = 0 :=
  (extractLsb'_append_above _ s.errKind 8 16).trans (extractLsb'_append_above _ s.errReason 0 16)

/-- KIND of an error is 1 to 4 (60_exceptions.md R300). -/
theorem errKindOf_bounds (e : Err) : 1 ≤ (errKindOf e).toNat ∧ (errKindOf e).toNat ≤ 4 := by cases e <;> decide

theorem errKind_le_four (s : State) : s.errKind.toNat ≤ 4 := by
  unfold State.errKind
  split
  · decide
  · exact (errKindOf_bounds _).2

/-- KIND is 0 only where no error is recorded. -/
theorem errKind_eq_zero_iff (s : State) : s.errKind = 0 ↔ s.err = none := by
  unfold State.errKind
  split
  case h_1 he => simp [he]
  case h_2 e he =>
    have h1 := (errKindOf_bounds e).1
    have hne : errKindOf e ≠ 0 := fun h0 => by simp [h0] at h1
    exact ⟨fun h0 => absurd h0 hne, fun h => by simp [he] at h⟩

theorem errReason_of_no_error {s : State} (h : s.err = none) : s.errReason = 0 := by simp [State.errReason, h]

/-- ERROR is 0 exactly where no error is recorded. -/
theorem errorWord_eq_zero_iff (s : State) : s.errorWord = 0 ↔ s.err = none := by
  constructor
  · intro h
    rw [← errKind_eq_zero_iff, ← errorWord_kind, h]
    rfl
  · intro h
    rw [State.errorWord, (errKind_eq_zero_iff s).mpr h, errReason_of_no_error h]
    rfl

/-! #### INT_STATUS and `irq` (10_state.md R29, 60_exceptions.md R311) -/

theorem fourBits_getLsbD (a b c d : Bool) :
    let x := BitVec.ofBool d ++ BitVec.ofBool c ++ BitVec.ofBool b ++ BitVec.ofBool a
    x.getLsbD 0 = a ∧ x.getLsbD 1 = b ∧ x.getLsbD 2 = c ∧ x.getLsbD 3 = d := by
  revert a b c d
  decide

/-- The four levels of INT_STATUS, bit by bit. -/
theorem intStatus_getLsbD (s : State) :
    s.intStatus.getLsbD 0 = decide (s.st = .done) ∧ s.intStatus.getLsbD 1 = decide (s.st = .error) ∧
    s.intStatus.getLsbD 2 = decide (0 < s.outq.length) ∧
    s.intStatus.getLsbD 3 = decide (s.inq.length < s.cfg.inFifoDepth ∧ s.inEnd = .stillOpen) := by
  obtain ⟨h0, h1, h2, h3⟩ := fourBits_getLsbD (s.st == .done) (s.st == .error) (decide (0 < s.outq.length))
    (decide (s.inq.length < s.cfg.inFifoDepth) && s.inEnd == .stillOpen)
  refine ⟨h0, h1, h2, h3.trans ?_⟩
  rw [Bool.decide_and]
  rfl

theorem and_ne_zero_iff (x y : BitVec 4) :
    (x &&& y != 0) = true ↔
      (x.getLsbD 0 = true ∧ y.getLsbD 0 = true) ∨ (x.getLsbD 1 = true ∧ y.getLsbD 1 = true) ∨
      (x.getLsbD 2 = true ∧ y.getLsbD 2 = true) ∨ (x.getLsbD 3 = true ∧ y.getLsbD 3 = true) := by
  revert x y
  decide

/-- `irq` is an enabled level (60_exceptions.md R311). -/
theorem irq_iff (s : State) :
    s.irq = true ↔
      (s.intEn.getLsbD 0 = true ∧ s.st = .done) ∨ (s.intEn.getLsbD 1 = true ∧ s.st = .error) ∨
      (s.intEn.getLsbD 2 = true ∧ 0 < s.outq.length) ∨
      (s.intEn.getLsbD 3 = true ∧ s.inq.length < s.cfg.inFifoDepth ∧ s.inEnd = .stillOpen) := by
  obtain ⟨h0, h1, h2, h3⟩ := intStatus_getLsbD s
  rw [State.irq, and_ne_zero_iff, h0, h1, h2, h3]
  simp only [decide_eq_true_eq]

/-! ### Reads and writes that leave the engine as it is -/

/-- Only OUT_DATA and BUF_DATA have a side effect on a read (20_memory.md R65). -/
theorem readReg_snd {r : Reg} (ho : r ≠ .outData) (hb : r ≠ .bufData) (s : State) : (readReg r s).2 = s := by
  cases r
  case outData => exact absurd rfl ho
  case bufData => exact absurd rfl hb
  all_goals rfl

/-- The step of a read without a side effect: the answer is on the bus, and nothing else changes. -/
theorem step_busRead_of_pure {r : Reg} (ho : r ≠ .outData) (hb : r ≠ .bufData) (s : State) :
    step (s.withEvent (.host (busRead r))) = .next { s with busData := (readReg r s).1 } := by
  rw [step_busRead, answerRead, readReg_snd ho hb]

/-- A write that needs STATE ≠ BUSY, while no command runs. -/
theorem unlessBusy_of_not_busy {s : State} (h : s.st ≠ .busy) (t : State) : unlessBusy s t = t := if_neg h

theorem unlessBusy_of_busy {s : State} (h : s.st = .busy) (t : State) : unlessBusy s t = raise .regBusy s := if_pos h

/-- No buffer holds more than 65535 bytes, under a valid configuration (00_scope.md R7, 10_state.md R40). -/
theorem bufCap_le {cfg : Config} (h : cfg.Valid) (id : BufId) : bufCap cfg id ≤ 65535 := by
  obtain ⟨-, -, -, -, hsecret⟩ := h
  cases id
  case secret => exact hsecret
  all_goals simp [bufCap, Config.fieldMax]

/-- No buffer's length is above its capacity (10_state.md R40). -/
theorem bufLen_le_of_inv {s : State} (h : s.Inv) (id : BufId) : s.bufLen id ≤ bufCap s.cfg id := by
  obtain ⟨-, -, hlen⟩ := h.bufsOk id
  exact hlen

/-! ### The statements on the register window -/

/-- Settles O51: the branches of the two writes, and the code of IN_END. -/
theorem inputPortAccesses : Obligations.InputPortAccesses := by
  intro s v
  refine ⟨step_busWrite (by decide) v s, step_busRead .inData s, ?_, ?_⟩
  · rw [step_busWrite (by decide)]
    simp only [writeReg, writeInCtrl]
    split <;> simp_all
  · rw [step_busRead]
    simp only [answerRead, readReg]
    congr 2
    cases s.inEnd <;> rfl

/-- Settles O52, register by register. -/
theorem readsAndTheirSideEffects : Obligations.ReadsAndTheirSideEffects := by
  intro s v
  refine ⟨fun b rest hq => ?_, fun hq => ?_, fun r ho hb => ⟨_, step_busRead_of_pure ho hb s, ?_⟩, fun r hr => ?_⟩
  · rw [step_busRead, readReg, readOutData, hq, ← validByte_eq]
    rfl
  · have hr : readOutData s = (0, s) := by simp [readOutData, hq]
    rw [step_busRead, readReg, hr]
    rfl
  · obtain ⟨h0, h1, h2, h3⟩ := intStatus_getLsbD s
    refine ⟨?_, ?_, ?_, ?_, ?_, ?_, ?_, ?_, ?_, ?_, ?_⟩ <;> rintro rfl
    · rfl
    · rfl
    · rfl
    · exact ⟨errorWord_kind s, errorWord_reason s, errorWord_zero31_16 s⟩
    · exact ⟨extractLsb'_setWidth_low (by decide) _, extractLsb'_setWidth_above _ _⟩
    · exact ⟨(getLsbD_setWidth_low (by decide) _).trans h0, (getLsbD_setWidth_low (by decide) _).trans h1,
        (getLsbD_setWidth_low (by decide) _).trans h2, (getLsbD_setWidth_low (by decide) _).trans h3,
        extractLsb'_setWidth_above _ _⟩
    · exact ⟨extractLsb'_setWidth_low (by decide) _, extractLsb'_setWidth_above _ _⟩
    · exact ⟨extractLsb'_setWidth_low (by decide) _, extractLsb'_setWidth_above _ _⟩
    · exact ⟨extractLsb'_setWidth_low (by decide) _, extractLsb'_setWidth_above _ _⟩
    · rfl
    · rfl
  · have hc : r ≠ .cmd := by rintro rfl; simp at hr
    rw [step_busWrite hc]
    cases r
    case intEn | inData | inCtrl | bufSel | bufLen | bufPtr | bufData | kdfIter | kdfLen => simp at hr
    all_goals rfl

/-- Settles O53: outside BUSY each write is its assignment or its range check. -/
theorem parameterRegisterAccesses : Obligations.ParameterRegisterAccesses := by
  intro s v
  refine ⟨fun hb => ⟨?_, fun hle => ?_, fun hgt => ?_, ?_, ?_⟩, step_busRead .bufSel s, fun hinv hcfg => ⟨?_, ?_⟩,
    step_busRead .kdfIter s, step_busRead .kdfLen s⟩
  · rw [step_busWrite (by decide), writeReg, writeBufSel, unlessBusy_of_not_busy hb]
  · have hnot : ¬ v.toNat > s.selectedCap := Nat.not_lt.mpr hle
    constructor
    · rw [step_busWrite (by decide), writeReg, writeBufLen, unlessBusy_of_not_busy hb, if_neg hnot]
      rfl
    · rw [step_busWrite (by decide), writeReg, writeBufPtr, unlessBusy_of_not_busy hb, if_neg hnot]
  · have hover : v.toNat > s.selectedCap := hgt
    constructor
    · rw [step_busWrite (by decide), writeReg, writeBufLen, unlessBusy_of_not_busy hb, if_pos hover]
    · rw [step_busWrite (by decide), writeReg, writeBufPtr, unlessBusy_of_not_busy hb, if_pos hover]
  · rw [step_busWrite (by decide), writeReg, writeKdfIter, unlessBusy_of_not_busy hb]
  · rw [step_busWrite (by decide), writeReg, writeKdfLen, unlessBusy_of_not_busy hb]
  · have hlen : s.bufLen s.selected ≤ 65535 := (bufLen_le_of_inv hinv _).trans (bufCap_le hcfg _)
    rw [step_busRead, readReg, setWidth_ofNat16 hlen]
    rfl
  · have hptr : s.bufPtr ≤ 65535 := hinv.ptrFits.trans (bufCap_le hcfg _)
    rw [step_busRead, readReg, setWidth_ofNat16 hptr]
    rfl

/-- SECRET, KEY and IV are the buffers that no host reads (10_state.md R40). -/
theorem bufReadable_iff (id : BufId) : bufReadable id = true ↔ id ∉ [BufId.secret, .key, .iv] := by
  cases id <;> decide

/-- A BUF_DATA read that answers a byte (10_state.md R38). -/
theorem readBufData_of_readable {s : State} (hb : s.st ≠ .busy) (hr : bufReadable s.selected = true)
    (hp : s.bufPtr < s.bufLen s.selected) :
    readBufData s = (validByte (s.bufByte s.selected s.bufPtr), { s with bufPtr := s.bufPtr + 1 }) :=
  if_pos ⟨hb, hr, hp⟩

/-- Every other BUF_DATA read answers 0 without a side effect. -/
theorem readBufData_of_not_readable {s : State}
    (h : ¬ (s.st ≠ .busy ∧ bufReadable s.selected = true ∧ s.bufPtr < s.bufLen s.selected)) :
    readBufData s = (0, s) := if_neg h

/-- A BUF_DATA write below the capacity (10_state.md R38). -/
theorem writeBufData_of_room {s : State} (hb : s.st ≠ .busy) (hp : s.bufPtr < s.selectedCap) (v : Word) :
    writeBufData v s =
      { s with
        bufPtr := s.bufPtr + 1
        bufs := s.bufs.set s.selected ((s.bufs.get s.selected).storeHost s.bufPtr (v.extractLsb' 0 8)) } := by
  rw [writeBufData, unlessBusy_of_not_busy hb, if_neg (Nat.not_le.mpr hp)]
  rfl

/-- Settles O54: the read's three conditions, and what a store leaves in the selected buffer and in the others. -/
theorem bufDataReadsAndWrites : Obligations.BufDataReadsAndWrites := by
  intro s v
  refine ⟨fun hb hr hp => ?_, fun hno => ?_, fun hb hge => ?_, fun hb hlt hinv => ?_, fun hb => ?_⟩
  · rw [step_busRead, readReg, readBufData_of_readable hb ((bufReadable_iff _).mpr hr) hp, validByte_eq]
    rfl
  · have hnot : ¬ (s.st ≠ .busy ∧ bufReadable s.selected = true ∧ s.bufPtr < s.bufLen s.selected) := by
      rintro ⟨hb, hr, hp⟩
      rcases hno with h | h | h
      · exact hb h
      · exact (bufReadable_iff _).mp hr h
      · omega
    rw [step_busRead, readReg, readBufData_of_not_readable hnot]
    rfl
  · have hfull : s.bufPtr ≥ s.selectedCap := hge
    rw [step_busWrite (by decide), writeReg, writeBufData, unlessBusy_of_not_busy hb, if_pos hfull]
  · obtain ⟨hwf, -, -⟩ := hinv.bufsOk s.selected
    refine ⟨_, (step_busWrite (by decide) v s).trans (congrArg _ (writeBufData_of_room hb hlt v)), rfl, ?_, ?_,
      fun i hi => ?_, fun id hid => buffers_get_set_other _ hid _⟩
    · simp [State.bufByte, Buffer.storeHost, memory_read_write_same hwf]
    · simp [State.bufLen, Buffer.storeHost]
    · simp [State.bufByte, Buffer.storeHost, memory_read_write_other hwf hi]
  · rw [step_busWrite (by decide), writeReg, writeBufData, unlessBusy_of_busy hb]

/-- Settles O57, field by field. -/
theorem statusFieldsAndIrq : Obligations.StatusFieldsAndIrq := by
  intro s v
  refine ⟨⟨s.statusWord, step_busRead .status s, ?_, statusWord_zero3_2 s, ?_, ?_, statusWord_zero7_6 s,
    statusWord_op s, statusWord_zero31_16 s⟩, irq_iff s, step_busWrite (by decide) v s⟩
  · rw [statusWord_state]
    cases s.st <;> rfl
  · rw [statusWord_inWait, State.inWait, Bool.decide_and]
    rfl
  · rw [statusWord_outWait, State.outWait, Bool.decide_and]
    rfl

/-- Settles O58: an error is recorded exactly in ERROR, and KIND is at least 1 where one is. -/
theorem errorWordIsTheTable : Obligations.ErrorWordIsTheTable := by
  refine ⟨fun s hinv => ⟨?_, ?_, fun hk => ?_, errorWord_zero31_16 s⟩, by decide⟩
  · rw [← hinv.errIff, ne_eq, errorWord_eq_zero_iff]
  · rw [errorWord_kind]
    exact errKind_le_four s
  · rw [errorWord_kind, errKind_eq_zero_iff] at hk
    rw [errorWord_reason, errReason_of_no_error hk]

/-- Settles O59: the invariant bounds the fills by the depths, which have 16 bits. -/
theorem levelRegistersCount : Obligations.LevelRegistersCount := by
  intro s hinv ⟨_, hin, _, hout, _⟩
  exact ⟨_, _, step_busRead .inLevel s, step_busRead .outLevel s, levelWord_fill (hinv.inqFits.trans hin) _,
    levelWord_depth hin _, levelWord_fill (hinv.outqFits.trans hout) _, levelWord_depth hout _⟩

end Sys2Proof.Machine
end

section
/-!
SUPPORT. An engine step as a function of what the engine shares with the host: the engine meets INQ, IN_END and OUTQ
only in `pull()` and `push(b)` (20_memory.md R62, R63), and reads neither HOLD nor the model's own fields outside the
engine. What a step does is one `Move`, fixed by the rest of the state; the statements on the streams follow from what a
move can do.
-/

namespace Sys2Proof.Machine

/-! ### The surroundings of the engine -/

/-- The streams, HOLD, and the model's own fields outside the engine: what a step of the engine meets in `pull()` and
`push(b)` only. -/
structure Surroundings where
  inq : List Byte
  inEnd : InEnd
  outq : List Byte
  hold : Hold
  sched : List Event
  busData : Word

/-- A state with other surroundings. -/
def State.within (s : State) (x : Surroundings) : State :=
  { s with inq := x.inq, inEnd := x.inEnd, outq := x.outq, hold := x.hold, sched := x.sched, busData := x.busData }

def State.surroundings (s : State) : Surroundings :=
  { inq := s.inq, inEnd := s.inEnd, outq := s.outq, hold := s.hold, sched := s.sched, busData := s.busData }

/-- The surroundings with HOLD at NONE: the continuations of `pull()` and `push(b)` start from there. -/
def Surroundings.unheld (x : Surroundings) : Surroundings := { x with hold := .none }

@[simp] theorem within_surroundings (s : State) : s.within s.surroundings = s := rfl
@[simp] theorem within_k (s : State) (x : Surroundings) : (s.within x).k = s.k := rfl

/-! ### Parts of an engine step that leave the surroundings alone -/

/-- A part of an engine step that neither reads nor writes the surroundings. -/
def IgnoresSurroundings (f : State → State) : Prop := ∀ (s : State) (x : Surroundings), f (s.within x) = (f s).within x

/-- A part of an engine step that ends the running command: it lifts the hold, and has no other business with the
surroundings. -/
def EndsCommand (f : State → State) : Prop :=
  ∀ s : State, s.st = .busy → ∀ x : Surroundings, f (s.within x) = (f s).within x.unheld

theorem finish_endsCommand : EndsCommand finish := fun _ _ _ => rfl

theorem raise_endsCommand (e : Err) : EndsCommand (raise e) := fun s hb x => by
  rw [raise_of_busy (by exact hb), raise_of_busy hb]
  rfl

/-- An answer of a part that can fail, in other surroundings. -/
def resultWithin (x : Surroundings) : Except Err State → Except Err State
  | .ok t => .ok (t.within x)
  | .error e => .error e

/-- A part that can fail and neither reads nor writes the surroundings. -/
def ResultIgnoresSurroundings (f : State → Except Err State) : Prop :=
  ∀ (s : State) (x : Surroundings), f (s.within x) = resultWithin x (f s)

theorem loadCipher_ignoresSurroundings (key iv : List Byte) : ResultIgnoresSurroundings (loadCipher key iv) :=
  fun s x => by
    unfold loadCipher
    split
    · rfl
    · split <;> rfl

theorem unwrapOuterKey_ignoresSurroundings : IgnoresSurroundings unwrapOuterKey := fun s x => by
  have hsecret : (s.within x).bufValue .secret = s.bufValue .secret := rfl
  have hsalt : (s.within x).bufValue .hSalt = s.bufValue .hSalt := rfl
  unfold unwrapOuterKey
  rw [hsecret, hsalt]
  generalize deriveKey _ _ _ _ = ok
  rfl

theorem unwrapBlocks_ignoresSurroundings (n : Nat) (bs : List Byte) : IgnoresSurroundings (unwrapBlocks n bs) := by
  induction n generalizing bs with
  | zero => exact fun _ _ => rfl
  | succ n ih => exact fun s x => ih _ { s with c := _, u := _ } x

theorem unwrapDecrypt_ignoresSurroundings : ResultIgnoresSurroundings unwrapDecrypt := fun s x => by
  have hiv : (s.within x).bufValue .hIv = s.bufValue .hIv := rfl
  have hu : (s.within x).u = s.u := rfl
  unfold unwrapDecrypt
  rw [hiv, hu, loadCipher_ignoresSurroundings]
  cases loadCipher s.u.ok (s.bufValue .hIv) s with
  | error e => rfl
  | ok t => exact congrArg Except.ok (unwrapBlocks_ignoresSurroundings _ _ { t with u := { t.u with pt := [] } } x)

theorem unwrapParse_ignoresSurroundings : ResultIgnoresSurroundings unwrapParse := fun s x => by
  have hu : (s.within x).u = s.u := rfl
  unfold unwrapParse
  rw [hu]
  cases parseSecrets s.u.pt with
  | none => rfl
  | some fields =>
    dsimp only
    split <;> rfl

theorem unwrapCheck_ignoresSurroundings : ResultIgnoresSurroundings unwrapCheck := fun s x => by
  have hu : (s.within x).u = s.u := rfl
  have hsalt : (s.within x).bufValue .hSsalt = s.bufValue .hSsalt := rfl
  unfold unwrapCheck
  rw [hu, hsalt]
  generalize deriveKey _ _ _ _ = exp
  dsimp only
  split <;> rfl

theorem unwrapStore_ignoresSurroundings : ResultIgnoresSurroundings unwrapStore := fun s x => by
  have hu : (s.within x).u = s.u := rfl
  unfold unwrapStore
  rw [hu]
  split
  · rfl
  · split <;> rfl

theorem unwrapWithKey_ignoresSurroundings : ResultIgnoresSurroundings unwrapWithKey := fun s x => by
  unfold unwrapWithKey
  rw [unwrapDecrypt_ignoresSurroundings]
  cases unwrapDecrypt s with
  | error e => rfl
  | ok s1 =>
    dsimp only [resultWithin]
    rw [unwrapParse_ignoresSurroundings]
    cases unwrapParse s1 with
    | error e => rfl
    | ok s2 =>
      dsimp only [resultWithin]
      rw [unwrapCheck_ignoresSurroundings]
      cases unwrapCheck s2 with
      | error e => rfl
      | ok s3 =>
        dsimp only [resultWithin]
        rw [unwrapStore_ignoresSurroundings]
        cases unwrapStore s3 <;> rfl

theorem unwrapBody_ignoresSurroundings : ResultIgnoresSurroundings unwrapBody := fun s x => by
  have hlen : ∀ id, (s.within x).bufLen id = s.bufLen id := fun _ => rfl
  unfold unwrapBody unwrapSecrets
  rw [hlen, hlen, unwrapOuterKey_ignoresSurroundings, unwrapWithKey_ignoresSurroundings]
  split
  · rfl
  · split <;> rfl

/-! ### Moves -/

/-- What one engine step does, once the rest of the state is fixed. -/
inductive Move where
  /-- Nothing runs. -/
  | rest (s : State)
  /-- The command ends in a state. -/
  | ends (t : State)
  /-- `pull()` at a point: the state that waits there, what a byte leads to, and what EOF and IOERR lead to. -/
  | pull (waiting : State) (onByte : Byte → State) (atEof atIoerr : State)
  /-- `push(b)` at a point: the state that waits there, and what room for the byte leads to. -/
  | push (waiting : State) (b : Byte) (pushed : State)

/-- A move in its surroundings (20_memory.md R62, R63). -/
def Move.run : Move → Surroundings → State
  | .rest s, x => s.within x
  | .ends t, x => t.within x.unheld
  | .pull waiting onByte atEof atIoerr, x =>
    match x.inq with
    | b :: r => (onByte b).within { x with inq := r, hold := .none }
    | [] =>
      match x.inEnd with
      | .eof => atEof.within x.unheld
      | .ioerr => atIoerr.within x.unheld
      | .stillOpen => waiting.within { x with hold := .input }
  | .push waiting b pushed, x =>
    if x.outq.length < waiting.cfg.outFifoDepth then pushed.within { x with outq := x.outq ++ [b], hold := .none }
    else waiting.within { x with hold := .output }

/-- The state in which the engine stays where a move does not come through. -/
def Move.waiting : Move → Option State
  | .rest s => some s
  | .ends _ => none
  | .pull w _ _ _ => some w
  | .push w _ _ => some w

/-- Where the engine stays it runs on with the same move, under the same configuration. -/
def Move.Resumes (m : Move) (cfg : Config) : Prop :=
  ∀ w, m.waiting = some w → w.st = .busy ∧ w.cfg = cfg ∧ ∀ x, advance (w.within x) = m.run x

/-- From the state `s` a part of an engine step is one move, whatever the surroundings. -/
def HasMove (f : State → State) (s : State) : Prop :=
  ∃ m : Move, (∀ x, f (s.within x) = m.run x) ∧ m.Resumes s.cfg

/-- A part that does what another does from another state. -/
theorem hasMove_of_eq {f g : State → State} {s t : State} (h : ∀ x, f (s.within x) = g (t.within x))
    (hc : t.cfg = s.cfg) (ht : HasMove g t) : HasMove f s := by
  obtain ⟨m, hrun, hres⟩ := ht
  exact ⟨m, fun x => (h x).trans (hrun x), hc ▸ hres⟩

/-- Two parts that do the same. -/
theorem hasMove_congr {f g : State → State} {s : State} (h : ∀ t, f t = g t) (hg : HasMove g s) : HasMove f s :=
  hasMove_of_eq (fun _ => h _) rfl hg

theorem endsCommand_hasMove {f : State → State} (hf : EndsCommand f) {s : State} (hb : s.st = .busy) : HasMove f s :=
  ⟨.ends (f s), hf s hb, fun _ hw => by cases hw⟩

theorem finish_hasMove {s : State} (hb : s.st = .busy) : HasMove finish s := endsCommand_hasMove finish_endsCommand hb

theorem raise_hasMove (e : Err) {s : State} (hb : s.st = .busy) : HasMove (raise e) s :=
  endsCommand_hasMove (raise_endsCommand e) hb

/-- The same state at another point of the pseudocode. -/
def State.atPoint (s : State) (k : Kont) : State := { s with k := k }

theorem atPoint_self {s : State} {k : Kont} (h : s.k = k) : s.atPoint k = s := by
  rw [State.atPoint, ← h]

/-- A part at the point where K is already. -/
theorem hasMove_of_atPoint {f : State → State} {s : State} {k : Kont} (hk : s.k = k)
    (h : HasMove (fun t => f (t.atPoint k)) s) : HasMove f s :=
  hasMove_of_eq (g := fun t => f (t.atPoint k)) (fun x => congrArg f (atPoint_self (s := s.within x) hk).symm) rfl h

/-- `pull()` at the point `t`. -/
def pullMove (t : State) (onByte : Byte → State → State) (onEof : State → State) : Move :=
  .pull t (fun b => onByte b { t with inCount := t.inCount + 1 }) (onEof t) (raise .inputError t)

theorem pullMove_run {t : State} (hb : t.st = .busy) {onByte : Byte → State → State} {onEof : State → State}
    (hbyte : ∀ b, IgnoresSurroundings (onByte b)) (heof : EndsCommand onEof) (x : Surroundings) :
    pull (t.within x) onByte onEof = (pullMove t onByte onEof).run x := by
  obtain ⟨inq, inEnd, outq, hold, sched, busData⟩ := x
  cases inq with
  | cons b r => exact hbyte b { t with inCount := t.inCount + 1 } ⟨r, inEnd, outq, .none, sched, busData⟩
  | nil =>
    cases inEnd with
    | stillOpen => rfl
    | eof => exact heof t hb ⟨[], .eof, outq, .none, sched, busData⟩
    | ioerr => exact raise_endsCommand _ t hb ⟨[], .ioerr, outq, .none, sched, busData⟩

/-- A part that pulls at the point `k`, from which the engine runs on with the same part. -/
theorem hasMove_of_pull {f : State → State} {k : Kont} {onByte : Byte → State → State} {onEof : State → State}
    {s : State} (hf : ∀ t : State, f t = pull (t.atPoint k) onByte onEof)
    (hagain : ∀ x, advance ((s.within x).atPoint k) = f ((s.within x).atPoint k))
    (hbyte : ∀ b, IgnoresSurroundings (onByte b)) (heof : EndsCommand onEof) (hb : s.st = .busy) : HasMove f s := by
  have hrun := pullMove_run (t := s.atPoint k) hb hbyte heof
  refine ⟨pullMove (s.atPoint k) onByte onEof, fun x => (hf _).trans (hrun x), fun w hw => ?_⟩
  cases hw
  exact ⟨hb, rfl, fun x => (hagain x).trans ((hf _).trans (hrun x))⟩

/-- `push(b)` at the point `t`. -/
def pushMove (b : Byte) (t : State) (onPushed : State → State) : Move :=
  .push t b (onPushed { t with outCount := t.outCount + 1 })

theorem pushMove_run (b : Byte) (t : State) {onPushed : State → State} (hp : IgnoresSurroundings onPushed)
    (x : Surroundings) : push b (t.within x) onPushed = (pushMove b t onPushed).run x := by
  rcases push_cases b (t.within x) onPushed with ⟨hlt, he⟩ | ⟨hge, he⟩ <;> rw [he]
  · refine Eq.trans ?_ (if_pos hlt).symm
    exact hp { t with outCount := t.outCount + 1 } { x with outq := x.outq ++ [b], hold := .none }
  · exact (if_neg hge).symm

/-- A part that pushes at the point `k`, from which the engine runs on with the same part. -/
theorem hasMove_of_push {f : State → State} {k : Kont} {b : Byte} {onPushed : State → State}
    {s : State} (hf : ∀ t : State, f t = push b (t.atPoint k) onPushed)
    (hagain : ∀ x, advance ((s.within x).atPoint k) = f ((s.within x).atPoint k)) (hp : IgnoresSurroundings onPushed)
    (hb : s.st = .busy) : HasMove f s := by
  have hrun := pushMove_run b (s.atPoint k) hp
  refine ⟨pushMove b (s.atPoint k) onPushed, fun x => (hf _).trans (hrun x), fun w hw => ?_⟩
  cases hw
  exact ⟨hb, rfl, fun x => (hagain x).trans ((hf _).trans (hrun x))⟩

/-! ### The commands' moves -/

/-! #### READ_BYTEFIELD and the header body -/

theorem readFieldStart_hasMove {s : State} (hb : s.st = .busy) (hk : s.k = .first .readBytefield) :
    HasMove readFieldStart s :=
  hasMove_of_atPoint hk
    (hasMove_of_pull (fun _ => rfl) (fun _ => rfl) (fun _ _ _ => by rfl) (raise_endsCommand .truncatedField) hb)

theorem fieldPullStep_hasMove {left : Nat} {s : State} (hb : s.st = .busy) (hk : s.k = .fieldPull left) :
    HasMove (fieldPullStep left) s :=
  match left with
  | 0 => finish_hasMove hb
  | n + 1 =>
    hasMove_of_atPoint hk
      (hasMove_of_pull (onByte := fun b t => { t with k := .fieldPush b n }) (fun _ => rfl) (fun _ => rfl)
        (fun _ _ _ => rfl) (raise_endsCommand .truncatedField) hb)

theorem fieldPushStep_hasMove {b : Byte} {left : Nat} {s : State} (hb : s.st = .busy) (hk : s.k = .fieldPush b left) :
    HasMove (fieldPushStep b left) s :=
  hasMove_of_atPoint hk (hasMove_of_push (fun _ => rfl) (fun _ => rfl) (fun _ _ => by rfl) hb)

theorem headerFieldLen_hasMove (d : Bool) (f : BufId) {s : State} (hb : s.st = .busy) :
    HasMove (headerFieldLen d f) s :=
  hasMove_of_pull (k := .header d (.fieldLen f)) (fun _ => rfl) (fun _ => rfl) (fun _ _ _ => by rfl)
    (raise_endsCommand .truncatedHeader) hb

theorem headerVersion_hasMove (d : Bool) (b0 b1 : Byte) {s : State} (hb : s.st = .busy) :
    HasMove (headerVersion d b0 b1) s := by
  by_cases h : b0 = 0x05 ∧ b1 = 0x05
  · exact hasMove_of_pull (k := .header d (.version b0 b1)) (fun _ => if_pos h) (fun _ => rfl) (fun _ _ _ => by rfl)
      (raise_endsCommand .truncatedHeader) hb
  · exact hasMove_congr (fun _ => if_neg h) (raise_hasMove .badMagic hb)

theorem headerFields_hasMove (d : Bool) (v : Byte) {s : State} (hb : s.st = .busy) : HasMove (headerFields d v) s := by
  by_cases h : v = Config.formatVersion
  · exact hasMove_congr (fun _ => if_pos h) (headerFieldLen_hasMove d .hSalt hb)
  · exact hasMove_congr (fun _ => if_neg h) (raise_hasMove .unsupportedVersion hb)

theorem headerFieldData_hasMove {d : Bool} (f : BufId) (i n : Nat) {s : State} (hb : s.st = .busy)
    (hd : HasMove (afterHeader d) s) : HasMove (headerFieldData d (afterHeader d) f i n) s := by
  by_cases h : i < n
  · exact hasMove_of_pull (k := .header d (.fieldData f i n)) (fun _ => if_pos h) (fun _ => rfl) (fun _ _ _ => by rfl)
      (raise_endsCommand .truncatedHeader) hb
  · cases hn : nextField f with
    | some g =>
      exact hasMove_congr (fun _ => by rw [headerFieldData, if_neg h, hn]) (headerFieldLen_hasMove d g hb)
    | none => exact hasMove_congr (fun _ => by rw [headerFieldData, if_neg h, hn]) hd

theorem headerStep_hasMove {d : Bool} (p : HdrPoint) {s : State} (hb : s.st = .busy) (hd : HasMove (afterHeader d) s) :
    HasMove (headerStep d (afterHeader d) p) s :=
  match p with
  | .magic0 =>
    hasMove_of_pull (k := .header d .magic0)
      (onByte := fun b t => { t with hdrMagic := (t.hdrMagic.extractLsb' 8 8) ++ b, k := .header d (.magic1 b) })
      (fun _ => rfl) (fun _ => rfl) (fun _ _ _ => rfl) (raise_endsCommand .truncatedHeader) hb
  | .magic1 b0 =>
    hasMove_of_pull (k := .header d (.magic1 b0))
      (onByte := fun b t => { t with hdrMagic := b ++ (t.hdrMagic.extractLsb' 0 8), k := .header d (.version b0 b) })
      (fun _ => rfl) (fun _ => rfl) (fun _ _ _ => rfl) (raise_endsCommand .truncatedHeader) hb
  | .version b0 b1 => headerVersion_hasMove d b0 b1 hb
  | .fields v => headerFields_hasMove d v hb
  | .fieldLen f => headerFieldLen_hasMove d f hb
  | .fieldData f i n => headerFieldData_hasMove f i n hb hd

/-! #### DERIVE_KEY, AES_CBC_DECRYPT and UNWRAP -/

theorem keyPushStep_hasMove (rest : List Byte) {s : State} (hb : s.st = .busy) : HasMove (keyPushStep rest) s :=
  match rest with
  | [] => finish_hasMove hb
  | b :: r =>
    hasMove_of_push (k := .keyPush (b :: r)) (onPushed := fun t => { t with k := .keyPush r }) (fun _ => rfl)
      (fun _ => rfl) (fun _ _ => rfl) hb

theorem deriveKeyStart_hasMove {s : State} (hb : s.st = .busy) : HasMove deriveKeyStart s := by
  by_cases h : s.kdfCount = 0 ∨ s.kdfOutLen = 0
  · exact hasMove_of_eq (g := raise .badKdfParams) (t := s) (fun _ => if_pos h) rfl (raise_hasMove _ hb)
  · exact hasMove_of_eq (g := keyPushStep (deriveKey (s.bufValue .secret) (s.bufValue .salt) s.kdfCount s.kdfOutLen))
      (t := s) (fun _ => if_neg h) rfl (keyPushStep_hasMove _ hb)

theorem cbcAccept_ignoresSurroundings (b : Byte) : IgnoresSurroundings (cbcAccept b) := fun s x => by
  have hc : (s.within x).c = s.c := rfl
  unfold cbcAccept
  rw [hc]
  dsimp only
  split <;> rfl

theorem cbcEnd_endsCommand : EndsCommand cbcEnd := fun s hb x => by
  have hc : (s.within x).c = s.c := rfl
  unfold cbcEnd
  rw [hc]
  split
  · rfl
  · exact raise_endsCommand _ s hb x

theorem cbcPullStep_hasMove {s : State} (hb : s.st = .busy) : HasMove cbcPullStep s :=
  hasMove_of_pull (k := .cbcPull) (fun _ => rfl) (fun _ => rfl) cbcAccept_ignoresSurroundings cbcEnd_endsCommand hb

theorem cbcPushStep_hasMove (rest : List Byte) {s : State} (hb : s.st = .busy) : HasMove (cbcPushStep rest) s :=
  match rest with
  | [] => cbcPullStep_hasMove hb
  | b :: r =>
    hasMove_of_push (k := .cbcPush (b :: r))
      (onPushed := fun t => { t with k := if r = [] then .cbcPull else .cbcPush r }) (fun _ => rfl) (fun _ => rfl)
      (fun _ _ => rfl) hb

/-- What follows a part that can fail: `g` where it succeeds, else error entry. -/
def onResult (g : State → State) (s : State) : Except Err State → State
  | .ok t => g t
  | .error e => raise e s

/-- A part that begins with one that can fail. -/
theorem hasMove_of_result {f g : State → State} {r : State → Except Err State} {s : State}
    (hf : ∀ t, f t = onResult g t (r t)) (hr : ResultIgnoresSurroundings r) (hb : s.st = .busy)
    (hg : ∀ t, r s = .ok t → t.cfg = s.cfg ∧ HasMove g t) : HasMove f s := by
  cases h : r s with
  | ok t =>
    obtain ⟨hc, hmove⟩ := hg t h
    exact hasMove_of_eq (fun x => by rw [hf, hr, h]; rfl) hc hmove
  | error e => exact hasMove_of_eq (fun x => by rw [hf, hr, h]; rfl) rfl (raise_hasMove e hb)

/-- `loadCipher` with KEY and IV. -/
def loadKeyIv (s : State) : Except Err State := loadCipher (s.bufValue .key) (s.bufValue .iv) s

theorem loadKeyIv_ignoresSurroundings : ResultIgnoresSurroundings loadKeyIv := fun s x =>
  loadCipher_ignoresSurroundings _ _ s x

theorem loadKeyIv_frame {s t : State} (h : loadKeyIv s = .ok t) : t.st = s.st ∧ t.cfg = s.cfg := by
  obtain ⟨-, -, rfl⟩ := loadCipher_ok h
  exact ⟨rfl, rfl⟩

theorem unwrapBody_frame {s t : State} (h : unwrapBody s = .ok t) : t.st = s.st ∧ t.cfg = s.cfg := by
  obtain ⟨c, ik, iiv, -, -, rfl⟩ := unwrapBody_ok h
  exact ⟨rfl, rfl⟩

theorem cbcStart_eq (s : State) : cbcStart s = onResult cbcPullStep s (loadKeyIv s) := rfl

theorem cbcStart_hasMove {s : State} (hb : s.st = .busy) : HasMove cbcStart s :=
  hasMove_of_result cbcStart_eq loadKeyIv_ignoresSurroundings hb fun t ht => by
    obtain ⟨hst, hcfg⟩ := loadKeyIv_frame ht
    exact ⟨hcfg, cbcPullStep_hasMove (hst.trans hb)⟩

theorem unwrapStart_eq (s : State) : unwrapStart s = onResult finish s (unwrapBody s) := rfl

theorem unwrapStart_hasMove {s : State} (hb : s.st = .busy) : HasMove unwrapStart s :=
  hasMove_of_result unwrapStart_eq unwrapBody_ignoresSurroundings hb fun t ht => by
    obtain ⟨hst, hcfg⟩ := unwrapBody_frame ht
    exact ⟨hcfg, finish_hasMove (hst.trans hb)⟩

/-! #### The payload stream -/

theorem stageAAccept_ignoresSurroundings (b : Byte) : IgnoresSurroundings (stageAAccept b) := fun s x => by
  have hc : (s.within x).c = s.c := rfl
  unfold stageAAccept
  rw [hc]
  dsimp only
  split <;> rfl

theorem stageAEnd_endsCommand : EndsCommand stageAEnd := fun s hb x => by
  have hc : (s.within x).c = s.c := rfl
  unfold stageAEnd
  rw [hc]
  split <;> exact raise_endsCommand _ s hb x

theorem zMove_within (src : Source) (p : ZPoint) (s : State) (x : Surroundings) :
    zMove src p (s.within x) = zMove src p s := rfl

/-- At a point whose next move is a pull, one step of the decoder pulls. -/
theorem inflateStep_of_pull {src : Source} {p : ZPoint} {s : State} (h : zMove src p s = .pull) :
    inflateStep src p none s = inflatePull src p s := inflateRun_of_pull h _

/-- At a point whose next move is an output, one step of the decoder outputs. -/
theorem inflateStep_of_emit {src : Source} {p : ZPoint} {s : State} {b : Byte} (h : zMove src p s = .emit b) :
    inflateStep src p none s = inflateEmit src p b s := inflateRun_of_emit h _

theorem inflatePull_hasMove {src : Source} {p : ZPoint} {s : State} (hb : s.st = .busy) (hz : zMove src p s = .pull) :
    HasMove (inflatePull src p) s :=
  match src, hz with
  | .raw, hz =>
    hasMove_of_pull (k := .inflate .raw p none) (onByte := fun b t => { t with k := .inflate .raw p (some b) })
      (fun _ => rfl) (fun x => inflateStep_of_pull (s := (s.within x).atPoint _) hz) (fun _ _ _ => rfl)
      (raise_endsCommand .truncatedStream) hb
  | .stageB, hz =>
    hasMove_of_pull (k := .inflate .stageB p none) (fun _ => rfl)
      (fun x => inflateStep_of_pull (s := (s.within x).atPoint _) hz) stageAAccept_ignoresSurroundings
      stageAEnd_endsCommand hb

theorem inflateEmit_hasMove {src : Source} {p : ZPoint} {b : Byte} {s : State} (hb : s.st = .busy)
    (hz : zMove src p s = .emit b) : HasMove (inflateEmit src p b) s :=
  hasMove_of_push (k := .inflate src p none) (fun _ => rfl)
    (fun x => inflateStep_of_emit (s := (s.within x).atPoint _) hz) (fun _ _ => by rfl) hb

/-- The silent moves depend on Z, SB and SBPOS only, so the visible step that ends them decides. -/
theorem inflateRun_hasMove (src : Source) (n : Nat) {p : ZPoint} {s : State} (hb : s.st = .busy)
    (hn : silentBound p s < n) : HasMove (inflateRun n src p) s := by
  induction n generalizing p s with
  | zero => exact absurd hn (Nat.not_lt_zero _)
  | succ n ih =>
    have hz' : ∀ x, zMove src p (s.within x) = zMove src p s := zMove_within src p s
    cases hz : zMove src p s with
    | pull =>
      exact hasMove_of_eq (fun x => inflateRun_of_pull ((hz' x).trans hz) n) rfl (inflatePull_hasMove hb hz)
    | emit b =>
      exact hasMove_of_eq (fun x => inflateRun_of_emit ((hz' x).trans hz) n) rfl (inflateEmit_hasMove hb hz)
    | silent r pos =>
      cases r with
      | cont z q =>
        have hfalls := silentBound_falls hz
        exact hasMove_of_eq (g := inflateRun n src q) (t := { s with z := z, sbpos := pos })
          (fun x => by rw [inflateRun, hz', hz]; rfl) rfl (ih hb (by omega))
      | fail e => exact hasMove_of_eq (fun x => by rw [inflateRun, hz', hz]) rfl (raise_hasMove e hb)
      | done => exact hasMove_of_eq (fun x => by rw [inflateRun, hz', hz]) rfl (finish_hasMove hb)

theorem inflateStep_hasMove (src : Source) (p : ZPoint) (inHand : Option Byte) {s : State} (hb : s.st = .busy) :
    HasMove (inflateStep src p inHand) s := by
  cases inHand with
  | none =>
    exact hasMove_of_eq (g := inflateRun (inflateFuel p s) src p) (fun _ => rfl) rfl
      (inflateRun_hasMove src _ hb (Nat.lt_succ_self _))
  | some b =>
    have hz : ∀ x, (s.within x).z = s.z := fun _ => rfl
    cases h : zOnByte s.z p b with
    | cont z q =>
      exact hasMove_of_eq (g := inflateRun (inflateFuel q { s with z := z }) src q) (t := { s with z := z })
        (fun x => by rw [inflateStep, hz, h]; rfl) rfl (inflateRun_hasMove src _ hb (Nat.lt_succ_self _))
    | fail e => exact hasMove_of_eq (fun x => by rw [inflateStep, hz, h]) rfl (raise_hasMove e hb)
    | done => exact hasMove_of_eq (fun x => by rw [inflateStep, hz, h]) rfl (finish_hasMove hb)

theorem inflateStart_hasMove {s : State} (hb : s.st = .busy) : HasMove inflateStart s :=
  hasMove_of_eq (t := { s with z := inflateInit s.z }) (fun _ => rfl) rfl (inflateStep_hasMove .raw .cmf none hb)

/-- `openBody()` once the cipher is loaded (44_payload_stream.md R200). -/
def openLoaded (s : State) : State := inflateStep .stageB .cmf none { s with sbpos := 16, z := inflateInit s.z }

theorem openBody_eq (s : State) : openBody s = onResult openLoaded s (loadKeyIv s) := by
  unfold openBody loadKeyIv
  cases loadCipher (s.bufValue .key) (s.bufValue .iv) s <;> rfl

theorem openBody_hasMove {s : State} (hb : s.st = .busy) : HasMove openBody s :=
  hasMove_of_result openBody_eq loadKeyIv_ignoresSurroundings hb fun t ht => by
    obtain ⟨hst, hcfg⟩ := loadKeyIv_frame ht
    have hopen : HasMove openLoaded t := hasMove_of_eq (t := { t with sbpos := 16, z := inflateInit t.z })
      (fun _ => rfl) rfl (inflateStep_hasMove .stageB .cmf none (hst.trans hb))
    exact ⟨hcfg, hopen⟩

theorem decryptTail_eq (s : State) : decryptTail s = onResult openBody s (unwrapBody s) := by
  unfold decryptTail
  cases unwrapBody s <;> rfl

theorem decryptTail_hasMove {s : State} (hb : s.st = .busy) : HasMove decryptTail s :=
  hasMove_of_result decryptTail_eq unwrapBody_ignoresSurroundings hb fun t ht => by
    obtain ⟨hst, hcfg⟩ := unwrapBody_frame ht
    exact ⟨hcfg, openBody_hasMove (hst.trans hb)⟩

/-! #### The engine agent -/

theorem afterHeader_hasMove (d : Bool) {s : State} (hb : s.st = .busy) : HasMove (afterHeader d) s :=
  match d with
  | true => decryptTail_hasMove hb
  | false => finish_hasMove hb

/-- The header body from its first line, in PARSE_HEADER and in DECRYPT (40_bytefield_header.md R103). -/
theorem headerStart_hasMove (d : Bool) {s : State} (hb : s.st = .busy) :
    HasMove (headerStart d (afterHeader d)) s :=
  hasMove_of_eq (t := clearHeader s) (fun _ => rfl) rfl (headerStep_hasMove .magic0 hb (afterHeader_hasMove d hb))

/-- A part that does nothing where K is at a point at which nothing runs. -/
theorem hasMove_of_rest {f : State → State} {s : State} (hb : s.st = .busy) (hf : ∀ x, f (s.within x) = s.within x)
    (ha : ∀ x, advance (s.within x) = s.within x) : HasMove f s := by
  refine ⟨.rest s, hf, fun w hw => ?_⟩
  cases hw
  exact ⟨hb, rfl, ha⟩

theorem firstStep_hasMove {i : Instr} {s : State} (hb : s.st = .busy) (hk : s.k = .first i) : HasMove (firstStep i) s :=
  match i with
  | .readBytefield => readFieldStart_hasMove hb hk
  | .parseHeader => headerStart_hasMove false hb
  | .deriveKey => deriveKeyStart_hasMove hb
  | .aesCbcDecrypt => cbcStart_hasMove hb
  | .unwrap => unwrapStart_hasMove hb
  | .openPlaintext => openBody_hasMove hb
  | .inflate => inflateStart_hasMove hb
  | .decrypt => headerStart_hasMove true hb
  | .close => hasMove_of_rest hb (fun _ => rfl) fun _ => by rw [advance, within_k, hk]; rfl

/-- The running command does one move, whatever its surroundings. -/
theorem advance_hasMove {s : State} (hb : s.st = .busy) : HasMove advance s := by
  cases hk : s.k
  case empty =>
    have hrest : ∀ x, advance (s.within x) = s.within x := fun _ => by rw [advance, within_k, hk]
    exact hasMove_of_rest hb hrest hrest
  case first i => exact hasMove_of_eq (fun _ => by rw [advance, within_k, hk]) rfl (firstStep_hasMove hb hk)
  case fieldPull left => exact hasMove_of_eq (fun _ => by rw [advance, within_k, hk]) rfl (fieldPullStep_hasMove hb hk)
  case fieldPush b left =>
    exact hasMove_of_eq (fun _ => by rw [advance, within_k, hk]) rfl (fieldPushStep_hasMove hb hk)
  case header d p =>
    exact hasMove_of_eq (fun _ => by rw [advance, within_k, hk]) rfl
      (headerStep_hasMove p hb (afterHeader_hasMove d hb))
  case keyPush rest => exact hasMove_of_eq (fun _ => by rw [advance, within_k, hk]) rfl (keyPushStep_hasMove rest hb)
  case cbcPull => exact hasMove_of_eq (fun _ => by rw [advance, within_k, hk]) rfl (cbcPullStep_hasMove hb)
  case cbcPush rest => exact hasMove_of_eq (fun _ => by rw [advance, within_k, hk]) rfl (cbcPushStep_hasMove rest hb)
  case inflate src p inHand =>
    exact hasMove_of_eq (fun _ => by rw [advance, within_k, hk]) rfl (inflateStep_hasMove src p inHand hb)

/-- An engine step in BUSY is one move, whatever its surroundings; where the engine stays, its next step is the same
move. -/
theorem engineStep_move {s : State} (hb : s.st = .busy) :
    ∃ m : Move, (∀ x, engineStep (s.within x) = m.run x) ∧
      ∀ w, m.waiting = some w → w.st = .busy ∧ w.cfg = s.cfg ∧ ∀ x, engineStep (w.within x) = m.run x := by
  obtain ⟨m, hrun, hres⟩ := advance_hasMove hb
  refine ⟨m, fun x => (engineStep_of_busy (by exact hb)).trans (hrun x), fun w hw => ?_⟩
  obtain ⟨hwb, hcfg, hagain⟩ := hres w hw
  exact ⟨hwb, hcfg, fun x => (engineStep_of_busy (by exact hwb)).trans (hagain x)⟩

/-! ### The statements on the streams -/

/-- Settles O15: the branches of `pull()` and `push(b)`. -/
theorem streamPrimitives : Obligations.StreamPrimitives :=
  ⟨fun _ onByte onEof =>
    ⟨fun _ _ hq => pull_cons hq onByte onEof, fun hq he => by simp only [pull, hq, he],
      fun hq he => by simp only [pull, hq, he], fun hq he => by simp only [pull, hq, he]⟩,
    fun b _ onPushed => ⟨fun hroom => push_room hroom b onPushed, fun hfull => if_neg hfull⟩⟩

/-- A move that ends with HOLD set has not come through: the engine stays, and the surroundings are as they were but
for HOLD. -/
theorem waiting_of_hold {m : Move} {x : Surroundings} (h : (m.run x).hold ≠ .none) :
    ∃ w hold, m.waiting = some w ∧ m.run x = w.within { x with hold := hold } ∧
      m.run { x with hold := hold } = w.within { x with hold := hold } := by
  obtain ⟨inq, inEnd, outq, hold, sched, busData⟩ := x
  cases m with
  | rest s => exact ⟨s, hold, rfl, rfl, rfl⟩
  | ends t => exact absurd rfl h
  | pull w onByte atEof atIoerr =>
    cases inq with
    | cons b r => exact absurd rfl h
    | nil =>
      cases inEnd with
      | stillOpen => exact ⟨w, .input, rfl, rfl, rfl⟩
      | eof => exact absurd rfl h
      | ioerr => exact absurd rfl h
  | push w b pushed =>
    by_cases hroom : outq.length < w.cfg.outFifoDepth
    · exact absurd (congrArg State.hold (if_pos hroom)) h
    · exact ⟨w, .output, rfl, if_neg hroom, if_neg hroom⟩

/-- Settles O16: a move that does not come through stays where the engine runs on with the same move. -/
theorem holdLastsUntilTheHostActs : Obligations.HoldLastsUntilTheHostActs := by
  intro s hh
  by_cases hb : s.st = .busy
  · obtain ⟨m, hrun, hres⟩ := engineStep_move hb
    have hs : engineStep s = m.run s.surroundings := by rw [← hrun, within_surroundings]
    rw [hs] at hh ⊢
    obtain ⟨w, hold, hw, hstay, hagain⟩ := waiting_of_hold hh
    obtain ⟨-, -, hnext⟩ := hres w hw
    rw [hstay, hnext, hagain]
  · rw [engineStep_of_not_busy hb, engineStep_of_not_busy hb]

/-- A move with a byte in INQ commutes with an append to INQ. -/
theorem run_append (m : Move) {x : Surroundings} (h : x.inq ≠ []) (b : Byte) :
    m.run { x with inq := x.inq ++ [b] } = { m.run x with inq := (m.run x).inq ++ [b] } := by
  obtain ⟨inq, inEnd, outq, hold, sched, busData⟩ := x
  cases m with
  | rest s => rfl
  | ends t => rfl
  | pull w onByte atEof atIoerr =>
    cases inq with
    | nil => exact absurd rfl h
    | cons c r => rfl
  | push w c pushed => simp only [Move.run]; split <;> rfl

/-- A move with a byte in INQ commutes with a write of IN_END. -/
theorem run_setInEnd (m : Move) {x : Surroundings} (h : x.inq ≠ []) (e : InEnd) :
    m.run { x with inEnd := e } = { m.run x with inEnd := e } := by
  obtain ⟨inq, inEnd, outq, hold, sched, busData⟩ := x
  cases m with
  | rest s => rfl
  | ends t => rfl
  | pull w onByte atEof atIoerr =>
    cases inq with
    | nil => exact absurd rfl h
    | cons c r => rfl
  | push w c pushed => simp only [Move.run]; split <;> rfl

/-- A move that finds OUTQ neither empty nor full commutes with a pop of OUTQ. -/
theorem run_pop (m : Move) {x : Surroundings} {b : Byte} {rest : List Byte} (h : x.outq = b :: rest)
    (hroom : ∀ w, m.waiting = some w → x.outq.length < w.cfg.outFifoDepth) :
    m.run { x with outq := rest } = { m.run x with outq := (m.run x).outq.tail } := by
  obtain ⟨inq, inEnd, outq, hold, sched, busData⟩ := x
  subst h
  cases m with
  | rest s => rfl
  | ends t => rfl
  | pull w onByte atEof atIoerr =>
    cases inq with
    | cons c r => rfl
    | nil => cases inEnd <;> rfl
  | push w c pushed =>
    have hlt : (b :: rest).length < w.cfg.outFifoDepth := hroom w rfl
    have hlt' : rest.length < w.cfg.outFifoDepth := Nat.lt_of_succ_lt hlt
    simp only [Move.run, if_pos hlt, if_pos hlt']
    rfl

/-- A change `x` of the surroundings commutes with an engine step if it does with every move: `g` is the same change,
made afterwards. -/
theorem engineStep_within_eq {s : State} {x : Surroundings} {g : State → State} (hs : s.within x = g s)
    (hm : ∀ m : Move, (∀ w, m.waiting = some w → w.cfg = s.cfg) → m.run x = g (m.run s.surroundings)) :
    engineStep (s.within x) = g (engineStep s) := by
  by_cases hb : s.st = .busy
  · obtain ⟨m, hrun, hres⟩ := engineStep_move hb
    have hcfg : ∀ w, m.waiting = some w → w.cfg = s.cfg := fun w hw => by
      obtain ⟨-, hc, -⟩ := hres w hw
      exact hc
    calc engineStep (s.within x) = m.run x := hrun x
      _ = g (m.run s.surroundings) := hm m hcfg
      _ = g (engineStep s) := by rw [← hrun, within_surroundings]
  · rw [engineStep_of_not_busy (by exact hb), engineStep_of_not_busy hb, hs]

/-- Settles O17: the change is one of the surroundings, and a move commutes with it. -/
theorem streamsCommuteWithEngine : Obligations.StreamsCommuteWithEngine := by
  refine ⟨fun s hq => ⟨fun b => ?_, fun e => ?_⟩, fun s b rest hq hroom => ?_⟩
  · exact engineStep_within_eq (x := { s.surroundings with inq := s.inq ++ [b] })
      (g := fun t => { t with inq := t.inq ++ [b] }) rfl fun m _ => run_append m (x := s.surroundings) hq b
  · exact engineStep_within_eq (x := { s.surroundings with inEnd := e }) (g := fun t => { t with inEnd := e }) rfl
      fun m _ => run_setInEnd m (x := s.surroundings) hq e
  · refine engineStep_within_eq (x := { s.surroundings with outq := rest })
      (g := fun t => { t with outq := t.outq.tail }) ?_ fun m hcfg =>
        run_pop m (x := s.surroundings) hq fun w hw => ?_
    · rw [hq]
      rfl
    · rw [hcfg w hw]
      exact hroom

end Sys2Proof.Machine
end

section
/-!
SUPPORT. The end of a command does not depend on the schedule (20_memory.md R71): whatever the schedule, the engine
makes the moves it would make alone, with all of its input there from the start and OUTQ always drained.
-/

namespace Sys2Proof.Machine

/-! ### The engine alone -/

/-- What R71 speaks of at the end of a command. -/
structure Ending where
  st : EngState
  err : Option Err
  inCount : Word

def State.ending (s : State) : Ending := { st := s.st, err := s.err, inCount := s.inCount }

/-- The surroundings with OUTQ drained, and none of what the engine does not read. -/
def Surroundings.drained (x : Surroundings) : Surroundings :=
  { inq := x.inq, inEnd := x.inEnd, outq := [], hold := .none, sched := [], busData := 0 }

/-- The drained surroundings in which all the input to come is there: the bytes `fut`, then the end of input `last`. An
input that has ended gets no more. -/
def Surroundings.foreseen (fut : List Byte) (last : InEnd) (x : Surroundings) : Surroundings :=
  match x.inEnd with
  | .stillOpen => { x.drained with inq := x.inq ++ fut, inEnd := last }
  | .eof => x.drained
  | .ioerr => x.drained

def State.drained (s : State) : State := s.within s.surroundings.drained

def State.foreseen (fut : List Byte) (last : InEnd) (s : State) : State := s.within (s.surroundings.foreseen fut last)

/-- The engine alone, drained after every step, comes to an ending and has pushed the given bytes. -/
inductive AloneEnds : State → Ending → List Byte → Prop
  | ended {s : State} (h : s.st ≠ .busy) : AloneEnds s s.ending []
  | step {s : State} {r : Ending} {out : List Byte} (h : s.st = .busy) (hr : AloneEnds (engineStep s).drained r out) :
      AloneEnds s r ((engineStep s).outq ++ out)

/-- The engine alone is deterministic. -/
theorem aloneEnds_unique {s : State} {r₁ r₂ : Ending} {out₁ out₂ : List Byte} (h₁ : AloneEnds s r₁ out₁)
    (h₂ : AloneEnds s r₂ out₂) : r₁ = r₂ ∧ out₁ = out₂ := by
  induction h₁ generalizing r₂ out₂ with
  | ended h =>
    cases h₂ with
    | ended _ => exact ⟨rfl, rfl⟩
    | step h' _ => exact absurd h' h
  | step h hr₁ ih =>
    cases h₂ with
    | ended h' => exact absurd h h'
    | step _ hr =>
      obtain ⟨he, ho⟩ := ih hr
      exact ⟨he, by rw [ho]⟩

/-- Two running states from which the engine takes the same step come to the same ending. -/
theorem aloneEnds_of_engineStep_eq {s s' : State} {r : Ending} {out : List Byte} (hb : s.st = .busy)
    (hb' : s'.st = .busy) (he : engineStep s' = engineStep s) (h : AloneEnds s' r out) : AloneEnds s r out := by
  cases h with
  | ended h => exact absurd hb' h
  | step _ hr =>
    rw [he] at hr ⊢
    exact .step hb hr

/-! ### Moves with foreseen input -/

theorem run_push_room {w pushed : State} {b : Byte} {x : Surroundings} (h : x.outq.length < w.cfg.outFifoDepth) :
    (Move.push w b pushed).run x = pushed.within { x with outq := x.outq ++ [b], hold := .none } := if_pos h

theorem foreseen_outq (x : Surroundings) (fut : List Byte) (last : InEnd) : (x.foreseen fut last).outq = [] := by
  unfold Surroundings.foreseen
  split <;> rfl

/-- A move in its surroundings and in the foreseen ones: either it comes through in both, and the input to come can
still be foreseen afterwards, or the engine stays in the actual ones. -/
theorem run_foreseen (m : Move) (x : Surroundings) (fut : List Byte) (last : InEnd) :
    ((m.run (x.foreseen fut last)).drained = (m.run x).foreseen fut last ∧
      (m.run x).outq = x.outq ++ (m.run (x.foreseen fut last)).outq) ∨
    ∃ w y, m.waiting = some w ∧ m.run x = w.within y ∧ y.foreseen fut last = x.foreseen fut last ∧ y.outq = x.outq := by
  obtain ⟨inq, inEnd, outq, hold, sched, busData⟩ := x
  cases m with
  | rest s => exact .inr ⟨s, _, rfl, rfl, rfl, rfl⟩
  | ends t => cases inEnd <;> exact .inl ⟨rfl, (List.append_nil _).symm⟩
  | pull w onByte atEof atIoerr =>
    cases inq with
    | cons b r => cases inEnd <;> exact .inl ⟨rfl, (List.append_nil _).symm⟩
    | nil =>
      cases inEnd with
      | stillOpen => exact .inr ⟨w, _, rfl, rfl, rfl, rfl⟩
      | eof => exact .inl ⟨rfl, (List.append_nil _).symm⟩
      | ioerr => exact .inl ⟨rfl, (List.append_nil _).symm⟩
  | push w b pushed =>
    by_cases hroom : outq.length < w.cfg.outFifoDepth
    · have hactual := run_push_room (w := w) (pushed := pushed) (b := b)
        (x := ⟨inq, inEnd, outq, hold, sched, busData⟩) hroom
      have hforeseen := run_push_room (w := w) (pushed := pushed) (b := b)
        (x := .foreseen fut last ⟨inq, inEnd, outq, hold, sched, busData⟩)
        (by rw [foreseen_outq]; exact Nat.zero_lt_of_lt hroom)
      rw [hactual, hforeseen]
      cases inEnd <;> exact .inl ⟨rfl, rfl⟩
    · exact .inr ⟨w, _, rfl, if_neg hroom, rfl, rfl⟩

/-- An engine step in BUSY, and the one with foreseen input: the first is the second, or leaves it to be taken. -/
theorem engineStep_foreseen {s : State} (hb : s.st = .busy) (fut : List Byte) (last : InEnd) :
    ((engineStep (s.foreseen fut last)).drained = (engineStep s).foreseen fut last ∧
      (engineStep s).outq = s.outq ++ (engineStep (s.foreseen fut last)).outq) ∨
    ((engineStep s).st = .busy ∧ engineStep ((engineStep s).foreseen fut last) = engineStep (s.foreseen fut last) ∧
      (engineStep s).outq = s.outq) := by
  obtain ⟨m, hrun, hres⟩ := engineStep_move hb
  have hs : engineStep s = m.run s.surroundings := by rw [← hrun, within_surroundings]
  have hf : engineStep (s.foreseen fut last) = m.run (s.surroundings.foreseen fut last) := hrun _
  rw [hs, hf]
  rcases run_foreseen m s.surroundings fut last with h | ⟨w, y, hw, hstay, hy, hout⟩
  · exact .inl h
  · obtain ⟨hwb, -, hagain⟩ := hres w hw
    refine .inr ⟨by rw [hstay]; exact hwb, ?_, by rw [hstay]; exact hout⟩
    rw [hstay, ← hy]
    exact hagain _

/-! ### The events of the schedules -/

/-- No IN_DATA write was turned away, as far as the recorded error tells. -/
abbrev InputAccepted (s : State) : Prop := s.err ≠ some .inOverflow ∧ s.err ≠ some .inClosed

theorem draining_cases {e : Event} (h : isDraining e = true) : e = .engine ∨ e = .host (busRead .outData) := by
  cases e with
  | engine => exact .inl rfl
  | host tx => exact .inr (congrArg _ (eq_of_beq h))
  | rst => cases h

theorem feeding_cases {e : Event} (h : isFeeding e = true) :
    e = .engine ∨ e = .host (busRead .outData) ∨ ∃ v, e = .host (busWrite .inData v) := by
  cases e with
  | engine => exact .inl rfl
  | host tx =>
    rcases Bool.or_eq_true _ _ ▸ h with hr | hw
    · exact .inr (.inl (congrArg _ (eq_of_beq hr)))
    · exact .inr (.inr ⟨tx.data, congrArg _ (eq_of_beq hw)⟩)
  | rst => cases h

theorem fedBytes_inData (v : Word) : fedBytes (.host (busWrite .inData v)) = [v.extractLsb' 0 8] :=
  if_pos (beq_self_eq_true _)

/-- A state whose schedule has a head is the state behind it with that event placed before. -/
theorem eq_withEvent_of_sched {s : State} {e : Event} {es : List Event} (h : s.sched = e :: es) :
    s = (consumeEvent s).withEvent e := by
  cases s
  cases h
  rfl

theorem consumeEvent_sched_of {s : State} {e : Event} {es : List Event} (h : s.sched = e :: es) :
    (consumeEvent s).sched = es := by rw [consumeEvent_sched, h]; rfl

/-- What an IN_CTRL write makes of an open input (10_state.md R31). -/
def inEndAfter (v : Word) : InEnd := if v.getLsbD 1 then .ioerr else if v.getLsbD 0 then .eof else .stillOpen

theorem writeInCtrl_of_open {s : State} (h : s.inEnd = .stillOpen) (v : Word) :
    writeInCtrl v s = { s with inEnd := inEndAfter v } := by
  unfold writeInCtrl inEndAfter
  rw [h]
  dsimp only
  split
  · rfl
  · split
    · rfl
    · rw [← h]

theorem writeInCtrl_of_ended {s : State} (h : s.inEnd ≠ .stillOpen) (v : Word) : writeInCtrl v s = s := by
  unfold writeInCtrl
  split
  · exact absurd ‹_› h
  · rfl
  · rfl

/-- Everything an IN_DATA write can do (10_state.md R30): it is accepted, or turned away, which a state in ERROR does
not record. -/
theorem writeInData_cases (v : Word) (s : State) :
    (s.inEnd = .stillOpen ∧ writeInData v s = { s with inq := s.inq ++ [v.extractLsb' 0 8] }) ∨
    (s.st = .error ∧ writeInData v s = s) ∨
    ((writeInData v s).st = .error ∧ ¬ InputAccepted (writeInData v s)) := by
  have turnedAway : ∀ e : Err, e = .inOverflow ∨ e = .inClosed → (s.st = .error ∧ raise e s = s) ∨
      ((raise e s).st = .error ∧ ¬ InputAccepted (raise e s)) := fun e he => by
    rcases raise_cases e s with h | ⟨-, h⟩
    · exact .inl h
    · rw [h]
      rcases he with rfl | rfl <;> simp [InputAccepted]
  unfold writeInData
  split
  · exact .inr (turnedAway _ (.inr rfl))
  · split
    · exact .inr (turnedAway _ (.inl rfl))
    case isFalse hopen _ => exact .inl ⟨not_not.mp hopen, rfl⟩

theorem writeInData_sched (v : Word) (s : State) : (writeInData v s).sched = s.sched := by
  unfold writeInData
  split
  · exact raise_sched _ s
  · split
    · exact raise_sched _ s
    · rfl

theorem readOutData_snd (s : State) : (readOutData s).2 = { s with outq := s.outq.tail } := by
  cases s with
  | mk _ _ _ _ _ _ outq => cases outq <;> rfl

/-- The steps of a host that feeds INQ, ends the input and drains OUTQ, and those of the engine between them. -/
inductive PortStep : Event → State → State → Prop
  | engine (s : State) : PortStep .engine s (engineStep s)
  | pop (s : State) : PortStep (.host (busRead .outData)) s (answerRead (readOutData s))
  | feed (v : Word) (s : State) : PortStep (.host (busWrite .inData v)) s (writeInData v s)
  | close (v : Word) (s : State) : PortStep (.host (busWrite .inCtrl v)) s (writeInCtrl v s)

/-- The events of those steps. -/
def PortEvent (e : Event) : Prop := ∀ s : State, ∃ u, PortStep e s u

theorem portEvent_engine : PortEvent .engine := fun s => ⟨_, .engine s⟩

theorem portEvent_pop : PortEvent (.host (busRead .outData)) := fun s => ⟨_, .pop s⟩

theorem portEvent_feed (v : Word) : PortEvent (.host (busWrite .inData v)) := fun s => ⟨_, .feed v s⟩

theorem portEvent_close (v : Word) : PortEvent (.host (busWrite .inCtrl v)) := fun s => ⟨_, .close v s⟩

theorem portEvent_of_draining {e : Event} (h : isDraining e = true) : PortEvent e := by
  rcases draining_cases h with rfl | rfl
  · exact portEvent_engine
  · exact portEvent_pop

theorem portEvent_of_feeding {e : Event} (h : isFeeding e = true) : PortEvent e := by
  rcases feeding_cases h with rfl | rfl | ⟨v, rfl⟩
  · exact portEvent_engine
  · exact portEvent_pop
  · exact portEvent_feed v

theorem step_of_portStep {e : Event} {s u : State} {es : List Event} (h : s.sched = e :: es)
    (hu : PortStep e (consumeEvent s) u) : step s = .next u := by
  rw [eq_withEvent_of_sched h]
  cases hu with
  | engine => exact step_engineEvent _
  | pop => exact step_busRead .outData _
  | feed v => exact step_busWrite (by decide) v _
  | close v => exact step_busWrite (by decide) v _

theorem portStep_sched {e : Event} {s u : State} (h : PortStep e s u) : u.sched = s.sched := by
  cases h with
  | engine => exact engineStep_sched s
  | pop => rw [answerRead, readOutData_snd]
  | feed v => exact writeInData_sched v s
  | close v =>
    by_cases ho : s.inEnd = .stillOpen
    · rw [writeInCtrl_of_open ho]
    · rw [writeInCtrl_of_ended ho]

/-- Once the command has ended, a port event keeps the ending, or it is an IN_DATA write that is turned away. -/
theorem portStep_of_not_busy {e : Event} {s u : State} (hb : s.st ≠ .busy) (h : PortStep e s u) :
    u.st ≠ .busy ∧ (u.ending = s.ending ∨ ¬ InputAccepted u) := by
  have same : ∀ t : State, t.ending = s.ending → t.st ≠ .busy ∧ (t.ending = s.ending ∨ ¬ InputAccepted t) := fun t ht =>
    ⟨by rwa [show t.st = s.st from congrArg Ending.st ht], .inl ht⟩
  cases h with
  | engine => exact same _ (by rw [engineStep_of_not_busy hb])
  | pop => exact same _ (by rw [answerRead, readOutData_snd]; rfl)
  | feed v =>
    rcases writeInData_cases v s with ⟨-, h⟩ | ⟨-, h⟩ | ⟨hst, hacc⟩
    · exact same _ (by rw [h]; rfl)
    · exact same _ (by rw [h])
    · exact ⟨by rw [hst]; decide, .inr hacc⟩
  | close v =>
    by_cases ho : s.inEnd = .stillOpen
    · exact same _ (by rw [writeInCtrl_of_open ho]; rfl)
    · exact same _ (by rw [writeInCtrl_of_ended ho])

theorem pushedBytes_succ {s u : State} (h : step s = .next u) (n : Nat) :
    pushedBytes (n + 1) s = (if fetch s.sched = .engine then u.outq.drop s.outq.length else []) ++ pushedBytes n u := by
  rw [pushedBytes, h]

/-- The host's port events run no engine step. -/
theorem fetch_ne_engine_of_portStep {tx : HostTx} {s u : State} (h : PortStep (.host tx) s u) (es : List Event) :
    fetch (.host tx :: es) ≠ .engine := by
  cases h <;> simp [fetch, cmdWordOf, busRead, busWrite, regOffset]

/-- What a port event pushes once the command has ended: nothing. -/
theorem pushed_of_portStep_of_not_busy {e : Event} {s u : State} {es : List Event} (hs : s.sched = e :: es)
    (hb : s.st ≠ .busy) (hu : PortStep e (consumeEvent s) u) :
    (if fetch s.sched = .engine then u.outq.drop s.outq.length else []) = [] := by
  rw [hs]
  cases e with
  | host tx => exact if_neg (fetch_ne_engine_of_portStep hu es)
  | engine =>
    cases hu
    rw [engineStep_of_not_busy (s := consumeEvent s) hb]
    exact List.drop_length
  | rst => cases hu

/-- A run goes on from where its first step leads. -/
theorem run_core_succ {s u : State} (h : step s = .next u) (n : Nat) :
    Host.Core.run Sys2Proof.core (n + 1) s = Host.Core.run Sys2Proof.core n u :=
  run_succ_of_step_next (M := Sys2Proof.core) h n

/-- Once the command has ended, the rest of the schedule changes nothing at its end. -/
theorem ending_of_run {es : List Event} (hes : ∀ e ∈ es, PortEvent e) {s t : State} (hs : s.sched = es)
    (hb : s.st ≠ .busy) (hrun : Host.Core.run Sys2Proof.core es.length s = .next t) (ht : InputAccepted t) :
    t.ending = s.ending ∧ pushedBytes es.length s = [] := by
  induction es generalizing s with
  | nil =>
    cases hrun
    exact ⟨rfl, rfl⟩
  | cons e es ih =>
    obtain ⟨u, hport⟩ := hes e List.mem_cons_self (consumeEvent s)
    have hstep := step_of_portStep hs hport
    obtain ⟨hub, hu⟩ := portStep_of_not_busy (s := consumeEvent s) hb hport
    have hrun' := (run_core_succ hstep es.length).symm.trans hrun
    obtain ⟨hend, hpushed⟩ := ih (fun e' h' => hes e' (List.mem_cons_of_mem _ h'))
      ((portStep_sched hport).trans (consumeEvent_sched_of hs)) hub hrun'
    have hacc : InputAccepted u := by
      have herr : t.err = u.err := congrArg Ending.err hend
      rwa [InputAccepted, herr] at ht
    refine ⟨hend.trans (hu.resolve_right (not_not_intro hacc)), ?_⟩
    rw [List.length_cons, pushedBytes_succ hstep, pushed_of_portStep_of_not_busy hs hb hport, hpushed, List.append_nil]

/-! ### The ending of a schedule is the one of the engine alone -/

/-- From every running state, the rest `es` of the schedule brings the command to the ending and the pushed bytes to
which the engine comes alone, with the input to come foreseen. -/
def Foretells (fut : List Byte) (last : InEnd) (es : List Event) : Prop :=
  ∀ s t : State, s.sched = es → s.st = .busy → Host.Core.run Sys2Proof.core es.length s = .next t → t.st ≠ .busy →
    InputAccepted t → AloneEnds (s.foreseen fut last) t.ending (pushedBytes es.length s)

/-- The same from every state, running or not. -/
theorem aloneEnds_of_run {fut : List Byte} {last : InEnd} {es : List Event} (hes : ∀ e ∈ es, PortEvent e)
    (h : Foretells fut last es) {s t : State} (hs : s.sched = es)
    (hrun : Host.Core.run Sys2Proof.core es.length s = .next t) (hend : t.st ≠ .busy) (ht : InputAccepted t) :
    AloneEnds (s.foreseen fut last) t.ending (pushedBytes es.length s) := by
  by_cases hb : s.st = .busy
  · exact h s t hs hb hrun hend ht
  · obtain ⟨he, hp⟩ := ending_of_run hes hs hb hrun ht
    rw [he, hp]
    exact .ended (s := s.foreseen fut last) hb

/-- An engine step, with what follows it (20_memory.md R71). -/
theorem foretells_engine {fut : List Byte} {last : InEnd} {es : List Event} (hes : ∀ e ∈ es, PortEvent e)
    (h : Foretells fut last es) : Foretells fut last (.engine :: es) := by
  intro s t hs hb hrun hend ht
  have hstep : step s = .next (engineStep (consumeEvent s)) := step_of_fetch_engine (by rw [hs]; rfl)
  have hsched : (engineStep (consumeEvent s)).sched = es := (engineStep_sched _).trans (consumeEvent_sched_of hs)
  have hrun' := (run_core_succ hstep es.length).symm.trans hrun
  rw [List.length_cons, pushedBytes_succ hstep, if_pos (by rw [hs]; rfl)]
  have hrest := aloneEnds_of_run hes h hsched hrun' hend ht
  rcases engineStep_foreseen (s := consumeEvent s) hb fut last with ⟨hdrained, hout⟩ | ⟨hbusy, hsame, hout⟩ <;>
    rw [hout]
  · rw [← hdrained] at hrest
    rw [consumeEvent_outq, List.drop_left]
    exact .step (s := s.foreseen fut last) hb hrest
  · rw [consumeEvent_outq, List.drop_length]
    exact aloneEnds_of_engineStep_eq (s := s.foreseen fut last)
      (s' := (engineStep (consumeEvent s)).foreseen fut last) hb hbusy hsame hrest

/-- A host transaction `f` that changes what is foreseen as it should, or is turned away. -/
theorem foretells_host {fut fut' : List Byte} {last last' : InEnd} {tx : HostTx} {es : List Event} {f : State → State}
    (hf : ∀ s, PortStep (.host tx) s (f s)) (hes : ∀ e ∈ es, PortEvent e) (h : Foretells fut' last' es)
    (hport : ∀ s, s.st = .busy →
      (f s).foreseen fut' last' = s.foreseen fut last ∨ ((f s).st = .error ∧ ¬ InputAccepted (f s))) :
    Foretells fut last (.host tx :: es) := by
  intro s t hs hb hrun hend ht
  have hu := hf (consumeEvent s)
  have hstep := step_of_portStep hs hu
  have hsched : (f (consumeEvent s)).sched = es := (portStep_sched hu).trans (consumeEvent_sched_of hs)
  have hrun' := (run_core_succ hstep es.length).symm.trans hrun
  rw [List.length_cons, pushedBytes_succ hstep, hs, if_neg (fetch_ne_engine_of_portStep hu es), List.nil_append]
  rcases hport (consumeEvent s) hb with hforeseen | ⟨herr, hacc⟩
  · have hrest := aloneEnds_of_run hes h hsched hrun' hend ht
    rwa [hforeseen] at hrest
  · obtain ⟨he, -⟩ := ending_of_run hes hsched (by rw [herr]; decide) hrun' ht
    have hterr : t.err = (f (consumeEvent s)).err := congrArg Ending.err he
    rw [InputAccepted, hterr] at ht
    exact absurd ht hacc

theorem foreseen_pop (s : State) (fut : List Byte) (last : InEnd) :
    (answerRead (readOutData s)).foreseen fut last = s.foreseen fut last := by
  rw [answerRead, readOutData_snd]
  rfl

theorem foreseen_feed {s : State} (h : s.inEnd = .stillOpen) (b : Byte) (fut : List Byte) (last : InEnd) :
    State.foreseen fut last { s with inq := s.inq ++ [b] } = s.foreseen (b :: fut) last := by
  cases s
  cases h
  simp [State.foreseen, Surroundings.foreseen, State.surroundings, State.within, Surroundings.drained]

theorem foreseen_close (s : State) (v : Word) :
    (writeInCtrl v s).foreseen [] .stillOpen = s.foreseen [] (inEndAfter v) := by
  by_cases h : s.inEnd = .stillOpen
  · rw [writeInCtrl_of_open h]
    cases s
    cases h
    cases inEndAfter v <;>
      simp [State.foreseen, Surroundings.foreseen, State.surroundings, State.within, Surroundings.drained]
  · rw [writeInCtrl_of_ended h]
    cases s with
    | mk _ _ _ _ _ inEnd =>
      cases inEnd with
      | stillOpen => exact absurd rfl h
      | eof => rfl
      | ioerr => rfl

/-- An OUT_DATA read, with what follows it. -/
theorem foretells_pop {fut : List Byte} {last : InEnd} {es : List Event} (hes : ∀ e ∈ es, PortEvent e)
    (h : Foretells fut last es) : Foretells fut last (.host (busRead .outData) :: es) :=
  foretells_host .pop hes h fun s _ => .inl (foreseen_pop s fut last)

/-- An IN_DATA write, with what follows it: its byte is the first of those to come. -/
theorem foretells_feed {fut : List Byte} {last : InEnd} {es : List Event} (hes : ∀ e ∈ es, PortEvent e)
    (h : Foretells fut last es) (v : Word) :
    Foretells (v.extractLsb' 0 8 :: fut) last (.host (busWrite .inData v) :: es) :=
  foretells_host (.feed v) hes h fun s hb => by
    rcases writeInData_cases v s with ⟨hopen, hw⟩ | ⟨herr, -⟩ | hrejected
    · rw [hw]
      exact .inl (foreseen_feed hopen _ fut last)
    · rw [hb] at herr
      cases herr
    · exact .inr hrejected

/-- The IN_CTRL write, with what follows it: no byte is to come. -/
theorem foretells_close {es : List Event} (hes : ∀ e ∈ es, PortEvent e) (h : Foretells [] .stillOpen es) (v : Word) :
    Foretells [] (inEndAfter v) (.host (busWrite .inCtrl v) :: es) :=
  foretells_host (.close v) hes h fun s _ => .inl (foreseen_close s v)

/-- The part of the schedule after the IN_CTRL write. -/
theorem foretells_of_draining {es : List Event} (hes : ∀ e ∈ es, isDraining e = true) : Foretells [] .stillOpen es := by
  induction es with
  | nil =>
    intro s t _ hb hrun hend _
    cases hrun
    exact absurd hb hend
  | cons e es ih =>
    have htail : ∀ e ∈ es, isDraining e = true := fun e' h => hes e' (List.mem_cons_of_mem _ h)
    have hports : ∀ e ∈ es, PortEvent e := fun e' h => portEvent_of_draining (htail e' h)
    rcases draining_cases (hes e List.mem_cons_self) with rfl | rfl
    · exact foretells_engine hports (ih htail)
    · exact foretells_pop hports (ih htail)

/-- The whole schedule of R71: feeding events, one IN_CTRL write, draining events. -/
theorem foretells_of_schedule {a b : List Event} (v : Word) (ha : ∀ e ∈ a, isFeeding e = true)
    (hb : ∀ e ∈ b, isDraining e = true) :
    Foretells (a.flatMap fedBytes) (inEndAfter v) (a ++ .host (busWrite .inCtrl v) :: b) := by
  have hbPorts : ∀ e ∈ b, PortEvent e := fun e h => portEvent_of_draining (hb e h)
  induction a with
  | nil => exact foretells_close hbPorts (foretells_of_draining hb) v
  | cons e a ih =>
    have htail : ∀ e ∈ a, isFeeding e = true := fun e' h => ha e' (List.mem_cons_of_mem _ h)
    have hports : ∀ e ∈ a ++ .host (busWrite .inCtrl v) :: b, PortEvent e := fun e' h => by
      rcases List.mem_append.mp h with h | h
      · exact portEvent_of_feeding (htail e' h)
      · rcases List.mem_cons.mp h with rfl | h
        · exact portEvent_close v
        · exact hbPorts e' h
    rcases feeding_cases (ha e List.mem_cons_self) with rfl | rfl | ⟨w, rfl⟩
    · exact foretells_engine hports (ih htail)
    · exact foretells_pop hports (ih htail)
    · rw [List.flatMap_cons, fedBytes_inData]
      exact foretells_feed hports (ih htail) w

/-- A schedule of R71 that brings the command to its end, against the engine alone. -/
theorem aloneEnds_of_schedule {s t : State} {a b : List Event} {v : Word} (hs : s.st = .busy)
    (ha : ∀ e ∈ a, isFeeding e = true) (hb : ∀ e ∈ b, isDraining e = true)
    (hrun : Host.Core.run Sys2Proof.core (a.length + 1 + b.length)
      { s with sched := a ++ [.host (busWrite .inCtrl v)] ++ b } = .next t)
    (hend : t.st ≠ .busy) (ht : InputAccepted t) :
    AloneEnds (s.foreseen (a.flatMap fedBytes) (inEndAfter v)) t.ending
      (pushedBytes (a.length + 1 + b.length) { s with sched := a ++ [.host (busWrite .inCtrl v)] ++ b }) := by
  have hlen : a.length + 1 + b.length = (a ++ .host (busWrite .inCtrl v) :: b).length := by
    simp only [List.length_append, List.length_cons]
    omega
  rw [hlen] at hrun ⊢
  rw [List.append_assoc, List.singleton_append] at hrun ⊢
  exact foretells_of_schedule v ha hb { s with sched := a ++ .host (busWrite .inCtrl v) :: b } t rfl hs hrun hend ht

/-- Settles O18: both schedules bring the command to where the engine comes alone, with the same input foreseen. -/
theorem resultsDoNotDependOnSchedule : Obligations.ResultsDoNotDependOnSchedule := by
  intro s t₁ t₂ a₁ b₁ a₂ b₂ v hs ha hb hfed hrun₁ hrun₂ hend₁ hend₂ hover₁ hclosed₁ hover₂ hclosed₂
  obtain ⟨ha₁, ha₂⟩ := List.forall_mem_append.mp ha
  obtain ⟨hb₁, hb₂⟩ := List.forall_mem_append.mp hb
  have h₁ := aloneEnds_of_schedule hs ha₁ hb₁ hrun₁ hend₁ ⟨hover₁, hclosed₁⟩
  have h₂ := aloneEnds_of_schedule hs ha₂ hb₂ hrun₂ hend₂ ⟨hover₂, hclosed₂⟩
  rw [hfed] at h₁
  obtain ⟨hending, hpushed⟩ := aloneEnds_unique h₁ h₂
  exact ⟨hpushed, congrArg Ending.st hending, congrArg Ending.err hending, congrArg Ending.inCount hending⟩

end Sys2Proof.Machine
end

section
/-!
SUPPORT. The operands of a running command (20_memory.md R61, 70_reset_and_hazards.md R340): which buffers an engine
step writes, and that no host transaction but CLOSE writes any.
-/

namespace Sys2Proof.Machine

/-! ### Buffers under the parts of an engine step -/

section
variable {α : Type} {v : Buffers → α}

/-- A part of an engine step that keeps a view `v` of the buffers. -/
def KeepsBufs (v : Buffers → α) (f : State → State) : Prop := ∀ s : State, v (f s).bufs = v s.bufs

/-- A view that does not depend on the buffers that PARSE_HEADER fills (40_bytefield_header.md R103). -/
def IgnoresHeaderBufs (v : Buffers → α) : Prop :=
  ∀ (bs : Buffers) (f : BufId) (x : Buffer), isHeaderBuffer f = true → v (bs.set f x) = v bs

/-- A view that does not depend on KEY and IV, which UNWRAP writes (43_unwrap.md R189). -/
def IgnoresKeyIv (v : Buffers → α) : Prop := ∀ (bs : Buffers) (x y : Buffer), v { bs with key := x, iv := y } = v bs

theorem finish_keepsBufs : KeepsBufs v finish := fun _ => rfl

theorem raise_keepsBufs (e : Err) : KeepsBufs v (raise e) := fun s => by rw [raise_bufs]

/-- `pull()` keeps what its two continuations keep. -/
theorem bufs_pull {onByte : Byte → State → State} {onEof : State → State} (hb : ∀ b, KeepsBufs v (onByte b))
    (he : KeepsBufs v onEof) (s : State) : v (pull s onByte onEof).bufs = v s.bufs := by
  rcases pull_cases s onByte onEof with ⟨b, rest, -, h⟩ | ⟨-, -, h⟩ | ⟨-, -, h⟩ | ⟨-, -, h⟩ <;> rw [h]
  · exact hb b _
  · exact he _
  · exact raise_keepsBufs .inputError _

/-- `push(b)` keeps what its continuation keeps. -/
theorem bufs_push {onPushed : State → State} (hp : KeepsBufs v onPushed) (b : Byte) (s : State) :
    v (push b s onPushed).bufs = v s.bufs := by
  rcases push_cases b s onPushed with ⟨-, h⟩ | ⟨-, h⟩ <;> rw [h]
  exact hp _

/-! #### READ_BYTEFIELD and the header body -/

theorem readFieldStart_keepsBufs : KeepsBufs v readFieldStart := bufs_pull (fun _ _ => by rfl) (raise_keepsBufs _)

theorem fieldPullStep_keepsBufs (left : Nat) : KeepsBufs v (fieldPullStep left) :=
  match left with
  | 0 => finish_keepsBufs
  | _ + 1 => bufs_pull (fun _ _ => by rfl) (raise_keepsBufs _)

theorem fieldPushStep_keepsBufs (b : Byte) (left : Nat) : KeepsBufs v (fieldPushStep b left) :=
  bufs_push (fun _ => by rfl) b

theorem headerFieldLen_keepsBufs (d : Bool) (f : BufId) : KeepsBufs v (headerFieldLen d f) := fun _ =>
  bufs_pull (fun _ _ => by rfl) (raise_keepsBufs _) _

theorem headerFieldData_keepsBufs (hv : IgnoresHeaderBufs v) {d : Bool} {onDone : State → State}
    (hd : KeepsBufs v onDone) {f : BufId} (hf : isHeaderBuffer f = true) (i n : Nat) :
    KeepsBufs v (headerFieldData d onDone f i n) := fun s => by
  unfold headerFieldData
  split
  · exact bufs_pull (fun b t => hv t.bufs f _ hf) (raise_keepsBufs _) _
  · split
    · exact headerFieldLen_keepsBufs d _ s
    · exact hd s

theorem headerVersion_keepsBufs (d : Bool) (b0 b1 : Byte) : KeepsBufs v (headerVersion d b0 b1) := fun s => by
  unfold headerVersion
  split
  · exact bufs_pull (fun _ _ => by rfl) (raise_keepsBufs _) _
  · exact raise_keepsBufs _ s

theorem headerFields_keepsBufs (d : Bool) (b : Byte) : KeepsBufs v (headerFields d b) := fun s => by
  unfold headerFields
  split
  · exact headerFieldLen_keepsBufs d _ s
  · exact raise_keepsBufs _ s

theorem headerStep_keepsBufs (hv : IgnoresHeaderBufs v) {d : Bool} {onDone : State → State} (hd : KeepsBufs v onDone)
    {p : HdrPoint} (hp : HdrPointOk p) : KeepsBufs v (headerStep d onDone p) := fun s =>
  match p, hp with
  | .magic0, _ => bufs_pull (fun _ _ => by rfl) (raise_keepsBufs _) _
  | .magic1 _, _ => bufs_pull (fun _ _ => by rfl) (raise_keepsBufs _) _
  | .version b0 b1, _ => headerVersion_keepsBufs d b0 b1 s
  | .fields b, _ => headerFields_keepsBufs d b s
  | .fieldLen f, _ => headerFieldLen_keepsBufs d f s
  | .fieldData _ i n, ⟨hf, _, _⟩ => headerFieldData_keepsBufs hv hd hf i n s

theorem clearHeader_keepsBufs (hv : IgnoresHeaderBufs v) : KeepsBufs v clearHeader := fun s => by
  calc v (clearHeader s).bufs
      = v ((((s.bufs.set .hSalt .zero).set .hIv .zero).set .hSsalt .zero).set .hSecrets .zero) := rfl
    _ = v s.bufs := by rw [hv _ _ _ rfl, hv _ _ _ rfl, hv _ _ _ rfl, hv _ _ _ rfl]

theorem headerStart_keepsBufs (hv : IgnoresHeaderBufs v) (d : Bool) {onDone : State → State} (hd : KeepsBufs v onDone) :
    KeepsBufs v (headerStart d onDone) := fun s =>
  (headerStep_keepsBufs hv hd (p := .magic0) trivial (clearHeader s)).trans (clearHeader_keepsBufs hv s)

/-! #### DERIVE_KEY, AES_CBC_DECRYPT and UNWRAP -/

theorem keyPushStep_keepsBufs (rest : List Byte) : KeepsBufs v (keyPushStep rest) :=
  match rest with
  | [] => finish_keepsBufs
  | b :: _ => fun _ => bufs_push (fun _ => by rfl) b _

theorem deriveKeyStart_keepsBufs : KeepsBufs v deriveKeyStart := fun s => by
  unfold deriveKeyStart
  split
  · exact raise_keepsBufs _ s
  · exact keyPushStep_keepsBufs _ s

theorem cbcAccept_keepsBufs (b : Byte) : KeepsBufs v (cbcAccept b) := fun s => by
  unfold cbcAccept
  dsimp only
  split <;> rfl

theorem cbcEnd_keepsBufs : KeepsBufs v cbcEnd := fun s => by
  unfold cbcEnd
  split
  · rfl
  · exact raise_keepsBufs _ s

theorem cbcPullStep_keepsBufs : KeepsBufs v cbcPullStep := fun _ => bufs_pull cbcAccept_keepsBufs cbcEnd_keepsBufs _

theorem cbcPushStep_keepsBufs (rest : List Byte) : KeepsBufs v (cbcPushStep rest) :=
  match rest with
  | [] => cbcPullStep_keepsBufs
  | b :: _ => fun _ => bufs_push (fun _ => by rfl) b _

/-- A part that begins with one that can fail keeps what both keep. -/
theorem onResult_keepsBufs {f g : State → State} {r : State → Except Err State} (hf : ∀ s, f s = onResult g s (r s))
    (hr : ∀ s t, r s = .ok t → v t.bufs = v s.bufs) (hg : KeepsBufs v g) : KeepsBufs v f := fun s => by
  rw [hf]
  cases h : r s with
  | ok t => exact (hg t).trans (hr s t h)
  | error e => exact raise_keepsBufs e s

theorem bufs_loadKeyIv {s t : State} (h : loadKeyIv s = .ok t) : v t.bufs = v s.bufs := by
  obtain ⟨-, -, rfl⟩ := loadCipher_ok h
  rfl

theorem bufs_unwrapBody (hv : IgnoresKeyIv v) {s t : State} (h : unwrapBody s = .ok t) : v t.bufs = v s.bufs := by
  obtain ⟨c, ik, iiv, -, -, rfl⟩ := unwrapBody_ok h
  exact hv _ _ _

theorem cbcStart_keepsBufs : KeepsBufs v cbcStart :=
  onResult_keepsBufs cbcStart_eq (fun _ _ => bufs_loadKeyIv) cbcPullStep_keepsBufs

theorem unwrapStart_keepsBufs (hv : IgnoresKeyIv v) : KeepsBufs v unwrapStart :=
  onResult_keepsBufs unwrapStart_eq (fun _ _ => bufs_unwrapBody hv) finish_keepsBufs

/-! #### The payload stream -/

theorem stageAAccept_keepsBufs (b : Byte) : KeepsBufs v (stageAAccept b) := fun s => by
  unfold stageAAccept
  dsimp only
  split <;> rfl

theorem stageAEnd_keepsBufs : KeepsBufs v stageAEnd := fun s => by
  unfold stageAEnd
  split <;> exact raise_keepsBufs _ s

theorem inflatePull_keepsBufs (src : Source) (p : ZPoint) : KeepsBufs v (inflatePull src p) := fun _ =>
  match src with
  | .raw => bufs_pull (fun _ _ => by rfl) (raise_keepsBufs _) _
  | .stageB => bufs_pull stageAAccept_keepsBufs stageAEnd_keepsBufs _

theorem inflateStep_keepsBufs (src : Source) (p : ZPoint) (inHand : Option Byte) :
    KeepsBufs v (inflateStep src p inHand) := fun s => by
  obtain ⟨q, z, pos, ⟨-, h⟩ | ⟨b, -, h⟩ | ⟨e, h⟩ | h⟩ := inflateStep_cases src p inHand s <;> rw [h]
  · exact inflatePull_keepsBufs src q _
  · exact bufs_push (fun _ => by rfl) b _
  · exact raise_keepsBufs e _
  · rfl

theorem openBody_keepsBufs : KeepsBufs v openBody :=
  onResult_keepsBufs openBody_eq (fun _ _ => bufs_loadKeyIv) fun _ => inflateStep_keepsBufs _ _ _ _

theorem decryptTail_keepsBufs (hv : IgnoresKeyIv v) : KeepsBufs v decryptTail :=
  onResult_keepsBufs decryptTail_eq (fun _ _ => bufs_unwrapBody hv) openBody_keepsBufs

/-! #### The engine agent -/

/-- The points at which a step may write the header buffers. -/
def InHeader (k : Kont) : Prop := k = .first .parseHeader ∨ k = .first .decrypt ∨ ∃ d p, k = .header d p

/-- The points at which a step may write KEY and IV. -/
def MayUnwrap (k : Kont) : Prop := k = .first .unwrap ∨ k = .first .decrypt ∨ ∃ p, k = .header true p

theorem firstStep_keepsBufs {i : Instr} (hh : InHeader (.first i) → IgnoresHeaderBufs v)
    (hu : MayUnwrap (.first i) → IgnoresKeyIv v) : KeepsBufs v (firstStep i) :=
  match i with
  | .readBytefield => readFieldStart_keepsBufs
  | .parseHeader => headerStart_keepsBufs (hh (.inl rfl)) false finish_keepsBufs
  | .deriveKey => deriveKeyStart_keepsBufs
  | .aesCbcDecrypt => cbcStart_keepsBufs
  | .unwrap => unwrapStart_keepsBufs (hu (.inl rfl))
  | .openPlaintext => openBody_keepsBufs
  | .inflate => fun _ => inflateStep_keepsBufs _ _ _ _
  | .decrypt => headerStart_keepsBufs (hh (.inr (.inl rfl))) true (decryptTail_keepsBufs (hu (.inr (.inl rfl))))
  | .close => fun _ => rfl

theorem afterHeader_keepsBufs {d : Bool} (hu : d = true → IgnoresKeyIv v) : KeepsBufs v (afterHeader d) :=
  match d with
  | true => decryptTail_keepsBufs (hu rfl)
  | false => finish_keepsBufs

/-- A running command writes the header buffers in the header body only, and KEY and IV in UNWRAP and where DECRYPT
unwraps: it keeps every view of the buffers that ignores those. -/
theorem bufs_advance {s : State} (hk : KontOk s.k) (hh : InHeader s.k → IgnoresHeaderBufs v)
    (hu : MayUnwrap s.k → IgnoresKeyIv v) : v (advance s).bufs = v s.bufs := by
  unfold advance
  split
  case h_1 => rfl
  case h_2 i h => rw [h] at hh hu; exact firstStep_keepsBufs hh hu s
  case h_3 left _ => exact fieldPullStep_keepsBufs left s
  case h_4 b left _ => exact fieldPushStep_keepsBufs b left s
  case h_5 d p h =>
    rw [h] at hk hh hu
    exact headerStep_keepsBufs (hh (.inr (.inr ⟨d, p, rfl⟩)))
      (afterHeader_keepsBufs fun hd => hu (.inr (.inr ⟨p, by rw [hd]⟩))) hk s
  case h_6 rest _ => exact keyPushStep_keepsBufs rest s
  case h_7 => exact cbcPullStep_keepsBufs s
  case h_8 rest _ => exact cbcPushStep_keepsBufs rest s
  case h_9 src p inHand _ => exact inflateStep_keepsBufs src p inHand s

theorem bufs_engineStep {s : State} (h : s.Inv) (hh : InHeader s.k → IgnoresHeaderBufs v)
    (hu : MayUnwrap s.k → IgnoresKeyIv v) : v (engineStep s).bufs = v s.bufs := by
  by_cases hb : s.st = .busy
  · rw [engineStep_of_busy hb, bufs_advance (h.running hb) hh hu]
  · rw [engineStep_of_not_busy hb]

end

/-- No engine step writes a parameter register (20_memory.md R61). -/
theorem engineStep_parameters (s : State) :
    (engineStep s).kdfIter = s.kdfIter ∧ (engineStep s).kdfLen = s.kdfLen ∧ (engineStep s).bufSel = s.bufSel := by
  have h := engineStep_keepsHostSide s
  have hiter : (hostSide (engineStep s)).kdfIter = (hostSide s).kdfIter := by rw [h]
  have hlen : (hostSide (engineStep s)).kdfLen = (hostSide s).kdfLen := by rw [h]
  have hsel : (hostSide (engineStep s)).bufSel = (hostSide s).bufSel := by rw [h]
  exact ⟨hiter, hlen, hsel⟩

/-! #### Views of the buffers -/

theorem ignoresHeaderBufs_secret : IgnoresHeaderBufs Buffers.secret := fun bs f x hf => by
  cases f
  case hSalt | hIv | hSsalt | hSecrets => rfl
  all_goals cases hf

theorem ignoresHeaderBufs_salt : IgnoresHeaderBufs Buffers.salt := fun bs f x hf => by
  cases f
  case hSalt | hIv | hSsalt | hSecrets => rfl
  all_goals cases hf

/-- The buffers but for KEY and IV. -/
def withoutKeyIv (bs : Buffers) : Buffers := { bs with key := .zero, iv := .zero }

theorem eq_of_withoutKeyIv_eq {a b : Buffers} (h : withoutKeyIv a = withoutKeyIv b) :
    a = { b with key := a.key, iv := a.iv } :=
  congrArg (fun x : Buffers => { x with key := a.key, iv := a.iv }) h

/-! ### Host transactions while a command runs -/

/-- The operands of a command: the buffers and the parameter registers (30_encoding.md R86). -/
structure Operands where
  bufs : Buffers
  bufSel : BitVec 3
  kdfIter : Word
  kdfLen : Byte

def State.operands (s : State) : Operands :=
  { bufs := s.bufs, bufSel := s.bufSel, kdfIter := s.kdfIter, kdfLen := s.kdfLen }

@[simp] theorem raise_operands (e : Err) (s : State) : (raise e s).operands = s.operands := by
  simp [State.operands]

/-- In BUSY a register write stores no operand (10_state.md R35 to R39). -/
theorem writeReg_operands_of_busy {s : State} (hb : s.st = .busy) (r : Reg) (v : Word) :
    (writeReg r v s).operands = s.operands := by
  have guarded : ∀ t, (unlessBusy s t).operands = s.operands := fun t => by
    rw [unlessBusy_of_busy hb, raise_operands]
  cases r
  case inData =>
    simp only [writeReg, writeInData]
    split
    · exact raise_operands _ s
    · split
      · exact raise_operands _ s
      · rfl
  case inCtrl =>
    by_cases ho : s.inEnd = .stillOpen
    · rw [writeReg, writeInCtrl_of_open ho]
      rfl
    · rw [writeReg, writeInCtrl_of_ended ho]
  case bufSel | bufLen | bufPtr | bufData | kdfIter | kdfLen => exact guarded _
  all_goals rfl

/-- A read has no side effect on an operand (20_memory.md R65). -/
theorem readReg_operands (r : Reg) (s : State) : (readReg r s).2.operands = s.operands := by
  cases r
  case outData => rw [readReg, readOutData_snd]; rfl
  case bufData =>
    simp only [readReg, readBufData]
    split <;> rfl
  all_goals rfl

theorem badAccess_operands (tx : HostTx) (s : State) : (badAccess tx s).operands = s.operands := by
  unfold badAccess
  split
  · exact raise_operands .badAccess s
  · exact raise_operands _ s

theorem alignedAccess_operands_of_busy {s : State} (hb : s.st = .busy) (tx : HostTx) :
    (alignedAccess tx s).operands = s.operands := by
  unfold alignedAccess
  split
  case h_1 r _ _ => exact readReg_operands r s
  case h_2 => rfl
  case h_3 r _ _ => exact writeReg_operands_of_busy hb r _
  case h_4 => rfl

theorem illegalWord_operands (e : DecodeError) (s : State) : (illegalWord e s).operands = s.operands :=
  match e with
  | .reservedBits => raise_operands _ s
  | .badOpcode => raise_operands _ s

/-- While a command runs, no host transaction but CLOSE changes an operand (70_reset_and_hazards.md R340). -/
theorem step_operands_of_busy {s t : State} (hb : s.st = .busy) (hstep : step s = .next t)
    (hengine : fetch s.sched ≠ .engine) (hclose : fetch s.sched ≠ .command .close) (hreset : fetch s.sched ≠ .reset) :
    t.operands = s.operands := by
  rcases step_cases s with ⟨h, -⟩ | ⟨h, -⟩ | ⟨i, h, he⟩ | ⟨e, -, he⟩ | ⟨tx, -, he⟩
  · exact absurd h hengine
  · exact absurd h hreset
  · have hi : i ≠ .close := fun hi => hclose (hi ▸ h)
    rw [he, exec_eq_accept hi] at hstep
    cases hstep
    rcases acceptCommand_cases i (consumeEvent s) with ⟨hr, -⟩ | ⟨-, ha⟩ | ⟨-, ha⟩
    · rcases hr with hr | hr <;> cases hb.symm.trans hr
    · rw [ha, raise_operands]
      rfl
    · rw [ha]
      rfl
  · rw [he] at hstep
    cases hstep
    exact illegalWord_operands e _
  · rw [he] at hstep
    rcases busAccess_cases tx (consumeEvent s) with ⟨-, ha⟩ | ⟨-, -, ha⟩ | ⟨-, -, ha⟩ <;> rw [ha] at hstep <;>
      cases hstep
    · exact badAccess_operands tx _
    · exact alignedAccess_operands_of_busy (s := consumeEvent s) hb tx

/-- Settles O14: a host transaction changes no operand, and an engine step keeps every view of the buffers that ignores
what the step may write. -/
theorem operandsAreFrozenWhileBusy : Obligations.OperandsAreFrozenWhileBusy := by
  intro s t hinv hb hstep hclose hreset
  by_cases hengine : fetch s.sched = .engine
  · rw [step_of_fetch_engine hengine] at hstep
    cases hstep
    have hc := inv_consumeEvent hinv
    obtain ⟨hiter, hlen, hsel⟩ := engineStep_parameters (consumeEvent s)
    refine ⟨?_, ?_, hiter, hlen, hsel, fun h => absurd hengine h, fun hunwrap hparse hdecrypt hheader => ?_,
      fun hunwrap => ?_⟩
    · exact bufs_engineStep hc (fun _ => ignoresHeaderBufs_secret) fun _ _ _ _ => rfl
    · exact bufs_engineStep hc (fun _ => ignoresHeaderBufs_salt) fun _ _ _ _ => rfl
    · refine bufs_engineStep (v := id) hc (fun h => ?_) fun h => ?_
      · rcases h with h | h | ⟨d, p, h⟩
        · exact absurd h hparse
        · exact absurd h hdecrypt
        · exact absurd h (hheader d p)
      · rcases h with h | h | ⟨p, h⟩
        · exact absurd h hunwrap
        · exact absurd h hdecrypt
        · exact absurd h (hheader true p)
    · refine eq_of_withoutKeyIv_eq (bufs_engineStep (v := withoutKeyIv) hc (fun h => ?_) fun _ _ _ _ => rfl)
      have hk : (consumeEvent s).k = .first .unwrap := hunwrap
      rw [hk] at h
      rcases h with h | h | ⟨d, p, h⟩ <;> cases h
  · have hops := step_operands_of_busy hb hstep hengine hclose hreset
    have hbufs : t.bufs = s.bufs := congrArg Operands.bufs hops
    exact ⟨by rw [hbufs], by rw [hbufs], congrArg Operands.kdfIter hops, congrArg Operands.kdfLen hops,
      congrArg Operands.bufSel hops, fun _ => hbufs, fun _ _ _ _ => hbufs, fun _ => by rw [hbufs]⟩

end Sys2Proof.Machine
end

section
/-!
SUPPORT. Host transactions by their offset and width (20_memory.md R60, R64): accesses that are turned away, reserved
offsets, and accesses outside the window, the only steps that stop.
-/

namespace Sys2Proof.Machine

/-! ### The step of a host transaction -/

/-- A host transaction that carries no command word is an access. -/
theorem step_access {tx : HostTx} (h : cmdWordOf tx = none) (s : State) :
    step (s.withEvent (.host tx)) = busAccess tx s := by
  simp only [step, State.withEvent, fetch, h]
  rfl

/-- A command word comes in an aligned 32-bit write to CMD only (10_state.md R25). -/
theorem cmdWordOf_eq_none {tx : HostTx} (h : tx.width ≠ 4 ∨ tx.offset ≠ 8) : cmdWordOf tx = none := by
  refine if_neg fun ⟨_, hoffset, hwidth⟩ => ?_
  rcases h with h | h
  · exact h hwidth
  · exact h hoffset

/-- What the transaction of a command word does: the command's `exec`, or the error of an illegal word. -/
theorem step_cmdWord {tx : HostTx} {w : Word} (h : cmdWordOf tx = some w) (s : State) :
    (∃ i, step (s.withEvent (.host tx)) = exec i s) ∨
    ∃ e, step (s.withEvent (.host tx)) = .next (illegalWord e s) := by
  cases hd : decode w with
  | ok i =>
    have hfetch : fetch (s.withEvent (.host tx)).sched = .command i := by simp only [State.withEvent, fetch, h, hd]
    exact .inl ⟨i, step_of_fetch_command hfetch⟩
  | error e =>
    have hfetch : fetch (s.withEvent (.host tx)).sched = .illegal e := by simp only [State.withEvent, fetch, h, hd]
    exact .inr ⟨e, by simp only [step, hfetch]; rfl⟩

/-- An access inside the window that is not an aligned 32-bit access (20_memory.md R64). -/
theorem step_badAccess {tx : HostTx} (hw : tx.offset < 256) (h : tx.width ≠ 4 ∨ tx.offset % 4 ≠ 0) (s : State) :
    step (s.withEvent (.host tx)) = .next (badAccess tx s) := by
  have hcmd : tx.width ≠ 4 ∨ tx.offset ≠ 8 := h.imp_right (by omega)
  have hbad : tx.aligned32 = false := by
    simp only [HostTx.aligned32, Bool.and_eq_false_iff, beq_eq_false_iff_ne]
    exact h
  rw [step_access (cmdWordOf_eq_none hcmd)]
  rcases busAccess_cases tx s with ⟨hout, -⟩ | ⟨-, -, he⟩ | ⟨-, hal, -⟩
  · exact absurd hw hout
  · exact he
  · rw [hbad] at hal
    cases hal

/-- An aligned 32-bit access inside the window that carries no command word. -/
theorem step_alignedAccess {tx : HostTx} (hw : tx.offset < 256) (hwidth : tx.width = 4) (hal : tx.offset % 4 = 0)
    (hcmd : cmdWordOf tx = none) (s : State) : step (s.withEvent (.host tx)) = .next (alignedAccess tx s) := by
  have halign : tx.aligned32 = true := by simp [HostTx.aligned32, hwidth, hal]
  rw [step_access hcmd]
  rcases busAccess_cases tx s with ⟨hout, -⟩ | ⟨-, hbad, -⟩ | ⟨-, -, he⟩
  · exact absurd hw hout
  · rw [halign] at hbad
    cases hbad
  · exact he

/-- No register lies at 0x5C or above (10_state.md R43). -/
theorem regAt_reserved {offset : Nat} (h : 0x5C ≤ offset) : regAt offset = none := by
  unfold regAt
  split
  case h_24 => rfl
  all_goals omega

/-- A reserved offset reads 0 (10_state.md R43). -/
theorem alignedAccess_reserved_read {tx : HostTx} (h : 0x5C ≤ tx.offset) (hk : tx.kind = .read) (s : State) :
    alignedAccess tx s = { s with busData := 0 } := by
  simp only [alignedAccess, regAt_reserved h, hk, answerRead]

/-- A reserved offset ignores writes (10_state.md R43). -/
theorem alignedAccess_reserved_write {tx : HostTx} (h : 0x5C ≤ tx.offset) (hk : tx.kind = .write) (s : State) :
    alignedAccess tx s = s := by
  simp only [alignedAccess, regAt_reserved h, hk]

/-! ### BAD_ACCESS is recorded by no legal access -/

/-- An operation after which BAD_ACCESS is recorded only if it was before. -/
def AddsNoBadAccess (s t : State) : Prop := t.err = some .badAccess → s.err = some .badAccess

theorem addsNoBadAccess_of_err_eq {s t : State} (h : t.err = s.err) : AddsNoBadAccess s t := fun ht => h ▸ ht

theorem raise_addsNoBadAccess {e : Err} (he : e ≠ .badAccess) (s : State) : AddsNoBadAccess s (raise e s) := by
  rcases raise_cases e s with ⟨-, h⟩ | ⟨-, h⟩ <;> rw [h]
  · exact id
  · exact fun ht => absurd (Option.some.inj ht) he

theorem unlessBusy_addsNoBadAccess {s t : State} (h : AddsNoBadAccess s t) : AddsNoBadAccess s (unlessBusy s t) := by
  unfold unlessBusy
  split
  · exact raise_addsNoBadAccess (by decide) s
  · exact h

/-- A write that is refused with BUF_RANGE where `c` holds. -/
theorem rangeChecked_addsNoBadAccess {c : Prop} [Decidable c] {s t : State} (h : t.err = s.err) :
    AddsNoBadAccess s (unlessBusy s (if c then raise .bufRange s else t)) := by
  refine unlessBusy_addsNoBadAccess ?_
  split
  · exact raise_addsNoBadAccess (by decide) s
  · exact addsNoBadAccess_of_err_eq h

theorem writeReg_addsNoBadAccess (r : Reg) (v : Word) (s : State) : AddsNoBadAccess s (writeReg r v s) := by
  cases r
  case inData =>
    simp only [writeReg, writeInData]
    split
    · exact raise_addsNoBadAccess (by decide) s
    · split
      · exact raise_addsNoBadAccess (by decide) s
      · exact id
  case inCtrl =>
    by_cases ho : s.inEnd = .stillOpen
    · rw [writeReg, writeInCtrl_of_open ho]
      exact id
    · rw [writeReg, writeInCtrl_of_ended ho]
      exact id
  case bufSel | kdfIter | kdfLen => exact unlessBusy_addsNoBadAccess id
  case bufLen | bufPtr | bufData => exact rangeChecked_addsNoBadAccess rfl
  all_goals exact id

theorem readReg_err (r : Reg) (s : State) : (readReg r s).2.err = s.err := by
  cases r
  case outData => rw [readReg, readOutData_snd]
  case bufData =>
    simp only [readReg, readBufData]
    split <;> rfl
  all_goals rfl

theorem alignedAccess_addsNoBadAccess (tx : HostTx) (s : State) : AddsNoBadAccess s (alignedAccess tx s) := by
  unfold alignedAccess
  split
  case h_1 r _ _ => exact addsNoBadAccess_of_err_eq (readReg_err r s)
  case h_2 => exact id
  case h_3 r _ _ => exact writeReg_addsNoBadAccess r _ s
  case h_4 => exact id

theorem illegalWord_addsNoBadAccess (e : DecodeError) (s : State) : AddsNoBadAccess s (illegalWord e s) :=
  match e with
  | .reservedBits => raise_addsNoBadAccess (by decide) s
  | .badOpcode => raise_addsNoBadAccess (by decide) s

theorem exec_addsNoBadAccess {i : Instr} {s t : State} (h : exec i s = .next t) : AddsNoBadAccess s t := by
  by_cases hi : i = .close
  · subst hi
    cases h
    exact fun ht => by cases ht
  · rw [exec_eq_accept hi] at h
    cases h
    rcases acceptCommand_cases i s with ⟨-, ha⟩ | ⟨-, ha⟩ | ⟨-, ha⟩ <;> rw [ha]
    · exact addsNoBadAccess_of_err_eq rfl
    · exact raise_addsNoBadAccess (by decide) s
    · exact id

/-- Settles O49: by width and offset, and for a legal access by whether it carries a command word. -/
theorem badAccessRaises : Obligations.BadAccessRaises := by
  intro s tx hw
  refine ⟨fun h => ?_, fun hwidth hal hres => ?_, fun hwidth hal t hstep => ?_⟩
  · exact step_badAccess hw h s
  · have hcmd : cmdWordOf tx = none := cmdWordOf_eq_none (.inr (by omega))
    rw [step_alignedAccess hw hwidth hal hcmd]
    cases hk : tx.kind with
    | read => rw [alignedAccess_reserved_read hres hk]
    | write => rw [alignedAccess_reserved_write hres hk]
  · cases hcmd : cmdWordOf tx with
    | none =>
      rw [step_alignedAccess hw hwidth hal hcmd] at hstep
      cases hstep
      exact alignedAccess_addsNoBadAccess tx s
    | some w =>
      rcases step_cmdWord hcmd s with ⟨i, he⟩ | ⟨e, he⟩ <;> rw [he] at hstep
      · exact exec_addsNoBadAccess hstep
      · cases hstep
        exact illegalWord_addsNoBadAccess e s

/-! ### Accesses outside the window -/

theorem step_outsideWindow {tx : HostTx} (h : 256 ≤ tx.offset) (s : State) :
    step (s.withEvent (.host tx)) = .fault .outsideWindow := by
  rw [step_access (cmdWordOf_eq_none (.inr (by omega)))]
  rcases busAccess_cases tx s with ⟨-, he⟩ | ⟨hin, -, -⟩ | ⟨hin, -, -⟩
  · exact he
  · omega
  · omega

/-- What is fetched as an access is the host transaction at the head of the schedule. -/
theorem sched_of_fetch_access {sched : List Event} {tx : HostTx} (h : fetch sched = .access tx) :
    ∃ rest, sched = .host tx :: rest := by
  unfold fetch at h
  split at h
  case h_4 tx' rest =>
    split at h
    · cases h
      exact ⟨rest, rfl⟩
    · split at h <;> cases h
  all_goals cases h

/-- `exec` answers a next state for every command. -/
theorem exec_next (i : Instr) (s : State) : ∃ t, exec i s = .next t := by
  by_cases hi : i = .close
  · exact ⟨release s, by rw [hi, exec_close]⟩
  · exact ⟨_, exec_eq_accept hi s⟩

/-- Settles O50, by the kind of event that the step runs. -/
theorem onlyAccessesOutsideTheWindowStop : Obligations.OnlyAccessesOutsideTheWindowStop := by
  refine ⟨fun s tx h => step_outsideWindow h s, fun s => ?_⟩
  rcases step_cases s with ⟨-, he⟩ | ⟨-, he⟩ | ⟨i, -, he⟩ | ⟨e, -, he⟩ | ⟨tx, hfetch, he⟩
  · exact .inl ⟨_, he⟩
  · exact .inl ⟨_, he⟩
  · obtain ⟨t, ht⟩ := exec_next i (consumeEvent s)
    exact .inl ⟨t, he.trans ht⟩
  · exact .inl ⟨_, he⟩
  · rcases busAccess_cases tx (consumeEvent s) with ⟨hout, ha⟩ | ⟨-, -, ha⟩ | ⟨-, -, ha⟩
    · obtain ⟨rest, hsched⟩ := sched_of_fetch_access hfetch
      exact .inr ⟨tx, rest, hsched, Nat.not_lt.mp hout, he.trans ha⟩
    · exact .inl ⟨_, he.trans ha⟩
    · exact .inl ⟨_, he.trans ha⟩

end Sys2Proof.Machine
end

section
/-!
SUPPORT. Command words (30_encoding.md R80 to R82): decoding is the inverse of encoding, and every other word is illegal
by name.
-/

namespace Sys2Proof

/-! ### The opcode map (30_encoding.md R81) -/

/-- An OP field selects a command exactly if it is that command's opcode. -/
theorem instrOfOp_eq_some_iff (op : Byte) (i : Instr) : instrOfOp op = some i ↔ op = opcodeOf i := by
  constructor
  · intro h
    unfold instrOfOp at h
    split_ifs at h <;> cases h <;> assumption
  · rintro rfl
    cases i <;> rfl

/-- The unassigned opcodes: 0x00, 0x09 to 0x0E, and 0x10 to 0xFF. -/
theorem instrOfOp_eq_none_iff (op : Byte) :
    instrOfOp op = none ↔ op.toNat = 0 ∨ (9 ≤ op.toNat ∧ op.toNat ≤ 14) ∨ 16 ≤ op.toNat := by
  unfold instrOfOp
  split_ifs <;> simp only [false_iff, true_iff] <;> bv_omega

/-! ### Words -/

/-- A word is a zero-extended OP exactly if its RSVD is 0 and its OP field is that OP (30_encoding.md R80). -/
theorem eq_setWidth_iff (w : Word) (op : Byte) :
    w = op.setWidth 32 ↔ w.extractLsb' 8 24 = 0 ∧ w.extractLsb' 0 8 = op := by
  constructor
  · rintro rfl
    exact ⟨Machine.extractLsb'_setWidth_above op 24, Machine.extractLsb'_setWidth_low (by decide) op⟩
  · rintro ⟨hrsvd, rfl⟩
    have hhigh : w.toNat >>> 8 % 2 ^ 24 = 0 := by rw [← BitVec.extractLsb'_toNat, hrsvd]; rfl
    apply BitVec.eq_of_toNat_eq
    simp only [BitVec.toNat_setWidth, BitVec.extractLsb'_toNat, Nat.shiftRight_eq_div_pow] at hhigh ⊢
    omega

/-- Everything decoding can answer: RSVD is checked before OP (30_encoding.md R82). -/
theorem decode_cases (w : Word) :
    (w.extractLsb' 8 24 ≠ 0 ∧ decode w = .error .reservedBits) ∨
    (w.extractLsb' 8 24 = 0 ∧ instrOfOp (w.extractLsb' 0 8) = none ∧ decode w = .error .badOpcode) ∨
    (w.extractLsb' 8 24 = 0 ∧ ∃ i, instrOfOp (w.extractLsb' 0 8) = some i ∧ decode w = .ok i) := by
  unfold decode
  by_cases h : w.extractLsb' 8 24 = 0
  · cases hop : instrOfOp (w.extractLsb' 0 8) <;> simp [h]
  · exact .inl ⟨h, if_pos h⟩

theorem decode_of_reserved {w : Word} (h : w.extractLsb' 8 24 ≠ 0) : decode w = .error .reservedBits := by
  rcases decode_cases w with ⟨-, hd⟩ | ⟨h0, -⟩ | ⟨h0, -⟩
  · exact hd
  · exact absurd h0 h
  · exact absurd h0 h

theorem decode_of_unassigned {w : Word} (h : w.extractLsb' 8 24 = 0) (hop : instrOfOp (w.extractLsb' 0 8) = none) :
    decode w = .error .badOpcode := by
  rcases decode_cases w with ⟨h0, -⟩ | ⟨-, -, hd⟩ | ⟨-, i, hi, -⟩
  · exact absurd h h0
  · exact hd
  · rw [hop] at hi
    cases hi

theorem decode_of_assigned {w : Word} {i : Instr} (h : w.extractLsb' 8 24 = 0)
    (hop : instrOfOp (w.extractLsb' 0 8) = some i) : decode w = .ok i := by
  rcases decode_cases w with ⟨h0, -⟩ | ⟨-, hno, -⟩ | ⟨-, j, hj, hd⟩
  · exact absurd h h0
  · rw [hop] at hno
    cases hno
  · rw [hop] at hj
    cases hj
    exact hd

/-- A word decodes to a command exactly if its RSVD is 0 and its OP field selects the command. -/
theorem decode_eq_ok_iff (w : Word) (i : Instr) :
    decode w = .ok i ↔ w.extractLsb' 8 24 = 0 ∧ instrOfOp (w.extractLsb' 0 8) = some i := by
  refine ⟨fun hok => ?_, fun ⟨h, hop⟩ => decode_of_assigned h hop⟩
  rcases decode_cases w with ⟨-, hd⟩ | ⟨-, -, hd⟩ | ⟨h, j, hj, hd⟩ <;> rw [hd] at hok <;> cases hok
  exact ⟨h, hj⟩

/-- Settles O1: decoding and encoding both say that RSVD is 0 and that the OP field is the command's opcode. -/
theorem decodeExactlyTheEncodedWords : Obligations.DecodeExactlyTheEncodedWords := fun w i => by
  rw [decode_eq_ok_iff, instrOfOp_eq_some_iff, encode, eq_setWidth_iff]

theorem decode_encode (i : Instr) : decode (encode i) = .ok i := (decodeExactlyTheEncodedWords _ i).mpr rfl

/-- Settles O2: each of the words is the encoder's word of its command. -/
theorem commandWordsDecode : Obligations.CommandWordsDecode :=
  ⟨decode_encode .readBytefield, decode_encode .parseHeader, decode_encode .deriveKey, decode_encode .aesCbcDecrypt,
    decode_encode .unwrap, decode_encode .openPlaintext, decode_encode .inflate, decode_encode .decrypt,
    decode_encode .close⟩

end Sys2Proof
end

section
/-!
SUPPORT. The CMD write of a word, legal or not, by STATE (30_encoding.md R82 to R84).
-/

namespace Sys2Proof.Machine

/-! ### Illegal words -/

/-- The CMD write of an illegal word is its error entry (30_encoding.md R82). -/
theorem step_cmdWrite_illegal {w : Word} {e : DecodeError} (h : decode w = .error e) (s : State) :
    step (s.withEvent (.host (busWrite .cmd w))) = .next (illegalWord e s) := by
  have hw : cmdWordOf (busWrite .cmd w) = some w := rfl
  have hfetch : fetch (s.withEvent (.host (busWrite .cmd w))).sched = .illegal e := by
    simp only [State.withEvent, fetch, hw, h]
  simp only [step, hfetch, consumeEvent_withEvent]

/-- In ERROR an illegal word changes nothing (60_exceptions.md R302). -/
theorem illegalWord_of_error {s : State} (h : s.st = .error) (e : DecodeError) : illegalWord e s = s :=
  match e with
  | .reservedBits => raise_of_error h _
  | .badOpcode => raise_of_error h _

/-- Settles O3: RSVD is checked first, and the OP field selects no command in just the ranges of R82. -/
theorem illegalWordsRaise : Obligations.IllegalWordsRaise := by
  intro s w
  refine ⟨fun h => step_cmdWrite_illegal (decode_of_reserved h) s, fun h hop => ?_, fun h hne hop => ?_⟩
  · exact step_cmdWrite_illegal (decode_of_unassigned h ((instrOfOp_eq_none_iff _).mpr hop)) s
  · cases hi : instrOfOp (w.extractLsb' 0 8) with
    | some i => exact ⟨i, decode_of_assigned h hi⟩
    | none =>
      have hno := (instrOfOp_eq_none_iff _).mp hi
      omega

/-! ### Acceptance by STATE -/

theorem acceptCommand_of_busy {s : State} (h : s.st = .busy) (i : Instr) : acceptCommand i s = raise .cmdBusy s := by
  simp only [acceptCommand, h]

theorem acceptCommand_of_error {s : State} (h : s.st = .error) (i : Instr) : acceptCommand i s = s := by
  simp only [acceptCommand, h]

/-- CLOSE leaves the reset state but for INT_EN and what stands outside the engine (44_payload_stream.md R220). -/
theorem release_eq_resetWith (s : State) :
    release s = { State.resetWith s.cfg with intEn := s.intEn, sched := s.sched, busData := s.busData } := rfl

/-- Where a command can start, no error is recorded (10_state.md R27). -/
theorem errorWord_of_ready {s : State} (hinv : s.Inv) (h : Ready s) : s.errorWord = 0 := by
  have hne : s.st ≠ .error := by rcases h with h | h <;> simp [h]
  rw [errorWord_eq_zero_iff]
  exact not_not.mp fun herr => hne (hinv.errIff.mp herr)

/-- The opcode is the low byte of the command's word (30_encoding.md R80). -/
theorem opcodeOf_eq_extractLsb'_encode (i : Instr) : opcodeOf i = (encode i).extractLsb' 0 8 :=
  (extractLsb'_setWidth_low (by decide) (opcodeOf i)).symm

/-- Settles O6: the table of R83 row by row, and the assignments of R84. -/
theorem acceptanceByState : Obligations.AcceptanceByState := by
  refine fun s => ⟨fun i hi h => ?_, errorWord_of_ready, fun i hi h => ?_, fun i hi h => ?_, ?_,
    fun e h => illegalWord_of_error h e, opcodeOf_eq_extractLsb'_encode⟩
  · rw [exec_eq_accept hi, acceptCommand_of_ready h, startCommand]
  · rw [exec_eq_accept hi, acceptCommand_of_busy h, raise_of_busy h]
  · rw [exec_eq_accept hi, acceptCommand_of_error h]
  · rw [exec_close, release_eq_resetWith]

end Sys2Proof.Machine
end

section
/-!
SUPPORT. Host programs as runs of the machine (30_encoding.md R90, R91), and what `load` leaves in a buffer.
-/

namespace Sys2Proof.Machine

/-! ### Bytes stored one after the other (10_state.md R38) -/

/-- The buffer after host stores of bytes at the indices `p`, `p + 1`, … -/
def Buffer.storeFrom (x : Buffer) (p : Nat) : List Byte → Buffer
  | [] => x
  | b :: r => (x.storeHost p b).storeFrom (p + 1) r

theorem storeHost_wf {x : Buffer} (h : x.bytes.wf = true) (p : Nat) (b : Byte) : (x.storeHost p b).bytes.wf = true :=
  memory_write_wf h p b

/-- A store at the end of a buffer's value appends to it. -/
theorem value_storeHost_end {x : Buffer} (h : x.bytes.wf = true) (b : Byte) :
    (x.storeHost x.len b).value = x.value ++ [b] := by
  have hlen : max x.len (x.len + 1) = x.len + 1 := max_eq_right (Nat.le_succ _)
  simp only [Buffer.value, Buffer.storeHost, hlen, List.range_succ, List.map_append, List.map_singleton,
    memory_read_write_same h]
  congr 1
  refine List.map_congr_left fun i hi => memory_read_write_other h ?_ b
  exact Nat.ne_of_lt (List.mem_range.mp hi)

/-- Stores from the end of a buffer's value on append to it. -/
theorem value_storeFrom_end (bs : List Byte) {x : Buffer} (h : x.bytes.wf = true) :
    (x.storeFrom x.len bs).value = x.value ++ bs := by
  induction bs generalizing x with
  | nil => simp [Buffer.storeFrom]
  | cons b r ih =>
    have hlen : (x.storeHost x.len b).len = x.len + 1 := max_eq_right (Nat.le_succ _)
    calc (x.storeFrom x.len (b :: r)).value
        = ((x.storeHost x.len b).storeFrom (x.storeHost x.len b).len r).value := by rw [hlen, Buffer.storeFrom]
      _ = x.value ++ [b] ++ r := by rw [ih (storeHost_wf h _ b), value_storeHost_end h]
      _ = x.value ++ b :: r := by simp

/-- Stores from `p` on leave every byte past them. -/
theorem read_storeFrom_past (bs : List Byte) {x : Buffer} (h : x.bytes.wf = true) {p i : Nat}
    (hi : p + bs.length ≤ i) : (x.storeFrom p bs).bytes.read i = x.bytes.read i := by
  induction bs generalizing x p with
  | nil => rfl
  | cons b r ih =>
    rw [List.length_cons] at hi
    calc (x.storeFrom p (b :: r)).bytes.read i
        = (x.storeHost p b).bytes.read i := ih (storeHost_wf h p b) (by omega)
      _ = x.bytes.read i := memory_read_write_other h (by omega) b

/-! ### Runs of host programs -/

/-- The state whose schedule begins with host transactions. -/
def State.withHost (s : State) (txs : List HostTx) : State := { s with sched := hostEvents txs ++ s.sched }

/-- A run whose next transaction is a register write goes on from the state after the write. -/
theorem run_withHost_busWrite {r : Reg} (hr : r ≠ .cmd) {v : Word} {s t : State} {txs : List HostTx}
    (h : writeReg r v (s.withHost txs) = t.withHost txs) (n : Nat) :
    Host.Core.run Sys2Proof.core (n + 1) (s.withHost (busWrite r v :: txs)) =
      Host.Core.run Sys2Proof.core n (t.withHost txs) := by
  refine run_succ_of_step_next ?_ n
  exact (step_busWrite hr v _).trans (congrArg _ h)

/-! ### `load` (30_encoding.md R91) -/

/-- The BUF_DATA writes of `load`. -/
def hostStores (bytes : List Byte) : List HostTx := bytes.map fun b => busWrite .bufData (b.setWidth 32)

/-- The state after BUF_DATA writes of bytes that fit the selected buffer. -/
def storedState (s : State) (bytes : List Byte) : State :=
  { s with
    bufPtr := s.bufPtr + bytes.length
    bufs := s.bufs.set s.selected ((s.bufs.get s.selected).storeFrom s.bufPtr bytes) }

theorem storedState_nil (s : State) : storedState s [] = s := by simp [storedState, Buffer.storeFrom]

theorem storedState_cons (s : State) (b : Byte) (r : List Byte) :
    storedState (storedState s [b]) r = storedState s (b :: r) := by
  simp [storedState, State.selected, Buffer.storeFrom, Nat.add_assoc, Nat.add_comm]

/-- A BUF_DATA write of a byte below the capacity stores it, whatever transactions are to come. -/
theorem writeReg_bufData_withHost {s : State} (hb : s.st ≠ .busy) (hp : s.bufPtr < s.selectedCap) (b : Byte)
    (txs : List HostTx) :
    writeReg .bufData (b.setWidth 32) (s.withHost txs) = (storedState s [b]).withHost txs := by
  rw [writeReg, writeBufData_of_room (s := s.withHost txs) hb hp, extractLsb'_setWidth_low (by decide)]
  rfl

/-- BUF_DATA writes store their bytes one after the other (10_state.md R38). -/
theorem run_hostStores (bytes : List Byte) {s : State} (hb : s.st ≠ .busy)
    (hfit : s.bufPtr + bytes.length ≤ s.selectedCap) :
    Host.Core.run Sys2Proof.core bytes.length (s.withHost (hostStores bytes)) = .next (storedState s bytes) := by
  induction bytes generalizing s with
  | nil => exact congrArg Host.Outcome.next (storedState_nil s).symm
  | cons b r ih =>
    rw [List.length_cons] at hfit
    have hrest : s.bufPtr + 1 + r.length ≤ s.selectedCap := by omega
    calc Host.Core.run Sys2Proof.core (r.length + 1) (s.withHost (hostStores (b :: r)))
        = Host.Core.run Sys2Proof.core r.length ((storedState s [b]).withHost (hostStores r)) :=
          run_withHost_busWrite (by decide) (writeReg_bufData_withHost hb (by omega) b _) _
      _ = .next (storedState (storedState s [b]) r) := ih hb hrest
      _ = .next (storedState s (b :: r)) := by rw [storedState_cons]

theorem ofSel_sel (id : BufId) : BufId.ofSel id.sel = id := by cases id <;> rfl

/-- The state after the BUF_SEL write of `load` (10_state.md R35). -/
def selectedState (s : State) (id : BufId) : State := { s with bufSel := id.sel, bufPtr := 0 }

theorem selectedState_selected (s : State) (id : BufId) : (selectedState s id).selected = id := ofSel_sel id

/-- The state after the BUF_LEN write of `load`: the buffer has length 0, and its bytes stay (10_state.md R36). -/
def emptiedState (s : State) (id : BufId) : State :=
  (selectedState s id).setBuf id { s.bufs.get id with len := 0 }

theorem emptiedState_selected (s : State) (id : BufId) : (emptiedState s id).selected = id := ofSel_sel id

theorem writeReg_bufSel_withHost {s : State} (hb : s.st ≠ .busy) (id : BufId) (txs : List HostTx) :
    writeReg .bufSel (id.sel.setWidth 32) (s.withHost txs) = (selectedState s id).withHost txs := by
  rw [writeReg, writeBufSel, unlessBusy_of_not_busy (s := s.withHost txs) hb, extractLsb'_setWidth_low (by decide)]
  rfl

/-- Length 0 fits every buffer. -/
theorem writeReg_bufLen_zero_withHost {s : State} (hb : s.st ≠ .busy) (id : BufId) (txs : List HostTx) :
    writeReg .bufLen 0 ((selectedState s id).withHost txs) = (emptiedState s id).withHost txs := by
  have hsel : ((selectedState s id).withHost txs).selected = id := selectedState_selected s id
  have hfits : ¬ (0 : Word).toNat > ((selectedState s id).withHost txs).selectedCap := Nat.not_lt_zero _
  rw [writeReg, writeBufLen, unlessBusy_of_not_busy (s := (selectedState s id).withHost txs) hb, if_neg hfits, hsel]
  rfl

/-- The run of `load` stores the bytes from index 0 on into the emptied buffer. -/
theorem run_hostLoad {s : State} (hb : s.st ≠ .busy) {id : BufId} {bytes : List Byte}
    (hfit : bytes.length ≤ bufCap s.cfg id) :
    Host.Core.run Sys2Proof.core (bytes.length + 2) (s.withHost (hostLoad id bytes)) =
      .next (storedState (emptiedState s id) bytes) := by
  have hroom : (emptiedState s id).bufPtr + bytes.length ≤ (emptiedState s id).selectedCap := by
    rw [State.selectedCap, emptiedState_selected]
    exact (Nat.zero_add _).trans_le hfit
  calc Host.Core.run Sys2Proof.core (bytes.length + 2) (s.withHost (hostLoad id bytes))
      = Host.Core.run Sys2Proof.core (bytes.length + 1)
          ((selectedState s id).withHost (busWrite .bufLen 0 :: hostStores bytes)) :=
        run_withHost_busWrite (by decide) (writeReg_bufSel_withHost hb id _) _
    _ = Host.Core.run Sys2Proof.core bytes.length ((emptiedState s id).withHost (hostStores bytes)) :=
        run_withHost_busWrite (by decide) (writeReg_bufLen_zero_withHost hb id _) _
    _ = .next (storedState (emptiedState s id) bytes) := run_hostStores bytes hb hroom

/-- What `load` leaves: SEL and BUF_PTR, and one buffer with the bytes stored into it from length 0 on. -/
theorem storedState_emptiedState (s : State) (id : BufId) (bytes : List Byte) :
    storedState (emptiedState s id) bytes =
      { s with
        bufSel := id.sel
        bufPtr := bytes.length
        bufs := s.bufs.set id (({ s.bufs.get id with len := 0 } : Buffer).storeFrom 0 bytes) } := by
  rw [storedState, emptiedState_selected]
  simp [emptiedState, selectedState, State.setBuf]

/-- Settles O56: the transactions of `load` are the stores of the bytes into the emptied buffer. -/
theorem loadFillsTheBuffer : Obligations.LoadFillsTheBuffer := by
  intro s id bytes hinv hb hfit
  obtain ⟨hwf, -, -⟩ := hinv.bufsOk id
  have hempty : ({ s.bufs.get id with len := 0 } : Buffer).bytes.wf = true := hwf
  refine ⟨_, (run_hostLoad hb hfit).trans (congrArg _ (storedState_emptiedState s id bytes)), rfl, ?_, fun i hi => ?_,
    fun id' hid => buffers_get_set_other _ hid _⟩
  · rw [State.bufValue, buffers_get_set_same]
    exact value_storeFrom_end bytes hempty
  · rw [State.bufByte, buffers_get_set_same, State.bufByte]
    exact read_storeFrom_past bytes hempty (by omega)

end Sys2Proof.Machine
end

section
/-!
SUPPORT. READ_BYTEFIELD and the header body over their input (40_bytefield_header.md R100 to R107): whole, cut short by
EOF, and with a bad magic or version.
-/

namespace Sys2Proof.Machine

/-- In IDLE and DONE, `exec` of a command other than CLOSE starts it (30_encoding.md R83). -/
theorem exec_of_ready {s : State} (h : Ready s) {i : Instr} (hi : i ≠ .close) :
    exec i s = .next (startCommand i s) := by
  rw [exec_eq_accept hi, acceptCommand_of_ready h]

/-- A run of one step more ends with that step. -/
theorem engineRun_succ_last (n : Nat) (s : State) : engineRun (n + 1) s = engineStep (engineRun n s) := by
  rw [engineRun_add, engineRun_succ, engineRun_zero]

/-- `pull()` that finds EOF (20_memory.md R62). -/
theorem pull_eof {s : State} (hq : s.inq = []) (he : s.inEnd = .eof) (onByte : Byte → State → State)
    (onEof : State → State) : pull s onByte onEof = onEof { s with hold := .none } := by
  have ⟨_, h, _⟩ := streamPrimitives.1 s onByte onEof
  exact h hq he

/-- `pull()` that finds EOF and raises an error then: the point and the hold of the running command are released. -/
theorem pull_eof_raise {s : State} (hb : s.st = .busy) (hq : s.inq = []) (he : s.inEnd = .eof) (k : Kont)
    (onByte : Byte → State → State) (e : Err) : pull { s with k := k } onByte (raise e) = raise e s := by
  rw [pull_eof (by exact hq) (by exact he), raise_of_busy (by exact hb), raise_of_busy hb]
  rfl

/-! ### READ_BYTEFIELD -/

/-- A data byte of READ_BYTEFIELD: pulled in one step and pushed in the next (40_bytefield_header.md R100). -/
theorem fieldByte_run {s : State} {b : Byte} {rest : List Byte} {left : Nat} (hb : s.st = .busy)
    (hk : s.k = .fieldPull (left + 1)) (hq : s.inq = b :: rest) (hroom : s.outq.length < s.cfg.outFifoDepth) :
    engineRun 2 s =
      { s with
        inq := rest, inCount := s.inCount + 1, outq := s.outq ++ [b], outCount := s.outCount + 1, hold := .none,
        k := .fieldPull left } := by
  rw [engineRun_succ, engineStep_of_busy hb, advance, hk]
  dsimp only [fieldPullStep]
  rw [pull_cons hq, engineRun_succ, engineStep_of_busy (by exact hb), advance]
  dsimp only [fieldPushStep]
  rw [push_room (by exact hroom), engineRun_zero]

/-- The data bytes of a field that are in INQ, two engine steps each; `left` more are to come. -/
theorem fieldData_run (data : List Byte) (left : Nat) (rest : List Byte) :
    ∀ s : State, s.st = .busy → s.hold = .none → s.k = .fieldPull (data.length + left) → s.inq = data ++ rest →
      s.outq.length + data.length ≤ s.cfg.outFifoDepth →
      engineRun (2 * data.length) s =
        { s with
          inq := rest, inCount := s.inCount + BitVec.ofNat 32 data.length, outq := s.outq ++ data,
          outCount := s.outCount + BitVec.ofNat 32 data.length, k := .fieldPull left } := by
  induction data with
  | nil =>
    intro s hb hh hk hq hroom
    cases s
    simp_all
  | cons b data ih =>
    intro s hb hh hk hq hroom
    rw [List.length_cons] at hroom
    have hk' : s.k = .fieldPull (data.length + left + 1) := by rw [hk, List.length_cons, Nat.add_right_comm]
    rw [List.length_cons, show 2 * (data.length + 1) = 2 + 2 * data.length by omega, engineRun_add,
      fieldByte_run hb hk' hq (by omega), ih _ (by exact hb) rfl rfl rfl (by simp; omega)]
    simp [hh, BitVec.ofNat_add, add_assoc, add_comm (1#32)]

/-- READ_BYTEFIELD from its start over the length byte and the data bytes in INQ; `left` more are to come
(40_bytefield_header.md R101). -/
theorem readField_run {s : State} {n : Byte} {data rest : List Byte} {left : Nat} (hn : n.toNat = data.length + left)
    (hq : s.inq = n :: (data ++ rest)) (hroom : s.outq.length + data.length ≤ s.cfg.outFifoDepth) :
    engineRun (2 * data.length + 1) (startCommand .readBytefield s) =
      { startCommand .readBytefield s with
        inq := rest, inCount := s.inCount + BitVec.ofNat 32 (data.length + 1), fieldLen := n, outq := s.outq ++ data,
        outCount := s.outCount + BitVec.ofNat 32 data.length, k := .fieldPull left } := by
  rw [engineRun_succ, engineStep_of_busy rfl, advance]
  dsimp only [startCommand_k, firstStep, readFieldStart]
  rw [pull_cons (by exact hq), fieldData_run data left rest _ rfl rfl (by rw [hn]) rfl (by exact hroom)]
  simp [startCommand, BitVec.ofNat_add, add_assoc, add_comm (1#32)]

/-- Settles O20: the run over the whole field leaves no byte to come, and the last step is `finish()`. -/
theorem readBytefieldCompletes : Obligations.ReadBytefieldCompletes := by
  intro s data rest hready hlen hq hroom
  have hn : (BitVec.ofNat 8 data.length).toNat = data.length + 0 := by simp; omega
  refine ⟨_, exec_of_ready hready (by decide), ?_⟩
  rw [engineRun_succ_last, readField_run hn hq hroom]
  rfl

/-- Settles O21: with bytes still to come, EOF at the loop head raises the error; so does EOF at the length byte. -/
theorem readBytefieldTruncated : Obligations.ReadBytefieldTruncated := by
  intro s n data hready hlen hq hend hroom
  refine ⟨⟨_, exec_of_ready hready (by decide), ?_⟩, ⟨_, exec_of_ready (by exact hready) (by decide), ?_⟩⟩
  · have hn : n.toNat = data.length + (n.toNat - data.length - 1 + 1) := by omega
    rw [engineRun_succ_last, readField_run (rest := []) hn (by simpa using hq) hroom, engineStep_of_busy rfl, advance]
    dsimp only [fieldPullStep]
    rw [pull_eof (by rfl) (by exact hend), raise_of_busy (by rfl)]
    rfl
  · rw [engineStep_of_busy rfl, advance]
    dsimp only [startCommand_k, firstStep, readFieldStart]
    rw [pull_eof (by rfl) (by exact hend), raise_of_busy (by rfl)]
    rfl

/-! ### The header body, whole or rejected -/

/-- PARSE_HEADER and DECRYPT begin with the header body (40_bytefield_header.md R103, 44_payload_stream.md R210). -/
theorem advance_startCommand_header {i : Instr} (hi : i = .parseHeader ∨ i = .decrypt) (s : State) :
    ∃ d, advance (startCommand i s) = headerStart d (afterHeader d) (startCommand i s) := by
  rcases hi with rfl | rfl
  · exact ⟨false, rfl⟩
  · exact ⟨true, rfl⟩

/-- The first magic byte, consumed in the step that clears what the header body fills (40_bytefield_header.md R103). -/
theorem engineStep_headerStart {d : Bool} {onDone : State → State} {s : State} {b0 : Byte} {rest : List Byte}
    (hb : s.st = .busy) (hadv : advance s = headerStart d onDone s) (hq : s.inq = b0 :: rest) :
    engineStep s =
      { clearHeader s with
        inq := rest, inCount := s.inCount + 1, hold := .none, hdrMagic := 0#8 ++ b0, k := .header d (.magic1 b0) } := by
  rw [engineStep_of_busy hb, hadv, headerStart, headerStep, pull_cons (by exact hq)]
  simp [clearHeader]

/-- Both magic bytes, consumed from a command's first line: they are in HDR_MAGIC, the second byte high
(40_bytefield_header.md R103, R104). -/
theorem magic_run {d : Bool} {onDone : State → State} {s : State} {b0 b1 : Byte} {rest : List Byte}
    (hb : s.st = .busy) (hadv : advance s = headerStart d onDone s) (hq : s.inq = b0 :: b1 :: rest) :
    engineRun 2 s =
      { clearHeader s with
        inq := rest, inCount := s.inCount + 2, hold := .none, hdrMagic := b1 ++ b0,
        k := .header d (.version b0 b1) } := by
  have hlow : (0#8 ++ b0).extractLsb' 0 8 = b0 := BitVec.extractLsb'_append_eq_right
  rw [engineRun_succ_last, engineRun_succ, engineRun_zero, engineStep_headerStart hb hadv hq,
    engineStep_of_busy (by exact hb)]
  dsimp only [advance, headerStep]
  rw [pull_cons (by rfl)]
  simp [add_assoc, hlow]

/-- The good magic and a version byte, whatever the version is (40_bytefield_header.md R104, R105). -/
theorem version_run {d : Bool} {onDone : State → State} {s : State} {v : Byte} {rest : List Byte} (hb : s.st = .busy)
    (hadv : advance s = headerStart d onDone s) (hq : s.inq = 0x05 :: 0x05 :: v :: rest) :
    engineRun 3 s =
      { clearHeader s with
        inq := rest, inCount := s.inCount + 3, hold := .none, hdrMagic := 0x0505, hdrVersion := v,
        k := .header d (.fields v) } := by
  rw [engineRun_succ_last, magic_run hb hadv hq, engineStep_of_busy (by exact hb)]
  dsimp only [advance, headerStep, headerVersion]
  rw [if_pos (by decide), pull_cons (by rfl)]
  simp [add_assoc]

/-- Settles O22: after `header_run` no field follows, and the last step is `finish()`. -/
theorem parseHeaderCompletes : Obligations.ParseHeaderCompletes := by
  intro s h rest hready hfits hq
  refine ⟨_, exec_of_ready hready (by decide), ?_⟩
  rw [engineRun_succ_last, header_run (d := false) (onDone := finish) rfl rfl hfits (by exact hq),
    engineStep_of_busy (by rfl)]
  dsimp only [advance, headerStep, headerFieldData]
  rw [if_neg (Nat.lt_irrefl _)]
  rfl

/-- Settles O23: each check is the first thing the step after its byte does. -/
theorem badMagicOrVersionIsMalformedFile : Obligations.BadMagicOrVersionIsMalformedFile := by
  intro s i rest hready hi
  obtain ⟨d, hadv⟩ := advance_startCommand_header hi s
  have hne : i ≠ .close := by rcases hi with rfl | rfl <;> decide
  refine ⟨fun b0 b1 hq hbad => ⟨_, exec_of_ready hready hne, ?_⟩, fun v hq hbad => ⟨_, exec_of_ready hready hne, ?_⟩⟩
  · rw [engineRun_succ_last, magic_run rfl hadv (by exact hq), engineStep_of_busy (by rfl)]
    dsimp only [advance, headerStep, headerVersion]
    rw [if_neg hbad, raise_of_busy (by rfl)]
    rfl
  · rw [engineRun_succ_last, version_run rfl hadv (by exact hq), engineStep_of_busy (by rfl)]
    dsimp only [advance, headerStep, headerFields]
    rw [if_neg (by exact hbad), raise_of_busy (by rfl)]
    rfl

/-! ### A header cut short -/

/-- The points of the header body whose next line is a `pull()`: the checks before it pass, and a field has data bytes
to come. -/
def AwaitsByte : HdrPoint → Prop
  | .magic0 => True
  | .magic1 _ => True
  | .version b0 b1 => b0 = 0x05 ∧ b1 = 0x05
  | .fields v => v = Config.formatVersion
  | .fieldLen _ => True
  | .fieldData _ i n => i < n

/-- EOF where the header body waits for a byte (40_bytefield_header.md R102, R107). -/
theorem headerStep_of_eof {p : HdrPoint} (hp : AwaitsByte p) {s : State} (hb : s.st = .busy) (hq : s.inq = [])
    (he : s.inEnd = .eof) (d : Bool) (onDone : State → State) :
    headerStep d onDone p s = raise .truncatedHeader s := by
  cases p with
  | magic0 =>
    unfold headerStep
    exact pull_eof_raise hb hq he _ _ _
  | magic1 b0 =>
    unfold headerStep
    exact pull_eof_raise hb hq he _ _ _
  | version b0 b1 => exact (if_pos hp).trans (pull_eof_raise hb hq he _ _ _)
  | fields v => exact (if_pos hp).trans (pull_eof_raise hb hq he _ _ _)
  | fieldLen f =>
    dsimp only [headerStep, headerFieldLen]
    exact pull_eof_raise hb hq he _ _ _
  | fieldData f i n => exact (if_pos hp).trans (pull_eof_raise hb hq he _ _ _)

/-- A run that leaves the header body waiting at EOF raises the error in its next step. -/
theorem headerRun_eof {n : Nat} {s t : State} {d : Bool} {p : HdrPoint} (hrun : engineRun n s = t)
    (hb : t.st = .busy) (hk : t.k = .header d p) (hp : AwaitsByte p) (hq : t.inq = []) (he : t.inEnd = .eof) :
    engineRun (n + 1) s = { releaseContexts t with st := .error, err := some .truncatedHeader } := by
  rw [engineRun_succ_last, hrun, engineStep_of_busy hb, advance, hk]
  exact (headerStep_of_eof hp hb hq he d _).trans (raise_of_busy hb _)

/-- The encoding of fields, each with the buffer it goes to (30_encoding.md R87, R88). -/
def fieldsBytes (fields : List (BufId × List Byte)) : List Byte := fields.flatMap fun p => byteField p.2

/-- The four fields of a header in file order, each with its buffer (40_bytefield_header.md R106). -/
def FileHeader.fields (h : FileHeader) : List (BufId × List Byte) :=
  [(.hSalt, h.salt), (.hIv, h.iv), (.hSsalt, h.secretSalt), (.hSecrets, h.secrets)]

theorem fileHeader_bytes_eq (h : FileHeader) : h.bytes = 0x05 :: 0x05 :: 0x01 :: fieldsBytes h.fields := by
  simp [FileHeader.bytes, FileHeader.fields, fieldsBytes]

/-- The buffers after the first `m` bytes of the encoding of fields: each field's buffer holds the data bytes received
(92_eei_decisions.md D46). -/
def storeReceived : List (BufId × List Byte) → Nat → Buffers → Buffers
  | [], _, bs => bs
  | (f, data) :: rest, m, bs =>
    storeReceived rest (m - (data.length + 1)) (bs.set f (Buffer.ofBytes (data.take (m - 1))))

/-- Storing no byte into an empty buffer changes nothing. -/
theorem buffers_set_no_bytes {bs : Buffers} {f : BufId} (hf : bs.get f = .zero) :
    bs.set f (Buffer.ofBytes []) = bs := by
  rw [← buffer_zero_eq, ← hf, buffers_set_get]

/-- Before the first byte nothing is stored. -/
theorem storeReceived_zero {fields : List (BufId × List Byte)} {bs : Buffers}
    (hz : ∀ p ∈ fields, bs.get p.1 = .zero) : storeReceived fields 0 bs = bs := by
  induction fields with
  | nil => rfl
  | cons p rest ih =>
    rw [storeReceived, Nat.zero_sub, List.take_zero, buffers_set_no_bytes (hz p List.mem_cons_self),
      ih fun q hq => hz q (List.mem_cons_of_mem _ hq)]

/-- Fields that the header body reads one after the other, each of which fits a Byte-Field and goes to a buffer of its
own that is still empty. -/
structure FieldsAhead (fields : List (BufId × List Byte)) (bs : Buffers) : Prop where
  linked : fields.IsChain fun p q => nextField p.1 = some q.1
  distinct : (fields.map Prod.fst).Nodup
  fit : ∀ p ∈ fields, p.2.length ≤ 255
  empty : ∀ p ∈ fields, bs.get p.1 = .zero

/-- The fields behind the first one, once that is stored. -/
theorem fieldsAhead_rest {p : BufId × List Byte} {rest : List (BufId × List Byte)} {bs : Buffers}
    (h : FieldsAhead (p :: rest) bs) (x : Buffer) : FieldsAhead rest (bs.set p.1 x) where
  linked := h.linked.tail
  distinct := (List.nodup_cons.mp h.distinct).2
  fit := (List.forall_mem_cons.mp h.fit).2
  empty := fun q hq => by
    have hne : q.1 ≠ p.1 := fun he => (List.nodup_cons.mp h.distinct).1 (he ▸ List.mem_map_of_mem hq)
    rw [buffers_get_set_other _ hne, h.empty q (List.mem_cons_of_mem _ hq)]

/-- All four fields are ahead once the header buffers are zeroized (40_bytefield_header.md R103). -/
theorem fieldsAhead_clearHeader {h : FileHeader} (hfits : h.Fits) (s : State) :
    FieldsAhead h.fields (clearHeader s).bufs where
  linked := by simp [FileHeader.fields, nextField]
  distinct := by simp [FileHeader.fields]
  fit := by simpa [FileHeader.fields] using hfits
  empty := by simp [FileHeader.fields, Buffers.get]

/-- The length byte of a field and some of its data bytes (40_bytefield_header.md R100, R103). -/
theorem fieldPart_run {d : Bool} {f : BufId} {s : State} {n : Byte} {part rest : List Byte} (hb : s.st = .busy)
    (hadv : advance s = headerFieldLen d f s) (hn : part.length ≤ n.toNat) (hq : s.inq = n :: (part ++ rest))
    (hf : s.bufs.get f = .zero) :
    engineRun (part.length + 1) s =
      { s with
        inq := rest, inCount := s.inCount + BitVec.ofNat 32 (part.length + 1), hold := .none,
        bufs := s.bufs.set f (Buffer.ofBytes part), k := .header d (.fieldData f part.length n.toNat) } := by
  rw [engineRun_succ, engineStep_of_busy hb, hadv, headerFieldLen, pull_cons (by exact hq),
    headerFieldData_run d f n.toNat part _ [] rest (by exact hb) (by rfl) (by rfl) (by simpa using hn) (by exact hf)
      (by rfl)]
  simp [BitVec.ofNat_add, add_comm, add_left_comm]

/-- The error state of a header cut short after `m` more bytes, which leave the buffers `bs`. -/
def truncatedAfter (m : Nat) (bs : Buffers) (s : State) : State :=
  { releaseContexts s with
    st := .error, err := some .truncatedHeader, inq := [], inCount := s.inCount + BitVec.ofNat 32 m, bufs := bs }

/-- EOF inside a field, after `m` bytes of its encoding (40_bytefield_header.md R102, 92_eei_decisions.md D46). -/
theorem field_truncated {d : Bool} {f : BufId} {s : State} {data : List Byte} {m : Nat} (hb : s.st = .busy)
    (he : s.inEnd = .eof) (hadv : advance s = headerFieldLen d f s) (hl : data.length ≤ 255) (hm : m ≤ data.length)
    (hq : s.inq = (byteField data).take m) (hf : s.bufs.get f = .zero) :
    engineRun (m + 1) s = truncatedAfter m (s.bufs.set f (Buffer.ofBytes (data.take (m - 1)))) s := by
  cases m with
  | zero =>
    have hstep : headerFieldLen d f s = raise .truncatedHeader s :=
      headerStep_of_eof (p := .fieldLen f) trivial hb hq he d id
    rw [engineRun_succ_last, engineRun_zero, engineStep_of_busy hb, hadv, hstep, raise_of_busy hb, Nat.zero_sub,
      List.take_zero, buffers_set_no_bytes hf]
    simp [truncatedAfter, hq]
  | succ m =>
    have hlen : (data.take m).length = m := by simp; omega
    have hn : (BitVec.ofNat 8 data.length).toNat = data.length := by simp; omega
    have hrun := fieldPart_run (n := BitVec.ofNat 8 data.length) (part := data.take m) (rest := []) hb hadv (by omega)
      (by simpa [byteField] using hq) hf
    rw [hlen, hn] at hrun
    exact headerRun_eof hrun hb rfl (Nat.lt_of_succ_le hm) rfl he

/-- EOF inside consecutive fields of a header, after `m` bytes of their encoding: by induction on the fields, of which
`headerField_run` passes the whole ones. -/
theorem fields_truncated {d : Bool} (fields : List (BufId × List Byte)) :
    ∀ (m : Nat) (s : State), s.st = .busy → s.inEnd = .eof →
      (∀ p ∈ fields.head?, advance s = headerFieldLen d p.1 s) → FieldsAhead fields s.bufs →
      m < (fieldsBytes fields).length → s.inq = (fieldsBytes fields).take m →
      engineRun (m + 1) s = truncatedAfter m (storeReceived fields m s.bufs) s := by
  induction fields with
  | nil =>
    intro m s _ _ _ _ hm
    exact absurd hm (Nat.not_lt_zero m)
  | cons p rest ih =>
    obtain ⟨f, data⟩ := p
    intro m s hb he hadv hahead hm hq
    have hadv : advance s = headerFieldLen d f s := hadv _ rfl
    have hdata : data.length ≤ 255 := hahead.fit _ List.mem_cons_self
    have hf : s.bufs.get f = .zero := hahead.empty _ List.mem_cons_self
    have hrest := fieldsAhead_rest hahead
    have hbytes : fieldsBytes ((f, data) :: rest) = byteField data ++ fieldsBytes rest := rfl
    have hlen : (byteField data).length = data.length + 1 := rfl
    rw [hbytes, List.length_append, hlen] at hm
    rw [hbytes, List.take_append, hlen] at hq
    rw [storeReceived]
    by_cases hcut : m ≤ data.length
    · have hnone : m - (data.length + 1) = 0 := by omega
      rw [hnone, List.take_zero, List.append_nil] at hq
      rw [hnone, storeReceived_zero (hrest _).empty]
      exact field_truncated hb he hadv hdata hcut hq hf
    · obtain ⟨j, rfl⟩ : ∃ j, m = data.length + 1 + j := ⟨m - (data.length + 1), by omega⟩
      have hwhole : data.take (data.length + 1 + j - 1) = data := List.take_of_length_le (by omega)
      rw [List.take_of_length_le (by omega), Nat.add_sub_cancel_left] at hq
      rw [Nat.add_sub_cancel_left, hwhole, add_assoc _ j 1, engineRun_add, headerField_run hb hadv hdata hq hf,
        ih j _ (by exact hb) (by exact he) ?_ (hrest _) (by omega) rfl]
      · simp [truncatedAfter, BitVec.ofNat_add, add_assoc, releaseContexts]
      · intro q hq
        have hnext : nextField f = some q.1 := (List.isChain_cons.mp hahead.linked).1 q hq
        simp [advance, headerStep, headerFieldData, hnext]

/-- EOF inside the header, after its first `m` bytes, from a command whose first line is the header body: within the
magic and the version, or within the fields. -/
theorem header_truncated {d : Bool} {onDone : State → State} {s : State} {h : FileHeader} {m : Nat} (hb : s.st = .busy)
    (he : s.inEnd = .eof) (hadv : advance s = headerStart d onDone s) (hfits : h.Fits) (hm : m < h.bytes.length)
    (hq : s.inq = h.bytes.take m) :
    engineRun (m + 1) s =
      { truncatedAfter m (storeReceived h.fields (m - 3) (clearHeader s).bufs) s with
        hdrMagic := (h.bytes.take m).getD 1 0 ++ (h.bytes.take m).getD 0 0
        hdrVersion := (h.bytes.take m).getD 2 0 } := by
  have hahead := fieldsAhead_clearHeader hfits s
  rw [fileHeader_bytes_eq] at hm hq ⊢
  match m with
  | 0 =>
    rw [engineRun_succ_last, engineRun_zero, engineStep_of_busy hb, hadv, headerStart,
      headerStep_of_eof (p := .magic0) trivial (by exact hb) (by exact hq) (by exact he), raise_of_busy (by exact hb),
      storeReceived_zero hahead.empty]
    simp [truncatedAfter, releaseContexts, clearHeader, hq]
  | 1 =>
    rw [headerRun_eof (n := 1) (engineStep_headerStart hb hadv hq) hb rfl trivial rfl he,
      storeReceived_zero hahead.empty]
    simp [truncatedAfter, releaseContexts, clearHeader]
  | 2 =>
    rw [headerRun_eof (magic_run hb hadv hq) hb rfl ⟨rfl, rfl⟩ rfl he, storeReceived_zero hahead.empty]
    simp [truncatedAfter, releaseContexts, clearHeader]
  | m + 3 =>
    rw [show m + 3 + 1 = 3 + (m + 1) by omega, engineRun_add, version_run hb hadv hq,
      fields_truncated (d := d) h.fields m _ (by exact hb) (by exact he) ?_ (by exact hahead)
        (by simpa using hm) rfl]
    · simp [truncatedAfter, releaseContexts, clearHeader, BitVec.ofNat_add, add_assoc, add_comm (3#32)]
    · intro p hp
      obtain rfl : (BufId.hSalt, h.salt) = p := Option.some.inj hp
      rfl

/-- The four header buffers after the first `m` bytes of a header: the data of the fields begin at offsets 4, 5 + n1,
6 + n1 + n2 and 7 + n1 + n2 + n3 (30_encoding.md R87). -/
theorem storeReceived_fields (h : FileHeader) (m : Nat) (bs : Buffers) :
    storeReceived h.fields (m - 3) bs =
      { bs with
        hSalt := Buffer.ofBytes (h.salt.take (m - 4))
        hIv := Buffer.ofBytes (h.iv.take (m - (5 + h.salt.length)))
        hSsalt := Buffer.ofBytes (h.secretSalt.take (m - (6 + h.salt.length + h.iv.length)))
        hSecrets :=
          Buffer.ofBytes (h.secrets.take (m - (7 + h.salt.length + h.iv.length + h.secretSalt.length))) } := by
  have h1 : m - 3 - 1 = m - 4 := by omega
  have h2 : m - 3 - (h.salt.length + 1) - 1 = m - (5 + h.salt.length) := by omega
  have h3 : m - 3 - (h.salt.length + 1) - (h.iv.length + 1) - 1 = m - (6 + h.salt.length + h.iv.length) := by omega
  have h4 : m - 3 - (h.salt.length + 1) - (h.iv.length + 1) - (h.secretSalt.length + 1) - 1 =
      m - (7 + h.salt.length + h.iv.length + h.secretSalt.length) := by omega
  simp only [FileHeader.fields, storeReceived, Buffers.set, h1, h2, h3, h4]

/-- Settles O24: the bytes are the header's first ones, fewer than all, so `header_truncated` applies. -/
theorem truncatedHeaderIsMalformedFile : Obligations.TruncatedHeaderIsMalformedFile := by
  intro s i h bytes hready hi hfits hpre hne hq hend
  obtain ⟨d, hadv⟩ := advance_startCommand_header hi s
  have hclose : i ≠ .close := by rcases hi with rfl | rfl <;> decide
  have htake : h.bytes.take bytes.length = bytes := (List.prefix_iff_eq_take.mp hpre).symm
  have hlt : bytes.length < h.bytes.length :=
    lt_of_le_of_ne hpre.length_le fun heq => hne (hpre.eq_of_length heq)
  refine ⟨_, exec_of_ready hready hclose, ?_⟩
  rw [header_truncated rfl (by exact hend) hadv hfits hlt (by rw [htake]; exact hq), htake, storeReceived_fields]
  rfl

end Sys2Proof.Machine
end

section
/-!
SUPPORT. PBKDF2's outputs as prefixes of one another (41_kdf.md R127), and SHA-1's padding (R121).
-/

namespace Sys2Proof.Machine

/-! ### Derivations -/

/-- The blocks of a derivation of `n` bytes hold at least `n` bytes. -/
theorem le_pbkdf2Count (n : Nat) : n ≤ 20 * pbkdf2Count n := by
  simp only [pbkdf2Count, Config.hlen]
  omega

theorem pbkdf2Count_mono {a b : Nat} (h : a ≤ b) : pbkdf2Count a ≤ pbkdf2Count b :=
  Nat.div_le_div_right (Nat.add_le_add_right h _)

/-- More blocks than `a` bytes need do not change the first `a` bytes (41_kdf.md R127). -/
theorem take_flatMap_block {a l : Nat} (h : pbkdf2Count a ≤ l) (p salt : List Byte) (c : Nat) :
    ((List.range l).flatMap fun i => pbkdf2Block p salt c (i + 1)).take a = deriveKey p salt c a := by
  obtain ⟨more, rfl⟩ := Nat.exists_eq_add_of_le h
  rw [List.range_add, List.flatMap_append,
    List.take_append_of_le_length (by rw [flatMap_block_length]; exact le_pbkdf2Count a)]
  rfl

/-- Settles O26: both derivations are taken from the same blocks. -/
theorem derivationsArePrefixes : Obligations.DerivationsArePrefixes := by
  intro p salt c a b hab
  rw [deriveKey, pbkdf2, List.take_take, Nat.min_eq_left hab, take_flatMap_block (pbkdf2Count_mono hab)]

/-! ### Padding -/

/-- The number of a byte sequence, the first byte most significant, appended to the number `n`. -/
def bigEndian (n : Nat) (bytes : List Byte) : Nat := bytes.foldl (fun n b => n * 256 + b.toNat) n

theorem bigEndian_append (n : Nat) (x y : List Byte) : bigEndian n (x ++ y) = bigEndian (bigEndian n x) y :=
  List.foldl_append

theorem bigEndian_be32 (n : Nat) (x : Word) : bigEndian n (be32 x) = n * 2 ^ 32 + x.toNat := by
  have hx := x.isLt
  simp only [bigEndian, be32, List.foldl_cons, List.foldl_nil, BitVec.extractLsb'_toNat, Nat.shiftRight_eq_div_pow]
  omega

/-- `BE64` encodes every number below 2^64 (41_kdf.md R121). -/
theorem bigEndian_be64 {x : Nat} (h : x < 2 ^ 64) : bigEndian 0 (be64 x) = x := by
  rw [be64, bigEndian_append, bigEndian_be32, bigEndian_be32, BitVec.toNat_ofNat, BitVec.toNat_ofNat]
  omega

/-- The padding's zero bytes end 8 bytes before the end of a block. -/
theorem sha1ZeroBytes_fills (m : Nat) : (m + 1 + sha1ZeroBytes m) % 64 = 56 := by
  unfold sha1ZeroBytes
  omega

/-- No smaller number of zero bytes does. -/
theorem sha1ZeroBytes_least {m j : Nat} (h : j < sha1ZeroBytes m) : (m + 1 + j) % 64 ≠ 56 := by
  unfold sha1ZeroBytes at h
  omega

theorem sha1Pad_length (m : List Byte) : (sha1Pad m).length = m.length + 1 + sha1ZeroBytes m.length + 8 := by
  simp only [sha1Pad, List.length_append, List.length_singleton, List.length_replicate, be64_length]

/-- Settles O27: `k` is `sha1ZeroBytes`, and the last 8 bytes are `BE64` of the bit length. -/
theorem sha1PaddingFillsBlocks : Obligations.Sha1PaddingFillsBlocks := by
  intro m hm
  refine ⟨sha1ZeroBytes m.length, sha1ZeroBytes_fills _, fun _ => sha1ZeroBytes_least,
    ⟨be64 (8 * m.length), rfl, be64_length _, bigEndian_be64 (by omega)⟩, ?_⟩
  have hfills := sha1ZeroBytes_fills m.length
  rw [sha1Pad_length]
  omega

end Sys2Proof.Machine
end

section
/-!
SUPPORT. The runs of DERIVE_KEY, and the parameter checks that end a command in its first engine step (41_kdf.md R130,
42_aes_cbc.md R163, R165, 44_payload_stream.md R200).
-/

namespace Sys2Proof.Machine

/-! ### DERIVE_KEY -/

/-- The push loop of DERIVE_KEY with room for every byte, one engine step each, and then `finish()` (41_kdf.md R130). -/
theorem keyPush_run (bytes : List Byte) :
    ∀ s : State, s.st = .busy → s.k = .keyPush bytes → s.outq.length + bytes.length ≤ s.cfg.outFifoDepth →
      engineRun (bytes.length + 1) s =
        { releaseContexts s with
          st := .done, outq := s.outq ++ bytes, outCount := s.outCount + BitVec.ofNat 32 bytes.length } := by
  induction bytes with
  | nil =>
    intro s hb hk _
    rw [engineRun_succ, engineStep_of_busy hb, advance, hk]
    simp [keyPushStep, finish, releaseContexts]
  | cons b bytes ih =>
    intro s hb hk hroom
    rw [List.length_cons] at hroom
    rw [engineRun_succ, engineStep_of_busy hb, advance, hk]
    dsimp only [keyPushStep]
    have hfree : s.outq.length < s.cfg.outFifoDepth := by omega
    rw [push_room (by exact hfree), List.length_cons, ih _ (by exact hb) rfl (by simp; omega)]
    simp [releaseContexts, BitVec.ofNat_add, add_assoc, add_comm (1#32)]

/-- With legal parameters, DERIVE_KEY from its first line is its push loop over all the derived bytes (41_kdf.md R130). -/
theorem deriveKeyStart_of_legal {s : State} (hi : s.kdfIter ≠ 0) (hl : s.kdfLen ≠ 0) :
    deriveKeyStart s =
      keyPushStep (deriveKey (s.bufValue .secret) (s.bufValue .salt) s.kdfIter.toNat s.kdfLen.toNat) s := by
  have hi' : s.kdfIter.toNat ≠ 0 := fun h => hi (BitVec.eq_of_toNat_eq h)
  have hl' : s.kdfLen.toNat ≠ 0 := fun h => hl (BitVec.eq_of_toNat_eq h)
  exact if_neg (not_or.mpr ⟨hi', hl'⟩)

/-- An iteration count or an output length of 0 is rejected (41_kdf.md R130). -/
theorem deriveKeyStart_of_illegal {s : State} (h : s.kdfIter = 0 ∨ s.kdfLen = 0) :
    deriveKeyStart s = raise .badKdfParams s :=
  if_pos (h.imp (fun hi => congrArg BitVec.toNat hi) fun hl => congrArg BitVec.toNat hl)

/-- The push loop does not read K, so its first step is the same from the start of the command. -/
theorem keyPushStep_withK (bytes : List Byte) (s : State) :
    keyPushStep bytes { s with k := .keyPush bytes } = keyPushStep bytes s := by
  cases bytes <;> rfl

/-- Settles O25: the run is the one of the push loop over the derived bytes. -/
theorem deriveKeyCompletes : Obligations.DeriveKeyCompletes := by
  intro s hready hi hl hroom
  refine ⟨_, exec_of_ready hready (by decide), ?_⟩
  generalize hkey : deriveKey (s.bufValue .secret) (s.bufValue .salt) s.kdfIter.toNat s.kdfLen.toNat = key
  have hlen : key.length = s.kdfLen.toNat := by rw [← hkey, deriveKey_length]
  have hfirst : engineStep (startCommand .deriveKey s) =
      engineStep { startCommand .deriveKey s with k := .keyPush key } := by
    have hstart := deriveKeyStart_of_legal (s := startCommand .deriveKey s) hi hl
    exact (hstart.trans (congrArg (keyPushStep · _) hkey)).trans (keyPushStep_withK key _).symm
  rw [engineRun_succ, hfirst, ← engineRun_succ, ← hlen, keyPush_run key _ rfl rfl (by rw [hlen]; exact hroom)]
  rfl

/-! ### The parameter checks -/

theorem bufValue_length (s : State) (id : BufId) : (s.bufValue id).length = s.bufLen id := buffer_value_length _

theorem loadKeyIv_badKeyLen {s : State} (hk : s.bufLen .key ∉ Config.aesKeyLens) :
    loadKeyIv s = .error .badKeyLen :=
  if_pos (by rwa [bufValue_length])

theorem loadKeyIv_badIvLen {s : State} (hk : s.bufLen .key ∈ Config.aesKeyLens) (hiv : s.bufLen .iv ≠ Config.blockBytes) :
    loadKeyIv s = .error .badIvLen := by
  rw [loadKeyIv, loadCipher, if_neg (not_not.mpr (by rwa [bufValue_length])), if_pos (by rwa [bufValue_length])]

/-- The parameter checks of AES_CBC_DECRYPT and OPEN_PLAINTEXT are those of `loadCipher` (42_aes_cbc.md R165,
44_payload_stream.md R200). -/
theorem firstStep_of_loadKeyIv_error {i : Instr} (hi : i = .aesCbcDecrypt ∨ i = .openPlaintext) {s : State} {e : Err}
    (h : loadKeyIv s = .error e) : firstStep i s = raise e s := by
  rcases hi with rfl | rfl
  · exact (cbcStart_eq s).trans (by rw [h]; rfl)
  · exact (openBody_eq s).trans (by rw [h]; rfl)

/-- An error in the first engine step of a command: nothing but STATE, OP, ERROR and the contexts has changed. -/
theorem engineStep_startCommand_raise {i : Instr} {s : State} {e : Err}
    (h : firstStep i (startCommand i s) = raise e (startCommand i s)) :
    engineStep (startCommand i s) = { releaseContexts s with st := .error, err := some e, op := opcodeOf i } := by
  rw [engineStep_of_busy rfl, advance]
  exact h.trans (raise_of_busy rfl e)

/-- Settles O31: each check fails before anything is pulled or pushed, and the first step is the raise. -/
theorem parameterChecksComeFirst : Obligations.ParameterChecksComeFirst := by
  intro s hready
  refine ⟨fun h => ⟨_, exec_of_ready hready (by decide), ?_⟩, fun i hi => ?_⟩
  · exact engineStep_startCommand_raise (deriveKeyStart_of_illegal h)
  have hclose : i ≠ .close := by rcases hi with rfl | rfl <;> decide
  refine ⟨fun hk => ⟨_, exec_of_ready hready hclose, ?_⟩, fun hk hiv => ⟨_, exec_of_ready hready hclose, ?_⟩⟩
  · exact engineStep_startCommand_raise (firstStep_of_loadKeyIv_error hi (loadKeyIv_badKeyLen hk))
  · exact engineStep_startCommand_raise (firstStep_of_loadKeyIv_error hi (loadKeyIv_badIvLen hk hiv))

end Sys2Proof.Machine
end

section
/-!
SUPPORT. The spec's vectors (95_test_vectors.md).
-/

namespace Sys2Proof.Machine

/-- What a vector of 45_inflate.md R260 gives, after `n` engine steps of INFLATE from reset over an ended input: the bytes
pushed, the error, IN_COUNT, and STATE. -/
def inflateAnswer (n : Nat) (input : List Byte) : List Byte × Option Err × Word × EngState :=
  let t := engineRun n (startCommand .inflate { State.reset with inq := input, inEnd := .eof })
  (t.outq, t.err, t.inCount, t.st)

/-- One evaluation of the run gives all that an INFLATE vector says. -/
theorem inflates_of_answer {input output : List Byte} {e : Option Err} {count : Word}
    (h : inflateAnswer (input.length + output.length + 1) input =
      (output, e, count, if e = none then .done else .error)) :
    ∃ t : State, exec .inflate { State.reset with inq := input, inEnd := .eof } = .next t ∧
      (engineRun (input.length + output.length + 1) t).outq = output ∧
      (engineRun (input.length + output.length + 1) t).err = e ∧
      (engineRun (input.length + output.length + 1) t).inCount = count ∧
      (engineRun (input.length + output.length + 1) t).st = if e = none then .done else .error := by
  simp only [inflateAnswer, Prod.mk.injEq] at h
  exact ⟨_, exec_of_ready (.inl rfl) (by decide), h⟩

/-- Settles O28: each vector is a closed fact of the model, which the kernel evaluates by itself; a decompression is
evaluated once for everything it says. -/
theorem knownAnswers : Obligations.KnownAnswers := by
  refine ⟨?sha1Abc, ?sha1Empty, ?hmac1, ?hmac2, ?hmac3, ?kdf1, ?kdf2, ?kdf6, ?kdf11, ?aes128, ?aes192, ?aes256, ?inf1,
    ?inf4, ?inf6, ?inf7, ?inf9, ?inf19, ?inf20, ?inf21, ?inf22⟩
  case sha1Abc | sha1Empty => decide +kernel
  case hmac1 | hmac2 | hmac3 => decide +kernel
  case kdf1 | kdf2 | kdf6 | kdf11 => decide +kernel
  case aes128 | aes192 | aes256 => decide +kernel
  all_goals exact inflates_of_answer (by decide +kernel)

end Sys2Proof.Machine
end

section
/-!
SUPPORT. The S-box from the field inverse (42_aes_cbc.md R152), the key schedule word by word (R153), and CBC block by
block (R161).
-/

namespace Sys2Proof.Machine

/-! ### The S-box (42_aes_cbc.md R152) -/

/-- The affine map of R152, which takes the field inverse of a byte to its S-box value. -/
def sboxAffine (b : Byte) : Byte :=
  b ^^^ b.rotateLeft 1 ^^^ b.rotateLeft 2 ^^^ b.rotateLeft 3 ^^^ b.rotateLeft 4 ^^^ 0x63

/-- The inverse of `sboxAffine`. -/
def sboxUnaffine (c : Byte) : Byte := c.rotateLeft 1 ^^^ c.rotateLeft 3 ^^^ c.rotateLeft 6 ^^^ 0x05

theorem sboxAffine_sboxUnaffine : ∀ c : Byte, sboxAffine (sboxUnaffine c) = c := by decide +kernel

/-- The field inverse of a byte other than 0, and 0 for 0: what the affine map takes to `S[a]`. -/
def fieldInverse (a : Byte) : Byte := sboxUnaffine (sbox a)

theorem sbox_eq_affine (a : Byte) : sbox a = sboxAffine (fieldInverse a) := (sboxAffine_sboxUnaffine _).symm

theorem fieldInverse_zero : fieldInverse 0 = 0 := by decide

theorem gfMul_fieldInverse : ∀ a : Byte, a ≠ 0 → gfMul a (fieldInverse a) = 1 := by decide +kernel

theorem invSbox_leftInverse : Function.LeftInverse invSbox sbox := by
  unfold Function.LeftInverse
  decide +kernel

/-- S is injective, so it is a permutation of the bytes, and its left inverse InvS is its inverse. -/
theorem invSbox_rightInverse : Function.RightInverse invSbox sbox :=
  invSbox_leftInverse.rightInverse_of_surjective (Finite.surjective_of_injective invSbox_leftInverse.injective)

/-- Settles O34: the affine map is undone on `S[a]`, and the byte this gives is checked to be the field inverse. -/
theorem sboxFromFieldInverse : Obligations.SboxFromFieldInverse := fun a =>
  ⟨⟨fieldInverse a, fun ha => ha ▸ fieldInverse_zero, gfMul_fieldInverse a, sbox_eq_affine a⟩,
    invSbox_leftInverse a, invSbox_rightInverse a⟩

/-! ### The key schedule (42_aes_cbc.md R153) -/

/-- Word `i` of the schedule `w` is word `i - nk` XOR `t`, where `t` is made from word `i - 1`. -/
def ObeysSchedule (nk : Nat) (w : List Column) (i : Nat) : Prop :=
  ∃ old prev : Column, w[i - nk]? = some old ∧ w[i - 1]? = some prev ∧ w[i]? = some (old.xor (scheduleTerm nk i prev))

/-- Words that follow do not change what a word is. -/
theorem getElem?_of_isPrefix {w w' : List Column} {j : Nat} {x : Column} (hp : w <+: w') (hx : w[j]? = some x) :
    w'[j]? = some x := by
  obtain ⟨more, rfl⟩ := hp
  rw [List.getElem?_append_left (List.getElem?_eq_some_iff.mp hx).1, hx]

theorem ObeysSchedule.of_prefix {nk i : Nat} {w w' : List Column} (h : ObeysSchedule nk w i) (hp : w <+: w') :
    ObeysSchedule nk w' i := by
  obtain ⟨old, prev, hold, hprev, hword⟩ := h
  exact ⟨old, prev, getElem?_of_isPrefix hp hold, getElem?_of_isPrefix hp hprev, getElem?_of_isPrefix hp hword⟩

theorem expandWords_length (nk n i : Nat) (ws : List Column) : (expandWords nk n i ws).length = n + ws.length := by
  induction n generalizing i ws with
  | zero => simp [expandWords]
  | succ n ih => rw [expandWords, ih, List.length_cons]; omega

/-- The schedule begins with the words that were there before. -/
theorem expandWords_prefix (nk n i : Nat) (ws : List Column) : ws.reverse <+: (expandWords nk n i ws).reverse := by
  induction n generalizing i ws with
  | zero => exact List.prefix_rfl
  | succ n ih =>
    refine List.IsPrefix.trans ?_ (ih (i + 1) _)
    rw [List.reverse_cons]
    exact List.prefix_append _ _

/-- The word that one round of `expandWords` adds obeys the recurrence. -/
theorem obeysSchedule_next {nk : Nat} {ws : List Column} (h0 : 0 < nk) (hl : nk ≤ ws.length) :
    ObeysSchedule nk
      ((ws.getD (nk - 1) .zero).xor (scheduleTerm nk ws.length (ws.getD 0 .zero)) :: ws).reverse ws.length := by
  have newest : ∀ {j : Nat} (x : Column), 0 < j → j ≤ ws.length →
      (x :: ws).reverse[ws.length - j]? = some (ws.getD (j - 1) .zero) := fun {j} x hj hle => by
    have hlt : j - 1 < ws.length := by omega
    have hidx : ws.length - 1 - (ws.length - j) = j - 1 := by omega
    rw [List.reverse_cons, List.getElem?_append_left (by simp; omega), List.getElem?_reverse (by omega), hidx,
      List.getD_eq_getElem?_getD, List.getElem?_eq_getElem hlt]
    rfl
  exact ⟨_, _, newest _ h0 hl, newest _ Nat.one_pos (by omega), by simp⟩

theorem expandWords_obeysSchedule {nk : Nat} (h0 : 0 < nk) (n : Nat) :
    ∀ ws : List Column, nk ≤ ws.length → ∀ i : Nat, ws.length ≤ i → i < ws.length + n →
      ObeysSchedule nk (expandWords nk n ws.length ws).reverse i := by
  induction n with
  | zero => omega
  | succ n ih =>
    intro ws hl i hi hn
    rw [expandWords]
    rcases Nat.eq_or_lt_of_le hi with rfl | hlt
    · exact (obeysSchedule_next h0 hl).of_prefix (expandWords_prefix _ _ _ _)
    · exact ih (_ :: ws) (by rw [List.length_cons]; omega) i (by rwa [List.length_cons])
        (by rw [List.length_cons]; omega)

theorem columnsOf_length : ∀ bs : List Byte, (columnsOf bs).length = bs.length / 4
  | [] | [_] | [_, _] | [_, _, _] => by simp [columnsOf]
  | _ :: _ :: _ :: _ :: r => by
    simp only [columnsOf, List.length_cons, columnsOf_length r]
    omega

/-- Column `i` of a byte sequence is its bytes `4i` to `4i + 3`. -/
theorem columnsOf_getElem? (i : Nat) : ∀ bs : List Byte, 4 * i + 4 ≤ bs.length →
    ∃ a b c d : Byte, (bs.drop (4 * i)).take 4 = [a, b, c, d] ∧
      (columnsOf bs)[i]? = some { a0 := a, a1 := b, a2 := c, a3 := d }
  | [], h | [_], h | [_, _], h | [_, _, _], h => by simp at h
  | a :: b :: c :: d :: r, h => by
    cases i with
    | zero => exact ⟨a, b, c, d, rfl, rfl⟩
    | succ i => exact columnsOf_getElem? i r (by simp only [List.length_cons] at h; omega)

/-- `KeyExpansion` of a key of `nk` words: the key's words, then those of the recurrence, `4 (nk + 7)` in all. -/
theorem keyExpansion_eq {key : List Byte} {nk : Nat} (h : key.length = 4 * nk) :
    keyExpansion key =
      (expandWords nk (4 * (nk + 7) - nk) (columnsOf key).reverse.length (columnsOf key).reverse).reverse := by
  have hnk : key.length / 4 = nk := by omega
  rw [keyExpansion, List.length_reverse, columnsOf_length, hnk]
  rfl

/-- Settles O33: the first words are the key's columns, and each later one was added by a round of `expandWords`. -/
theorem keyScheduleRecurrence : Obligations.KeyScheduleRecurrence := by
  intro key nk nr hsize hkey
  have h0 : 0 < nk := by omega
  have hnr : nr = nk + 6 := by omega
  have hcols : (columnsOf key).reverse.length = nk := by rw [List.length_reverse, columnsOf_length]; omega
  rw [keyExpansion_eq hkey]
  refine ⟨?length, fun i hi => ?keyWord, fun i hi hlt => ?laterWord⟩
  case length =>
    rw [List.length_reverse, expandWords_length, hcols]
    omega
  case keyWord =>
    obtain ⟨a, b, c, d, hbytes, hcol⟩ := columnsOf_getElem? i key (by omega)
    exact ⟨a, b, c, d, hbytes, getElem?_of_isPrefix (expandWords_prefix _ _ _ _) (by rwa [List.reverse_reverse])⟩
  case laterWord =>
    exact expandWords_obeysSchedule h0 _ _ hcols.ge i (by rwa [hcols]) (by omega)

/-! ### CBC (42_aes_cbc.md R161) -/

theorem cbcBlocks_length (w : List Column) (nr n : Nat) (chain : Block) (bs : List Byte) :
    (cbcBlocks w nr n chain bs).length = 16 * n := by
  induction n generalizing chain bs with
  | zero => rfl
  | succ n ih =>
    simp only [cbcBlocks, List.length_append, block_bytes_length, ih]
    omega

/-- Block `j` of a CBC decryption. -/
theorem cbcBlocks_block (w : List Column) (nr : Nat) {n j : Nat} (hj : j < n) (chain : Block) (bs : List Byte) :
    ((cbcBlocks w nr n chain bs).drop (16 * j)).take 16 =
      ((invCipher w nr (Block.ofBytes ((bs.drop (16 * j)).take 16))).xor
        (if j = 0 then chain else Block.ofBytes ((bs.drop (16 * (j - 1))).take 16))).bytes := by
  induction n generalizing j chain bs with
  | zero => omega
  | succ n ih =>
    cases j with
    | zero => rfl
    | succ j =>
      have hdrop : ∀ k, (bs.drop 16).drop (16 * k) = bs.drop (16 * (k + 1)) := fun k => by
        rw [List.drop_drop, Nat.mul_succ, Nat.add_comm]
      have htail : ∀ (x : Block) (r : List Byte), (x.bytes ++ r).drop (16 * (j + 1)) = r.drop (16 * j) := fun x r => by
        rw [Nat.mul_succ, Nat.add_comm, ← List.drop_drop, List.drop_left' (block_bytes_length x)]
      rw [cbcBlocks, htail, ih (by omega)]
      cases j with
      | zero => rfl
      | succ j => simp [Config.blockBytes, hdrop]

/-- Settles O32: the block loop, with the IV as its first chain value. -/
theorem cbcBlockEquation : Obligations.CbcBlockEquation := by
  intro key iv bs _ _ hmod
  refine ⟨?_, fun j hj => ?_⟩
  · rw [cbcDecrypt, cbcBlocks_length, Config.blockBytes]
    omega
  · rw [cbcDecrypt, cbcBlocks_block _ _ (by exact hj), apply_ite Block.ofBytes]

end Sys2Proof.Machine
end

section
/-!
SUPPORT. The runs of AES_CBC_DECRYPT over whole blocks and a partial one (42_aes_cbc.md R162, R165).
-/

namespace Sys2Proof.Machine

/-- Bytes that do not fill the block being assembled, one engine step each. -/
theorem cbcPull_run (bytes rest : List Byte) :
    ∀ s : State, s.st = .busy → s.hold = .none → s.k = .cbcPull → s.inq = bytes ++ rest →
      s.c.blk.length + bytes.length < 16 →
      engineRun bytes.length s =
        { s with
          inq := rest, inCount := s.inCount + BitVec.ofNat 32 bytes.length,
          c := { s.c with blk := s.c.blk ++ bytes } } := by
  induction bytes with
  | nil =>
    intro s _ _ _ hq _
    cases s
    simp_all
  | cons b bytes ih =>
    intro s hb hh hk hq hl
    rw [List.length_cons] at hl
    have hopen : (s.c.blk ++ [b]).length ≠ Config.blockBytes := by simp [Config.blockBytes]; omega
    rw [List.length_cons, engineRun_succ, engineStep_of_busy hb, advance, hk]
    dsimp only [cbcPullStep]
    rw [pull_cons (by exact hq)]
    dsimp only [cbcAccept]
    rw [if_neg hopen, ih _ (by exact hb) rfl rfl rfl (by simp; omega)]
    simp [hh, BitVec.ofNat_add, add_assoc, add_comm (1#32)]

/-- The 16th byte of a block: the block's plaintext is next to be pushed, and the block is the chain value. -/
theorem engineStep_cbcPull_full {s : State} {b : Byte} {rest : List Byte} (hb : s.st = .busy) (hk : s.k = .cbcPull)
    (hq : s.inq = b :: rest) (hl : s.c.blk.length + 1 = 16) :
    engineStep s =
      { s with
        inq := rest, inCount := s.inCount + 1, hold := .none,
        c := { s.c with blk := [], chain := Block.ofBytes (s.c.blk ++ [b]) },
        k := .cbcPush ((invCipher s.c.w s.c.nr (Block.ofBytes (s.c.blk ++ [b]))).xor s.c.chain).bytes } := by
  have hfull : (s.c.blk ++ [b]).length = Config.blockBytes := by simpa [Config.blockBytes] using hl
  rw [engineStep_of_busy hb, advance, hk]
  dsimp only [cbcPullStep]
  rw [pull_cons (by exact hq)]
  dsimp only [cbcAccept]
  rw [if_pos hfull]
  rfl

/-- The push loop over a block's plaintext with room for every byte, one engine step each. -/
theorem cbcPush_run (bytes : List Byte) :
    ∀ s : State, s.st = .busy → s.hold = .none → s.k = (if bytes = [] then .cbcPull else .cbcPush bytes) →
      s.outq.length + bytes.length ≤ s.cfg.outFifoDepth →
      engineRun bytes.length s =
        { s with
          outq := s.outq ++ bytes, outCount := s.outCount + BitVec.ofNat 32 bytes.length, k := .cbcPull } := by
  induction bytes with
  | nil =>
    intro s _ _ hk _
    cases s
    simp_all
  | cons b bytes ih =>
    intro s hb hh hk hroom
    rw [List.length_cons] at hroom
    have hfree : s.outq.length < s.cfg.outFifoDepth := by omega
    rw [if_neg (List.cons_ne_nil _ _)] at hk
    rw [List.length_cons, engineRun_succ, engineStep_of_busy hb, advance, hk]
    dsimp only [cbcPushStep]
    rw [push_room (by exact hfree), ih _ (by exact hb) rfl rfl (by simp; omega)]
    simp [hh, BitVec.ofNat_add, add_assoc, add_comm (1#32)]

/-- The engine at the head of AES_CBC_DECRYPT's loop, with no byte of a block received. -/
def AtCbcBlock (s : State) : Prop := s.st = .busy ∧ s.hold = .none ∧ s.k = .cbcPull ∧ s.c.blk = []

/-- The 16 bytes of a block, one engine step each, up to the push of its plaintext. -/
theorem cbcBlock_pulled {s : State} {block rest : List Byte} (hs : AtCbcBlock s) (hl : block.length = 16)
    (hq : s.inq = block ++ rest) :
    engineRun 16 s =
      { s with
        inq := rest, inCount := s.inCount + 16, c := { s.c with chain := Block.ofBytes block },
        k := .cbcPush ((invCipher s.c.w s.c.nr (Block.ofBytes block)).xor s.c.chain).bytes } := by
  obtain ⟨hb, hh, hk, hblk⟩ := hs
  obtain ⟨init, b, rfl⟩ := (List.eq_nil_or_concat' block).resolve_left (List.length_pos_iff.mp (by omega))
  have hinit : init.length = 15 := by simpa using hl
  have hpull : engineRun 15 s =
      { s with inq := b :: rest, inCount := s.inCount + 15, c := { s.c with blk := init } } := by
    simpa [hinit, hblk] using cbcPull_run init (b :: rest) s hb hh hk (by simpa using hq) (by simp [hblk, hinit])
  rw [engineRun_succ_last, hpull,
    engineStep_cbcPull_full (by exact hb) (by exact hk) (by rfl) (by simp [hinit])]
  simp [hh, hblk, add_assoc]

/-- One whole block: 16 bytes pulled, 16 pushed (42_aes_cbc.md R165). -/
theorem cbcBlock_run {s : State} {block rest : List Byte} (hs : AtCbcBlock s) (hl : block.length = 16)
    (hq : s.inq = block ++ rest) (hroom : s.outq.length + 16 ≤ s.cfg.outFifoDepth) :
    engineRun 32 s =
      { s with
        inq := rest, inCount := s.inCount + 16,
        outq := s.outq ++ ((invCipher s.c.w s.c.nr (Block.ofBytes block)).xor s.c.chain).bytes,
        outCount := s.outCount + 16, c := { s.c with chain := Block.ofBytes block } } := by
  have hpulled := cbcBlock_pulled hs hl hq
  obtain ⟨hb, hh, hk, -⟩ := hs
  calc engineRun 32 s
      = engineRun 16 (engineRun 16 s) := engineRun_add 16 16 s
    _ = _ := congrArg (engineRun 16) hpulled
    _ = _ := cbcPush_run (Block.bytes _) _ hb hh rfl hroom
    _ = _ := by rw [← hk]; rfl

/-- Whole blocks at the front of INQ, 32 engine steps each. -/
theorem cbcBlocks_run (m : Nat) (rest : List Byte) :
    ∀ (s : State) (full : List Byte), AtCbcBlock s → full.length = 16 * m → s.inq = full ++ rest →
      s.outq.length + 16 * m ≤ s.cfg.outFifoDepth →
      ∃ chain : Block, engineRun (32 * m) s =
        { s with
          inq := rest, inCount := s.inCount + BitVec.ofNat 32 (16 * m),
          outq := s.outq ++ cbcBlocks s.c.w s.c.nr m s.c.chain full,
          outCount := s.outCount + BitVec.ofNat 32 (16 * m), c := { s.c with chain := chain } } := by
  induction m with
  | zero =>
    intro s full _ hl hq _
    obtain rfl : full = [] := List.length_eq_zero_iff.mp hl
    refine ⟨s.c.chain, ?_⟩
    cases s
    simp_all [cbcBlocks]
  | succ m ih =>
    intro s full hs hl hq hroom
    have hfirst := cbcBlock_run (block := full.take 16) (rest := full.drop 16 ++ rest) hs (by simp; omega)
      (by rw [← List.append_assoc, List.take_append_drop, hq]) (by omega)
    rw [show 32 * (m + 1) = 32 + 32 * m by omega, engineRun_add, hfirst]
    refine (ih _ (full.drop 16) (by exact hs) (by simp; omega) (by rfl) (by simp; omega)).imp fun chain hrun =>
      hrun.trans ?_
    simp [cbcBlocks, Config.blockBytes, Nat.mul_succ, BitVec.ofNat_add, add_assoc, add_comm (16#32)]

/-- The state from which AES_CBC_DECRYPT's loop runs: the command is started, and the cipher is loaded from KEY and IV. -/
def cbcLoaded (s : State) : State :=
  { startCommand .aesCbcDecrypt s with
    k := .cbcPull
    c := { nr := roundsOf ((s.bufValue .key).length / 4), w := keyExpansion (s.bufValue .key),
           chain := Block.ofBytes (s.bufValue .iv), blk := [] } }

/-- With legal lengths, the first engine step is the loop's first one with the cipher loaded (42_aes_cbc.md R163). -/
theorem engineStep_aesCbcDecrypt {s : State} (hk : s.bufLen .key ∈ Config.aesKeyLens)
    (hiv : s.bufLen .iv = Config.blockBytes) :
    engineStep (startCommand .aesCbcDecrypt s) = engineStep (cbcLoaded s) := by
  have hload : loadKeyIv (startCommand .aesCbcDecrypt s) = .ok _ :=
    loadCipher_of_lens (by rwa [bufValue_length]) (by rwa [bufValue_length]) _
  rw [engineStep_of_busy rfl, advance]
  dsimp only [startCommand_k, firstStep]
  rw [cbcStart_eq, hload]
  rfl

/-- AES_CBC_DECRYPT over whole blocks, fewer than 16 further bytes, and EOF: all input is consumed, the blocks' plaintext
is pushed, and the last step is the one that finds EOF, with the further bytes in the block being assembled. -/
theorem aesCbcDecrypt_run {s : State} {m : Nat} {full tail : List Byte} (hk : s.bufLen .key ∈ Config.aesKeyLens)
    (hiv : s.bufLen .iv = Config.blockBytes) (hfull : full.length = 16 * m) (htail : tail.length < 16)
    (hq : s.inq = full ++ tail) (hend : s.inEnd = .eof) (hroom : s.outq.length + 16 * m ≤ s.cfg.outFifoDepth) :
    ∃ c : CipherCtx, c.blk = tail ∧
      engineRun (32 * m + tail.length + 1) (startCommand .aesCbcDecrypt s) =
        cbcEnd { startCommand .aesCbcDecrypt s with
          inq := [], inCount := s.inCount + BitVec.ofNat 32 (16 * m + tail.length),
          outq := s.outq ++ cbcDecrypt (s.bufValue .key) (s.bufValue .iv) full,
          outCount := s.outCount + BitVec.ofNat 32 (16 * m), k := .cbcPull, c := c } := by
  obtain ⟨chain, hblocks⟩ := cbcBlocks_run m tail (cbcLoaded s) full ⟨rfl, rfl, rfl, rfl⟩ hfull hq hroom
  refine ⟨{ (cbcLoaded s).c with chain := chain, blk := tail }, rfl, ?_⟩
  rw [engineRun_succ, engineStep_aesCbcDecrypt hk hiv, ← engineRun_succ, engineRun_succ_last, engineRun_add, hblocks,
    cbcPull_run tail [] _ rfl rfl rfl (by simp) (by simpa [cbcLoaded] using htail), engineStep_of_busy rfl, advance]
  dsimp only [cbcLoaded, cbcPullStep]
  rw [pull_eof (by rfl) (by exact hend), cbcDecrypt, hfull]
  simp [Config.blockBytes, BitVec.ofNat_add, add_assoc, startCommand]

/-- Settles O29: no byte of a block is left at EOF, so the last step is `finish()`. -/
theorem aesCbcDecryptCompletes : Obligations.AesCbcDecryptCompletes := by
  intro s m hready hk hiv hlen hend hroom
  obtain ⟨c, hblk, hrun⟩ := aesCbcDecrypt_run (tail := []) hk hiv hlen (by simp) (by simp) hend hroom
  refine ⟨_, exec_of_ready hready (by decide), ?_⟩
  rw [← Nat.add_zero (32 * m)]
  exact hrun.trans (if_pos hblk)

/-- Settles O30: the partial block's bytes are there at EOF, so the last step raises PARTIAL_BLOCK. -/
theorem aesCbcPartialBlock : Obligations.AesCbcPartialBlock := by
  intro s m full tail hready hk hiv hfull hpos htail hq hend hroom
  obtain ⟨c, hblk, hrun⟩ := aesCbcDecrypt_run hk hiv hfull htail hq hend hroom
  have hpartial : c.blk ≠ [] := hblk ▸ List.length_pos_iff.mp hpos
  refine ⟨_, exec_of_ready hready (by decide), ?_⟩
  exact (hrun.trans (if_neg hpartial)).trans (raise_of_busy rfl _)

end Sys2Proof.Machine
end

section
/-!
SUPPORT. UNWRAP: the parse and the comparison of the secrets, the body with the right password, and every error in the order
of 43_unwrap.md R180.
-/

namespace Sys2Proof.Machine

/-! ### The parse of the secrets (43_unwrap.md R185) -/

/-- What `takeField` takes is a Byte-Field at the front, and nothing else is one (30_encoding.md R88). -/
theorem takeField_eq_some_iff {bs data rest : List Byte} :
    takeField bs = some (data, rest) ↔ data.length ≤ 255 ∧ bs = byteField data ++ rest := by
  refine ⟨fun h => ?_, fun ⟨hlen, h⟩ => h ▸ takeField_byteField hlen rest⟩
  cases bs with
  | nil => cases h
  | cons n r =>
    have hn := n.isLt
    rw [takeField] at h
    split at h
    · cases h
    next hfits =>
      obtain ⟨rfl, rfl⟩ : r.take n.toNat = data ∧ r.drop n.toNat = rest := by simpa using h
      have hlen : (r.take n.toNat).length = n.toNat := by simp; omega
      refine ⟨by omega, ?_⟩
      rw [byteField, hlen, List.cons_append, List.take_append_drop, BitVec.ofNat_toNat, BitVec.setWidth_eq]

/-- The parse takes the three fields one after the other from what the fields before them leave. -/
theorem parseSecrets_eq_some_iff {pt iiv ik ck : List Byte} :
    parseSecrets pt = some (iiv, ik, ck) ↔ ∃ r1 r2 extra : List Byte,
      takeField pt = some (iiv, r1) ∧ takeField r1 = some (ik, r2) ∧ takeField r2 = some (ck, extra) := by
  refine ⟨fun h => ?_, fun ⟨r1, r2, extra, h1, h2, h3⟩ => by rw [parseSecrets, h1]; simp only [h2, h3]⟩
  unfold parseSecrets at h
  split at h
  · cases h
  split at h
  · cases h
  split at h
  · cases h
  cases h
  exact ⟨_, _, _, ‹_›, ‹_›, ‹_›⟩

/-! ### The comparison of checksums (43_unwrap.md R188) -/

/-- The accumulator is 0 exactly if every XOR that went into it was. -/
theorem checksumDiff_eq_zero_iff {x : List Byte} :
    ∀ {y : List Byte}, x.length = y.length → (checksumDiff x y = 0 ↔ x = y) := by
  induction x with
  | nil => intro y h; simp [checksumDiff, List.eq_nil_of_length_eq_zero h.symm]
  | cons a x ih =>
    intro y h
    cases y with
    | nil => cases h
    | cons b y =>
      have hxy := ih (Nat.succ.inj h)
      have hab : a ^^^ b = 0 ↔ a = b := BitVec.xor_eq_zero_iff
      rw [checksumDiff, List.cons.injEq, ← hxy, ← hab]
      exact BitVec.or_eq_zero_iff

/-- Settles O37: the parse by its three fields in turn, the comparison by its accumulator. -/
theorem secretsParseAndCompare : Obligations.SecretsParseAndCompare := by
  refine ⟨fun pt iiv ik ck => ?_, fun x y => checksumDiff_eq_zero_iff⟩
  refine ⟨fun h => ?_, fun ⟨hiv, hik, hck, extra, hpt⟩ => hpt ▸ parseSecrets_byteFields hiv hik hck extra⟩
  obtain ⟨r1, r2, extra, h1, h2, h3⟩ := parseSecrets_eq_some_iff.mp h
  obtain ⟨hiv, rfl⟩ := takeField_eq_some_iff.mp h1
  obtain ⟨hik, rfl⟩ := takeField_eq_some_iff.mp h2
  obtain ⟨hck, rfl⟩ := takeField_eq_some_iff.mp h3
  exact ⟨hiv, hik, hck, extra, by simp only [List.append_assoc]⟩

/-! ### The checks on the decrypted secrets -/

/-- A check that precedes `x` precedes all that follows `x`. -/
theorem check_bind {c : Prop} [Decidable c] (e : Err) (x : Except Err State) (f : State → Except Err State) :
    (if c then .error e else x).bind f = if c then .error e else x.bind f := by
  split <;> rfl

/-- The steps of R180 on the decrypted secrets in U.PT. -/
def unwrapPlain (s : State) : Except Err State :=
  (unwrapParse s).bind fun s2 => (unwrapCheck s2).bind fun s3 => (unwrapStore s3).bind fun s4 => .ok (unwrapRelease s4)

/-- Once the secrets are decrypted, the rest of the body is `unwrapPlain`. -/
theorem unwrapWithKey_of_decrypt {s t : State} (h : unwrapDecrypt s = .ok t) : unwrapWithKey s = unwrapPlain t := by
  unfold unwrapWithKey unwrapPlain
  rw [h]
  dsimp only
  cases unwrapParse t with
  | error e => rfl
  | ok s2 =>
    dsimp only [Except.bind]
    cases unwrapCheck s2 with
    | error e => rfl
    | ok s3 => dsimp only; cases unwrapStore s3 <;> rfl

/-- Where the structural checks pass, the body is `unwrapPlain` on the plaintext of the secrets under the outer key
(43_unwrap.md R183, R184); `ok` is that key. -/
theorem unwrapBody_of_plain {s : State} {ok : List Byte} (hs : s.bufLen .hSecrets % 16 = 0) (hl : s.bufLen .hIv = 16)
    (hok : deriveKey (s.bufValue .secret) (s.bufValue .hSalt) Config.outerIter Config.outerKeyLen = ok) :
    ∃ t : State, unwrapBody s = unwrapPlain t ∧ t.bufs = s.bufs ∧
      t.u.pt = cbcDecrypt ok (s.bufValue .hIv) (s.bufValue .hSecrets) := by
  have hkey : ok.length = Config.outerKeyLen := hok ▸ deriveKey_length _ _ _ _
  obtain ⟨c, hd⟩ := unwrapDecrypt_of_key (s := { s with u := { s.u with ok := ok } })
    (by simp [hkey, Config.outerKeyLen, Config.aesKeyLens]) hl
  rw [unwrapBody_of_structure hs hl, unwrapSecrets_of hok]
  refine ⟨_, unwrapWithKey_of_decrypt hd, rfl, ?_⟩
  rw [cbcDecrypt, bufValue_length]
  rfl

/-- Secrets that do not parse (43_unwrap.md R185). -/
theorem unwrapPlain_of_parse_none {s : State} (h : parseSecrets s.u.pt = none) :
    unwrapPlain s = .error .secretsTruncated := by
  rw [unwrapPlain, unwrapParse, h]
  rfl

/-- The comparison step passes exactly the checksum that the inner key derives (43_unwrap.md R187, R188). -/
theorem unwrapCheck_eq {s : State} {exp : List Byte}
    (h : deriveKey s.u.ik (s.bufValue .hSsalt) Config.checkIter s.u.ck.length = exp) :
    unwrapCheck s =
      if s.u.ck ≠ exp then .error .checksumMismatch else .ok { s with u := { s.u with exp := exp, diff := 0 } } := by
  have hlen : s.u.ck.length = exp.length := by rw [← h, deriveKey_length]
  have hdiff := checksumDiff_eq_zero_iff hlen
  unfold unwrapCheck
  rw [h]
  dsimp only
  split
  next hne => rw [if_pos (mt hdiff.mpr hne)]
  next heq => rw [if_neg (not_not.mpr (hdiff.mp (not_not.mp heq))), not_not.mp heq]

/-- The checks on secrets that parse, in their order (43_unwrap.md R186 to R190, 60_exceptions.md R306). -/
theorem unwrapPlain_of_parse {s : State} {iiv ik ck exp : List Byte} (h : parseSecrets s.u.pt = some (iiv, ik, ck))
    (hexp : deriveKey ik (s.bufValue .hSsalt) Config.checkIter ck.length = exp) :
    unwrapPlain s =
      if ck = [] then .error .checksumEmpty
      else if ck ≠ exp then .error .checksumMismatch
      else if ik.length ∉ Config.aesKeyLens then .error .innerKeyLen
      else if iiv.length ≠ Config.blockBytes then .error .innerIvLen
      else .ok { s with u := .zero, bufs := { s.bufs with key := Buffer.ofBytes ik, iv := Buffer.ofBytes iiv } } := by
  have hcheck := unwrapCheck_eq (s := { s with u := { s.u with iiv := iiv, ik := ik, ck := ck } }) hexp
  rw [unwrapPlain, unwrapParse, h]
  dsimp only
  rw [check_bind, Except.bind, hcheck, check_bind, Except.bind, unwrapStore, check_bind, check_bind, Except.bind]
  simp only [List.length_eq_zero_iff]
  rfl

/-! ### The statements on UNWRAP -/

/-- An error of the body is UNWRAP's answer (43_unwrap.md R180). -/
theorem engineStep_unwrap_of_error {s : State} {e : Err} (h : unwrapBody (startCommand .unwrap s) = .error e) :
    engineStep (startCommand .unwrap s) = { releaseContexts s with st := .error, err := some e, op := 0x05 } :=
  engineStep_startCommand_raise (i := .unwrap) (by rw [firstStep, unwrapStart, h])

/-- Settles O35: the body succeeds, and `finish()` releases the contexts. -/
theorem unwrapCompletes : Obligations.UnwrapCompletes := by
  intro s iiv ik ck extra hready hs hl hpt hiv hik hpos hle hck
  obtain ⟨c, hbody⟩ := unwrapBody_of_fields (s := startCommand .unwrap s) hs hl rfl hpt hiv hik hpos hle hck
  refine ⟨_, exec_of_ready hready (by decide), ?_⟩
  rw [engineStep_of_busy rfl, advance]
  dsimp only [startCommand_k, firstStep, unwrapStart]
  rw [hbody]
  rfl

/-- Settles O36: the structural checks first, then those on the plaintext. -/
theorem unwrapErrorsInOrder : Obligations.UnwrapErrorsInOrder := by
  intro s hready pt fails
  have failsOf {e : Err} (h : unwrapBody (startCommand .unwrap s) = .error e) : fails e :=
    ⟨_, exec_of_ready hready (by decide), engineStep_unwrap_of_error h⟩
  refine ⟨fun hs => failsOf (if_pos hs), fun hs hl => failsOf ?_, fun hs hl => ?_⟩
  · exact (if_neg (not_not.mpr hs)).trans (if_pos hl)
  obtain ⟨t, hbody, hbufs, (hplain : t.u.pt = pt)⟩ := unwrapBody_of_plain (s := startCommand .unwrap s) hs hl rfl
  refine ⟨fun h => failsOf (hbody.trans (unwrapPlain_of_parse_none (by rwa [hplain]))), fun iiv ik ck h => ?_⟩
  have hsalt : t.bufValue .hSsalt = s.bufValue .hSsalt := by rw [State.bufValue, hbufs]; rfl
  have hchecks := hbody.trans (unwrapPlain_of_parse (by rwa [hplain]) (by rw [hsalt]))
  refine ⟨fun hck => failsOf (hchecks.trans (if_pos hck)), fun hck hne => failsOf ?_, fun hck heq => ?_⟩
  · exact (hchecks.trans (if_neg hck)).trans (if_pos hne)
  have hlens := (hchecks.trans (if_neg hck)).trans (if_neg (not_not.mpr heq))
  refine ⟨fun hik => failsOf (hlens.trans (if_pos hik)), fun hik hiv => failsOf ?_⟩
  exact (hlens.trans (if_neg (not_not.mpr hik))).trans (if_pos hiv)

end Sys2Proof.Machine
end

section
/-!
SUPPORT. CLOSE (44_payload_stream.md R220): its one write leaves the reset state but for INT_EN.
-/

namespace Sys2Proof.Machine

/-- IN_SPACE alone is set in a state that has just been reset (10_state.md R29, 70_reset_and_hazards.md R330). -/
theorem intStatus_resetWith {cfg : Config} (h : cfg.Valid) : (State.resetWith cfg).intStatus = 8 := by
  obtain ⟨hdepth, -⟩ := h
  have hspace : 0 < cfg.inFifoDepth := hdepth
  have hbits : (State.resetWith cfg).intStatus =
      BitVec.ofBool true ++ BitVec.ofBool false ++ BitVec.ofBool false ++ BitVec.ofBool false := by
    simp only [State.intStatus, State.resetWith, List.length_nil, hspace, decide_true]
    rfl
  rw [hbits]
  decide

/-- STATUS reads 0 in IDLE before any command (10_state.md R26). -/
theorem statusWord_of_idle {s : State} (hst : s.st = .idle) (hop : s.op = 0) : s.statusWord = 0 := by
  have hwait : ∀ h : Hold, (s.st == .busy && s.hold == h) = false := fun h => by rw [hst]; rfl
  rw [State.statusWord, State.inWait, State.outWait, hwait, hwait, hop, hst]
  decide

/-- No register but INT_EN shows INT_EN, the schedule, or what the host last read. -/
theorem readReg_resetWith_outside {r : Reg} (hr : r ≠ .intEn) (cfg : Config) (intEn : BitVec 4) (sched : List Event)
    (busData : Word) :
    (readReg r { State.resetWith cfg with intEn := intEn, sched := sched, busData := busData }).1 =
      (readReg r (State.resetWith cfg)).1 := by
  cases r with
  | intEn => exact absurd rfl hr
  | _ => rfl

/-- Settles O7: CLOSE is `release`, which is the reset state but for INT_EN and what stands outside the engine. -/
theorem closeReleasesEverything : Obligations.CloseReleasesEverything := by
  intro s
  have hdecode : decode 0x0000000F = .ok .close := by decide
  refine ⟨release s, (step_cmdWrite hdecode s).trans (exec_close s), exec_close s, release_eq_resetWith s,
    statusWord_of_idle rfl rfl, (errorWord_eq_zero_iff _).mpr rfl, fun hvalid => ?_, fun r hr => ?_⟩
  · exact intStatus_resetWith hvalid
  · rw [release_eq_resetWith]
    exact readReg_resetWith_outside hr _ _ _ _

end Sys2Proof.Machine
end

section
/-!
SUPPORT. Streams that the decoder reads to their end, whatever its byte source: the relation `Decodes`, and that a
stored zlib stream decodes to its bytes (45_inflate.md R232, R234, R250).
-/

namespace Sys2Proof.Machine

/-- The decoder asks for a byte at a point: a point that asks for bits does so only while the unread bits do not suffice
(45_inflate.md R231). -/
def WantsByte (z : InflateCtx) (p : ZPoint) : Prop :=
  match zRequest z p with
  | .byte => True
  | .bits n => z.bitcnt < n
  | .out _ => False

/-- From a point, the decoder reads exactly the bytes `input`, outputs exactly the bytes `output`, and returns. -/
inductive Decodes : InflateCtx → ZPoint → (input output : List Byte) → Prop where
  /-- The last byte of the stream. -/
  | last {z : InflateCtx} {p : ZPoint} {b : Byte} (wants : WantsByte z p) (done : zOnByte z p b = .done) :
    Decodes z p [b] []
  | byte {z z' : InflateCtx} {p q : ZPoint} {b : Byte} {input output : List Byte} (wants : WantsByte z p)
    (goesOn : zOnByte z p b = .cont z' q) (rest : Decodes z' q input output) : Decodes z p (b :: input) output
  | bits {z z' : InflateCtx} {p q : ZPoint} {n : Nat} {input output : List Byte} (asks : zRequest z p = .bits n)
    (unread : n ≤ z.bitcnt) (goesOn : zOnBits (dropBits z n) p (peekBits z n) = .cont z' q)
    (rest : Decodes z' q input output) : Decodes z p input output
  | out {z : InflateCtx} {p : ZPoint} {b : Byte} {input output : List Byte} (asks : zRequest z p = .out b)
    (rest : Decodes (zAfterOut (recordOut z b) p).1 (zAfterOut (recordOut z b) p).2 input output) :
    Decodes z p input (b :: output)

/-! ### Adler-32 (45_inflate.md R250) -/

/-- The context after more output bytes. -/
def recordAll (z : InflateCtx) (data : List Byte) : InflateCtx := data.foldl recordOut z

theorem recordAll_sums (data : List Byte) :
    ∀ z : InflateCtx, ((recordAll z data).s1, (recordAll z data).s2) = adlerSums (z.s1, z.s2) data := by
  induction data with
  | nil => exact fun _ => rfl
  | cons b data ih => exact fun z => ih (recordOut z b)

theorem recordAll_bfinal (data : List Byte) : ∀ z : InflateCtx, (recordAll z data).bfinal = z.bfinal := by
  induction data with
  | nil => exact fun _ => rfl
  | cons b data ih => exact fun z => ih (recordOut z b)

/-- Output that follows the stream's start leaves its Adler-32 in the sums. -/
theorem adlerValue_recordAll {z : InflateCtx} (h1 : z.s1 = 1) (h2 : z.s2 = 0) (data : List Byte) :
    adlerValue (recordAll z data) = adler32 data := by
  have hsums := recordAll_sums data z
  rw [h1, h2] at hsums
  rw [adler32, ← hsums]
  rfl

theorem adlerSums_lt (data : List Byte) : ∀ p : Nat × Nat, p.1 < 65521 → p.2 < 65521 →
    (adlerSums p data).1 < 65521 ∧ (adlerSums p data).2 < 65521 := by
  induction data with
  | nil => exact fun _ h1 h2 => ⟨h1, h2⟩
  | cons b data ih => exact fun _ _ _ => ih _ (Nat.mod_lt _ (by decide)) (Nat.mod_lt _ (by decide))

theorem adler32_lt (data : List Byte) : adler32 data < 2 ^ 32 := by
  obtain ⟨h1, h2⟩ := adlerSums_lt data (1, 0) (by decide) (by decide)
  rw [adler32]
  omega

/-! ### The stored stream -/

/-- The trailer: four bytes, the most significant first, that match the sums (45_inflate.md R232). -/
theorem decodes_trailer {z : InflateCtx} {a : Nat} (ha : adlerValue z = a) (hlt : a < 2 ^ 32) :
    Decodes z (.trailer 0 0) (be32 (BitVec.ofNat 32 a)) [] := by
  refine .byte (z' := z) (q := .trailer 1 (a / 2 ^ 24)) trivial ?_ (.byte (z' := z) (q := .trailer 2 (a / 2 ^ 16))
    trivial ?_ (.byte (z' := z) (q := .trailer 3 (a / 2 ^ 8)) trivial ?_ (.last trivial ?_)))
  · simp [zOnByte, trailerByte, Nat.shiftRight_eq_div_pow]
    omega
  · simp [zOnByte, trailerByte, Nat.shiftRight_eq_div_pow]
    omega
  · simp [zOnByte, trailerByte, Nat.shiftRight_eq_div_pow]
    omega
  · simp [zOnByte, trailerByte, ha]
    omega

/-- The data bytes of a stored block: each is read and output, and the last one ends the block (45_inflate.md R234). -/
theorem decodes_storedBytes {input output : List Byte} (data : List Byte) :
    ∀ z : InflateCtx, data ≠ [] →
      Decodes (endBlock (recordAll z data)).1 (endBlock (recordAll z data)).2 input output →
      Decodes z (.storedByte data.length) (data ++ input) (data ++ output) := by
  induction data with
  | nil => exact fun _ h => absurd rfl h
  | cons b data ih =>
    intro z _ hrest
    refine .byte (z' := z) (q := .storedOut b data.length) trivial rfl (.out rfl ?_)
    cases data with
    | nil => exact hrest
    | cons c data => exact ih (recordOut z b) (List.cons_ne_nil _ _) hrest

/-- A stored block from its LEN on: LEN and NLEN match, and the data bytes follow (45_inflate.md R234). -/
theorem decodes_storedBlock {z : InflateCtx} {data input output : List Byte} (hlen : data.length ≤ 65535)
    (hrest : Decodes (endBlock (recordAll z data)).1 (endBlock (recordAll z data)).2 input output) :
    Decodes z (.storedHdr [])
      (BitVec.ofNat 8 data.length :: BitVec.ofNat 8 (data.length / 256) :: BitVec.ofNat 8 (65535 - data.length) ::
        BitVec.ofNat 8 ((65535 - data.length) / 256) :: (data ++ input)) (data ++ output) := by
  have hheader : storedHeader z (BitVec.ofNat 8 data.length) (BitVec.ofNat 8 (data.length / 256))
      (BitVec.ofNat 8 (65535 - data.length)) (BitVec.ofNat 8 ((65535 - data.length) / 256)) =
        if data.length = 0 then endBlockRes z else .cont z (.storedByte data.length) := by
    have hl : data.length % 256 + 256 * (data.length / 256 % 256) = data.length := by omega
    have hn : (65535 - data.length) % 256 + 256 * ((65535 - data.length) / 256 % 256) = 65535 - data.length := by omega
    simp only [storedHeader, BitVec.toNat_ofNat, Nat.reducePow, hl, hn]
    rw [if_neg (by omega)]
  refine .byte trivial rfl (.byte trivial rfl (.byte trivial rfl ?_))
  by_cases hnil : data = []
  · subst hnil
    exact .byte trivial hheader hrest
  · rw [if_neg (mt List.length_eq_zero_iff.mp hnil)] at hheader
    exact .byte trivial hheader (decodes_storedBytes data z hnil hrest)

/-- A final stored block at the start of the output, and the trailer (45_inflate.md R232, R234). -/
theorem decodes_finalStoredBlock {z : InflateCtx} {data : List Byte} (hfinal : z.bfinal = true) (h1 : z.s1 = 1)
    (h2 : z.s2 = 0) (hlen : data.length ≤ 65535) :
    Decodes z (.storedHdr []) ((zlibStored data).drop 3) data := by
  have hend : endBlock (recordAll z data) = (byteAlign (recordAll z data), .trailer 0 0) :=
    if_pos ((recordAll_bfinal data z).trans hfinal)
  have hblock := decodes_storedBlock (z := z) (input := be32 (BitVec.ofNat 32 (adler32 data))) (output := []) hlen (by
    rw [hend]
    exact decodes_trailer (adlerValue_recordAll h1 h2 data) (adler32_lt data))
  rw [List.append_nil] at hblock
  exact hblock

/-- CMF 78 and FLG 01 pass the header checks (45_inflate.md R232). -/
theorem zlibHeader_stored (z : InflateCtx) : zlibHeader z 0x78 0x01 = .cont z .bfinal := by
  rw [zlibHeader, if_neg (by decide), if_neg (by decide)]

/-- The zlib header, and the header bits of a final stored block (45_inflate.md R232). -/
theorem decodes_zlibStart {z : InflateCtx} {input output : List Byte} (hcnt : z.bitcnt = 0) (hbuf : z.bitbuf = 0)
    (hrest : Decodes { byteAlign z with bfinal := true, btype := 0 } (.storedHdr []) input output) :
    Decodes z .cmf (0x78 :: 0x01 :: 0x01 :: input) output := by
  have hwants : WantsByte z .bfinal := hcnt.trans_lt Nat.one_pos
  have hfeed : feedBits z 0x01 = { z with bitbuf := 1, bitcnt := 8 } := by simp [feedBits, hcnt, hbuf]
  have hfinal : zOnBits (dropBits { z with bitbuf := 1, bitcnt := 8 } 1) .bfinal
      (peekBits { z with bitbuf := 1, bitcnt := 8 } 1) =
        .cont { z with bitbuf := 0, bitcnt := 7, bfinal := true } .btype := by
    simp [zOnBits, dropBits, peekBits]
  have htype : zOnBits (dropBits { z with bitbuf := 0, bitcnt := 7, bfinal := true } 2) .btype
      (peekBits { z with bitbuf := 0, bitcnt := 7, bfinal := true } 2) =
        .cont { byteAlign z with bfinal := true, btype := 0 } (.storedHdr []) := by
    simp [zOnBits, dropBits, peekBits, startBlock, byteAlign]
  refine .byte trivial rfl (.byte trivial (zlibHeader_stored z) (.byte hwants (z' := feedBits z 0x01) rfl ?_))
  rw [hfeed]
  exact .bits rfl (show 1 ≤ 8 by decide) hfinal (.bits rfl (show 2 ≤ 7 by decide) htype hrest)

/-- A stored zlib stream decodes to its bytes. -/
theorem decodes_zlibStored (z : InflateCtx) {data : List Byte} (hlen : data.length ≤ 65535) :
    Decodes (inflateInit z) .cmf (zlibStored data) data :=
  decodes_zlibStart rfl rfl (decodes_finalStoredBlock rfl rfl rfl hlen)

end Sys2Proof.Machine
end

section
/-!
SUPPORT. The payload stream (44_payload_stream.md R200 to R205): stage A over the ciphertext blocks, stage B over their
plaintext, and the decoder over stage B, for every stream that it decodes.
-/

namespace Sys2Proof.Machine

/-! ### The decoder's steps -/

/-- The decoder runs from the point it is given, not from the one in K. -/
theorem inflateRun_setKont (n : Nat) (src : Source) (p : ZPoint) :
    ∀ s : State, s.st = .busy → ∀ k : Kont, inflateRun n src p { s with k := k } = inflateRun n src p s := by
  induction n generalizing p with
  | zero => exact fun _ _ _ => rfl
  | succ n ih =>
    intro s hb k
    have hz : zMove src p { s with k := k } = zMove src p s := rfl
    rw [inflateRun, inflateRun, hz]
    cases zMove src p s with
    | pull => cases src <;> rfl
    | emit b => rfl
    | silent r pos =>
      cases r with
      | cont z q => exact ih q { s with z := z, sbpos := pos } hb k
      | fail e =>
        dsimp only
        rw [raise_of_busy (by exact hb), raise_of_busy hb]
        rfl
      | done => rfl

/-- The decoder is at a point, with no byte in hand. -/
structure AtPoint (src : Source) (p : ZPoint) (s : State) : Prop where
  busy : s.st = .busy
  kont : s.k = .inflate src p none

theorem engineStep_of_atPoint {src : Source} {p : ZPoint} {s : State} (h : AtPoint src p s) :
    engineStep s = inflateStep src p none s := by
  rw [engineStep_of_busy h.busy, advance, h.kont]

/-- A silent move is part of the step it leads to (00_scope.md R6): the step is the one from where the move leads. -/
theorem engineStep_of_silent {src : Source} {p q : ZPoint} {s : State} {z : InflateCtx} {pos : Nat}
    (h : AtPoint src p s) (hz : zMove src p s = .silent (.cont z q) pos) :
    engineStep s = engineStep { s with z := z, sbpos := pos, k := .inflate src q none } := by
  have hnext : AtPoint src q { s with z := z, sbpos := pos, k := .inflate src q none } := ⟨h.busy, rfl⟩
  rw [engineStep_of_atPoint h, engineStep_of_atPoint hnext]
  calc inflateStep src p none s
      = inflateRun (silentBound p s) src q { s with z := z, sbpos := pos } := by
        rw [inflateStep, inflateFuel, inflateRun, hz]
    _ = inflateStep src q none { s with z := z, sbpos := pos } := inflateRun_of_fuel_le (silentBound_falls hz)
    _ = _ := (inflateRun_setKont _ src q _ (by exact h.busy) _).symm

/-- Where the decoder returns, the command finishes (44_payload_stream.md R205). -/
theorem engineStep_of_done {src : Source} {p : ZPoint} {s : State} {pos : Nat} (h : AtPoint src p s)
    (hz : zMove src p s = .silent .done pos) : engineStep s = finish s := by
  rw [engineStep_of_atPoint h, inflateStep, inflateFuel, inflateRun, hz]

/-- An output byte is pushed while there is room (45_inflate.md R233). -/
theorem engineStep_of_emit {src : Source} {p : ZPoint} {s : State} {b : Byte} (h : AtPoint src p s)
    (hz : zMove src p s = .emit b) (hroom : s.outq.length < s.cfg.outFifoDepth) :
    engineStep s =
      { s with
        outq := s.outq ++ [b], outCount := s.outCount + 1, hold := .none, z := (zAfterOut (recordOut s.z b) p).1,
        k := .inflate src (zAfterOut (recordOut s.z b) p).2 none } := by
  rw [engineStep_of_atPoint h, inflateStep_of_emit hz, inflateEmit, push_room (by exact hroom)]

/-- Where the decoder wants a byte, its source decides. -/
theorem zMove_of_wantsByte {src : Source} {p : ZPoint} {s : State} (h : WantsByte s.z p) :
    zMove src p s = zSource src p s := by
  unfold WantsByte at h
  unfold zMove
  split at h
  · simp only [*]
  · simp only [*, if_true]
  · exact h.elim

/-! ### Stage A (44_payload_stream.md R202) -/

/-- The decoder wants a byte and SB is exhausted, so that stage A runs. -/
structure AtStageA (p : ZPoint) (s : State) : Prop extends AtPoint .stageB p s where
  wants : WantsByte s.z p
  exhausted : 16 ≤ s.sbpos

theorem engineStep_of_atStageA {p : ZPoint} {s : State} (h : AtStageA p s) :
    engineStep s = pull s stageAAccept stageAEnd := by
  have hz : zMove .stageB p s = .pull := by
    rw [zMove_of_wantsByte h.wants]
    exact if_neg (Nat.not_lt.mpr h.exhausted)
  have hk : ({ s with k := .inflate .stageB p none } : State) = s := by rw [← h.kont]
  rw [engineStep_of_atPoint h.toAtPoint, inflateStep_of_pull hz, inflatePull, hk]

/-- Bytes that do not fill the block being assembled, one engine step each. -/
theorem stageA_run {p : ZPoint} (bytes rest : List Byte) :
    ∀ s : State, AtStageA p s → s.hold = .none → s.inq = bytes ++ rest → s.c.blk.length + bytes.length < 16 →
      engineRun bytes.length s =
        { s with
          inq := rest, inCount := s.inCount + BitVec.ofNat 32 bytes.length,
          c := { s.c with blk := s.c.blk ++ bytes } } := by
  induction bytes with
  | nil =>
    intro s _ _ hq _
    cases s
    simp_all
  | cons b bytes ih =>
    intro s hs hh hq hl
    rw [List.length_cons] at hl
    have hopen : (s.c.blk ++ [b]).length ≠ Config.blockBytes := by simp [Config.blockBytes]; omega
    rw [List.length_cons, engineRun_succ, engineStep_of_atStageA hs, pull_cons (by exact hq)]
    dsimp only [stageAAccept]
    rw [if_neg hopen, ih _ (by exact ⟨⟨hs.busy, hs.kont⟩, hs.wants, hs.exhausted⟩)
      (by rfl) (by rfl) (by simp; omega)]
    simp [hh, BitVec.ofNat_add, add_assoc, add_comm (1#32)]

/-- The 16th byte of a block: SB holds the block's plaintext, and the block is the chain value. -/
theorem engineStep_stageA_full {p : ZPoint} {s : State} {b : Byte} {rest : List Byte} (h : AtStageA p s)
    (hq : s.inq = b :: rest) (hl : s.c.blk.length + 1 = 16) :
    engineStep s =
      { s with
        inq := rest, inCount := s.inCount + 1, hold := .none,
        c := { s.c with blk := [], chain := Block.ofBytes (s.c.blk ++ [b]) },
        sb := (invCipher s.c.w s.c.nr (Block.ofBytes (s.c.blk ++ [b]))).xor s.c.chain, sbpos := 0 } := by
  have hfull : (s.c.blk ++ [b]).length = Config.blockBytes := by simpa [Config.blockBytes] using hl
  rw [engineStep_of_atStageA h, pull_cons (by exact hq)]
  dsimp only [stageAAccept]
  rw [if_pos hfull]
  rfl

/-- A whole block: 16 bytes pulled, one engine step each, and its plaintext in SB. -/
theorem stageA_block {p : ZPoint} {s : State} (h : AtStageA p s) (hh : s.hold = .none) (hblk : s.c.blk = [])
    (hq : 16 ≤ s.inq.length) :
    engineRun 16 s =
      { s with
        inq := s.inq.drop 16, inCount := s.inCount + 16,
        c := { s.c with chain := Block.ofBytes (s.inq.take 16) },
        sb := (invCipher s.c.w s.c.nr (Block.ofBytes (s.inq.take 16))).xor s.c.chain, sbpos := 0 } := by
  obtain ⟨b, hb⟩ : ∃ b, s.inq.drop 15 = b :: s.inq.drop 16 := ⟨_, List.drop_eq_getElem_cons (by omega)⟩
  have hblock : s.inq.take 15 ++ [b] = s.inq.take 16 := by
    rw [show 16 = 15 + 1 from rfl, List.take_add, hb]
    rfl
  have hlen : (s.inq.take 15).length = 15 := by simp; omega
  have hpull : engineRun 15 s =
      { s with
        inq := b :: s.inq.drop 16, inCount := s.inCount + 15, c := { s.c with blk := s.inq.take 15 } } := by
    have hrun := stageA_run (s.inq.take 15) (s.inq.drop 15) s h hh (List.take_append_drop 15 s.inq).symm
      (by rw [hblk, hlen]; decide)
    rwa [hlen, hblk, List.nil_append, hb] at hrun
  rw [engineRun_succ_last, hpull, engineStep_stageA_full (p := p)
    (by exact ⟨⟨h.busy, h.kont⟩, h.wants, h.exhausted⟩) (by rfl) (by simp [hlen]), hblock]
  simp [hh, hblk, add_assoc]

/-- EOF in stage A: at a block boundary, or inside a block. -/
theorem engineStep_stageA_eof {p : ZPoint} {s : State} {blk : List Byte} (h : AtStageA p s) (hblk : s.c.blk = blk)
    (hq : s.inq = []) (he : s.inEnd = .eof) :
    engineStep s =
      { releaseContexts s with
        st := .error, err := some (if blk = [] then .truncatedStream else .partialBlock) } := by
  subst hblk
  rw [engineStep_of_atStageA h, pull_eof hq he]
  dsimp only [stageAEnd]
  split <;> exact raise_of_busy (by exact h.busy) _

end Sys2Proof.Machine
end

section
/-!
SUPPORT. OPEN_PLAINTEXT and DECRYPT over a payload: whatever the plaintext's stream decodes to is pushed, and the blocks
that it needs are pulled (44_payload_stream.md R200 to R210).
-/

namespace Sys2Proof.Machine

/-! ### Stretches of a run -/

/-- What a host sees of a running command that has since pulled `n` bytes and pushed `out`: the contexts are left
out. -/
def afterStreaming (n : Nat) (out : List Byte) (s : State) : State :=
  { releaseContexts s with
    inq := s.inq.drop n, inCount := s.inCount + BitVec.ofNat 32 n, outq := s.outq ++ out,
    outCount := s.outCount + BitVec.ofNat 32 out.length }

/-- One stretch after another. -/
theorem afterStreaming_add (m n : Nat) (out out' : List Byte) (s : State) :
    afterStreaming n out' (afterStreaming m out s) = afterStreaming (m + n) (out ++ out') s := by
  simp [afterStreaming, releaseContexts, BitVec.ofNat_add, add_assoc]

/-- In one engine step for each byte pulled or pushed, the engine gets from `s` to where its next step is the one from
`t`. -/
structure StreamsTo (n : Nat) (out : List Byte) (s t : State) : Prop where
  run : engineRun (n + out.length + 1) s = engineStep t
  effect : releaseContexts t = afterStreaming n out s

/-- The engine pulls `n` bytes and pushes `out`, one in each step, and finishes in the step after. -/
def FinishesAfter (n : Nat) (out : List Byte) (s : State) : Prop :=
  engineRun (n + out.length + 1) s = { afterStreaming n out s with st := .done }

theorem afterStreaming_zero (s : State) : afterStreaming 0 [] s = releaseContexts s := by
  simp [afterStreaming, releaseContexts]

theorem streamsTo_refl (s : State) : StreamsTo 0 [] s s := ⟨rfl, (afterStreaming_zero s).symm⟩

/-- A stretch, then a computation without a visible step. -/
theorem StreamsTo.silent {n : Nat} {out : List Byte} {s t u : State} (h : StreamsTo n out s t)
    (hstep : engineStep t = engineStep u) (heffect : releaseContexts u = releaseContexts t) : StreamsTo n out s u :=
  ⟨h.run.trans hstep, heffect.trans h.effect⟩

/-- A stretch of pulls leaves the room in OUTQ as it was. -/
theorem StreamsTo.room {n : Nat} {s t : State} (h : StreamsTo n [] s t) {m : Nat}
    (hroom : s.outq.length + m ≤ s.cfg.outFifoDepth) : t.outq.length + m ≤ t.cfg.outFifoDepth := by
  have houtq : (releaseContexts t).outq = s.outq ++ [] := congrArg State.outq h.effect
  have hcfg : (releaseContexts t).cfg = (afterStreaming n [] s).cfg := congrArg State.cfg h.effect
  rw [← releaseContexts_outq t, ← releaseContexts_cfg t, houtq, hcfg, List.append_nil]
  exact hroom

theorem StreamsTo.finishesAfter {m n : Nat} {out out' : List Byte} {s t : State} (h : StreamsTo m out s t)
    (ht : FinishesAfter n out' t) : FinishesAfter (m + n) (out ++ out') s := by
  have heffect : afterStreaming n out' t = afterStreaming (m + n) (out ++ out') s :=
    (congrArg (afterStreaming n out') h.effect).trans (afterStreaming_add m n out out' s)
  have hsteps : m + n + (out ++ out').length + 1 = m + out.length + 1 + (n + out'.length) := by
    rw [List.length_append]; omega
  rw [FinishesAfter, hsteps, engineRun_add, h.run, ← engineRun_succ, ht, heffect]

/-- The last step, where the engine finishes in it. -/
theorem StreamsTo.finishes {n : Nat} {out : List Byte} {s t : State} (h : StreamsTo n out s t)
    (ht : engineStep t = finish t) : FinishesAfter n out s := by
  rw [FinishesAfter, h.run, ht, ← h.effect]
  rfl

/-! ### Stage B (44_payload_stream.md R203) -/

/-- The decoder is at a point, at a block boundary of the ciphertext, and `plain` is the plaintext ahead of it: the rest
of SB, then `blocks` blocks in INQ. -/
structure PlainAhead (p : ZPoint) (blocks : Nat) (plain : List Byte) (s : State) : Prop
    extends AtPoint .stageB p s where
  unheld : s.hold = .none
  boundary : s.c.blk = []
  fed : 16 * blocks ≤ s.inq.length
  ahead : plain = s.sb.bytes.drop s.sbpos ++ cbcBlocks s.c.w s.c.nr blocks s.c.chain s.inq

/-- An exhausted SB holds no plaintext. -/
theorem drop_sb_of_exhausted {s : State} (h : 16 ≤ s.sbpos) : s.sb.bytes.drop s.sbpos = [] :=
  List.drop_eq_nil_of_le (by rwa [block_bytes_length])

/-- While SB has a byte, it is the next one of the plaintext. -/
theorem PlainAhead.cons_eq {p : ZPoint} {blocks : Nat} {b : Byte} {plain : List Byte} {s : State}
    (h : PlainAhead p blocks (b :: plain) s) (hpos : s.sbpos < 16) :
    stageBByte s = b ∧ plain = s.sb.bytes.drop (s.sbpos + 1) ++ cbcBlocks s.c.w s.c.nr blocks s.c.chain s.inq := by
  have hlt : s.sbpos < s.sb.bytes.length := by rwa [block_bytes_length]
  have hahead := h.ahead
  rw [List.drop_eq_getElem_cons hlt, List.cons_append, List.cons.injEq] at hahead
  obtain ⟨hb, hplain⟩ := hahead
  exact ⟨by rw [stageBByte, List.getD_eq_getElem _ _ hlt, hb], hplain⟩

/-- Where SB is exhausted, stage A fills it with the next block (44_payload_stream.md R201, R202). -/
theorem PlainAhead.pullBlock {p : ZPoint} {blocks : Nat} {plain : List Byte} {s : State}
    (h : PlainAhead p (blocks + 1) plain s) (hwants : WantsByte s.z p) (hpos : 16 ≤ s.sbpos) :
    ∃ t, StreamsTo 16 [] s t ∧ PlainAhead p blocks plain t ∧ t.z = s.z ∧ t.sbpos < 16 := by
  have hfed : 16 ≤ s.inq.length := by have := h.fed; omega
  have hrun := stageA_block ⟨h.toAtPoint, hwants, hpos⟩ h.unheld h.boundary hfed
  refine ⟨engineRun 16 s, ⟨engineRun_succ_last 16 s, ?effect⟩, ?_⟩
  case effect =>
    rw [hrun]
    simp [afterStreaming, releaseContexts]
  rw [hrun]
  refine ⟨⟨⟨h.busy, h.kont⟩, h.unheld, h.boundary, ?fed, ?ahead⟩, rfl, Nat.succ_pos 15⟩
  case fed =>
    have := h.fed
    rw [List.length_drop]
    omega
  case ahead =>
    rw [h.ahead, drop_sb_of_exhausted hpos]
    rfl

/-- A byte that the decoder wants gets into SB, with as many blocks pulled as that takes. -/
theorem PlainAhead.supply {p : ZPoint} {blocks : Nat} {b : Byte} {plain : List Byte} {s : State}
    (h : PlainAhead p blocks (b :: plain) s) (hwants : WantsByte s.z p) :
    ∃ n blocks' t, StreamsTo n [] s t ∧ PlainAhead p blocks' (b :: plain) t ∧ n + 16 * blocks' = 16 * blocks ∧
      t.z = s.z ∧ t.sbpos < 16 := by
  by_cases hpos : s.sbpos < 16
  · exact ⟨0, blocks, s, streamsTo_refl s, h, Nat.zero_add _, rfl, hpos⟩
  · cases blocks with
    | zero =>
      have hahead := h.ahead
      rw [drop_sb_of_exhausted (Nat.not_lt.mp hpos)] at hahead
      exact absurd hahead (List.cons_ne_nil _ _)
    | succ blocks =>
      obtain ⟨t, hto, ht, hz, hpos⟩ := h.pullBlock hwants (Nat.not_lt.mp hpos)
      exact ⟨16, blocks, t, hto, ht, by omega, hz, hpos⟩

/-- With a byte in SB, the decoder takes it silently. -/
theorem PlainAhead.zMove_eq {p : ZPoint} {blocks : Nat} {b : Byte} {plain : List Byte} {s : State}
    (h : PlainAhead p blocks (b :: plain) s) (hwants : WantsByte s.z p) (hpos : s.sbpos < 16) :
    zMove .stageB p s = .silent (zOnByte s.z p b) (s.sbpos + 1) := by
  obtain ⟨hb, -⟩ := h.cons_eq hpos
  rw [zMove_of_wantsByte hwants, zSource, if_pos hpos, hb]

/-- After that byte. -/
theorem PlainAhead.taken {p : ZPoint} {blocks : Nat} {b : Byte} {plain : List Byte} {s : State}
    (h : PlainAhead p blocks (b :: plain) s) (hpos : s.sbpos < 16) (z : InflateCtx) (q : ZPoint) :
    PlainAhead q blocks plain { s with z := z, sbpos := s.sbpos + 1, k := .inflate .stageB q none } := by
  obtain ⟨-, hplain⟩ := h.cons_eq hpos
  exact ⟨⟨h.busy, rfl⟩, h.unheld, h.boundary, h.fed, hplain⟩

/-- A push takes none of the plaintext. -/
theorem PlainAhead.pushed {p : ZPoint} {blocks : Nat} {plain : List Byte} {s : State} (h : PlainAhead p blocks plain s)
    (outq : List Byte) (outCount : Word) (z : InflateCtx) (q : ZPoint) :
    PlainAhead q blocks plain
      { s with outq := outq, outCount := outCount, hold := .none, z := z, k := .inflate .stageB q none } :=
  ⟨⟨h.busy, rfl⟩, rfl, h.boundary, h.fed, h.ahead⟩

/-! ### The decoder over stage B -/

/-- Whatever stream the plaintext begins with, the decoder over stage B pushes what it decodes to and finishes. It pulls
the blocks that the stream needs: those it leaves hold no byte of the stream. -/
theorem finishesAfter_of_decodes {z : InflateCtx} {p : ZPoint} {input output : List Byte}
    (h : Decodes z p input output) :
    ∀ (s : State) (blocks : Nat) (extra : List Byte), s.z = z → PlainAhead p blocks (input ++ extra) s →
      s.outq.length + output.length ≤ s.cfg.outFifoDepth →
      ∃ n blocks', FinishesAfter n output s ∧ n + 16 * blocks' = 16 * blocks ∧ 16 * blocks' ≤ extra.length := by
  induction h with
  | @last z p b wants done =>
    rintro s blocks extra rfl hs -
    obtain ⟨n, blocks', t, hto, ht, hn, hz, hpos⟩ := hs.supply (plain := extra) wants
    rw [← hz] at wants done
    have hmove := ht.zMove_eq wants hpos
    rw [done] at hmove
    obtain ⟨-, hextra⟩ := ht.cons_eq hpos
    refine ⟨n, blocks', hto.finishes (engineStep_of_done ht.toAtPoint hmove), hn, ?_⟩
    rw [hextra, List.length_append, cbcBlocks_length]
    omega
  | @byte z z' p q b input output wants goesOn rest ih =>
    rintro s blocks extra rfl hs hroom
    obtain ⟨n, blocks', t, hto, ht, hn, hz, hpos⟩ := hs.supply (plain := input ++ extra) wants
    rw [← hz] at wants goesOn
    have hmove := ht.zMove_eq wants hpos
    rw [goesOn] at hmove
    have htaken := hto.silent (engineStep_of_silent ht.toAtPoint hmove) rfl
    obtain ⟨m, blocks'', hfin, hm, hle⟩ := ih _ blocks' extra rfl (ht.taken hpos z' q) (htaken.room hroom)
    exact ⟨n + m, blocks'', htaken.finishesAfter hfin, by omega, hle⟩
  | @bits z z' p q n input output asks unread goesOn rest ih =>
    rintro s blocks extra rfl hs hroom
    have hmove : zMove .stageB p s = .silent (.cont z' q) s.sbpos := by
      simp only [zMove, asks, if_neg (Nat.not_lt.mpr unread), goesOn]
    have hmoved := (streamsTo_refl s).silent (engineStep_of_silent hs.toAtPoint hmove) rfl
    obtain ⟨m, blocks', hfin, hm, hle⟩ := ih { s with z := z', k := .inflate .stageB q none } blocks extra rfl
      ⟨⟨hs.busy, rfl⟩, hs.unheld, hs.boundary, hs.fed, hs.ahead⟩ hroom
    exact ⟨0 + m, blocks', hmoved.finishesAfter hfin, by omega, hle⟩
  | @out z p b input output asks rest ih =>
    rintro s blocks extra rfl hs hroom
    rw [List.length_cons] at hroom
    have hmove : zMove .stageB p s = .emit b := by simp only [zMove, asks]
    have hpush := engineStep_of_emit hs.toAtPoint hmove (by omega)
    have hpushed : StreamsTo 0 [b] s _ :=
      ⟨congrArg engineStep hpush, by simp [afterStreaming, releaseContexts]⟩
    obtain ⟨m, blocks', hfin, hm, hle⟩ := ih _ blocks extra rfl (hs.pushed (s.outq ++ [b]) (s.outCount + 1) _ _)
      (by simp; omega)
    exact ⟨0 + m, blocks', hpushed.finishesAfter hfin, by omega, hle⟩

/-! ### OPEN_PLAINTEXT and DECRYPT -/

/-- The state in which `openBody()` begins to inflate: the cipher is loaded from KEY and IV, and SB is empty
(44_payload_stream.md R200). -/
def openReady (s : State) : State :=
  { s with
    hold := .none, k := .inflate .stageB .cmf none, sbpos := 16, z := inflateInit s.z
    c := { nr := roundsOf ((s.bufValue .key).length / 4), w := keyExpansion (s.bufValue .key),
           chain := Block.ofBytes (s.bufValue .iv), blk := [] } }

theorem openReady_atStageA {s : State} (hb : s.st = .busy) : AtStageA .cmf (openReady s) :=
  ⟨⟨hb, rfl⟩, trivial, Nat.le_refl 16⟩

/-- With legal lengths, the first step of `openBody()` is stage A's (44_payload_stream.md R200). -/
theorem openBody_eq_engineStep {s : State} (hb : s.st = .busy) (hk : s.bufLen .key ∈ Config.aesKeyLens)
    (hiv : s.bufLen .iv = Config.blockBytes) : openBody s = engineStep (openReady s) := by
  have hload : loadKeyIv s = .ok _ := loadCipher_of_lens (by rwa [bufValue_length]) (by rwa [bufValue_length]) s
  rw [openBody_eq, hload, engineStep_of_atStageA (openReady_atStageA hb)]
  dsimp only [onResult, openLoaded]
  rw [inflateStep_of_pull (by rfl), inflatePull]
  rfl

theorem engineStep_openPlaintext {s : State} (hk : s.bufLen .key ∈ Config.aesKeyLens)
    (hiv : s.bufLen .iv = Config.blockBytes) :
    engineStep (startCommand .openPlaintext s) = engineStep (openReady (startCommand .openPlaintext s)) := by
  rw [engineStep_of_busy rfl, advance]
  exact openBody_eq_engineStep rfl hk hiv

/-- CBC decryption of the first blocks of a byte sequence does not look behind them (42_aes_cbc.md R161). -/
theorem cbcBlocks_append (w : List Column) (nr n : Nat) (rest : List Byte) :
    ∀ (chain : Block) (bs : List Byte), bs.length = 16 * n →
      cbcBlocks w nr n chain (bs ++ rest) = cbcBlocks w nr n chain bs := by
  induction n with
  | zero => exact fun _ _ _ => rfl
  | succ n ih =>
    intro chain bs hl
    have hle : Config.blockBytes ≤ bs.length := by simp only [Config.blockBytes]; omega
    rw [cbcBlocks, cbcBlocks, List.take_append_of_le_length hle, List.drop_append_of_le_length hle,
      ih _ _ (by simp only [Config.blockBytes, List.length_drop]; omega)]

/-- `openBody()` over a payload whose plaintext begins with a stream that decodes: it pulls the whole blocks that the
stream needs, and no byte more (44_payload_stream.md R200 to R205). -/
theorem openReady_finishes {s : State} {cipher input output extra rest : List Byte} (hb : s.st = .busy)
    (hdec : Decodes (inflateInit s.z) .cmf input output) (hlen : cipher.length % 16 = 0)
    (hplain : cbcDecrypt (s.bufValue .key) (s.bufValue .iv) cipher = input ++ extra) (hextra : extra.length < 16)
    (hq : s.inq = cipher ++ rest) (hroom : s.outq.length + output.length ≤ s.cfg.outFifoDepth) :
    FinishesAfter cipher.length output (openReady s) := by
  have hblocks : cipher.length = 16 * (cipher.length / 16) := by omega
  have hahead : PlainAhead .cmf (cipher.length / 16) (input ++ extra) (openReady s) := by
    refine ⟨⟨hb, rfl⟩, rfl, rfl, ?fed, ?ahead⟩
    case fed =>
      have hqlen : (openReady s).inq.length = cipher.length + rest.length := by
        rw [← List.length_append, ← hq]
        rfl
      omega
    case ahead =>
      have hcbc := cbcBlocks_append (openReady s).c.w (openReady s).c.nr (cipher.length / 16) rest (openReady s).c.chain
        cipher hblocks
      rw [← hq] at hcbc
      exact hplain.symm.trans hcbc.symm
  obtain ⟨n, blocks', hfin, hn, hle⟩ := finishesAfter_of_decodes hdec (openReady s) _ extra rfl hahead hroom
  obtain rfl : n = cipher.length := by omega
  exact hfin

/-- Settles O45: a stored stream decodes to its bytes, so the run is the one of `openReady_finishes`. -/
theorem openPlaintextStoredCompletes : Obligations.OpenPlaintextStoredCompletes := by
  intro s cipher data extra rest hready hk hiv hlen hplain hextra hdata hq hroom
  have hfin : FinishesAfter cipher.length data (openReady (startCommand .openPlaintext s)) :=
    openReady_finishes rfl (decodes_zlibStored _ hdata) hlen hplain hextra hq hroom
  refine ⟨_, exec_of_ready hready (by decide), ?_⟩
  rw [engineRun_succ, engineStep_openPlaintext hk hiv, ← engineRun_succ, hfin]
  simp [afterStreaming, openReady, releaseContexts, hq, opcodeOf]

/-- Settles O46: the bytes stay in stage A's block, and the last step is the one that finds EOF there. -/
theorem openPlaintextShortPayload : Obligations.OpenPlaintextShortPayload := by
  intro s hready hk hiv hshort hend
  have hrun := stageA_run (p := .cmf) s.inq [] (openReady (startCommand .openPlaintext s)) (openReady_atStageA rfl) rfl
    (List.append_nil _).symm (by simpa [openReady] using hshort)
  refine ⟨_, exec_of_ready hready (by decide), ?_⟩
  rw [engineRun_succ, engineStep_openPlaintext hk hiv, ← engineRun_succ, engineRun_succ_last, hrun,
    engineStep_stageA_eof (p := .cmf) (by exact ⟨⟨rfl, rfl⟩, trivial, Nat.le_refl 16⟩) (List.nil_append s.inq) (by rfl)
      (by exact hend)]
  rfl

/-- Behind the last byte of the last field, the command goes on in the same step (40_bytefield_header.md R103). -/
theorem engineStep_headerEnd {d : Bool} {s : State} {f : BufId} {i n : Nat} (hb : s.st = .busy)
    (hk : s.k = .header d (.fieldData f i n)) (hi : n ≤ i) (hf : nextField f = none) :
    engineStep s = afterHeader d s := by
  rw [engineStep_of_busy hb, advance, hk]
  dsimp only [headerStep, headerFieldData]
  rw [if_neg (Nat.not_lt.mpr hi), hf]

/-- Where the unwrap body succeeds, the step behind the header is the first one of `openBody()` with KEY and IV as the
unwrap body wrote them (44_payload_stream.md R210). -/
theorem decryptTail_of_unwrapBody {s t : State} (hb : s.st = .busy) (h : unwrapBody s = .ok t) :
    decryptTail s = engineStep (openReady t) := by
  obtain ⟨c, ik, iiv, hik, hiiv, rfl⟩ := unwrapBody_ok h
  have hkey : (Buffer.ofBytes ik).len ∈ Config.aesKeyLens := hik
  rw [decryptTail_eq, h]
  exact openBody_eq_engineStep hb hkey hiiv

/-- Settles O47: the header body, the unwrap body on the fields it has read, and `openBody()` with the inner key. -/
theorem decryptStoredCompletes : Obligations.DecryptStoredCompletes := by
  intro s h iiv ik ck spare cipher data extra rest hready hfits hq hsecrets hiv hsealed hiiv hik hpos hle hck hlen
    hplain hextra hdata hroom
  have hheader := header_run (d := true) (onDone := decryptTail) (s := startCommand .decrypt s) (rest := cipher ++ rest)
    rfl rfl hfits (by simpa using hq)
  generalize ht : engineRun h.bytes.length (startCommand .decrypt s) = t at hheader
  have hvalues : t.bufValue .hSalt = h.salt ∧ t.bufValue .hIv = h.iv ∧ t.bufValue .hSsalt = h.secretSalt ∧
      t.bufValue .hSecrets = h.secrets := by
    rw [hheader]
    exact ⟨buffer_value_ofBytes _, buffer_value_ofBytes _, buffer_value_ofBytes _, buffer_value_ofBytes _⟩
  obtain ⟨hvSalt, hvIv, hvSsalt, hvSecrets⟩ := hvalues
  have hbusy : t.st = .busy := by rw [hheader]; rfl
  have hsecret : t.bufValue .secret = s.bufValue .secret := by rw [hheader]; rfl
  obtain ⟨c, hunwrap⟩ := unwrapBody_of_fields (s := t) (by rwa [← bufValue_length, hvSecrets])
    (by rwa [← bufValue_length, hvIv]) rfl (by rw [hvIv, hvSecrets, hvSalt, hsecret]; exact hsealed) hiiv hik hpos hle
    (by rwa [hvSsalt])
  refine ⟨_, exec_of_ready hready (by decide), ?_⟩
  have hstep := (engineStep_headerEnd hbusy (d := true) (by rw [hheader]) (Nat.le_refl _) rfl).trans
    (decryptTail_of_unwrapBody hbusy hunwrap)
  have hfin := openReady_finishes (rest := rest) (by exact hbusy) (decodes_zlibStored _ hdata) hlen
    (s := { t with c := c, u := .zero, bufs := { t.bufs with key := Buffer.ofBytes ik, iv := Buffer.ofBytes iiv } })
    (by simpa [State.bufValue, Buffers.get] using hplain) hextra (by rw [hheader]) (by rw [hheader]; exact hroom)
  rw [add_assoc h.bytes.length, add_assoc h.bytes.length, engineRun_add, ht, engineRun_succ, hstep, ← engineRun_succ, hfin, hheader]
  simp [afterStreaming, openReady, releaseContexts, opcodeOf, BitVec.ofNat_add, add_assoc]

end Sys2Proof.Machine
end

section
/-!
SUPPORT. DECRYPT beside the three commands it is made of (44_payload_stream.md R211): PARSE_HEADER and OPEN_PLAINTEXT go
through the states of DECRYPT but for OP and for the command that K names; between them, UNWRAP and DECRYPT answer
alike.
-/

namespace Sys2Proof.Machine

/-! ### States side by side -/

/-- The continuation of DECRYPT at the point where PARSE_HEADER or OPEN_PLAINTEXT has `k`. -/
def decryptKont : Kont → Kont
  | .first .parseHeader => .first .decrypt
  | .header false p => .header true p
  | k => k

/-- The state of DECRYPT where PARSE_HEADER or OPEN_PLAINTEXT is in `s`. -/
def asDecrypt (s : State) : State := { s with op := 0x08, k := decryptKont s.k }

theorem asDecrypt_of_kont_eq {s : State} (h : decryptKont s.k = s.k) : asDecrypt s = { s with op := 0x08 } := by
  rw [asDecrypt, h]

/-- DECRYPT is in `t` where the other command is in `s`, which runs on in `K` or has come to an end in `E`. -/
structure Beside (K : Kont → Prop) (E : EngState → Prop) (s t : State) : Prop where
  eq : t = asDecrypt s
  place : s.st = .busy ∧ K s.k ∨ E s.st ∧ s.k = .empty

section
variable {K : Kont → Prop} {E : EngState → Prop}

theorem raise_beside (hE : E .error) (e : Err) {s : State} (hb : s.st = .busy) :
    Beside K E (raise e s) (raise e (asDecrypt s)) := by
  rw [raise_of_busy hb, raise_of_busy (by exact hb)]
  exact ⟨rfl, .inr ⟨hE, rfl⟩⟩

theorem finish_beside (hE : E .done) (s : State) : Beside K E (finish s) (finish (asDecrypt s)) :=
  ⟨rfl, .inr ⟨hE, rfl⟩⟩

theorem pull_beside (hE : E .error) {s : State} (hb : s.st = .busy) (hk : K s.k) {onByte onByte' : Byte → State → State}
    {onEof onEof' : State → State}
    (hbyte : ∀ b t, t.st = .busy → K t.k → Beside K E (onByte b t) (onByte' b (asDecrypt t)))
    (heof : ∀ t, t.st = .busy → Beside K E (onEof t) (onEof' (asDecrypt t))) :
    Beside K E (pull s onByte onEof) (pull (asDecrypt s) onByte' onEof') := by
  have hq : (asDecrypt s).inq = s.inq := rfl
  have hend : (asDecrypt s).inEnd = s.inEnd := rfl
  unfold pull
  rw [hq, hend]
  split
  · exact hbyte _ { s with inq := _, inCount := _, hold := .none } hb hk
  · split
    · exact heof { s with hold := .none } hb
    · exact raise_beside hE .inputError (s := { s with hold := .none }) hb
    · exact ⟨rfl, .inl ⟨hb, hk⟩⟩

theorem push_beside {s : State} (hb : s.st = .busy) (hk : K s.k) (b : Byte) {onPushed onPushed' : State → State}
    (hpushed : ∀ t, t.st = .busy → Beside K E (onPushed t) (onPushed' (asDecrypt t))) :
    Beside K E (push b s onPushed) (push b (asDecrypt s) onPushed') := by
  have hroom : (asDecrypt s).outq.length < (asDecrypt s).cfg.outFifoDepth ↔ s.outq.length < s.cfg.outFifoDepth :=
    Iff.rfl
  unfold push
  simp only [hroom]
  split
  · exact hpushed { s with outq := _, outCount := _, hold := .none } hb
  · exact ⟨rfl, .inl ⟨hb, hk⟩⟩

end

/-! ### PARSE_HEADER -/

/-- The continuations of PARSE_HEADER. -/
def ParsesHeader (k : Kont) : Prop := k = .first .parseHeader ∨ ∃ p, k = .header false p

/-- PARSE_HEADER in `s` and DECRYPT in `t`, before the end of the header. -/
abbrev BesideHeader (s t : State) : Prop := Beside ParsesHeader (· = .error) s t

theorem raise_besideHeader (e : Err) {s : State} (hb : s.st = .busy) :
    BesideHeader (raise e s) (raise e (asDecrypt s)) := raise_beside (E := (· = .error)) rfl e hb

/-- `pull()` in the header body: whatever the byte, both commands are in the header body after it. -/
theorem headerPull_beside {s : State} (hb : s.st = .busy) {p : HdrPoint} {onByte onByte' : Byte → State → State}
    (hbyte : ∀ b t, onByte' b (asDecrypt t) = asDecrypt (onByte b t))
    (hplace : ∀ b t, (onByte b t).st = t.st ∧ ∃ q, (onByte b t).k = .header false q) :
    BesideHeader (pull { s with k := .header false p } onByte (raise .truncatedHeader))
      (pull { asDecrypt s with k := .header true p } onByte' (raise .truncatedHeader)) := by
  refine pull_beside (K := ParsesHeader) (E := (· = .error)) (s := { s with k := .header false p }) rfl hb
    (.inr ⟨p, rfl⟩) (fun b t ht _ => ?_) fun _ ht => raise_besideHeader _ ht
  obtain ⟨hst, hk⟩ := hplace b t
  exact ⟨hbyte b t, .inl ⟨hst.trans ht, .inr hk⟩⟩

theorem headerFieldLen_beside (f : BufId) {s : State} (hb : s.st = .busy) :
    BesideHeader (headerFieldLen false f s) (headerFieldLen true f (asDecrypt s)) :=
  headerPull_beside hb (fun _ _ => by rfl) fun _ _ => ⟨by rfl, _, by rfl⟩

/-- The point behind the last byte of the last field. -/
def HeaderEnds : HdrPoint → Prop
  | .fieldData f i n => n ≤ i ∧ nextField f = none
  | _ => False

/-- Before its end, the header body does the same in both commands (44_payload_stream.md R210). -/
theorem headerStep_beside {p : HdrPoint} (hp : ¬ HeaderEnds p) {s : State} (hb : s.st = .busy)
    (onDone onDone' : State → State) :
    BesideHeader (headerStep false onDone p s) (headerStep true onDone' p (asDecrypt s)) := by
  unfold headerStep
  cases p with
  | magic0 => exact headerPull_beside hb (fun _ _ => by rfl) fun _ _ => ⟨by rfl, _, by rfl⟩
  | magic1 b0 => exact headerPull_beside hb (fun _ _ => by rfl) fun _ _ => ⟨by rfl, _, by rfl⟩
  | version b0 b1 =>
    dsimp only [headerVersion]
    split
    · exact headerPull_beside hb (fun _ _ => by rfl) fun _ _ => ⟨by rfl, _, by rfl⟩
    · exact raise_besideHeader _ hb
  | fields v =>
    dsimp only [headerFields]
    split
    · exact headerFieldLen_beside .hSalt hb
    · exact raise_besideHeader _ hb
  | fieldLen f => exact headerFieldLen_beside f hb
  | fieldData f i n =>
    dsimp only [headerFieldData]
    split
    · exact headerPull_beside hb (fun _ _ => by rfl) fun _ _ => ⟨by rfl, _, by rfl⟩
    next hi =>
      cases hf : nextField f with
      | some g => exact headerFieldLen_beside g hb
      | none => exact absurd ⟨Nat.not_lt.mp hi, hf⟩ hp

/-- A step of PARSE_HEADER: DECRYPT's step is beside it, or the header is at its end. -/
theorem engineStep_besideHeader {s : State} (hb : s.st = .busy) (hk : ParsesHeader s.k) :
    BesideHeader (engineStep s) (engineStep (asDecrypt s)) ∨
      (engineStep s = finish s ∧ engineStep (asDecrypt s) = decryptTail (asDecrypt s)) := by
  have hb' : (asDecrypt s).st = .busy := hb
  have hk' : (asDecrypt s).k = decryptKont s.k := rfl
  rcases hk with hk | ⟨p, hk⟩ <;> rw [hk] at hk'
  · left
    rw [engineStep_of_busy hb, engineStep_of_busy hb', advance, advance, hk, hk']
    exact headerStep_beside (p := .magic0) id (s := clearHeader s) hb finish decryptTail
  · by_cases hp : HeaderEnds p
    · cases p with
      | fieldData f i n =>
        obtain ⟨hi, hf⟩ := hp
        exact .inr ⟨engineStep_headerEnd hb hk hi hf, engineStep_headerEnd hb' hk' hi hf⟩
      | _ => exact hp.elim
    · left
      rw [engineStep_of_busy hb, engineStep_of_busy hb', advance, advance, hk, hk']
      exact headerStep_beside hp hb _ _

/-- As long as PARSE_HEADER has not reached DONE, DECRYPT is beside it. -/
theorem engineRun_besideHeader (n : Nat) {s t : State} (h : BesideHeader s t) (hn : (engineRun n s).st ≠ .done) :
    BesideHeader (engineRun n s) (engineRun n t) := by
  induction n with
  | zero => exact h
  | succ n ih =>
    rw [engineRun_succ_last] at hn ⊢
    rw [engineRun_succ_last]
    have hbefore : (engineRun n s).st ≠ .done := fun hd => hn (by rw [engineStep_of_not_busy (by simp [hd]), hd])
    obtain ⟨heq, hplace⟩ := ih hbefore
    rw [heq]
    rcases hplace with ⟨hb, hk⟩ | ⟨herr, hk⟩
    · rcases engineStep_besideHeader hb hk with hstep | ⟨hdone, -⟩
      · exact hstep
      · exact absurd (congrArg State.st hdone) hn
    · have hstay : (engineRun n s).st ≠ .busy := by simp [herr]
      rw [engineStep_of_not_busy hstay, engineStep_of_not_busy (by exact hstay)]
      exact ⟨rfl, .inr ⟨herr, hk⟩⟩

/-! ### UNWRAP -/

/-- The checks on the decrypted secrets read them and the buffers only (43_unwrap.md R185 to R189). -/
theorem unwrapPlain_bufs_congr {s t : State} (hpt : s.u.pt = t.u.pt) (hbufs : s.bufs = t.bufs) :
    (unwrapPlain s).map State.bufs = (unwrapPlain t).map State.bufs := by
  have hsalt : s.bufValue .hSsalt = t.bufValue .hSsalt := by rw [State.bufValue, State.bufValue, hbufs]
  cases hp : parseSecrets s.u.pt with
  | none => rw [unwrapPlain_of_parse_none hp, unwrapPlain_of_parse_none (hpt ▸ hp)]
  | some fields =>
    obtain ⟨iiv, ik, ck⟩ := fields
    generalize hexp : deriveKey ik (s.bufValue .hSsalt) Config.checkIter ck.length = exp
    rw [unwrapPlain_of_parse hp hexp, unwrapPlain_of_parse (hpt ▸ hp) (hsalt ▸ hexp)]
    simp only [apply_ite (Except.map State.bufs)]
    simp only [Except.map, hbufs]

/-- What the unwrap body does to the buffers, and its errors, depend on the buffers only (43_unwrap.md R180). -/
theorem unwrapBody_bufs_congr {s t : State} (hbufs : s.bufs = t.bufs) :
    (unwrapBody s).map State.bufs = (unwrapBody t).map State.bufs := by
  have hlen : ∀ id, s.bufLen id = t.bufLen id := fun id => by rw [State.bufLen, State.bufLen, hbufs]
  have hvalue : ∀ id, s.bufValue id = t.bufValue id := fun id => by rw [State.bufValue, State.bufValue, hbufs]
  by_cases hs : s.bufLen .hSecrets % 16 = 0
  · by_cases hl : s.bufLen .hIv = 16
    · generalize hok : deriveKey (s.bufValue .secret) (s.bufValue .hSalt) Config.outerIter Config.outerKeyLen = ok
      obtain ⟨s', hs', hsbufs, hspt⟩ := unwrapBody_of_plain hs hl hok
      obtain ⟨t', ht', htbufs, htpt⟩ := unwrapBody_of_plain (hlen _ ▸ hs) (hlen _ ▸ hl) (hvalue _ ▸ hvalue _ ▸ hok)
      rw [hs', ht']
      exact unwrapPlain_bufs_congr (by rw [hspt, htpt, hvalue, hvalue]) (by rw [hsbufs, htbufs, hbufs])
    · have hfails : ∀ r : State, r.bufs = s.bufs → unwrapBody r = .error .headerIvLen := fun r hr => by
        rw [unwrapBody, if_neg (not_not.mpr (by rwa [State.bufLen, hr])), if_pos (by rwa [State.bufLen, hr])]
      rw [hfails s rfl, hfails t hbufs.symm]
  · have hfails : ∀ r : State, r.bufs = s.bufs → unwrapBody r = .error .secretsMisaligned := fun r hr => by
      rw [unwrapBody, if_pos (by rwa [State.bufLen, hr])]
    rw [hfails s rfl, hfails t hbufs.symm]

/-! ### OPEN_PLAINTEXT -/

/-- The continuations of the decoder. -/
def Inflates (k : Kont) : Prop := isInflating k = true

/-- The decoder in `s` and in DECRYPT in `t`, or both at their end. -/
abbrev BesideDecoder (s t : State) : Prop := Beside Inflates (· ≠ .busy) s t

theorem raise_besideDecoder (e : Err) {s : State} (hb : s.st = .busy) :
    BesideDecoder (raise e s) (raise e (asDecrypt s)) := raise_beside (E := (· ≠ .busy)) (by decide) e hb

theorem finish_besideDecoder (s : State) : BesideDecoder (finish s) (finish (asDecrypt s)) :=
  finish_beside (E := (· ≠ .busy)) (by decide) s

/-- DECRYPT's name for a continuation of the decoder is the continuation itself. -/
theorem decryptKont_of_inflates {k : Kont} (h : Inflates k) : decryptKont k = k := by
  cases k with
  | inflate src p inHand => rfl
  | _ => cases h

theorem stageAAccept_beside (b : Byte) {s : State} (hb : s.st = .busy) (hk : Inflates s.k) :
    BesideDecoder (stageAAccept b s) (stageAAccept b (asDecrypt s)) := by
  have hc : (asDecrypt s).c = s.c := rfl
  unfold stageAAccept
  rw [hc]
  dsimp only
  split <;> exact ⟨rfl, .inl ⟨hb, hk⟩⟩

theorem stageAEnd_beside {s : State} (hb : s.st = .busy) :
    BesideDecoder (stageAEnd s) (stageAEnd (asDecrypt s)) := by
  have hc : (asDecrypt s).c = s.c := rfl
  unfold stageAEnd
  rw [hc]
  split <;> exact raise_besideDecoder _ hb

theorem inflatePull_beside (src : Source) (p : ZPoint) {s : State} (hb : s.st = .busy) :
    BesideDecoder (inflatePull src p s) (inflatePull src p (asDecrypt s)) := by
  unfold inflatePull
  cases src with
  | raw =>
    exact pull_beside (K := Inflates) (E := (· ≠ .busy)) (s := { s with k := .inflate .raw p none }) (by decide) hb
      rfl (fun _ _ ht _ => ⟨by rfl, .inl ⟨ht, by rfl⟩⟩) fun _ ht => raise_besideDecoder _ ht
  | stageB =>
    exact pull_beside (K := Inflates) (E := (· ≠ .busy)) (s := { s with k := .inflate .stageB p none }) (by decide) hb
      rfl (fun b _ ht hk => stageAAccept_beside b ht hk) fun _ ht => stageAEnd_beside ht

theorem inflateEmit_beside (src : Source) (p : ZPoint) (b : Byte) {s : State} (hb : s.st = .busy) :
    BesideDecoder (inflateEmit src p b s) (inflateEmit src p b (asDecrypt s)) :=
  push_beside (K := Inflates) (E := (· ≠ .busy)) (s := { s with k := .inflate src p none }) hb rfl b
    fun _ ht => ⟨by rfl, .inl ⟨ht, by rfl⟩⟩

theorem inflateRun_beside (n : Nat) (src : Source) (p : ZPoint) :
    ∀ s : State, s.st = .busy → BesideDecoder (inflateRun n src p s) (inflateRun n src p (asDecrypt s)) := by
  induction n generalizing p with
  | zero => exact fun _ hb => ⟨rfl, .inl ⟨hb, rfl⟩⟩
  | succ n ih =>
    intro s hb
    have hz : zMove src p (asDecrypt s) = zMove src p s := rfl
    rw [inflateRun, inflateRun, hz]
    cases zMove src p s with
    | pull => exact inflatePull_beside src p hb
    | emit b => exact inflateEmit_beside src p b hb
    | silent r pos =>
      cases r with
      | cont z q => exact ih q { s with z := z, sbpos := pos } hb
      | fail e => exact raise_besideDecoder e hb
      | done => exact finish_besideDecoder s

theorem inflateStep_beside (src : Source) (p : ZPoint) (inHand : Option Byte) {s : State} (hb : s.st = .busy) :
    BesideDecoder (inflateStep src p inHand s) (inflateStep src p inHand (asDecrypt s)) := by
  cases inHand with
  | none => exact inflateRun_beside _ src p s hb
  | some b =>
    have hz : (asDecrypt s).z = s.z := rfl
    rw [inflateStep, inflateStep, hz]
    cases zOnByte s.z p b with
    | cont z q => exact inflateRun_beside _ src q { s with z := z } hb
    | fail e => exact raise_besideDecoder e hb
    | done => exact finish_besideDecoder s

theorem engineRun_besideDecoder (n : Nat) {s t : State} (h : BesideDecoder s t) :
    BesideDecoder (engineRun n s) (engineRun n t) := by
  induction n with
  | zero => exact h
  | succ n ih =>
    rw [engineRun_succ_last, engineRun_succ_last]
    obtain ⟨heq, hplace⟩ := ih
    rw [heq]
    rcases hplace with ⟨hb, hk⟩ | ⟨hstay, hk⟩
    · cases hk' : (engineRun n s).k with
      | inflate src p inHand =>
        have hk'' : (asDecrypt (engineRun n s)).k = .inflate src p inHand := congrArg decryptKont hk'
        rw [engineStep_of_busy hb, engineStep_of_busy (by exact hb), advance, advance, hk', hk'']
        exact inflateStep_beside src p inHand hb
      | _ => rw [hk'] at hk; cases hk
    · rw [engineStep_of_not_busy hstay, engineStep_of_not_busy (by exact hstay)]
      exact ⟨rfl, .inr ⟨hstay, hk⟩⟩

/-- Where the decoder runs, and at every end, DECRYPT differs in OP only. -/
theorem BesideDecoder.eq_setOp {s t : State} (h : BesideDecoder s t) : t = { s with op := 0x08 } := by
  have hk : decryptKont s.k = s.k := by
    rcases h.place with ⟨-, hk⟩ | ⟨-, hk⟩
    · exact decryptKont_of_inflates hk
    · rw [hk]; rfl
  rw [h.eq, asDecrypt_of_kont_eq hk]

/-! ### The three commands -/

theorem inv_engineRun (n : Nat) {s : State} (h : s.Inv) : (engineRun n s).Inv := by
  induction n with
  | zero => exact h
  | succ n ih => exact engineRun_succ_last n s ▸ inv_engineStep ih

/-- The unwrap body leaves everything but C, U, KEY and IV as it is, and U zeroized. -/
theorem unwrapBody_frameBufs {s t : State} (h : unwrapBody s = .ok t) :
    ∃ c, t = { s with c := c, u := .zero, bufs := t.bufs } := by
  obtain ⟨c, ik, iiv, -, -, rfl⟩ := unwrapBody_ok h
  exact ⟨c, rfl⟩

/-- UNWRAP fails where DECRYPT's unwrap body fails, with the same error (43_unwrap.md R180, 44_payload_stream.md
R211). -/
theorem decryptTail_of_unwrap_error {s : State} {e : Err} (hb : s.st = .busy)
    (h : unwrapBody (startCommand .unwrap (finish s)) = .error e) :
    decryptTail (asDecrypt s) = { engineStep (startCommand .unwrap (finish s)) with op := 0x08 } := by
  have hanswer := unwrapBody_bufs_congr (s := startCommand .unwrap (finish s)) (t := asDecrypt s) rfl
  rw [h] at hanswer
  cases hd : unwrapBody (asDecrypt s) with
  | ok t => rw [hd] at hanswer; cases hanswer
  | error e' =>
    rw [hd] at hanswer
    cases hanswer
    rw [decryptTail_eq, hd, engineStep_of_busy rfl, advance]
    dsimp only [startCommand_k, firstStep]
    rw [unwrapStart_eq, h]
    dsimp only [onResult]
    rw [raise_of_busy (by exact hb), raise_of_busy (by rfl)]
    rfl

/-- Where UNWRAP is done, OPEN_PLAINTEXT inflates from the state in which DECRYPT does (44_payload_stream.md R211). -/
theorem decryptTail_of_unwrap_ok {s t : State} (hinv : s.Inv) (hb : s.st = .busy) (hk : ParsesHeader s.k)
    (h : unwrapBody (startCommand .unwrap (finish s)) = .ok t) (m : Nat) :
    engineRun m (decryptTail (asDecrypt s)) =
      { engineRun (m + 1) (startCommand .openPlaintext (finish t)) with op := 0x08 } := by
  have hidle : isInflating s.k = false := by
    rcases hk with hk | ⟨p, hk⟩ <;> rw [hk] <;> rfl
  obtain ⟨hsb, -, hz⟩ := hinv.idleZ hidle
  have hanswer := unwrapBody_bufs_congr (s := startCommand .unwrap (finish s)) (t := asDecrypt s) rfl
  rw [h] at hanswer
  cases hd : unwrapBody (asDecrypt s) with
  | error e => rw [hd] at hanswer; cases hanswer
  | ok t' =>
    rw [hd] at hanswer
    have hbufs : t.bufs = t'.bufs := Except.ok.inj hanswer
    obtain ⟨c, ik, iiv, hik, hiiv, ht⟩ := unwrapBody_ok h
    have hkey : (finish t).bufLen .key ∈ Config.aesKeyLens := by rw [ht]; exact hik
    have hiv : (finish t).bufLen .iv = Config.blockBytes := by rw [ht]; exact hiiv
    have hbeside : BesideDecoder (openReady (startCommand .openPlaintext (finish t))) (openReady t') := by
      obtain ⟨c, ht⟩ := unwrapBody_frameBufs h
      obtain ⟨c', ht'⟩ := unwrapBody_frameBufs hd
      refine ⟨?_, .inl ⟨rfl, rfl⟩⟩
      rw [ht', ← hbufs, ht]
      simp [openReady, asDecrypt, startCommand, finish, releaseContexts, decryptKont, State.bufValue, hsb, hz, hb]
    rw [decryptTail_of_unwrapBody (by exact hb) hd, ← engineRun_succ, engineRun_succ m (startCommand _ _),
      engineStep_openPlaintext hkey hiv, ← engineRun_succ]
    exact BesideDecoder.eq_setOp (engineRun_besideDecoder (m + 1) hbeside)

/-- UNWRAP is done in the step in which its body succeeds, and in ERROR otherwise (43_unwrap.md R180). -/
theorem engineStep_unwrap_cases (s : State) :
    (∃ e, unwrapBody (startCommand .unwrap s) = .error e ∧ (engineStep (startCommand .unwrap s)).st = .error) ∨
    (∃ t, unwrapBody (startCommand .unwrap s) = .ok t ∧ engineStep (startCommand .unwrap s) = finish t) := by
  rw [engineStep_of_busy rfl, advance]
  dsimp only [startCommand_k, firstStep]
  rw [unwrapStart_eq]
  cases unwrapBody (startCommand .unwrap s) with
  | error e => exact .inl ⟨e, rfl, raise_st e _⟩
  | ok t => exact .inr ⟨t, rfl, rfl⟩

/-- PARSE_HEADER begins beside DECRYPT. -/
theorem besideHeader_start (s : State) : BesideHeader (startCommand .parseHeader s) (startCommand .decrypt s) :=
  ⟨rfl, .inl ⟨rfl, .inl rfl⟩⟩

/-- In the step in which PARSE_HEADER is done, DECRYPT goes on behind the header body (44_payload_stream.md R210). -/
theorem parseHeader_done {s t : State} {n : Nat} (hrun : engineRun n (startCommand .parseHeader s) = t)
    (hb : t.st = .busy) (hdone : (engineStep t).st = .done) :
    ParsesHeader t.k ∧ engineStep t = finish t ∧
      engineRun (n + 1) (startCommand .decrypt s) = decryptTail (asDecrypt t) := by
  obtain ⟨heq, hplace⟩ := engineRun_besideHeader n (besideHeader_start s) (by simp [hrun, hb])
  rw [hrun] at heq hplace
  obtain ⟨-, hk⟩ | ⟨herr, -⟩ := hplace
  · rcases engineStep_besideHeader hb hk with hstep | ⟨hparse, hdecrypt⟩
    · obtain ⟨hb', -⟩ | ⟨herr, -⟩ := hstep.place
      · rw [hdone] at hb'; cases hb'
      · rw [hdone] at herr; cases herr
    · exact ⟨hk, hparse, by rw [engineRun_succ_last, heq, hdecrypt]⟩
  · rw [hb] at herr; cases herr

/-- Settles O48: DECRYPT runs beside PARSE_HEADER to the end of the header, where the unwrap bodies of UNWRAP and
DECRYPT answer alike, and then beside OPEN_PLAINTEXT. -/
theorem decryptIsTheThreeCommands : Obligations.DecryptIsTheThreeCommands := by
  intro s hinv hready
  refine ⟨_, _, exec_of_ready hready (by decide), exec_of_ready hready (by decide), fun n herr => ?_,
    fun n hb hdone => ?_⟩
  · obtain ⟨heq, hplace⟩ := engineRun_besideHeader n (besideHeader_start s) (by simp [herr])
    obtain ⟨hb, -⟩ | ⟨-, hk⟩ := hplace
    · rw [herr] at hb; cases hb
    · rw [heq, asDecrypt_of_kont_eq (by rw [hk]; rfl)]
  · have hinvRun := inv_engineRun n (inv_startCommand hinv hready (i := .parseHeader) (by decide))
    rw [engineRun_succ_last] at hdone ⊢
    generalize hrun : engineRun n (startCommand .parseHeader s) = t at hb hdone hinvRun ⊢
    obtain ⟨hk, hparse, hdecrypt⟩ := parseHeader_done hrun hb hdone
    rw [hparse]
    refine ⟨_, exec_of_ready (.inr rfl) (by decide), ?_⟩
    rcases engineStep_unwrap_cases (finish t) with ⟨e, hbody, hfails⟩ | ⟨v, hbody, hdone⟩
    · refine ⟨fun _ => by rw [hdecrypt, decryptTail_of_unwrap_error hb hbody], fun h => ?_⟩
      rw [hfails] at h; cases h
    · rw [hdone]
      refine ⟨fun h => (by cases h), fun _ => ⟨_, exec_of_ready (.inr rfl) (by decide), fun m => ?_⟩⟩
      rw [engineRun_add, hdecrypt, decryptTail_of_unwrap_ok hinvRun hb hk hbody]

end Sys2Proof.Machine
end

section
/-!
SUPPORT. The bit reader's arithmetic, and canonical codes: `decode` goes on exactly while the bits read are beyond the
codes of their length, and then reads the symbol whose code they are (45_inflate.md R231, R236, R237).
-/

namespace Sys2Proof.Machine

/-! ### The bit reader (45_inflate.md R231) -/

/-- A byte goes in above the unread bits, as long as the buffer has room for it. -/
theorem feedBits_bitbuf_toNat {z : InflateCtx} (hbuf : z.bitbuf.toNat < 2 ^ z.bitcnt) (hcnt : z.bitcnt ≤ 24)
    (b : Byte) : (feedBits z b).bitbuf.toNat = z.bitbuf.toNat + b.toNat * 2 ^ z.bitcnt := by
  have hfits : b.toNat * 2 ^ z.bitcnt < 2 ^ 32 := by
    calc b.toNat * 2 ^ z.bitcnt < 2 ^ 8 * 2 ^ z.bitcnt := Nat.mul_lt_mul_of_pos_right b.isLt (Nat.two_pow_pos _)
      _ = 2 ^ (8 + z.bitcnt) := (Nat.pow_add 2 8 z.bitcnt).symm
      _ ≤ 2 ^ 32 := Nat.pow_le_pow_right (by decide) (by omega)
  have hbyte : b.toNat < 2 ^ 32 := b.isLt.trans (by decide)
  have hshift : (b.setWidth 32 <<< z.bitcnt).toNat = b.toNat <<< z.bitcnt := by
    rw [BitVec.toNat_shiftLeft, BitVec.toNat_setWidth, Nat.mod_eq_of_lt hbyte, Nat.shiftLeft_eq, Nat.mod_eq_of_lt hfits]
  rw [feedBits, BitVec.toNat_or, hshift, Nat.or_comm, ← Nat.shiftLeft_add_eq_or_of_lt hbuf, Nat.shiftLeft_eq,
    Nat.add_comm]

theorem dropBits_bitbuf_toNat (z : InflateCtx) (n : Nat) : (dropBits z n).bitbuf.toNat = z.bitbuf.toNat / 2 ^ n := by
  rw [dropBits, BitVec.toNat_ushiftRight, Nat.shiftRight_eq_div_pow]

/-- Settles O42: a byte goes in above the unread bits, and taking bits out is division by a power of two. -/
theorem bitReaderIsExact : Obligations.BitReaderIsExact := by
  intro z b n hbuf hcnt
  refine ⟨fun _ => ⟨feedBits_bitbuf_toNat hbuf hcnt b, rfl⟩, fun hn _ => ⟨?_, dropBits_bitbuf_toNat z n, rfl⟩⟩
  rw [peekBits_eq (by omega), bitsBehind, Nat.pow_zero, Nat.div_one]

/-! ### Code values (45_inflate.md R236) -/

/-- The table that `build` gives, and that the code is not over-subscribed. -/
theorem of_buildCode_eq_some {lens : List Nat} {left : Nat} {t : HTable} (hlens : ∀ l ∈ lens, l ≤ 15)
    (h : buildCode lens = some (left, t)) :
    t = { count := lengthCounts lens, symbol := canonicalSymbols lens } ∧ codeSpace lens ≤ 2 ^ 15 := by
  rw [buildCode_eq lens hlens] at h
  split at h
  · rename_i hspace
    injection h with h
    injection h with _ ht
    exact ⟨ht.symm, hspace⟩
  · cases h

theorem lengthCounts_getD (lens : List Nat) {l : Nat} (h : l ≤ 15) : (lengthCounts lens).getD l 0 = lens.count l := by
  have hl : l < 16 := by omega
  simp [lengthCounts, List.getD_eq_getElem?_getD, hl]

/-- The share of the codes of one length, and the share of the longer ones. -/
theorem countSpace_drop_lengthCounts (lens : List Nat) {k : Nat} (hk : k < 15) :
    countSpace ((lengthCounts lens).drop (k + 1)) =
      lens.count (k + 1) * 2 ^ (14 - k) + countSpace ((lengthCounts lens).drop (k + 2)) := by
  have hlen : k + 1 < (lengthCounts lens).length := by simp [lengthCounts]; omega
  have hcount : (lengthCounts lens)[k + 1] = lens.count (k + 1) := by simp [lengthCounts]
  have hrest : ((lengthCounts lens).drop (k + 2)).length = 14 - k := by simp [lengthCounts]
  rw [List.drop_eq_getElem_cons hlen, countSpace, hcount, hrest]

/-- The code space below the first code of a length is the one that the shorter lengths take. -/
theorem firstCode_space (lens : List Nat) : ∀ l, l < 15 →
    firstCode lens (l + 1) * 2 ^ (14 - l) + countSpace ((lengthCounts lens).drop (l + 1)) =
      countSpace ((lengthCounts lens).drop 1)
  | 0, _ => by simp [firstCode]
  | l + 1, h => by
    have hpow : 2 ^ (14 - l) = 2 * 2 ^ (14 - (l + 1)) := by
      rw [← Nat.pow_succ', Nat.succ_eq_add_one, show 14 - (l + 1) + 1 = 14 - l by omega]
    rw [← firstCode_space lens l (by omega), countSpace_drop_lengthCounts lens (show l < 15 by omega), firstCode,
      if_neg (Nat.succ_ne_zero l), hpow]
    ring

/-- In a code that is not over-subscribed, the codes of a length have that many bits. -/
theorem firstCode_add_count_le {lens : List Nat} (hlens : ∀ l ∈ lens, l ≤ 15) (hspace : codeSpace lens ≤ 2 ^ 15)
    {l : Nat} (hl : l < 15) : firstCode lens (l + 1) + lens.count (l + 1) ≤ 2 ^ (l + 1) := by
  have htaken := firstCode_space lens l hl
  rw [countSpace_lengthCounts lens hlens, countSpace_drop_lengthCounts lens hl] at htaken
  have hpow : 2 ^ 15 = 2 ^ (l + 1) * 2 ^ (14 - l) := by
    rw [← Nat.pow_add, show l + 1 + (14 - l) = 15 by omega]
  refine Nat.le_of_mul_le_mul_right (c := 2 ^ (14 - l)) ?_ (Nat.two_pow_pos _)
  rw [← hpow, Nat.add_mul]
  omega

/-- Longer codes come behind all codes of a length. -/
theorem firstCode_add_count_mul_le (lens : List Nat) {k : Nat} (hk : 0 < k) :
    ∀ n, (firstCode lens k + lens.count k) * 2 ^ (n + 1) ≤ firstCode lens (k + n + 1)
  | 0 => by rw [firstCode, Nat.add_zero, if_neg (by omega)]; omega
  | n + 1 => by
    have ih := firstCode_add_count_mul_le lens hk n
    rw [← Nat.add_assoc, firstCode, if_neg (by omega), Nat.pow_succ, ← Nat.mul_assoc]
    omega

/-! ### The symbols in canonical order (45_inflate.md R236) -/

/-- The symbols of one length, in rising order. -/
def symbolsOfLength (lens : List Nat) (l : Nat) : List Nat := (lens.zipIdx.filter fun x => x.1 == l).map Prod.snd

theorem canonicalSymbols_eq (lens : List Nat) :
    canonicalSymbols lens = (List.range 15).flatMap fun l => symbolsOfLength lens (l + 1) := rfl

theorem length_filter_zipIdx (l : Nat) : ∀ (lens : List Nat) (i : Nat),
    ((lens.zipIdx i).filter fun x => x.1 == l).length = lens.count l
  | [], _ => rfl
  | a :: lens, i => by
    have ih := length_filter_zipIdx l lens (i + 1)
    by_cases h : a = l <;> simp [List.zipIdx_cons, h, ih]

theorem length_symbolsOfLength (lens : List Nat) (l : Nat) : (symbolsOfLength lens l).length = lens.count l := by
  rw [symbolsOfLength, List.length_map, length_filter_zipIdx]

/-- A symbol stands among those of its length at the place of its code. -/
theorem symbolsOfLength_getElem? {lens : List Nat} {x : Nat} (hx : x < lens.length) :
    (symbolsOfLength lens lens[x])[(lens.take x).count lens[x]]? = some x := by
  have hsplit : lens = lens.take x ++ lens[x] :: lens.drop (x + 1) := by
    rw [← List.drop_eq_getElem_cons hx, List.take_append_drop]
  have hmin : min x lens.length = x := by omega
  generalize lens[x] = l at hsplit ⊢
  have hzip : lens.zipIdx =
      (lens.take x).zipIdx ++ (l, x) :: (lens.drop (x + 1)).zipIdx (x + 1) := by
    conv_lhs => rw [hsplit]
    simp [List.zipIdx_append, List.zipIdx_cons, hmin]
  rw [symbolsOfLength, hzip, List.filter_append, List.map_append, List.getElem?_append_right]
  · simp [length_filter_zipIdx]
  · simp [length_filter_zipIdx]

/-- The number of codes of at most `k` bits. -/
def codesUpTo (lens : List Nat) (k : Nat) : Nat := ((List.range k).map fun l => lens.count (l + 1)).sum

theorem codesUpTo_succ (lens : List Nat) (k : Nat) :
    codesUpTo lens (k + 1) = codesUpTo lens k + lens.count (k + 1) := by
  simp [codesUpTo, List.range_succ]

theorem length_symbolsUpTo (lens : List Nat) (k : Nat) :
    ((List.range k).flatMap fun l => symbolsOfLength lens (l + 1)).length = codesUpTo lens k := by
  simp [codesUpTo, List.length_flatMap, length_symbolsOfLength]

/-- The symbols of a length stand behind those of the shorter lengths. -/
theorem canonicalSymbols_getElem? {lens : List Nat} {l i x : Nat} (hl : l < 15)
    (h : (symbolsOfLength lens (l + 1))[i]? = some x) : (canonicalSymbols lens)[codesUpTo lens l + i]? = some x := by
  obtain ⟨n, hn⟩ : ∃ n, 15 = l + (n + 1) := ⟨14 - l, by omega⟩
  have hi : i < (symbolsOfLength lens (l + 1)).length := by
    by_contra hge
    rw [List.getElem?_eq_none (by omega)] at h
    cases h
  rw [canonicalSymbols_eq, hn, List.range_add, List.flatMap_append, List.range_succ_eq_map, List.map_cons,
    List.flatMap_cons, Nat.add_zero, List.getElem?_append_right (by rw [length_symbolsUpTo]; omega), length_symbolsUpTo,
    Nat.add_sub_cancel_left, List.getElem?_append_left hi, h]

/-- Every place among the codes of a length is a symbol's. -/
theorem exists_of_lt_count {l : Nat} : ∀ {lens : List Nat} {r : Nat}, r < lens.count l →
    ∃ x, x < lens.length ∧ lens.getD x 0 = l ∧ (lens.take x).count l = r
  | [], r, h => absurd h (Nat.not_lt_zero r)
  | a :: lens, r, h => by
    by_cases ha : a = l
    · subst ha
      cases r with
      | zero => exact ⟨0, Nat.succ_pos _, rfl, rfl⟩
      | succ r =>
        rw [List.count_cons_self] at h
        obtain ⟨x, hx, hl, hr⟩ := exists_of_lt_count (Nat.lt_of_succ_lt_succ h)
        exact ⟨x + 1, Nat.succ_lt_succ hx, hl, by rw [List.take_succ_cons, List.count_cons_self, hr]⟩
    · rw [List.count_cons_of_ne ha] at h
      obtain ⟨x, hx, hl, hr⟩ := exists_of_lt_count h
      exact ⟨x + 1, Nat.succ_lt_succ hx, hl, by rw [List.take_succ_cons, List.count_cons_of_ne ha, hr]⟩

/-! ### `decode` (45_inflate.md R237) -/

/-- The locals of `decode` after `k` bits that are the number `v` and form no code. -/
def decodeAt (lens : List Nat) (k v : Nat) : SymDec :=
  { used := k, code := 2 * v, first := firstCode lens (k + 1), index := codesUpTo lens k }

/-- One bit of `decode`: `v` is the number that the bits make, this one included. -/
theorem symBit_decodeAt {lens : List Nat} {t : HTable}
    (ht : t = { count := lengthCounts lens, symbol := canonicalSymbols lens }) {k : Nat} (hk : k < 15) (v : Nat) :
    symBit t (decodeAt lens k (v / 2)) (v % 2) =
      if v < firstCode lens (k + 1) + lens.count (k + 1) then
        .symbol ((canonicalSymbols lens).getD (codesUpTo lens k + (v - firstCode lens (k + 1))) 0)
      else if k + 1 = 15 then .bad
      else .more (decodeAt lens (k + 1) v) := by
  have hcode : 2 * (v / 2) ||| v % 2 = v := by
    have h := Nat.two_pow_add_eq_or_of_lt (i := 1) (Nat.mod_lt v (by decide : 2 > 0)) (v / 2)
    rw [Nat.pow_one] at h
    rw [← h, Nat.div_add_mod]
  subst ht
  simp only [symBit, decodeAt, hcode, lengthCounts_getD lens (show k + 1 ≤ 15 by omega), Nat.shiftLeft_eq, Nat.pow_one,
    codesUpTo_succ, firstCode, if_neg (Nat.succ_ne_zero k), Nat.mul_comm _ 2]

theorem decodeBits_append {t : HTable} {d d' : SymDec} {bits : List Nat} (more : List Nat)
    (h : decodeBits t d bits = .more d') : decodeBits t d (bits ++ more) = decodeBits t d' more := by
  induction bits generalizing d with
  | nil =>
    injection h with h
    rw [h, List.nil_append]
  | cons b bits ih =>
    rw [decodeBits] at h
    rw [List.cons_append, decodeBits]
    split at h
    · exact ih h
    · split at h <;> cases h
    · cases h

/-- A code's bits, the last one apart. -/
theorem codeBits_succ_last (v : Nat) : ∀ n, codeBits (n + 1) v = codeBits n (v / 2) ++ [v % 2]
  | 0 => by simp [codeBits]
  | n + 1 => by
    have ih := codeBits_succ_last v n
    rw [codeBits, ih, codeBits, List.cons_append, Nat.div_div_eq_div_mul, ← Nat.pow_succ']

theorem codeBits_length (v : Nat) : ∀ n, (codeBits n v).length = n
  | 0 => rfl
  | n + 1 => by rw [codeBits, List.length_cons, codeBits_length v n]

/-- The first bits of a code are its number without the others. -/
theorem take_codeBits (v m : Nat) : ∀ n, (codeBits (m + n) v).take m = codeBits m (v / 2 ^ n)
  | 0 => by rw [Nat.add_zero, Nat.pow_zero, Nat.div_one, List.take_of_length_le (codeBits_length v m).le]
  | n + 1 => by
    rw [← Nat.add_assoc, codeBits_succ_last, List.take_append_of_le_length (by rw [codeBits_length]; omega),
      take_codeBits (v / 2) m n, Nat.div_div_eq_div_mul, ← Nat.pow_succ']

/-- No first bits of the `m` bits of `v` are a code: they are beyond the codes of their length. -/
def BeyondCodes (lens : List Nat) (m v : Nat) : Prop :=
  ∀ j, 0 < j → j ≤ m → firstCode lens j + lens.count j ≤ v / 2 ^ (m - j)

theorem beyondCodes_zero (lens : List Nat) (v : Nat) : BeyondCodes lens 0 v := fun j hpos hj => by omega

theorem beyondCodes_succ_iff (lens : List Nat) (m v : Nat) :
    BeyondCodes lens (m + 1) v ↔ BeyondCodes lens m (v / 2) ∧ firstCode lens (m + 1) + lens.count (m + 1) ≤ v := by
  have hhalf : ∀ j, j ≤ m → v / 2 ^ (m + 1 - j) = v / 2 / 2 ^ (m - j) := fun j hj => by
    rw [Nat.div_div_eq_div_mul, ← Nat.pow_succ', Nat.succ_sub hj]
  constructor
  · intro h
    refine ⟨fun j hpos hj => hhalf j hj ▸ h j hpos (by omega), ?_⟩
    simpa using h (m + 1) m.succ_pos (Nat.le_refl _)
  · rintro ⟨h, hlast⟩ j hpos hj
    rcases Nat.lt_or_ge m j with hlt | hge
    · obtain rfl : j = m + 1 := by omega
      simpa using hlast
    · exact hhalf j hge ▸ h j hpos hge

/-- Bits beyond the codes are not before the first code of the next length. -/
theorem firstCode_le_of_beyondCodes {lens : List Nat} {m v : Nat} (h : BeyondCodes lens m (v / 2)) :
    firstCode lens (m + 1) ≤ v := by
  cases m with
  | zero => exact Nat.zero_le v
  | succ m =>
    have := h (m + 1) m.succ_pos (Nat.le_refl _)
    rw [Nat.sub_self, Nat.pow_zero, Nat.div_one] at this
    rw [firstCode, if_neg (Nat.succ_ne_zero m)]
    omega

/-- `decode` goes on over bits of which no first ones are a code. -/
theorem decodeBits_of_beyondCodes {lens : List Nat} {t : HTable}
    (ht : t = { count := lengthCounts lens, symbol := canonicalSymbols lens }) :
    ∀ {m v : Nat}, m < 15 → v < 2 ^ m → BeyondCodes lens m v →
      decodeBits t symStart (codeBits m v) = .more (decodeAt lens m v)
  | 0, v, _, hv, _ => by
    obtain rfl : v = 0 := by omega
    rfl
  | m + 1, v, hm, hv, hbeyond => by
    rw [beyondCodes_succ_iff] at hbeyond
    obtain ⟨hfirst, hlast⟩ := hbeyond
    have ih := decodeBits_of_beyondCodes ht (by omega) (by omega) hfirst
    rw [codeBits_succ_last, decodeBits_append _ ih, decodeBits, symBit_decodeAt ht (by omega),
      if_neg (Nat.not_lt.mpr hlast), if_neg (by omega)]
    rfl

/-- The code of a used symbol is one of its length's codes. -/
theorem canonicalCode_lt {lens : List Nat} {x l : Nat} (hx : x < lens.length) (hl : lens.getD x 0 = l) :
    canonicalCode lens x < firstCode lens l + lens.count l := by
  rw [List.getD_eq_getElem _ _ hx] at hl
  have hsplit : lens.count l = (lens.take x).count l + (lens.drop x).count l := by
    rw [← List.count_append, List.take_append_drop]
  have hrest : 0 < (lens.drop x).count l := by rw [List.drop_eq_getElem_cons hx, hl]; simp
  rw [canonicalCode, List.getD_eq_getElem _ _ hx, hl]
  omega

/-- No first bits of a symbol's code are a code. -/
theorem beyondCodes_canonicalCode {lens : List Nat} {x m n : Nat} (hl : lens.getD x 0 = m + (n + 1)) :
    BeyondCodes lens m (canonicalCode lens x / 2 ^ (n + 1)) := by
  intro j hpos hj
  obtain ⟨i, rfl⟩ := Nat.exists_eq_add_of_le hj
  have hshort := firstCode_add_count_mul_le lens hpos (i + n)
  rw [Nat.add_sub_cancel_left, Nat.div_div_eq_div_mul, ← Nat.pow_add,
    Nat.le_div_iff_mul_le (Nat.two_pow_pos _), show n + 1 + i = i + n + 1 by omega]
  refine hshort.trans ?_
  rw [canonicalCode, hl, show j + (i + n) + 1 = j + i + (n + 1) by omega]
  exact Nat.le_add_right _ _

/-- What `decode` has read before the last bit of a used symbol's code, and that this bit gives the symbol. -/
theorem decode_canonicalCode {lens : List Nat} {t : HTable} {left x l : Nat} (hlens : ∀ k ∈ lens, k ≤ 15)
    (hbuild : buildCode lens = some (left, t)) (hx : x < lens.length) (hl : lens.getD x 0 = l + 1) :
    (∀ n, n ≤ l → decodeBits t symStart ((codeBits (l + 1) (canonicalCode lens x)).take n) =
      .more (decodeAt lens n (canonicalCode lens x / 2 ^ (l + 1 - n)))) ∧
    symBit t (decodeAt lens l (canonicalCode lens x / 2)) (canonicalCode lens x % 2) = .symbol x := by
  obtain ⟨ht, hspace⟩ := of_buildCode_eq_some hlens hbuild
  have hget : lens[x] = l + 1 := by rwa [List.getD_eq_getElem _ _ hx] at hl
  have hle : l + 1 ≤ 15 := hget ▸ hlens _ (List.getElem_mem hx)
  have hcode := canonicalCode_lt hx hl
  have hbits : canonicalCode lens x < 2 ^ (l + 1) :=
    hcode.trans_le (firstCode_add_count_le hlens hspace hle)
  constructor
  · intro n hn
    obtain ⟨i, rfl⟩ := Nat.exists_eq_add_of_le hn
    have hlow : canonicalCode lens x / 2 ^ (i + 1) < 2 ^ n := by
      rw [Nat.div_lt_iff_lt_mul (Nat.two_pow_pos _), ← Nat.pow_add]
      exact hbits
    rw [show n + i + 1 = n + (i + 1) by omega, take_codeBits, Nat.add_sub_cancel_left]
    exact decodeBits_of_beyondCodes ht (by omega) hlow (beyondCodes_canonicalCode (by rw [hl]; omega))
  · have hplace : canonicalCode lens x - firstCode lens (l + 1) = (lens.take x).count (l + 1) := by
      rw [canonicalCode, hl, Nat.add_sub_cancel_left]
    have hsymbol := symbolsOfLength_getElem? hx
    rw [hget] at hsymbol
    rw [symBit_decodeAt ht (by omega), if_pos hcode, hplace, List.getD_eq_getElem?_getD,
      canonicalSymbols_getElem? (by omega) hsymbol]
    rfl

/-- Settles O43: `decode` goes on over the first bits of the code, and its last bit gives the symbol. -/
theorem canonicalCodesDecode : Obligations.CanonicalCodesDecode := by
  intro lens left t x hlens hbuild hx hused
  obtain ⟨l, hl⟩ := Nat.exists_eq_succ_of_ne_zero hused
  obtain ⟨hmore, hlast⟩ := decode_canonicalCode hlens hbuild hx hl
  rw [hl]
  refine ⟨?_, fun n hn => ⟨_, hmore n (by omega)⟩⟩
  have hfirst := hmore l (Nat.le_refl l)
  rw [take_codeBits _ l 1, Nat.add_sub_cancel_left, Nat.pow_one] at hfirst
  rw [codeBits_succ_last, decodeBits_append _ hfirst, decodeBits, hlast]
  rfl

/-! ### Bits that form no code -/

/-- The bits of a list are those of the number they make. -/
theorem exists_codeBits_eq (bits : List Nat) (h : ∀ b ∈ bits, b < 2) :
    ∃ v, v < 2 ^ bits.length ∧ bits = codeBits bits.length v := by
  induction bits using List.reverseRecOn with
  | nil => exact ⟨0, Nat.one_pos, rfl⟩
  | append_singleton bits b ih =>
    obtain ⟨v, hlt, hv⟩ := ih fun c hc => h c (by simp [hc])
    have hb : b < 2 := h b (by simp)
    rw [List.length_append, List.length_singleton]
    refine ⟨2 * v + b, by rw [Nat.pow_succ]; omega, ?_⟩
    rw [codeBits_succ_last, show (2 * v + b) / 2 = v by omega, show (2 * v + b) % 2 = b by omega, ← hv]

/-- Bits that begin with no symbol's code are beyond the codes. -/
theorem beyondCodes_of_no_code {lens : List Nat} {k v : Nat}
    (h : ∀ x, x < lens.length → 0 < lens.getD x 0 →
      (codeBits k v).take (lens.getD x 0) ≠ codeBits (lens.getD x 0) (canonicalCode lens x)) :
    ∀ {m n : Nat}, m + n = k → BeyondCodes lens m (v / 2 ^ n)
  | 0, n, _ => beyondCodes_zero lens _
  | m + 1, n, hk => by
    have hfirst := beyondCodes_of_no_code h (show m + (n + 1) = k by omega)
    rw [Nat.pow_succ, ← Nat.div_div_eq_div_mul] at hfirst
    refine (beyondCodes_succ_iff lens m _).mpr ⟨hfirst, ?_⟩
    have hle := firstCode_le_of_beyondCodes hfirst
    by_contra hlt
    obtain ⟨x, hx, hl, hplace⟩ :=
      exists_of_lt_count (show v / 2 ^ n - firstCode lens (m + 1) < lens.count (m + 1) by omega)
    refine h x hx (by omega) ?_
    rw [hl, ← hk, take_codeBits, canonicalCode, hl, hplace, Nat.add_sub_cancel' hle]

/-! ### Unread bits -/

theorem unreadBits_length (z : InflateCtx) (n : Nat) : (unreadBits z n).length = n := by simp [unreadBits]

theorem take_unreadBits (z : InflateCtx) {m n : Nat} (h : m ≤ n) : (unreadBits z n).take m = unreadBits z m := by
  rw [unreadBits, ← List.map_take, List.take_range, Nat.min_eq_left h, unreadBits]

theorem unreadBits_succ_last (z : InflateCtx) (n : Nat) :
    unreadBits z (n + 1) = unreadBits z n ++ [peekBits (dropBits z n) 1] := by
  rw [peekBits_eq (by decide), bitsBehind_dropBits, Nat.add_zero, unreadBits, List.range_succ, List.map_append]
  rfl

/-- `decode` over the unread bits: the bits before the last one give `d`, and the last one gives `r`. -/
def DecodesTo (z : InflateCtx) (t : HTable) (n : Nat) (r : SymRes) : Prop :=
  n + 1 ≤ z.bitcnt ∧ ∃ d, decodeBits t symStart (unreadBits z n) = .more d ∧ symBit t d (peekBits (dropBits z n) 1) = r

/-- Where a symbol's code is next, its last bit gives the symbol. -/
theorem decodesTo_of_codeIsNext {z : InflateCtx} {t : HTable} {x l : Nat} (h : CodeIsNext z t x l) :
    ∃ n, l = n + 1 ∧ DecodesTo z t n (.symbol x) := by
  obtain ⟨lens, left, hlens, hbuild, hx, hl, hpos, hcnt, hbits⟩ := h
  obtain ⟨n, rfl⟩ : ∃ n, l = n + 1 := ⟨l - 1, by omega⟩
  obtain ⟨hmore, hlast⟩ := decode_canonicalCode hlens hbuild hx hl
  have hfirst := hmore n (Nat.le_refl n)
  rw [← hbits, take_unreadBits z n.le_succ, Nat.add_sub_cancel_left, Nat.pow_one] at hfirst
  rw [unreadBits_succ_last, codeBits_succ_last] at hbits
  have hbit := (List.append_inj' hbits rfl).2
  injection hbit with hbit
  exact ⟨n, rfl, hcnt, _, hfirst, hbit ▸ hlast⟩

/-- Where no symbol's code is next, the 15th bit is bad. -/
theorem decodesTo_of_noCodeIsNext {z : InflateCtx} {t : HTable} (h : NoCodeIsNext z t) : DecodesTo z t 14 .bad := by
  obtain ⟨lens, left, hlens, hbuild, hcnt, hnone⟩ := h
  obtain ⟨ht, -⟩ := of_buildCode_eq_some hlens hbuild
  have htwo : ∀ b ∈ unreadBits z 15, b < 2 := fun b hb => by
    obtain ⟨i, -, rfl⟩ := List.mem_map.mp hb
    exact Nat.mod_lt _ (by decide)
  obtain ⟨v, hlt, hv⟩ := exists_codeBits_eq _ htwo
  rw [unreadBits_length] at hlt hv
  have hbeyond : BeyondCodes lens 15 (v / 2 ^ 0) := by
    refine beyondCodes_of_no_code (k := 15) (fun x hx hpos => ?_) rfl
    have hle : lens.getD x 0 ≤ 15 := List.getD_eq_getElem _ 0 hx ▸ hlens _ (List.getElem_mem hx)
    rw [← hv, take_unreadBits z hle]
    exact hnone x hx hpos
  rw [Nat.pow_zero, Nat.div_one, beyondCodes_succ_iff] at hbeyond
  obtain ⟨hfirst, hlast⟩ := hbeyond
  rw [unreadBits_succ_last, codeBits_succ_last] at hv
  obtain ⟨hbits, hbit⟩ := List.append_inj' hv rfl
  injection hbit with hbit
  refine ⟨hcnt, decodeAt lens 14 (v / 2), ?_, ?_⟩
  · rw [hbits]
    exact decodeBits_of_beyondCodes ht (by decide) (by omega) hfirst
  · rw [hbit, symBit_decodeAt ht (by decide), if_neg (Nat.not_lt.mpr hlast), if_pos rfl]

end Sys2Proof.Machine
end

section
/-!
SUPPORT. The decoder's steps by its answers, whatever its byte source: bits, a byte in hand, a byte of INQ, and a whole
symbol whose bits are unread (45_inflate.md R231, R237, R260).
-/

namespace Sys2Proof.Machine

/-! ### Answers -/

/-- The step in which the decoder has the answer `r`, from the state before it: it goes on to the next visible step. -/
def afterAnswer (src : Source) (s : State) (r : ZRes) : State :=
  match r with
  | .cont z q => engineStep { s with z := z, k := .inflate src q none }
  | .fail e => raise e s
  | .done => finish s

/-- An answer says where the decoder goes on, not where it was. -/
theorem afterAnswer_moved {src : Source} {s : State} (hb : s.st = .busy) (z : InflateCtx) (k : Kont) (r : ZRes) :
    afterAnswer src { s with z := z, k := k } r = afterAnswer src s r := by
  cases r with
  | cont z' q => rfl
  | fail e =>
    dsimp only [afterAnswer]
    rw [raise_of_busy (by exact hb), raise_of_busy hb]
    rfl
  | done => rfl

/-- With enough bits unread, the decoder takes them in the step that goes on from there (45_inflate.md R231). -/
theorem engineStep_of_bits {src : Source} {p : ZPoint} {s : State} {n : Nat} (h : AtPoint src p s)
    (asks : zRequest s.z p = .bits n) (unread : n ≤ s.z.bitcnt) :
    engineStep s = afterAnswer src s (zOnBits (dropBits s.z n) p (peekBits s.z n)) := by
  have hmove : zMove src p s = .silent (zOnBits (dropBits s.z n) p (peekBits s.z n)) s.sbpos := by
    simp only [zMove, asks, if_neg (Nat.not_lt.mpr unread)]
  cases hr : zOnBits (dropBits s.z n) p (peekBits s.z n) with
  | cont z q => exact engineStep_of_silent h (hr ▸ hmove)
  | fail e => rw [engineStep_of_atPoint h, inflateStep, inflateFuel, inflateRun, hmove, hr]; rfl
  | done => exact engineStep_of_done h (hr ▸ hmove)

/-- A byte in hand is used in the step that goes on from there. -/
theorem engineStep_of_inHand {src : Source} {p : ZPoint} {s : State} {b : Byte} (hb : s.st = .busy)
    (hk : s.k = .inflate src p (some b)) : engineStep s = afterAnswer src s (zOnByte s.z p b) := by
  rw [engineStep_of_busy hb, advance, hk]
  dsimp only [inflateStep]
  cases zOnByte s.z p b with
  | cont z q =>
    have hnext : AtPoint src q { s with z := z, k := .inflate src q none } := ⟨hb, rfl⟩
    exact (inflateRun_setKont _ src q _ (by exact hb) _).symm.trans (engineStep_of_atPoint hnext).symm
  | fail e => rfl
  | done => rfl

/-! ### The byte source `rawByte` (45_inflate.md R260) -/

theorem engineStep_of_rawByte {p : ZPoint} {s : State} (h : AtPoint .raw p s) (wants : WantsByte s.z p) :
    engineStep s =
      pull { s with k := .inflate .raw p none } (fun b t => { t with k := .inflate .raw p (some b) })
        (raise .truncatedStream) := by
  have hmove : zMove .raw p s = .pull := zMove_of_wantsByte wants
  rw [engineStep_of_atPoint h, inflateStep_of_pull hmove, inflatePull]

/-- The decoder pulls the byte that it wants. -/
theorem engineStep_of_rawPull {p : ZPoint} {s : State} {b : Byte} {rest : List Byte} (h : AtPoint .raw p s)
    (wants : WantsByte s.z p) (hq : s.inq = b :: rest) :
    engineStep s =
      { s with inq := rest, inCount := s.inCount + 1, hold := .none, k := .inflate .raw p (some b) } := by
  rw [engineStep_of_rawByte h wants, pull_cons (by exact hq)]

/-- EOF where the decoder wants a byte. -/
theorem engineStep_of_rawEof {p : ZPoint} {s : State} (h : AtPoint .raw p s) (wants : WantsByte s.z p) (hq : s.inq = [])
    (he : s.inEnd = .eof) : engineStep s = raise .truncatedStream s := by
  rw [engineStep_of_rawByte h wants, pull_eof_raise h.busy hq he]

/-! ### Symbols (45_inflate.md R237) -/

/-- The points of one `decode`: which table it reads, and what follows the symbol. -/
structure ReadsSymbol (p : SymDec → ZPoint) (table : InflateCtx → HTable) (f : InflateCtx → Nat → ZRes) : Prop where
  asks : ∀ z d, zRequest z (p d) = .bits 1
  answer : ∀ z d v, zOnBits z (p d) v = afterSymBit (symBit (table z) d v) (fun d' => .cont z (p d')) (f z)
  keeps : ∀ z n, table (dropBits z n) = table z

theorem readsSymbol_sym : ReadsSymbol .sym InflateCtx.lit litSymbol :=
  ⟨fun _ _ => rfl, fun _ _ _ => rfl, fun _ _ => rfl⟩

theorem readsSymbol_dsym (length : Nat) : ReadsSymbol (.dsym length) InflateCtx.dist (distSymbol · length) :=
  ⟨fun _ _ => rfl, fun _ _ _ => rfl, fun _ _ => rfl⟩

theorem readsSymbol_lens (hlit hdist : Nat) (lens : List Nat) :
    ReadsSymbol (.lens hlit hdist lens) InflateCtx.clen (codeLengthSymbol · hlit hdist lens) :=
  ⟨fun _ _ => rfl, fun _ _ _ => rfl, fun _ _ => rfl⟩

section

variable {p : SymDec → ZPoint} {table : InflateCtx → HTable} {f : InflateCtx → Nat → ZRes} {src : Source}

/-- Bits over which `decode` goes on are taken without a visible step. -/
theorem engineStep_of_decode_more (hp : ReadsSymbol p table f) {d' : SymDec} :
    ∀ (n : Nat) (d : SymDec) (s : State), AtPoint src (p d) s → n ≤ s.z.bitcnt →
      decodeBits (table s.z) d (unreadBits s.z n) = .more d' →
      engineStep s = engineStep { s with z := dropBits s.z n, k := .inflate src (p d') none }
  | 0, d, s, h, _, hd => by
    have hnone : dropBits s.z 0 = s.z := by simp [dropBits]
    injection hd with hd
    rw [hnone, ← hd, ← h.kont]
  | n + 1, d, s, h, hcnt, hd => by
    rw [unreadBits_succ, decodeBits] at hd
    cases hbit : symBit (table s.z) d (peekBits s.z 1) with
    | more d1 =>
      rw [hbit] at hd
      have hnext : AtPoint src (p d1) { s with z := dropBits s.z 1, k := .inflate src (p d1) none } := ⟨h.busy, rfl⟩
      have hrest := engineStep_of_decode_more hp n d1 _ hnext (by simp only [dropBits]; omega) (by rwa [hp.keeps])
      rw [dropBits_dropBits, Nat.add_comm 1 n] at hrest
      rw [engineStep_of_bits h (hp.asks _ _) (by omega), hp.answer, hp.keeps, hbit]
      exact hrest
    | symbol x =>
      rw [hbit] at hd
      dsimp only at hd
      split at hd <;> cases hd
    | bad =>
      rw [hbit] at hd
      cases hd

/-- The step in which `decode` takes its last bit. -/
theorem engineStep_of_decodesTo (hp : ReadsSymbol p table f) {s : State} {n : Nat} {r : SymRes}
    (h : AtPoint src (p symStart) s) (hd : DecodesTo s.z (table s.z) n r) :
    engineStep s =
      afterAnswer src s
        (afterSymBit r (fun d => .cont (dropBits s.z (n + 1)) (p d)) (f (dropBits s.z (n + 1)))) := by
  obtain ⟨hcnt, d, hmore, hlast⟩ := hd
  have hnext : AtPoint src (p d) { s with z := dropBits s.z n, k := .inflate src (p d) none } := ⟨h.busy, rfl⟩
  rw [engineStep_of_decode_more hp n symStart s h (by omega) hmore,
    engineStep_of_bits hnext (hp.asks _ _) (by simp only [dropBits]; omega), afterAnswer_moved h.busy, hp.answer,
    hp.keeps, hp.keeps, hlast, dropBits_dropBits]

/-- With a symbol's code unread, the step goes on behind the symbol. -/
theorem engineStep_of_codeIsNext (hp : ReadsSymbol p table f) {s : State} {x l : Nat} (h : AtPoint src (p symStart) s)
    (hnext : CodeIsNext s.z (table s.z) x l) : engineStep s = afterAnswer src s (f (dropBits s.z l) x) := by
  obtain ⟨n, rfl, hd⟩ := decodesTo_of_codeIsNext hnext
  rw [engineStep_of_decodesTo hp h hd, afterSymBit]

/-- With fifteen bits unread that begin with no code, the step raises BAD_SYMBOL. -/
theorem engineStep_of_noCodeIsNext (hp : ReadsSymbol p table f) {s : State} (h : AtPoint src (p symStart) s)
    (hnext : NoCodeIsNext s.z (table s.z)) : engineStep s = raise .badSymbol s := by
  rw [engineStep_of_decodesTo hp h (decodesTo_of_noCodeIsNext hnext), afterSymBit, afterAnswer]

end

end Sys2Proof.Machine
end

section
/-!
SUPPORT. A compressed block (45_inflate.md R241 to R243): what follows each symbol, and the copies.
-/

namespace Sys2Proof.Machine

/-! ### What follows a symbol -/

theorem litSymbol_literal {x : Nat} (h : x < 256) (z : InflateCtx) :
    litSymbol z x = .cont z (.litOut (BitVec.ofNat 8 x)) := if_pos h

theorem litSymbol_endOfBlock (z : InflateCtx) : litSymbol z 256 = endBlockRes z := rfl

theorem litSymbol_length {x : Nat} (h : 257 ≤ x) (h' : x < 286) (z : InflateCtx) :
    litSymbol z x = .cont z (.lext (x - 257)) := by
  rw [litSymbol, if_neg (by omega), if_neg (by omega), if_neg (by omega)]

theorem litSymbol_bad {x : Nat} (h : 286 ≤ x) (z : InflateCtx) : litSymbol z x = .fail .badSymbol := by
  rw [litSymbol, if_neg (by omega), if_neg (by omega), if_pos (by omega)]

theorem endBlockRes_final {z : InflateCtx} (h : z.bfinal = true) :
    endBlockRes z = .cont (byteAlign z) (.trailer 0 0) := by
  rw [endBlockRes, endBlock, if_pos h]

theorem endBlockRes_not_final {z : InflateCtx} (h : z.bfinal = false) : endBlockRes z = .cont z .bfinal := by
  rw [endBlockRes, endBlock, if_neg (by simp [h])]

theorem startCopy_tooFar {z : InflateCtx} {distance : Nat} (h : z.total < distance) (n : Nat) :
    startCopy z n distance = .fail .distanceTooFar := if_pos h

theorem startCopy_of_le {z : InflateCtx} {distance : Nat} (h : distance ≤ z.total) (n : Nat) :
    startCopy z n distance = .cont z (.copy n distance) := if_neg (Nat.not_lt.mpr h)

theorem zAfterOut_copy (z : InflateCtx) (n distance : Nat) :
    zAfterOut z (.copy n distance) = (z, if n ≤ 1 then .sym symStart else .copy (n - 1) distance) := by
  rw [zAfterOut]
  split <;> rfl

/-- Extra bits lie behind the code. -/
theorem peekBits_dropBits (z : InflateCtx) (l : Nat) {n : Nat} (h : n < 32) :
    peekBits (dropBits z l) n = bitsBehind z l n := by
  rw [peekBits_eq h, bitsBehind_dropBits, Nat.add_zero]

theorem lengthExtra_lt (i : Nat) : lengthExtra.getD i 0 < 32 :=
  Nat.lt_of_le_of_lt (getD_le_of_forall_mem (m := 13) (by decide) i) (by decide)

theorem distExtra_lt (i : Nat) : distExtra.getD i 0 < 32 :=
  Nat.lt_of_le_of_lt (getD_le_of_forall_mem (m := 13) (by decide) i) (by decide)

section

variable {src : Source} {s : State} {x l : Nat}

/-- The step from a point with an output byte: it is pushed. -/
theorem engineStep_outputs {z : InflateCtx} {p : ZPoint} {c : Byte} (hb : s.st = .busy) (asks : zRequest z p = .out c)
    (hroom : s.outq.length < s.cfg.outFifoDepth) :
    engineStep { s with z := z, k := .inflate src p none } =
      { s with
        outq := s.outq ++ [c], outCount := s.outCount + 1, hold := .none, z := (zAfterOut (recordOut z c) p).1,
        k := .inflate src (zAfterOut (recordOut z c) p).2 none } :=
  engineStep_of_emit (s := { s with z := z, k := .inflate src p none }) ⟨hb, rfl⟩ (by simp only [zMove, asks]) hroom

/-- The step from a point with no unread bits that it can use: the next byte is pulled. -/
theorem engineStep_pulls {z : InflateCtx} {p : ZPoint} {b : Byte} {rest : List Byte} (hb : s.st = .busy)
    (wants : WantsByte z p) (hq : s.inq = b :: rest) :
    engineStep { s with z := z, k := .inflate .raw p none } =
      { s with inq := rest, inCount := s.inCount + 1, hold := .none, z := z, k := .inflate .raw p (some b) } :=
  engineStep_of_rawPull (s := { s with z := z, k := .inflate .raw p none }) ⟨hb, rfl⟩ wants hq

/-- A length symbol with its extra bits unread (45_inflate.md R241, R242). -/
theorem engineStep_of_lengthSymbol (h : AtPoint src (.sym symStart) s) (hnext : CodeIsNext s.z s.z.lit x l)
    (hx : 257 ≤ x) (hx' : x < 286) (hcnt : l + lengthExtra.getD (x - 257) 0 ≤ s.z.bitcnt) :
    engineStep s =
      engineStep { s with
        z := dropBits s.z (l + lengthExtra.getD (x - 257) 0),
        k := .inflate src
          (.dsym (lengthBase.getD (x - 257) 0 + bitsBehind s.z l (lengthExtra.getD (x - 257) 0)) symStart) none } := by
  have hlext : AtPoint src (.lext (x - 257)) { s with z := dropBits s.z l, k := .inflate src (.lext (x - 257)) none } :=
    ⟨h.busy, rfl⟩
  rw [engineStep_of_codeIsNext readsSymbol_sym h hnext, litSymbol_length hx hx', afterAnswer,
    engineStep_of_bits hlext rfl (by simp only [dropBits]; omega), peekBits_dropBits _ _ (lengthExtra_lt _),
    dropBits_dropBits]
  rfl

/-- A distance symbol with its extra bits unread: the distance is checked (45_inflate.md R241 to R243). -/
theorem engineStep_of_distSymbol {n : Nat} (h : AtPoint src (.dsym n symStart) s) (hnext : CodeIsNext s.z s.z.dist x l)
    (hx : x < 30) (hcnt : l + distExtra.getD x 0 ≤ s.z.bitcnt) :
    engineStep s =
      afterAnswer src s
        (startCopy (dropBits s.z (l + distExtra.getD x 0)) n
          (distBase.getD x 0 + bitsBehind s.z l (distExtra.getD x 0))) := by
  have hdext : AtPoint src (.dext n x) { s with z := dropBits s.z l, k := .inflate src (.dext n x) none } :=
    ⟨h.busy, rfl⟩
  rw [engineStep_of_codeIsNext (readsSymbol_dsym n) h hnext, distSymbol, if_neg (by omega), afterAnswer,
    engineStep_of_bits hdext rfl (by simp only [dropBits]; omega), afterAnswer_moved h.busy,
    peekBits_dropBits _ _ (distExtra_lt _), dropBits_dropBits]
  rfl

end

/-! ### Copies (45_inflate.md R241) -/

theorem recordAll_total (data : List Byte) : ∀ z : InflateCtx, (recordAll z data).total = z.total + data.length := by
  induction data with
  | nil => exact fun _ => rfl
  | cons b data ih => exact fun z => (ih (recordOut z b)).trans (by simp [recordOut]; omega)

/-- A copy looks no further back than its distance. -/
theorem lzCopy_take {distance : Nat} (hpos : 1 ≤ distance) :
    ∀ (n m : Nat) (hist : List Byte), distance ≤ m → lzCopy n distance (hist.take m) = lzCopy n distance hist
  | 0, _, _, _ => rfl
  | n + 1, m, hist, hm => by
    have hbyte : (hist.take m).getD (distance - 1) 0 = hist.getD (distance - 1) 0 := by
      rw [List.getD_eq_getElem?_getD, List.getElem?_take_of_lt (by omega), ← List.getD_eq_getElem?_getD]
    rw [lzCopy, lzCopy, hbyte, ← List.take_succ_cons, lzCopy_take hpos n (m + 1) _ (by omega)]

/-- The bytes of a copy, one engine step each. -/
theorem copy_run {src : Source} {distance : Nat} (hpos : 1 ≤ distance) (hwindow : distance ≤ 32768) :
    ∀ (n : Nat) (s : State), AtPoint src (.copy (n + 1) distance) s →
      s.outq.length + (n + 1) ≤ s.cfg.outFifoDepth →
      engineRun (n + 1) s =
        { s with
          outq := s.outq ++ lzCopy (n + 1) distance s.z.hist, outCount := s.outCount + BitVec.ofNat 32 (n + 1),
          hold := .none, z := recordAll s.z (lzCopy (n + 1) distance s.z.hist), k := .inflate src (.sym symStart) none }
  | 0, s, h, hroom => by
    rw [engineRun_succ, engineStep_of_emit h (b := s.z.hist.getD (distance - 1) 0) rfl (by omega)]
    rfl
  | n + 1, s, h, hroom => by
    rw [engineRun_succ, engineStep_of_emit h (b := s.z.hist.getD (distance - 1) 0) rfl (by omega)]
    rw [zAfterOut_copy, if_neg (by omega), Nat.add_sub_cancel,
      copy_run hpos hwindow n _ (by exact ⟨h.busy, rfl⟩) (by simp; omega)]
    have hhist : lzCopy (n + 1) distance (recordOut s.z (s.z.hist.getD (distance - 1) 0)).hist =
        lzCopy (n + 1) distance (s.z.hist.getD (distance - 1) 0 :: s.z.hist) := lzCopy_take hpos _ _ _ hwindow
    have hcount : s.outCount + 1 + BitVec.ofNat 32 (n + 1) = s.outCount + BitVec.ofNat 32 (n + 1 + 1) := by
      rw [BitVec.ofNat_add (n + 1) 1, add_assoc, add_comm (1 : Word)]
      rfl
    simp only [hhist, hcount, List.append_assoc, List.singleton_append]
    rfl

theorem lzCopy_length (distance : Nat) : ∀ (n : Nat) (hist : List Byte), (lzCopy n distance hist).length = n
  | 0, _ => rfl
  | n + 1, _ => congrArg (· + 1) (lzCopy_length distance n _)

/-- Settles O44: a symbol's code is taken without a visible step, and the step goes on with what follows the symbol. A
copy is `copy_run`. -/
theorem compressedBlockSymbolsAndCopies : Obligations.CompressedBlockSymbolsAndCopies := by
  refine ⟨?symbols, ?noCode, ?copies⟩
  case symbols =>
    intro s src x l b rest hb outputs pulls
    refine ⟨fun hk hnext => ?lit, fun n hk hnext => ?dist⟩
    case lit =>
      have h : AtPoint src (.sym symStart) s := ⟨hb, hk⟩
      have hstep := engineStep_of_codeIsNext readsSymbol_sym h hnext
      refine ⟨?literal, ?final, ?notFinal, ?length, ?bad⟩
      case literal =>
        intro hx hroom
        rw [hstep, litSymbol_literal hx]
        exact engineStep_outputs hb rfl hroom
      case final =>
        rintro rfl hfinal rfl hq
        rw [hstep, litSymbol_endOfBlock, endBlockRes_final (z := dropBits s.z l) hfinal]
        exact engineStep_pulls hb trivial hq
      case notFinal =>
        rintro rfl hfinal hcnt rfl hq
        rw [hstep, litSymbol_endOfBlock, endBlockRes_not_final (z := dropBits s.z l) hfinal]
        exact engineStep_pulls hb (show s.z.bitcnt - l < 1 by omega) hq
      case length =>
        rintro hx hx' hcnt rfl hq
        rw [engineStep_of_lengthSymbol h hnext hx hx' hcnt.ge]
        exact engineStep_pulls hb (by show s.z.bitcnt - _ < 1; omega) hq
      case bad =>
        intro hx
        rw [hstep, litSymbol_bad hx, afterAnswer]
    case dist =>
      have h : AtPoint src (.dsym n symStart) s := ⟨hb, hk⟩
      refine ⟨fun hx => ?bad, fun hx hcnt => ⟨fun hfar => ?far, fun hnear hroom => ?copy⟩⟩
      case bad => rw [engineStep_of_codeIsNext (readsSymbol_dsym n) h hnext, distSymbol, if_pos hx, afterAnswer]
      case far =>
        rw [engineStep_of_distSymbol h hnext hx hcnt, startCopy_tooFar (by exact hfar), afterAnswer]
      case copy =>
        rw [engineStep_of_distSymbol h hnext hx hcnt, startCopy_of_le (by exact hnear), afterAnswer,
          engineStep_outputs hb rfl hroom, zAfterOut_copy]
        rfl
  case noCode =>
    rintro s src n hb (⟨hk, hnext⟩ | ⟨hk, hnext⟩)
    · exact engineStep_of_noCodeIsNext readsSymbol_sym ⟨hb, hk⟩ hnext
    · exact engineStep_of_noCodeIsNext (readsSymbol_dsym n) ⟨hb, hk⟩ hnext
  case copies =>
    intro s src n distance hb hn hpos hle hwindow hk hroom
    obtain ⟨m, rfl⟩ : ∃ m, n = m + 1 := ⟨n - 1, by omega⟩
    rw [copy_run hpos (hle.trans hwindow) m s ⟨hb, hk⟩ hroom]
    exact ⟨rfl, by rw [recordAll_total, lzCopy_length], recordAll_sums _ _, rfl, rfl, rfl⟩

end Sys2Proof.Machine
end

section
/-!
SUPPORT. What the decoder reads and outputs from one point of a stream to another, and the engine's run over these bytes
with the byte source `rawByte` (45_inflate.md R230, R260).
-/

namespace Sys2Proof.Machine

/-! ### Stretches of a stream -/

/-- From one point to another, the decoder reads exactly the bytes `input` and outputs exactly the bytes `output`. Where
`Decodes` is about a stream up to its end, this is about any part of one. -/
inductive Reads : InflateCtx → ZPoint → (input output : List Byte) → InflateCtx → ZPoint → Prop where
  | here (z : InflateCtx) (p : ZPoint) : Reads z p [] [] z p
  | byte {z z' z'' : InflateCtx} {p q r : ZPoint} {b : Byte} {input output : List Byte} (wants : WantsByte z p)
    (goesOn : zOnByte z p b = .cont z' q) (rest : Reads z' q input output z'' r) : Reads z p (b :: input) output z'' r
  | bits {z z' z'' : InflateCtx} {p q r : ZPoint} {n : Nat} {input output : List Byte} (asks : zRequest z p = .bits n)
    (unread : n ≤ z.bitcnt) (goesOn : zOnBits (dropBits z n) p (peekBits z n) = .cont z' q)
    (rest : Reads z' q input output z'' r) : Reads z p input output z'' r
  | out {z z'' : InflateCtx} {p r : ZPoint} {b : Byte} {input output : List Byte} (asks : zRequest z p = .out b)
    (rest : Reads (zAfterOut (recordOut z b) p).1 (zAfterOut (recordOut z b) p).2 input output z'' r) :
    Reads z p input (b :: output) z'' r

theorem Reads.trans {z z' z'' : InflateCtx} {p q r : ZPoint} {input input' output output' : List Byte}
    (h : Reads z p input output z' q) (h' : Reads z' q input' output' z'' r) :
    Reads z p (input ++ input') (output ++ output') z'' r := by
  induction h with
  | here => exact h'
  | byte wants goesOn _ ih => exact .byte wants goesOn (ih h')
  | bits asks unread goesOn _ ih => exact .bits asks unread goesOn (ih h')
  | out asks _ ih => exact .out asks (ih h')

/-- Where only a part of the input is there, the decoder gets to where it wants the next byte of it. -/
theorem Reads.cut {z z' : InflateCtx} {p q : ZPoint} {input output : List Byte} (h : Reads z p input output z' q) :
    ∀ m, m < input.length →
      ∃ output' z'' r, output' <+: output ∧ Reads z p (input.take m) output' z'' r ∧ WantsByte z'' r := by
  induction h with
  | here => exact fun m hm => absurd hm (Nat.not_lt_zero m)
  | @byte z _ _ p _ _ _ _ _ wants goesOn _ ih =>
    intro m hm
    cases m with
    | zero => exact ⟨[], z, p, List.nil_prefix, .here z p, wants⟩
    | succ m =>
      obtain ⟨output', z'', r, hout, hreads, hwants⟩ := ih m (Nat.lt_of_succ_lt_succ hm)
      exact ⟨output', z'', r, hout, .byte wants goesOn hreads, hwants⟩
  | bits asks unread goesOn _ ih =>
    intro m hm
    obtain ⟨output', z'', r, hout, hreads, hwants⟩ := ih m hm
    exact ⟨output', z'', r, hout, .bits asks unread goesOn hreads, hwants⟩
  | @out _ _ _ _ b _ _ asks _ ih =>
    intro m hm
    obtain ⟨output', z'', r, hout, hreads, hwants⟩ := ih m hm
    exact ⟨b :: output', z'', r, List.cons_prefix_cons.mpr ⟨rfl, hout⟩, .out asks hreads, hwants⟩

/-! ### The run over `rawByte` (45_inflate.md R260) -/

theorem StreamsTo.trans {m n : Nat} {out out' : List Byte} {s t u : State} (h : StreamsTo m out s t)
    (h' : StreamsTo n out' t u) : StreamsTo (m + n) (out ++ out') s u := by
  have hsteps : m + n + (out ++ out').length + 1 = m + out.length + 1 + (n + out'.length) := by
    rw [List.length_append]; omega
  refine ⟨by rw [hsteps, engineRun_add, h.run, ← engineRun_succ, h'.run], ?_⟩
  exact h'.effect.trans ((congrArg (afterStreaming n out') h.effect).trans (afterStreaming_add m n out out' s))

/-- The engine pulls `n` bytes and pushes `out`, one in each step, and raises `e` in the step after. -/
def FailsAfter (n : Nat) (out : List Byte) (e : Err) (s : State) : Prop :=
  engineRun (n + out.length + 1) s = { afterStreaming n out s with st := .error, err := some e }

/-- The last step, where the engine raises an error in it. -/
theorem StreamsTo.fails {n : Nat} {out : List Byte} {e : Err} {s t : State} (h : StreamsTo n out s t)
    (hb : t.st = .busy) (ht : engineStep t = raise e t) : FailsAfter n out e s := by
  rw [FailsAfter, h.run, ht, raise_of_busy hb, ← h.effect]

/-- What a stretch leaves of the input. -/
theorem StreamsTo.input_eq {n : Nat} {out : List Byte} {s t : State} (h : StreamsTo n out s t) :
    t.inq = s.inq.drop n ∧ t.inEnd = s.inEnd := by
  have hq : (releaseContexts t).inq = (afterStreaming n out s).inq := congrArg State.inq h.effect
  have he : (releaseContexts t).inEnd = (afterStreaming n out s).inEnd := congrArg State.inEnd h.effect
  exact ⟨hq, he⟩

/-- A pulled byte is in hand. -/
theorem streamsTo_inHand {p : ZPoint} {s : State} {b : Byte} {rest : List Byte} (h : AtPoint .raw p s)
    (wants : WantsByte s.z p) (hq : s.inq = b :: rest) :
    StreamsTo 1 [] s
      { s with inq := rest, inCount := s.inCount + 1, hold := .none, k := .inflate .raw p (some b) } :=
  ⟨congrArg engineStep (engineStep_of_rawPull h wants hq), by simp [afterStreaming, releaseContexts, hq]⟩

/-- A byte that is pulled and used. -/
theorem streamsTo_byte {p q : ZPoint} {s : State} {z : InflateCtx} {b : Byte} {rest : List Byte} (h : AtPoint .raw p s)
    (wants : WantsByte s.z p) (goesOn : zOnByte s.z p b = .cont z q) (hq : s.inq = b :: rest) :
    StreamsTo 1 [] s
      { s with inq := rest, inCount := s.inCount + 1, hold := .none, z := z, k := .inflate .raw q none } := by
  have hused := engineStep_of_inHand (b := b) (src := .raw) (p := p)
    (s := { s with inq := rest, inCount := s.inCount + 1, hold := .none, k := .inflate .raw p (some b) }) h.busy rfl
  rw [goesOn] at hused
  exact (streamsTo_inHand h wants hq).silent hused rfl

/-- Unread bits that are used. -/
theorem streamsTo_bits {p q : ZPoint} {s : State} {z : InflateCtx} {n : Nat} (h : AtPoint .raw p s)
    (asks : zRequest s.z p = .bits n) (unread : n ≤ s.z.bitcnt)
    (goesOn : zOnBits (dropBits s.z n) p (peekBits s.z n) = .cont z q) :
    StreamsTo 0 [] s { s with z := z, k := .inflate .raw q none } := by
  have hused := engineStep_of_bits h asks unread
  rw [goesOn] at hused
  exact (streamsTo_refl s).silent hused rfl

/-- An output byte that is pushed. -/
theorem streamsTo_out {p : ZPoint} {s : State} {b : Byte} (h : AtPoint .raw p s) (asks : zRequest s.z p = .out b)
    (hroom : s.outq.length < s.cfg.outFifoDepth) :
    StreamsTo 0 [b] s
      { s with
        outq := s.outq ++ [b], outCount := s.outCount + 1, hold := .none, z := (zAfterOut (recordOut s.z b) p).1,
        k := .inflate .raw (zAfterOut (recordOut s.z b) p).2 none } :=
  ⟨congrArg engineStep (engineStep_of_emit h (by simp only [zMove, asks]) hroom),
    by simp [afterStreaming, releaseContexts]⟩

/-- The engine follows the decoder over the bytes that are there. -/
theorem streamsTo_of_reads {z z' : InflateCtx} {p q : ZPoint} {input output : List Byte}
    (h : Reads z p input output z' q) :
    ∀ (s : State) (rest : List Byte), s.z = z → AtPoint .raw p s → s.inq = input ++ rest →
      (output ≠ [] → s.outq.length + output.length ≤ s.cfg.outFifoDepth) →
      ∃ t, StreamsTo input.length output s t ∧ AtPoint .raw q t ∧ t.z = z' := by
  induction h with
  | here => exact fun s _ hz hs _ _ => ⟨s, streamsTo_refl s, hs, hz⟩
  | @byte z z' _ p q _ b input output wants goesOn _ ih =>
    rintro s rest rfl hs hq hroom
    obtain ⟨t, ht, hat, hz⟩ := ih { s with
      inq := input ++ rest, inCount := s.inCount + 1, hold := .none, z := z', k := .inflate .raw q none } rest rfl
      ⟨hs.busy, rfl⟩ rfl hroom
    have hrun := (streamsTo_byte hs wants goesOn hq).trans ht
    rw [Nat.add_comm, List.nil_append] at hrun
    exact ⟨t, hrun, hat, hz⟩
  | @bits z z' _ p q _ n input output asks unread goesOn _ ih =>
    rintro s rest rfl hs hq hroom
    obtain ⟨t, ht, hat, hz⟩ := ih { s with z := z', k := .inflate .raw q none } rest rfl ⟨hs.busy, rfl⟩ hq hroom
    have hrun := (streamsTo_bits hs asks unread goesOn).trans ht
    rw [Nat.zero_add, List.nil_append] at hrun
    exact ⟨t, hrun, hat, hz⟩
  | @out z _ p _ b input output asks _ ih =>
    rintro s rest rfl hs hq hroom
    replace hroom := hroom (List.cons_ne_nil b output)
    rw [List.length_cons] at hroom
    obtain ⟨t, ht, hat, hz⟩ := ih { s with
      outq := s.outq ++ [b], outCount := s.outCount + 1, hold := .none, z := (zAfterOut (recordOut s.z b) p).1,
      k := .inflate .raw (zAfterOut (recordOut s.z b) p).2 none } rest rfl ⟨hs.busy, rfl⟩ hq
      (fun _ => by simp; omega)
    have hrun := (streamsTo_out hs asks (by omega)).trans ht
    rw [Nat.zero_add, List.singleton_append] at hrun
    exact ⟨t, hrun, hat, hz⟩

end Sys2Proof.Machine
end

section
/-!
SUPPORT. INFLATE of a stored stream (45_inflate.md R232, R234, R250, R260): whole, cut short by EOF, and with a wrong
trailer.
-/

namespace Sys2Proof.Machine

/-! ### INFLATE from its first line (45_inflate.md R232, R260) -/

/-- The state in which INFLATE wants its first byte. -/
def inflateReady (s : State) : State := { s with k := .inflate .raw .cmf none, z := inflateInit s.z }

theorem engineStep_inflate (s : State) :
    engineStep (startCommand .inflate s) = engineStep (inflateReady (startCommand .inflate s)) := by
  have h : AtPoint .raw .cmf (inflateReady (startCommand .inflate s)) := ⟨rfl, rfl⟩
  rw [engineStep_of_busy rfl, advance, engineStep_of_atPoint h]
  exact (inflateRun_setKont _ .raw .cmf _ rfl _).symm

theorem engineRun_inflate (n : Nat) (s : State) :
    engineRun (n + 1) (startCommand .inflate s) = engineRun (n + 1) (inflateReady (startCommand .inflate s)) := by
  rw [engineRun_succ, engineStep_inflate, ← engineRun_succ]

/-- The state in which an INFLATE has ended that has pulled `n` bytes and pushed `out`. -/
def inflateEnded (st : EngState) (err : Option Err) (n : Nat) (out : List Byte) (s : State) : State :=
  { releaseContexts s with
    st := st, err := err, op := 0x07, inq := s.inq.drop n, inCount := s.inCount + BitVec.ofNat 32 n,
    outq := s.outq ++ out, outCount := s.outCount + BitVec.ofNat 32 out.length }

/-- INFLATE, in a state where it starts, ends so after the steps that its bytes take. -/
def InflateEnds (st : EngState) (err : Option Err) (n : Nat) (out : List Byte) (s : State) : Prop :=
  ∃ t, exec .inflate s = .next t ∧ engineRun (n + out.length + 1) t = inflateEnded st err n out s

theorem inflateEnds_of_finishes {n : Nat} {out : List Byte} {s : State} (hready : Ready s)
    (h : FinishesAfter n out (inflateReady (startCommand .inflate s))) : InflateEnds .done s.err n out s :=
  ⟨_, exec_of_ready hready (by decide), (engineRun_inflate _ s).trans h⟩

theorem inflateEnds_of_fails {n : Nat} {out : List Byte} {e : Err} {s : State} (hready : Ready s)
    (h : FailsAfter n out e (inflateReady (startCommand .inflate s))) : InflateEnds .error (some e) n out s :=
  ⟨_, exec_of_ready hready (by decide), (engineRun_inflate _ s).trans h⟩

section

variable {s : State} {z : InflateCtx} {p : ZPoint} {input output rest : List Byte}

/-- INFLATE over the bytes up to a point. -/
theorem inflate_streamsTo (hreads : Reads (inflateInit s.z) .cmf input output z p) (hq : s.inq = input ++ rest)
    (hroom : output ≠ [] → s.outq.length + output.length ≤ s.cfg.outFifoDepth) :
    ∃ t, StreamsTo input.length output (inflateReady (startCommand .inflate s)) t ∧ AtPoint .raw p t ∧ t.z = z ∧
      t.inq = rest ∧ t.inEnd = s.inEnd := by
  obtain ⟨t, ht, hat, hz⟩ :=
    streamsTo_of_reads hreads (inflateReady (startCommand .inflate s)) rest rfl ⟨rfl, rfl⟩ hq hroom
  obtain ⟨hinq, hend⟩ := ht.input_eq
  exact ⟨t, ht, hat, hz, by rw [hinq]; exact (congrArg _ hq).trans List.drop_left, hend⟩

/-- EOF where the decoder wants a byte. -/
theorem inflateEnds_of_eof (hready : Ready s) (hreads : Reads (inflateInit s.z) .cmf input output z p)
    (wants : WantsByte z p) (hq : s.inq = input) (he : s.inEnd = .eof)
    (hroom : output ≠ [] → s.outq.length + output.length ≤ s.cfg.outFifoDepth) :
    InflateEnds .error (some .truncatedStream) input.length output s := by
  obtain ⟨t, ht, hat, rfl, hinq, hend⟩ := inflate_streamsTo (rest := []) hreads (by simpa using hq) hroom
  exact inflateEnds_of_fails hready (ht.fails hat.busy (engineStep_of_rawEof hat wants hinq (hend.trans he)))

/-- A byte that the decoder does not accept. -/
theorem inflateEnds_of_badByte {b : Byte} {e : Err} (hready : Ready s)
    (hreads : Reads (inflateInit s.z) .cmf input output z p) (wants : WantsByte z p) (hfail : zOnByte z p b = .fail e)
    (hq : s.inq = input ++ b :: rest) (hroom : output ≠ [] → s.outq.length + output.length ≤ s.cfg.outFifoDepth) :
    InflateEnds .error (some e) (input.length + 1) output s := by
  obtain ⟨t, ht, hat, rfl, hinq, -⟩ := inflate_streamsTo hreads hq hroom
  have hpulled := ht.trans (streamsTo_inHand hat wants hinq)
  rw [List.append_nil] at hpulled
  refine inflateEnds_of_fails hready (hpulled.fails hat.busy ?_)
  rw [engineStep_of_inHand (by exact hat.busy) (by rfl), hfail, afterAnswer]

/-- The byte with which the decoder returns. -/
theorem inflateEnds_of_lastByte {b : Byte} (hready : Ready s)
    (hreads : Reads (inflateInit s.z) .cmf input output z p) (wants : WantsByte z p) (hdone : zOnByte z p b = .done)
    (hq : s.inq = input ++ b :: rest) (hroom : output ≠ [] → s.outq.length + output.length ≤ s.cfg.outFifoDepth) :
    InflateEnds .done s.err (input.length + 1) output s := by
  obtain ⟨t, ht, hat, rfl, hinq, -⟩ := inflate_streamsTo hreads hq hroom
  have hpulled := ht.trans (streamsTo_inHand hat wants hinq)
  rw [List.append_nil] at hpulled
  refine inflateEnds_of_finishes hready (hpulled.finishes ?_)
  rw [engineStep_of_inHand (by exact hat.busy) (by rfl), hdone, afterAnswer]

/-- Bits that the decoder does not accept. -/
theorem inflateEnds_of_badBits {n : Nat} {e : Err} (hready : Ready s)
    (hreads : Reads (inflateInit s.z) .cmf input output z p) (asks : zRequest z p = .bits n) (unread : n ≤ z.bitcnt)
    (hfail : zOnBits (dropBits z n) p (peekBits z n) = .fail e) (hq : s.inq = input ++ rest)
    (hroom : output ≠ [] → s.outq.length + output.length ≤ s.cfg.outFifoDepth) :
    InflateEnds .error (some e) input.length output s := by
  obtain ⟨t, ht, hat, rfl, -, -⟩ := inflate_streamsTo hreads hq hroom
  refine inflateEnds_of_fails hready (ht.fails hat.busy ?_)
  rw [engineStep_of_bits hat asks unread, hfail, afterAnswer]

end

/-! ### The zlib header and the header of a block (45_inflate.md R232) -/

theorem reads_zlibHeader {z : InflateCtx} {cmf flg : Byte} (h : zlibHeader z cmf flg = .cont z .bfinal) :
    Reads z .cmf [cmf, flg] [] z .bfinal :=
  .byte trivial rfl (.byte trivial h (.here z _))

/-- No bit is unread. -/
structure EmptyReader (z : InflateCtx) : Prop where
  bitbuf : z.bitbuf = 0
  bitcnt : z.bitcnt = 0

theorem emptyReader_inflateInit (z : InflateCtx) : EmptyReader (inflateInit z) := ⟨rfl, rfl⟩

theorem EmptyReader.feedBits_bitcnt {z : InflateCtx} (h : EmptyReader z) (b : Byte) : (feedBits z b).bitcnt = 8 := by
  rw [feedBits, h.bitcnt]

theorem EmptyReader.feedBits_bitbuf_toNat {z : InflateCtx} (h : EmptyReader z) (b : Byte) :
    (feedBits z b).bitbuf.toNat = b.toNat := by
  have hbuf : (feedBits z b).bitbuf = b.setWidth 32 := by simp [feedBits, h.bitbuf, h.bitcnt]
  rw [hbuf, BitVec.toNat_setWidth, Nat.mod_eq_of_lt (b.isLt.trans (by decide))]

/-- The bits of a byte that is the only one in the reader. -/
theorem EmptyReader.bitsBehind_feedBits {z : InflateCtx} (h : EmptyReader z) (b : Byte) (l n : Nat) :
    bitsBehind (feedBits z b) l n = (b.extractLsb' l n).toNat := by
  rw [bitsBehind, h.feedBits_bitbuf_toNat, BitVec.extractLsb'_toNat, Nat.shiftRight_eq_div_pow]

/-- The context behind the three header bits of a block, which the byte `b` begins with. -/
def blockContext (z : InflateCtx) (b : Byte) : InflateCtx :=
  { dropBits (feedBits z b) 3 with bfinal := b.getLsbD 0, btype := b.extractLsb' 1 2 }

/-- BFINAL is the first bit of its byte. -/
theorem reads_bfinal {z : InflateCtx} (h : EmptyReader z) (b : Byte) :
    Reads z .bfinal [b] [] { dropBits (feedBits z b) 1 with bfinal := b.getLsbD 0 } .btype := by
  have hbit : (peekBits (feedBits z b) 1 == 1) = b.getLsbD 0 := by
    rw [peekBits_eq (by decide), h.bitsBehind_feedBits, BitVec.extractLsb'_toNat, BitVec.getLsbD, Nat.testBit_zero]
    rfl
  refine .byte (h.bitcnt.trans_lt Nat.one_pos) rfl (.bits rfl (by rw [h.feedBits_bitcnt]; decide) ?_ (.here _ _))
  rw [zOnBits, hbit]

/-- BTYPE is the next two bits. -/
theorem zOnBits_btype {z : InflateCtx} (h : EmptyReader z) (b : Byte) :
    zOnBits (dropBits { dropBits (feedBits z b) 1 with bfinal := b.getLsbD 0 } 2) .btype
        (peekBits { dropBits (feedBits z b) 1 with bfinal := b.getLsbD 0 } 2) =
      startBlock (blockContext z b) (b.extractLsb' 1 2).toNat := by
  have hbits : peekBits { dropBits (feedBits z b) 1 with bfinal := b.getLsbD 0 } 2 = (b.extractLsb' 1 2).toNat :=
    (peekBits_dropBits (feedBits z b) 1 (n := 2) (by decide)).trans (h.bitsBehind_feedBits b 1 2)
  have hdrop : dropBits (dropBits (feedBits z b) 1) 2 = dropBits (feedBits z b) 3 := dropBits_dropBits _ 1 2
  rw [hbits, zOnBits, BitVec.ofNat_toNat, BitVec.setWidth_eq, blockContext, ← hdrop]
  rfl

/-- The byte that a block begins with. -/
theorem reads_blockStart {z z' : InflateCtx} {b : Byte} {q : ZPoint} (h : EmptyReader z)
    (hstart : startBlock (blockContext z b) (b.extractLsb' 1 2).toNat = .cont z' q) : Reads z .bfinal [b] [] z' q :=
  (reads_bfinal h b).trans (.bits rfl
    (by show 2 ≤ (feedBits z b).bitcnt - 1; rw [h.feedBits_bitcnt]; decide)
    ((zOnBits_btype h b).trans hstart) (.here _ _))

/-! ### A stored block (45_inflate.md R234) -/

theorem reads_storedHeader {z z' : InflateCtx} {a b c d : Byte} {q : ZPoint} (h : storedHeader z a b c d = .cont z' q) :
    Reads z (.storedHdr []) [a, b, c, d] [] z' q :=
  .byte trivial rfl (.byte trivial rfl (.byte trivial rfl (.byte trivial h (.here z' q))))

/-- Where the decoder is in a stored block with `left` bytes to copy. -/
def storedNext (z : InflateCtx) (left : Nat) : InflateCtx × ZPoint :=
  if left = 0 then endBlock z else (z, .storedByte left)

/-- LEN and NLEN of `n` bytes match. -/
theorem storedHeader_length (z : InflateCtx) {n : Nat} (h : n ≤ 65535) :
    storedHeader z (BitVec.ofNat 8 n) (BitVec.ofNat 8 (n / 256)) (BitVec.ofNat 8 (65535 - n))
      (BitVec.ofNat 8 ((65535 - n) / 256)) = .cont (storedNext z n).1 (storedNext z n).2 := by
  have hl : n % 256 + 256 * (n / 256 % 256) = n := by omega
  have hn : (65535 - n) % 256 + 256 * ((65535 - n) / 256 % 256) = 65535 - n := by omega
  simp only [storedHeader, BitVec.toNat_ofNat, Nat.reducePow, hl, hn]
  rw [if_neg (by omega), storedNext]
  split <;> rfl

/-- Data bytes of a stored block: each is read and output. -/
theorem reads_storedBytes (left : Nat) : ∀ (data : List Byte) (z : InflateCtx),
    Reads (storedNext z (data.length + left)).1 (storedNext z (data.length + left)).2 data data
      (storedNext (recordAll z data) left).1 (storedNext (recordAll z data) left).2
  | [], z => by
    rw [List.length_nil, Nat.zero_add]
    exact .here _ _
  | b :: data, z => by
    have hbyte : storedNext z ((b :: data).length + left) = (z, .storedByte (data.length + left + 1)) := by
      rw [storedNext, if_neg (by simp), List.length_cons, Nat.add_right_comm]
    rw [hbyte]
    exact .byte trivial rfl (.out rfl (reads_storedBytes left data (recordOut z b)))

/-- The bytes of a stored stream before its data. -/
def storedHead (data : List Byte) : List Byte := (zlibStored data).take 7

theorem zlibStored_eq (data : List Byte) :
    zlibStored data = storedHead data ++ (data ++ be32 (BitVec.ofNat 32 (adler32 data))) := rfl

theorem storedHead_length (data : List Byte) : (storedHead data).length = 7 := rfl

/-- The context in which a stored stream's data begins. -/
def storedContext (z : InflateCtx) : InflateCtx := byteAlign (blockContext (inflateInit z) 0x01)

theorem reads_storedHead (z : InflateCtx) {data : List Byte} (hlen : data.length ≤ 65535) :
    Reads (inflateInit z) .cmf (storedHead data) [] (storedNext (storedContext z) data.length).1
      (storedNext (storedContext z) data.length).2 :=
  (reads_zlibHeader (zlibHeader_stored _)).trans
    ((reads_blockStart (emptyReader_inflateInit z) rfl).trans (reads_storedHeader (storedHeader_length _ hlen)))

/-- The stream up to a place in its data. -/
theorem reads_storedUpTo (z : InflateCtx) {data done left : List Byte} (hdata : data = done ++ left)
    (hlen : data.length ≤ 65535) :
    Reads (inflateInit z) .cmf (storedHead data ++ done) done
      (storedNext (recordAll (storedContext z) done) left.length).1
      (storedNext (recordAll (storedContext z) done) left.length).2 := by
  have hbytes := reads_storedBytes left.length done (storedContext z)
  rw [← List.length_append, ← hdata] at hbytes
  exact (reads_storedHead z hlen).trans hbytes

/-! ### The trailer (45_inflate.md R232, R250) -/

/-- Bytes of the trailer before its last one. -/
theorem reads_trailer (z : InflateCtx) : ∀ (bytes : List Byte) (got acc : Nat), got + bytes.length ≤ 3 →
    Reads z (.trailer got acc) bytes [] z (.trailer (got + bytes.length) (bigEndian acc bytes))
  | [], got, acc, _ => .here z _
  | b :: bytes, got, acc, h => by
    rw [List.length_cons] at h ⊢
    have hrest := reads_trailer z bytes (got + 1) (acc * 256 + b.toNat) (by omega)
    rw [Nat.add_assoc, Nat.add_comm 1] at hrest
    exact .byte trivial (if_pos (by omega)) hrest

/-- The stream up to a place in its trailer. -/
theorem reads_storedTrailer (z : InflateCtx) {data bytes : List Byte} (hlen : data.length ≤ 65535)
    (hbytes : bytes.length ≤ 3) :
    ∃ z', Reads (inflateInit z) .cmf (storedHead data ++ data ++ bytes) data z'
        (.trailer bytes.length (bigEndian 0 bytes)) ∧
      adlerValue z' = adler32 data := by
  have hstored := reads_storedUpTo z (List.append_nil data).symm hlen
  have hend : storedNext (recordAll (storedContext z) data) 0 =
      (byteAlign (recordAll (storedContext z) data), .trailer 0 0) :=
    if_pos (recordAll_bfinal data (storedContext z))
  rw [List.length_nil, hend] at hstored
  have htrailer := reads_trailer (byteAlign (recordAll (storedContext z) data)) bytes 0 0 (by omega)
  rw [Nat.zero_add] at htrailer
  exact ⟨byteAlign (recordAll (storedContext z) data), by simpa using hstored.trans htrailer,
    adlerValue_recordAll rfl rfl data⟩

/-- The last byte of the trailer decides. -/
theorem zOnByte_trailer (z : InflateCtx) (acc : Nat) (b : Byte) :
    zOnByte z (.trailer 3 acc) b = if acc * 256 + b.toNat ≠ adlerValue z then .fail .adlerMismatch else .done := rfl

/-- The bytes of a whole stored stream, whatever its trailer. -/
theorem length_storedStream (data : List Byte) (a b c : Byte) :
    (storedHead data ++ data ++ [a, b, c]).length + 1 = data.length + 11 := by
  simp [storedHead_length]
  omega

theorem drop_storedStream (data : List Byte) (a b c d : Byte) (rest : List Byte) :
    (storedHead data ++ data ++ [a, b, c] ++ d :: rest).drop (data.length + 11) = rest := by
  rw [List.append_cons]
  exact List.drop_left' (by simp [storedHead_length]; omega)

/-- Settles O38: the trailer is the Adler-32 of the data, so its last byte is the one with which the decoder returns. -/
theorem inflateStoredCompletes : Obligations.InflateStoredCompletes := by
  intro s data rest hready hlen hq hroom
  obtain ⟨a, b, c, d, hbytes⟩ : ∃ a b c d, be32 (BitVec.ofNat 32 (adler32 data)) = [a, b, c, d] := ⟨_, _, _, _, rfl⟩
  have hvalue : bigEndian 0 [a, b, c, d] = adler32 data := by
    rw [← hbytes, bigEndian_be32, BitVec.toNat_ofNat, Nat.mod_eq_of_lt (adler32_lt data), Nat.zero_mul, Nat.zero_add]
  obtain ⟨z, hreads, hadler⟩ := reads_storedTrailer s.z (bytes := [a, b, c]) hlen (by simp)
  have hdone : zOnByte z (.trailer 3 (bigEndian 0 [a, b, c])) d = .done := by
    rw [zOnByte_trailer, hadler, ← hvalue]
    exact if_neg (not_not_intro rfl)
  have hinput : s.inq = storedHead data ++ data ++ [a, b, c] ++ d :: rest := by
    rw [hq, zlibStored_eq, hbytes]
    simp
  obtain ⟨t, hexec, hrun⟩ := inflateEnds_of_lastByte hready hreads trivial hdone hinput fun _ => hroom
  rw [length_storedStream] at hrun
  refine ⟨t, hexec, ?_⟩
  rw [show 2 * data.length + 12 = data.length + 11 + data.length + 1 by omega, hrun, inflateEnded, hinput,
    drop_storedStream]
  rfl

/-- Settles O40: the last byte of the trailer is not accepted. -/
theorem inflateChecksAdler : Obligations.InflateChecksAdler := by
  intro s data rest a b c d hready hlen hq hvalue hroom
  obtain ⟨z, hreads, hadler⟩ := reads_storedTrailer s.z (bytes := [a, b, c]) hlen (by simp)
  have hfail : zOnByte z (.trailer 3 (bigEndian 0 [a, b, c])) d = .fail .adlerMismatch := by
    rw [zOnByte_trailer, hadler]
    refine if_pos ?_
    simpa [bigEndian] using hvalue
  have hinput : s.inq = storedHead data ++ data ++ [a, b, c] ++ d :: rest := by
    rw [hq, zlibStored_eq, ← List.append_assoc, List.take_left' (by simp [storedHead_length]; omega)]
    simp
  obtain ⟨t, hexec, hrun⟩ := inflateEnds_of_badByte hready hreads trivial hfail hinput fun _ => hroom
  rw [length_storedStream] at hrun
  refine ⟨t, hexec, ?_⟩
  rw [show 2 * data.length + 12 = data.length + 11 + data.length + 1 by omega, hrun, inflateEnded, hinput,
    drop_storedStream]

/-- Where a stored stream ends early, the decoder has output the data bytes that are there, and wants a byte. -/
theorem reads_storedCut (z : InflateCtx) {data : List Byte} {m : Nat} (hlen : data.length ≤ 65535)
    (hm : m < data.length + 11) :
    ∃ z' q, Reads (inflateInit z) .cmf ((zlibStored data).take m) (data.take (m - 7)) z' q ∧ WantsByte z' q := by
  rw [zlibStored_eq]
  rcases Nat.lt_or_ge m 7 with hhead | hhead
  · obtain ⟨output, z', q, hnone, hreads, hwants⟩ := (reads_storedHead z hlen).cut m hhead
    obtain rfl := List.prefix_nil.mp hnone
    rw [List.take_append_of_le_length hhead.le, show m - 7 = 0 by omega]
    exact ⟨z', q, hreads, hwants⟩
  obtain ⟨n, rfl⟩ := Nat.exists_eq_add_of_le hhead
  rw [Nat.add_sub_cancel_left, ← storedHead_length data, List.take_length_add_append, List.take_append]
  rcases Nat.lt_or_ge n data.length with hdata | hdata
  · have hreads := reads_storedUpTo z (List.take_append_drop n data).symm hlen
    have hpoint : storedNext (recordAll (storedContext z) (data.take n)) (data.drop n).length =
        (recordAll (storedContext z) (data.take n), .storedByte (data.drop n).length) :=
      if_neg (by rw [List.length_drop]; omega)
    rw [hpoint] at hreads
    rw [show n - data.length = 0 by omega, List.take_zero, List.append_nil]
    exact ⟨_, _, hreads, trivial⟩
  · obtain ⟨z', hreads, -⟩ := reads_storedTrailer z
      (bytes := (be32 (BitVec.ofNat 32 (adler32 data))).take (n - data.length)) hlen (by simp; omega)
    rw [List.take_of_length_le hdata, ← List.append_assoc]
    exact ⟨z', _, hreads, trivial⟩

/-- Settles O39: the decoder wants a byte where the stream ends. -/
theorem inflateTruncated : Obligations.InflateTruncated := by
  intro s data bytes hready hlen hcut hne hq hend hroom
  have hbytes : bytes = (zlibStored data).take bytes.length := List.prefix_iff_eq_take.mp hcut
  have hlt : bytes.length < data.length + 11 := by
    have hlength : (zlibStored data).length = data.length + 11 := by
      rw [zlibStored_eq, List.length_append, List.length_append, storedHead_length, be32_length]
      omega
    by_contra hge
    rw [List.take_of_length_le (by omega)] at hbytes
    exact hne hbytes
  obtain ⟨z, q, hreads, hwants⟩ := reads_storedCut s.z hlen hlt
  rw [← hbytes] at hreads
  obtain ⟨t, hexec, hrun⟩ := inflateEnds_of_eof hready hreads hwants hq hend fun _ => by rw [List.length_take]; omega
  rw [List.length_take] at hrun
  refine ⟨t, hexec, ?_⟩
  rw [hrun, inflateEnded, List.length_take, hq, List.drop_length]

end Sys2Proof.Machine
end

section
/-!
SUPPORT. The checks up to the tables of a block (45_inflate.md R232, R234, R236, R239): the zlib header, the block's
header, the code lengths of a dynamic block and its two codes.
-/

namespace Sys2Proof.Machine

/-! ### The zlib header (45_inflate.md R232) -/

/-- What is wrong with a zlib header: FCHECK, CM or CINFO. -/
abbrev BadZlibHeader (cmf flg : Byte) : Prop :=
  (cmf.toNat * 256 + flg.toNat) % 31 ≠ 0 ∨ (cmf.extractLsb' 0 4).toNat ≠ 8 ∨ (cmf.extractLsb' 4 4).toNat > 7

theorem zlibHeader_eq (z : InflateCtx) (cmf flg : Byte) :
    zlibHeader z cmf flg =
      if BadZlibHeader cmf flg then .fail .badZlibHeader
      else if flg.getLsbD 5 then .fail .zlibDict
      else .cont z .bfinal := by
  have hcm : (cmf.extractLsb' 0 4).toNat = cmf.toNat % 16 := by simp
  have hcinfo : (cmf.extractLsb' 4 4).toNat = cmf.toNat / 16 := by
    rw [BitVec.extractLsb'_toNat, Nat.shiftRight_eq_div_pow]
    omega
  rw [zlibHeader, ← hcm, ← hcinfo]

/-- An INFLATE that fails without output. -/
theorem inflateEnds_noOutput {s : State} {e : Err} {n : Nat} (h : InflateEnds .error (some e) n [] s) :
    ∃ t : State, exec .inflate s = .next t ∧
      engineRun (n + 1) t =
        { releaseContexts s with
          st := .error, err := some e, op := 0x07, inq := s.inq.drop n, inCount := s.inCount + BitVec.ofNat 32 n } := by
  obtain ⟨t, hexec, hrun⟩ := h
  refine ⟨t, hexec, hrun.trans ?_⟩
  simp [inflateEnded, releaseContexts]

/-! ### The header of the first block (45_inflate.md R232, R234, R239) -/

section

variable {s : State} {cmf flg b0 : Byte}

/-- A zlib header that is not accepted. -/
theorem inflateEnds_of_zlibHeader {e : Err} {rest : List Byte} (hready : Ready s) (hq : s.inq = cmf :: flg :: rest)
    (h : ∀ z, zlibHeader z cmf flg = .fail e) : InflateEnds .error (some e) 2 [] s :=
  inflateEnds_of_badByte (input := [cmf]) hready (.byte trivial rfl (.here _ (.flg cmf))) trivial (h _) hq (absurd rfl)

/-- BTYPE 3 (45_inflate.md R232). -/
theorem inflateEnds_of_badBlockType {rest : List Byte} (hready : Ready s)
    (hgood : ∀ z, zlibHeader z cmf flg = .cont z .bfinal) (hq : s.inq = cmf :: flg :: b0 :: rest)
    (htype : (b0.extractLsb' 1 2).toNat = 3) : InflateEnds .error (some .badBlockType) 3 [] s := by
  have hempty := emptyReader_inflateInit s.z
  refine inflateEnds_of_badBits (n := 2) hready ((reads_zlibHeader (hgood _)).trans (reads_bfinal hempty b0)) rfl ?_ ?_
    (by simpa using hq) (absurd rfl)
  · show 2 ≤ (feedBits (inflateInit s.z) b0).bitcnt - 1
    rw [hempty.feedBits_bitcnt]
    decide
  · rw [zOnBits_btype hempty, htype]
    rfl

/-- LEN and NLEN match where one is the complement of the other. -/
theorem storedHeader_mismatch (z : InflateCtx) {l0 l1 n0 n1 : Byte} (h : l1 ++ l0 ≠ ~~~(n1 ++ n0)) :
    storedHeader z l0 l1 n0 n1 = .fail .storedLenMismatch := by
  have hvalue : ∀ x y : Byte, (x ++ y).toNat = y.toNat + 256 * x.toNat := fun x y => by
    rw [BitVec.toNat_append, ← Nat.shiftLeft_add_eq_or_of_lt y.isLt, Nat.shiftLeft_eq]
    omega
  refine if_pos fun hlen => h (BitVec.eq_of_toNat_eq ?_)
  rw [BitVec.toNat_not, hvalue, hvalue, hlen]

/-- A stored block's header whose LEN and NLEN do not match (45_inflate.md R234). -/
theorem inflateEnds_of_storedLenMismatch {l0 l1 n0 n1 : Byte} {rest : List Byte} (hready : Ready s)
    (hgood : ∀ z, zlibHeader z cmf flg = .cont z .bfinal)
    (hq : s.inq = cmf :: flg :: b0 :: l0 :: l1 :: n0 :: n1 :: rest)
    (htype : (b0.extractLsb' 1 2).toNat = 0) (h : l1 ++ l0 ≠ ~~~(n1 ++ n0)) :
    InflateEnds .error (some .storedLenMismatch) 7 [] s := by
  have hblock := reads_blockStart (b := b0) (emptyReader_inflateInit s.z) (by rw [htype]; rfl)
  have hheader : ∀ z, Reads z (.storedHdr []) [l0, l1, n0] [] z (.storedHdr [l0, l1, n0]) := fun z =>
    .byte trivial rfl (.byte trivial rfl (.byte trivial rfl (.here z _)))
  exact inflateEnds_of_badByte hready ((reads_zlibHeader (hgood _)).trans (hblock.trans (hheader _))) trivial
    (storedHeader_mismatch _ h) (by simpa using hq) (absurd rfl)

/-- HLIT is the rest of the byte that a dynamic block begins with. -/
theorem reads_hlit {z : InflateCtx} (h : EmptyReader z) (htype : (b0.extractLsb' 1 2).toNat = 2) :
    ∃ z', EmptyReader z' ∧ Reads z .bfinal [b0] [] z' (.hdist ((b0.extractLsb' 3 5).toNat + 257)) := by
  have hcnt : (blockContext z b0).bitcnt = 5 := by
    show (feedBits z b0).bitcnt - 3 = 5
    rw [h.feedBits_bitcnt]
  have hvalue : peekBits (blockContext z b0) 5 = (b0.extractLsb' 3 5).toNat :=
    (peekBits_dropBits (feedBits z b0) 3 (n := 5) (by decide)).trans (h.bitsBehind_feedBits b0 3 5)
  have hblock := reads_blockStart (b := b0) (q := .hlit) h (by rw [htype]; rfl)
  refine ⟨dropBits (blockContext z b0) 5, ⟨?_, ?_⟩, hblock.trans (.bits rfl hcnt.ge ?_ (.here _ _))⟩
  · refine BitVec.eq_of_toNat_eq ?_
    have hfirst : (blockContext z b0).bitbuf.toNat = b0.toNat / 2 ^ 3 :=
      (dropBits_bitbuf_toNat (feedBits z b0) 3).trans (by rw [h.feedBits_bitbuf_toNat])
    rw [dropBits_bitbuf_toNat, hfirst]
    show b0.toNat / 2 ^ 3 / 2 ^ 5 = 0
    omega
  · show (blockContext z b0).bitcnt - 5 = 0
    rw [hcnt]
  · rw [zOnBits, hvalue]

/-- HDIST is the first bits of the next byte. -/
theorem reads_hdist {z : InflateCtx} (h : EmptyReader z) (hlit : Nat) (b1 : Byte) :
    Reads z (.hdist hlit) [b1] [] (dropBits (feedBits z b1) 5) (.hclen hlit ((b1.extractLsb' 0 5).toNat + 1)) := by
  refine .byte (h.bitcnt.trans_lt (by decide)) rfl (.bits rfl (by rw [h.feedBits_bitcnt]; decide) ?_ (.here _ _))
  rw [zOnBits, peekBits_eq (by decide), h.bitsBehind_feedBits]

/-- Too many codes in a dynamic block (45_inflate.md R239). -/
theorem inflateEnds_of_tooManyCodes {b1 b2 : Byte} {rest : List Byte} (hready : Ready s)
    (hgood : ∀ z, zlibHeader z cmf flg = .cont z .bfinal) (hq : s.inq = cmf :: flg :: b0 :: b1 :: b2 :: rest)
    (htype : (b0.extractLsb' 1 2).toNat = 2)
    (hmany : (b0.extractLsb' 3 5).toNat + 257 > 286 ∨ (b1.extractLsb' 0 5).toNat + 1 > 30) :
    InflateEnds .error (some .badCodeLengths) 5 [] s := by
  obtain ⟨z, hempty, hhlit⟩ := reads_hlit (emptyReader_inflateInit s.z) htype
  have hcnt : (dropBits (feedBits z b1) 5).bitcnt = 3 := by
    show (feedBits z b1).bitcnt - 5 = 3
    rw [hempty.feedBits_bitcnt]
  have hfed : ∀ hlit hdist, Reads (dropBits (feedBits z b1) 5) (.hclen hlit hdist) [b2] []
      (feedBits (dropBits (feedBits z b1) 5) b2) (.hclen hlit hdist) := fun _ _ =>
    .byte (hcnt.trans_lt (by decide)) rfl (.here _ _)
  refine inflateEnds_of_badBits (n := 4) hready
    ((reads_zlibHeader (hgood _)).trans (hhlit.trans ((reads_hdist hempty _ b1).trans (hfed _ _)))) rfl ?_
    (if_pos hmany) (by simpa using hq) (absurd rfl)
  show 4 ≤ (dropBits (feedBits z b1) 5).bitcnt + 8
  omega

end

/-! ### The code-length code (45_inflate.md R239) -/

/-- The 19 lengths of the code-length code, of which `got` were read. -/
def codeLengthLens (got : List Nat) : List Nat := (List.range 19).map fun x => got.getD (codeLengthOrder.idxOf x) 0

/-- What the code-length code comes from is the lengths in ORDER. -/
theorem codeLengthLens_getD (got : List Nat) {i : Nat} (h : i < 19) :
    (codeLengthLens got).getD (codeLengthOrder.getD i 0) 0 = got.getD i 0 := by
  have horder : ∀ i < 19, codeLengthOrder.getD i 0 < 19 ∧ codeLengthOrder.idxOf (codeLengthOrder.getD i 0) = i := by
    decide
  obtain ⟨hlt, hidx⟩ := horder i h
  rw [codeLengthLens, List.getD_eq_getElem _ _ (by simpa using hlt), List.getElem_map, List.getElem_range, hidx]

/-- The share of one length. -/
def lengthSpace (l : Nat) : Nat := if l = 0 then 0 else 2 ^ (15 - l)

theorem codeSpace_append (x y : List Nat) : codeSpace (x ++ y) = codeSpace x + codeSpace y := by
  simp [codeSpace]

/-- Unused symbols take no code space. -/
theorem codeSpace_getD {n : Nat} {lens : List Nat} (h : lens.length ≤ n) :
    codeSpace ((List.range n).map fun i => lens.getD i 0) = codeSpace lens := by
  have hpad : ((List.range n).map fun i => lens.getD i 0) = lens ++ List.replicate (n - lens.length) 0 := by
    refine List.ext_getElem (by simp; omega) fun i h1 h2 => ?_
    rw [List.getElem_map, List.getElem_range, List.getElem_append]
    split
    · exact List.getD_eq_getElem _ _ ‹_›
    · rw [List.getElem_replicate, List.getD_eq_default _ _ (by omega)]
  rw [hpad, codeSpace_append]
  simp [codeSpace]

theorem codeSpace_codeLengthLens {got : List Nat} (h : got.length ≤ 19) :
    codeSpace (codeLengthLens got) = codeSpace got := by
  have hperm : (List.range 19).Perm codeLengthOrder := by decide
  have horder : codeLengthOrder.map codeLengthOrder.idxOf = List.range 19 := by decide
  calc codeSpace (codeLengthLens got)
      = codeSpace (codeLengthOrder.map fun x => got.getD (codeLengthOrder.idxOf x) 0) :=
        (((hperm.map _).map lengthSpace).sum_eq)
    _ = codeSpace ((List.range 19).map fun i => got.getD i 0) := by rw [← horder, List.map_map]; rfl
    _ = codeSpace got := codeSpace_getD h

theorem codeLengthLens_le {got : List Nat} (h : ∀ l ∈ got, l ≤ 15) : ∀ l ∈ codeLengthLens got, l ≤ 15 := by
  intro l hl
  obtain ⟨x, -, rfl⟩ := List.mem_map.mp hl
  exact getD_le_of_forall_mem h _

/-- What `build` says of the code-length code. -/
theorem buildCode_codeLengthLens {got : List Nat} (hgot : ∀ l ∈ got, l ≤ 15) (hlen : got.length ≤ 19) :
    buildCode (codeLengthLens got) =
      if codeSpace got ≤ 2 ^ 15 then some (2 ^ 15 - codeSpace got, codeTable (codeLengthLens got)) else none := by
  have hbuild := buildCode_eq _ (codeLengthLens_le hgot)
  rw [codeSpace_codeLengthLens hlen] at hbuild
  rw [codeTable, hbuild]
  split <;> rfl

theorem codeLengthTable_of_complete {got : List Nat} (hgot : ∀ l ∈ got, l ≤ 15) (hlen : got.length ≤ 19)
    (h : codeSpace got = 2 ^ 15) : ∃ t, buildCode (codeLengthLens got) = some (0, t) ∧
      ∀ z hlit hdist, codeLengthTable z hlit hdist got = .cont { z with clen := t } (.lens hlit hdist [] symStart) := by
  have hbuild := buildCode_codeLengthLens hgot hlen
  rw [h, if_pos (Nat.le_refl _), Nat.sub_self] at hbuild
  refine ⟨_, hbuild, fun z hlit hdist => ?_⟩
  rw [codeLengthTable, ← codeLengthLens, hbuild]
  rfl

theorem codeLengthTable_of_incomplete {got : List Nat} (hgot : ∀ l ∈ got, l ≤ 15) (hlen : got.length ≤ 19)
    (h : codeSpace got ≠ 2 ^ 15) (z : InflateCtx) (hlit hdist : Nat) :
    codeLengthTable z hlit hdist got = .fail .badCodeLengths := by
  have hbuild := buildCode_codeLengthLens hgot hlen
  rw [codeLengthTable, ← codeLengthLens]
  split
  · rename_i t hcomplete
    rw [hbuild] at hcomplete
    split at hcomplete
    · injection hcomplete with hcomplete
      injection hcomplete with hzero _
      omega
    · cases hcomplete
  · rfl

/-! ### The two codes of a dynamic block (45_inflate.md R239) -/

/-- The check of a code of a dynamic block rejects what is not accepted. -/
theorem acceptCode_of_not_accepted {lens : List Nat} {left : Nat} {t : HTable} (hlens : ∀ l ∈ lens, l ≤ 15)
    (h : ¬ CodeAccepted lens) (hbuild : buildCode lens = some (left, t)) : acceptCode lens.length left t = false := by
  rw [codeAccepted_iff lens hlens] at h
  exact Bool.eq_false_iff.mpr fun haccept => h ⟨left, t, hbuild, haccept⟩

section

variable {all : List Nat} {hlit : Nat}

theorem dynamicTables_of_rejected (hall : ∀ l ∈ all, l ≤ 15) (hlen : hlit ≤ all.length)
    (h : all.getD 256 0 = 0 ∨ ¬ CodeAccepted (all.take hlit) ∨ ¬ CodeAccepted (all.drop hlit)) (z : InflateCtx) :
    dynamicTables z hlit all = .fail .badCodeLengths := by
  have hlit' : (all.take hlit).length = hlit := List.length_take_of_le hlen
  rw [dynamicTables]
  split
  · rfl
  rename_i hend
  split
  · rfl
  rename_i left lit hbuild
  split
  · rfl
  rename_i haccept
  split
  · rfl
  rename_i left' dist hbuild'
  split
  · rfl
  rename_i haccept'
  exfalso
  rcases h with h | h | h
  · exact hend h
  · have := acceptCode_of_not_accepted (fun l hl => hall l (List.mem_of_mem_take hl)) h hbuild
    rw [hlit'] at this
    exact haccept (by rw [this]; rfl)
  · have := acceptCode_of_not_accepted (fun l hl => hall l (List.mem_of_mem_drop hl)) h hbuild'
    exact haccept' (by rw [this]; rfl)

theorem dynamicTables_of_accepted (hall : ∀ l ∈ all, l ≤ 15) (hlen : hlit ≤ all.length) (hend : all.getD 256 0 ≠ 0)
    (hlitOk : CodeAccepted (all.take hlit)) (hdistOk : CodeAccepted (all.drop hlit)) :
    ∃ left left' lit dist, buildCode (all.take hlit) = some (left, lit) ∧
      buildCode (all.drop hlit) = some (left', dist) ∧
      ∀ z, dynamicTables z hlit all = .cont { z with lit := lit, dist := dist } (.sym symStart) := by
  rw [codeAccepted_iff _ fun l hl => hall l (List.mem_of_mem_take hl)] at hlitOk
  rw [codeAccepted_iff _ fun l hl => hall l (List.mem_of_mem_drop hl)] at hdistOk
  obtain ⟨left, lit, hbuild, haccept⟩ := hlitOk
  obtain ⟨left', dist, hbuild', haccept'⟩ := hdistOk
  rw [List.length_take_of_le hlen] at haccept
  refine ⟨left, left', lit, dist, hbuild, hbuild', fun z => ?_⟩
  simp only [dynamicTables, if_neg hend, hbuild, haccept, hbuild', haccept', Bool.not_true, Bool.false_eq_true,
    if_false]

end

/-! ### The code lengths of a dynamic block (45_inflate.md R239) -/

theorem codeLengthSymbol_length {x : Nat} (h : x < 16) (z : InflateCtx) (hlit hdist : Nat) (lens : List Nat) :
    codeLengthSymbol z hlit hdist lens x = moreLengths z hlit hdist (lens ++ [x]) := if_pos h

theorem codeLengthSymbol_repeat {x : Nat} {lens : List Nat} (h : 16 ≤ x) (hlast : ¬(x = 16 ∧ lens = []))
    (z : InflateCtx) (hlit hdist : Nat) : codeLengthSymbol z hlit hdist lens x = .cont z (.rep hlit hdist lens x) := by
  rw [codeLengthSymbol, if_neg (Nat.not_lt.mpr h), if_neg hlast]

theorem codeLengthSymbol_noLast (z : InflateCtx) (hlit hdist : Nat) :
    codeLengthSymbol z hlit hdist [] 16 = .fail .badCodeLengths := rfl

theorem moreLengths_of_lt {lens : List Nat} {hlit hdist : Nat} (h : lens.length < hlit + hdist) (z : InflateCtx) :
    moreLengths z hlit hdist lens = .cont z (.lens hlit hdist lens symStart) := if_pos h

theorem moreLengths_of_eq {lens : List Nat} {hlit hdist : Nat} (h : lens.length = hlit + hdist) (z : InflateCtx) :
    moreLengths z hlit hdist lens = dynamicTables z hlit lens := if_neg h.ge.not_gt

theorem repeatBits_pos (x : Nat) : 0 < repeatBits x := by
  rw [repeatBits]
  split
  · decide
  · split <;> decide

/-- One more length. -/
theorem append_length_le {lens : List Nat} (h : ∀ l ∈ lens, l ≤ 15) {x : Nat} (hx : x ≤ 15) :
    ∀ l ∈ lens ++ [x], l ≤ 15 := by
  intro l hl
  rcases List.mem_append.mp hl with hl | hl
  · exact h l hl
  · exact List.mem_singleton.mp hl ▸ hx

/-- The code lengths after a repeat whose extra bits are `v`. -/
def repeated (lens : List Nat) (x v : Nat) : List Nat :=
  lens ++ List.replicate ((if x = 18 then 11 else 3) + v) (if x = 16 then lens.getLastD 0 else 0)

theorem length_repeated (lens : List Nat) (x v : Nat) :
    (repeated lens x v).length = lens.length + ((if x = 18 then 11 else 3) + v) := by
  rw [repeated, List.length_append, List.length_replicate]

theorem repeatLengths_tooMany {lens : List Nat} {x v hlit hdist : Nat} (h : (repeated lens x v).length > hlit + hdist)
    (z : InflateCtx) : repeatLengths z hlit hdist lens x v = .fail .badCodeLengths := by
  rw [length_repeated] at h
  exact if_pos h

theorem repeatLengths_fits {lens : List Nat} {x v hlit hdist : Nat} (h : (repeated lens x v).length ≤ hlit + hdist)
    (z : InflateCtx) : repeatLengths z hlit hdist lens x v = moreLengths z hlit hdist (repeated lens x v) := by
  rw [length_repeated] at h
  exact if_neg (Nat.not_lt.mpr h)

/-- A repeat repeats a length or zero. -/
theorem repeated_le {lens : List Nat} (h : ∀ l ∈ lens, l ≤ 15) (x v : Nat) : ∀ l ∈ repeated lens x v, l ≤ 15 := by
  intro l hl
  rcases List.mem_append.mp hl with hl | hl
  · exact h l hl
  obtain rfl := List.eq_of_mem_replicate hl
  split
  · rw [List.getLastD_eq_getLast?]
    cases hlast : lens.getLast? with
    | none => exact Nat.zero_le 15
    | some y => exact h y (List.mem_of_getLast? hlast)
  · exact Nat.zero_le 15

/-! ### The steps in the tables of a dynamic block -/

section

variable {src : Source} {s : State} {hlit hdist : Nat} {lens : List Nat}

/-- The last length of the code-length code. -/
theorem engineStep_of_lastClen (h : AtPoint src (.clens hlit hdist 1 lens) s) (hcnt : 3 ≤ s.z.bitcnt) :
    engineStep s = afterAnswer src s (codeLengthTable (dropBits s.z 3) hlit hdist (lens ++ [bitsBehind s.z 0 3])) := by
  rw [engineStep_of_bits h rfl hcnt, peekBits_eq (by decide)]
  rfl

/-- A code-length symbol whose code is next. -/
theorem engineStep_of_codeLengthSymbol {x l : Nat} (h : AtPoint src (.lens hlit hdist lens symStart) s)
    (hnext : CodeIsNext s.z s.z.clen x l) :
    engineStep s = afterAnswer src s (codeLengthSymbol (dropBits s.z l) hlit hdist lens x) :=
  engineStep_of_codeIsNext (readsSymbol_lens hlit hdist lens) h hnext

/-- A repeat whose extra bits are unread. -/
theorem engineStep_of_repeat {x n : Nat} (h : AtPoint src (.rep hlit hdist lens x) s)
    (hx : (x = 16 ∧ n = 2) ∨ (x = 17 ∧ n = 3) ∨ (x = 18 ∧ n = 7)) (hcnt : n ≤ s.z.bitcnt) :
    engineStep s =
      afterAnswer src s (repeatLengths (dropBits s.z n) hlit hdist lens x (bitsBehind s.z 0 n)) := by
  have hn : repeatBits x = n ∧ n < 32 := by
    rcases hx with ⟨rfl, rfl⟩ | ⟨rfl, rfl⟩ | ⟨rfl, rfl⟩ <;> decide
  obtain ⟨hbits, hlt⟩ := hn
  rw [engineStep_of_bits h (congrArg ZRequest.bits hbits) hcnt, peekBits_eq hlt]
  rfl

/-- After the last length the two tables are built, or the lengths are rejected. -/
theorem engineStep_of_lastLength {all : List Nat} {n : Nat} {b : Byte} {rest : List Byte} (hb : s.st = .busy)
    (hall : ∀ l ∈ all, l ≤ 15) (hlen : all.length = hlit + hdist)
    (hstep : engineStep s = afterAnswer src s (moreLengths (dropBits s.z n) hlit hdist all)) :
    (all.getD 256 0 = 0 ∨ ¬ CodeAccepted (all.take hlit) ∨ ¬ CodeAccepted (all.drop hlit) →
      engineStep s = raise .badCodeLengths s) ∧
    (all.getD 256 0 ≠ 0 → CodeAccepted (all.take hlit) → CodeAccepted (all.drop hlit) →
      src = .raw ∧ s.z.bitcnt = n ∧ s.inq = b :: rest →
      ∃ (left left' : Nat) (lit dist : HTable), buildCode (all.take hlit) = some (left, lit) ∧
        buildCode (all.drop hlit) = some (left', dist) ∧
        engineStep s =
          { s with
            inq := rest, inCount := s.inCount + 1, hold := .none, z := { dropBits s.z n with lit := lit, dist := dist },
            k := .inflate .raw (.sym symStart) (some b) }) := by
  rw [moreLengths_of_eq hlen] at hstep
  refine ⟨fun hrejected => ?_, ?_⟩
  · rw [hstep, dynamicTables_of_rejected hall (by omega) hrejected, afterAnswer]
  · rintro hend hlitOk hdistOk ⟨rfl, hcnt, hq⟩
    obtain ⟨left, left', lit, dist, hbuild, hbuild', htables⟩ :=
      dynamicTables_of_accepted hall (by omega) hend hlitOk hdistOk
    refine ⟨left, left', lit, dist, hbuild, hbuild', ?_⟩
    rw [hstep, htables, afterAnswer]
    exact engineStep_pulls hb (show s.z.bitcnt - n < 1 by omega) hq

end

/-- Settles O41: the checks of the command in the order of its bytes, then those of a dynamic block by its points. -/
theorem inflateChecksHeaderAndBlocks : Obligations.InflateChecksHeaderAndBlocks := by
  refine ⟨?command, ?block⟩
  case command =>
    intro s cmf flg rest hready hq bad fails
    refine ⟨fun hbad => ?badHeader, fun hok hdict => ?dictionary, fun hok hdict b0 r0 hrest => ?firstBlock⟩
    case badHeader =>
      refine inflateEnds_noOutput (inflateEnds_of_zlibHeader hready hq fun z => ?_)
      rw [zlibHeader_eq, if_pos hbad]
    case dictionary =>
      refine inflateEnds_noOutput (inflateEnds_of_zlibHeader hready hq fun z => ?_)
      rw [zlibHeader_eq, if_neg hok, if_pos hdict]
    case firstBlock =>
      subst hrest
      have hgood : ∀ z, zlibHeader z cmf flg = .cont z .bfinal := fun z => by
        rw [zlibHeader_eq, if_neg hok, hdict]
        rfl
      refine ⟨fun htype => ?reserved, fun htype l0 l1 n0 n1 r1 hr0 hmismatch => ?stored,
        fun htype b1 b2 r1 hr0 hmany => ?dynamic⟩
      case reserved => exact inflateEnds_noOutput (inflateEnds_of_badBlockType hready hgood hq htype)
      case stored =>
        exact inflateEnds_noOutput (inflateEnds_of_storedLenMismatch hready hgood (hr0 ▸ hq) htype hmismatch)
      case dynamic => exact inflateEnds_noOutput (inflateEnds_of_tooManyCodes hready hgood (hr0 ▸ hq) htype hmany)
  case block =>
    intro s src hlit hdist lens b rest hb hlens goesOn pulls ends
    refine ⟨fun hk hcnt hlen => ?lastClen, fun x l hk hnext => ?symbol, fun x n hk hx hcnt => ?repeats⟩
    case lastClen =>
      have hstep := engineStep_of_lastClen ⟨hb, hk⟩ hcnt
      have hlast : bitsBehind s.z 0 3 < 2 ^ 3 := Nat.mod_lt _ (by decide)
      have hgot := append_length_le hlens (show bitsBehind s.z 0 3 ≤ 15 by omega)
      have hgotLen : (lens ++ [bitsBehind s.z 0 3]).length ≤ 19 := by simp; omega
      refine ⟨fun hincomplete => ?_, ?_⟩
      · rw [hstep, codeLengthTable_of_incomplete hgot hgotLen hincomplete, afterAnswer]
      · rintro hcomplete ⟨rfl, hcnt, hq⟩
        obtain ⟨t, hbuild, htable⟩ := codeLengthTable_of_complete hgot hgotLen hcomplete
        refine ⟨_, t, by simp [codeLengthLens], fun i hi => codeLengthLens_getD _ hi, hbuild, ?_⟩
        show engineStep s = _
        rw [hstep, htable, afterAnswer]
        exact engineStep_pulls hb (show s.z.bitcnt - 3 < 1 by omega) hq
    case symbol =>
      have hstep := engineStep_of_codeLengthSymbol ⟨hb, hk⟩ hnext
      refine ⟨?next, ?last, ?noLast, ?repeatNext⟩
      case next =>
        rintro hx hlt ⟨rfl, hcnt, hq⟩
        show engineStep s = _
        rw [hstep, codeLengthSymbol_length hx, moreLengths_of_lt (by simpa using hlt), afterAnswer]
        exact engineStep_pulls hb (show s.z.bitcnt - l < 1 by omega) hq
      case last =>
        intro hx heq
        rw [codeLengthSymbol_length hx] at hstep
        exact engineStep_of_lastLength hb (append_length_le hlens (by omega)) (by simpa using heq) hstep
      case noLast =>
        rintro rfl rfl
        rw [hstep, codeLengthSymbol_noLast, afterAnswer]
      case repeatNext =>
        rintro hx hlast ⟨rfl, hcnt, hq⟩
        show engineStep s = _
        rw [hstep, codeLengthSymbol_repeat hx hlast, afterAnswer]
        exact engineStep_pulls hb (show s.z.bitcnt - l < repeatBits x by have := repeatBits_pos x; omega) hq
    case repeats =>
      intro all
      have hall : all = repeated lens x (bitsBehind s.z 0 n) := rfl
      clear_value all
      subst hall
      have hstep := engineStep_of_repeat ⟨hb, hk⟩ hx hcnt
      refine ⟨fun hbeyond => ?beyond, fun heq => ?last, ?next⟩
      case beyond => rw [hstep, repeatLengths_tooMany hbeyond, afterAnswer]
      case last =>
        rw [repeatLengths_fits heq.le] at hstep
        exact engineStep_of_lastLength hb (repeated_le hlens x _) heq hstep
      case next =>
        rintro hlt ⟨rfl, hcnt, hq⟩
        show engineStep s = _
        rw [hstep, repeatLengths_fits hlt.le, moreLengths_of_lt hlt, afterAnswer]
        exact engineStep_pulls hb (show s.z.bitcnt - n < 1 by omega) hq

end Sys2Proof.Machine
end

section
/-!
SUPPORT. Error entry and the way out of ERROR, by the kind of event that a step runs (60_exceptions.md R302 to R310).
-/

namespace Sys2Proof.Machine

/-! ### Host transactions, alike from every state -/

/-- Everything a host transaction can do; which of the three it is does not depend on the state. -/
theorem hostTx_cases (tx : HostTx) :
    (∃ i, tx.kind = .write ∧ ∀ s : State, step (s.withEvent (.host tx)) = exec i s) ∨
    (∃ e, tx.kind = .write ∧ ∀ s : State, step (s.withEvent (.host tx)) = .next (illegalWord e s)) ∨
    ∀ s : State, step (s.withEvent (.host tx)) = busAccess tx s := by
  cases hcmd : cmdWordOf tx with
  | none => exact .inr (.inr (step_access hcmd))
  | some w =>
    have hkind : tx.kind = .write := by
      by_contra hread
      rw [cmdWordOf, if_neg fun ⟨hwrite, _⟩ => hread hwrite] at hcmd
      cases hcmd
    cases hd : decode w with
    | ok i => exact .inl ⟨i, hkind, fun s => by simp only [step, State.withEvent, fetch, hcmd, hd]; rfl⟩
    | error e => exact .inr (.inl ⟨e, hkind, fun s => by simp only [step, State.withEvent, fetch, hcmd, hd]; rfl⟩)

/-! ### Where the engine stands -/

/-- What error entry fixes until CLOSE or reset: STATE, the recorded error, K and the counters (60_exceptions.md R302,
R307). -/
structure Standing where
  st : EngState
  err : Option Err
  k : Kont
  inCount : Word
  outCount : Word

def State.standing (s : State) : Standing :=
  { st := s.st, err := s.err, k := s.k, inCount := s.inCount, outCount := s.outCount }

/-- A read moves a byte of OUTQ or BUF_PTR at most (20_memory.md R65). -/
theorem readReg_standing (r : Reg) (s : State) : (readReg r s).2.standing = s.standing := by
  cases r
  case outData => rw [readReg, readOutData_snd]; rfl
  case bufData =>
    simp only [readReg, readBufData]
    split <;> rfl
  all_goals rfl

theorem readReg_st (r : Reg) (s : State) : (readReg r s).2.st = s.st := congrArg Standing.st (readReg_standing r s)

/-! ### ERROR is entered by error entry only -/

/-- An operation on `s` that ends in ERROR only as error entry with nothing else. -/
def EntersErrorByRaise (s t : State) : Prop := t.st = .error → ∃ e : Err, t = raise e s

theorem raise_entersErrorByRaise (e : Err) (s : State) : EntersErrorByRaise s (raise e s) := fun _ => ⟨e, rfl⟩

/-- An operation that leaves another STATE than ERROR as it is enters nothing. -/
theorem entersErrorByRaise_of_st_eq {s t : State} (hs : s.st ≠ .error) (h : t.st = s.st) : EntersErrorByRaise s t :=
  fun ht => absurd (h.symm.trans ht) hs

theorem unlessBusy_entersErrorByRaise {s t : State} (h : EntersErrorByRaise s t) :
    EntersErrorByRaise s (unlessBusy s t) := by
  unfold unlessBusy
  split
  · exact raise_entersErrorByRaise _ s
  · exact h

/-- A write that is refused with BUF_RANGE where `c` holds. -/
theorem rangeChecked_entersErrorByRaise {c : Prop} [Decidable c] {s t : State} (h : EntersErrorByRaise s t) :
    EntersErrorByRaise s (unlessBusy s (if c then raise .bufRange s else t)) := by
  refine unlessBusy_entersErrorByRaise ?_
  split
  · exact raise_entersErrorByRaise _ s
  · exact h

theorem writeReg_entersErrorByRaise {s : State} (hs : s.st ≠ .error) (r : Reg) (v : Word) :
    EntersErrorByRaise s (writeReg r v s) := by
  have same : ∀ {t : State}, t.st = s.st → EntersErrorByRaise s t := entersErrorByRaise_of_st_eq hs
  cases r
  case inData =>
    simp only [writeReg, writeInData]
    split
    · exact raise_entersErrorByRaise _ s
    · split
      · exact raise_entersErrorByRaise _ s
      · exact same rfl
  case inCtrl =>
    by_cases ho : s.inEnd = .stillOpen
    · rw [writeReg, writeInCtrl_of_open ho]
      exact same rfl
    · rw [writeReg, writeInCtrl_of_ended ho]
      exact same rfl
  case bufSel | kdfIter | kdfLen => exact unlessBusy_entersErrorByRaise (same rfl)
  case bufLen | bufPtr | bufData => exact rangeChecked_entersErrorByRaise (same rfl)
  all_goals exact same rfl

theorem illegalWord_entersErrorByRaise (e : DecodeError) (s : State) : EntersErrorByRaise s (illegalWord e s) :=
  match e with
  | .reservedBits => raise_entersErrorByRaise _ s
  | .badOpcode => raise_entersErrorByRaise _ s

theorem exec_entersErrorByRaise {i : Instr} {s t : State} (hs : s.st ≠ .error) (h : exec i s = .next t) :
    EntersErrorByRaise s t := by
  by_cases hi : i = .close
  · subst hi
    cases h
    exact fun ht => by cases ht
  · rw [exec_eq_accept hi] at h
    cases h
    rcases acceptCommand_cases i s with ⟨-, ha⟩ | ⟨-, ha⟩ | ⟨herr, -⟩
    · rw [ha]
      exact fun ht => by cases ht
    · rw [ha]
      exact raise_entersErrorByRaise _ s
    · exact absurd herr hs

/-- What a raising transaction of each kind leaves on the bus: a write keeps it, a read answers 0. -/
def raisedBy (e : Err) (kind : Access) (s : State) : State :=
  { raise e s with busData := if kind = .read then 0 else s.busData }

theorem raisedBy_write (e : Err) (s : State) : raisedBy e .write s = raise e s :=
  calc raisedBy e .write s = { raise e s with busData := s.busData } := rfl
    _ = { raise e s with busData := (raise e s).busData } := by rw [raise_busData]
    _ = raise e s := rfl

theorem EntersErrorByRaise.raisedBy_of_write {s t : State} {kind : Access} (h : EntersErrorByRaise s t)
    (hkind : kind = .write) (ht : t.st = .error) : ∃ e : Err, t = raisedBy e kind s := by
  obtain ⟨e, he⟩ := h ht
  exact ⟨e, by rw [he, hkind, raisedBy_write]⟩

/-- An access inside the window that ends in ERROR has done nothing but error entry (20_memory.md R64, 60_exceptions.md
R302). -/
theorem busAccess_raises {tx : HostTx} {s t : State} (hs : s.st ≠ .error) (h : busAccess tx s = .next t)
    (ht : t.st = .error) : ∃ e : Err, t = raisedBy e tx.kind s := by
  rcases busAccess_cases tx s with ⟨-, ha⟩ | ⟨-, -, ha⟩ | ⟨-, -, ha⟩ <;> rw [ha] at h <;> cases h
  · cases hk : tx.kind with
    | read => exact ⟨.badAccess, by rw [badAccess, hk]; rfl⟩
    | write => exact ⟨.badAccess, by rw [badAccess, hk, raisedBy_write]⟩
  · cases hk : tx.kind <;> cases hr : regAt tx.offset <;> simp only [alignedAccess, hk, hr] at ht ⊢
    case read.none => exact absurd ht hs
    case read.some r => exact absurd ((readReg_st r s).symm.trans ht) hs
    case write.none => exact absurd ht hs
    case write.some r => exact (writeReg_entersErrorByRaise hs r tx.data).raisedBy_of_write rfl ht

/-- Settles O8: completion and error entry field by field, then each kind of host transaction. -/
theorem completionAndErrorEntry : Obligations.CompletionAndErrorEntry := by
  refine ⟨fun s => rfl, fun e s h => raise_of_error h e, fun e s h => raise_of_not_error h e,
    fun tx s t hs hstep ht => ?_⟩
  show ∃ e : Err, t = raisedBy e tx.kind s
  rcases hostTx_cases tx with ⟨i, hkind, he⟩ | ⟨e, hkind, he⟩ | he <;> rw [he] at hstep
  · exact (exec_entersErrorByRaise hs hstep).raisedBy_of_write hkind ht
  · cases hstep
    exact (illegalWord_entersErrorByRaise e s).raisedBy_of_write hkind ht
  · exact busAccess_raises hs hstep ht

/-! ### ERROR is left by CLOSE and reset only -/

theorem unlessBusy_of_error {s : State} (h : s.st = .error) (t : State) : unlessBusy s t = t :=
  unlessBusy_of_not_busy (by rw [h]; decide) t

/-- In ERROR a register write leaves the engine where it stands: its own raise does nothing (60_exceptions.md R302). -/
theorem writeReg_standing_of_error {s : State} (h : s.st = .error) (r : Reg) (v : Word) :
    (writeReg r v s).standing = s.standing := by
  have checked : ∀ {c : Prop} [Decidable c] {t : State}, t.standing = s.standing →
      (unlessBusy s (if c then raise .bufRange s else t)).standing = s.standing := by
    intro c _ t ht
    rw [unlessBusy_of_error h, raise_of_error h]
    split
    · rfl
    · exact ht
  cases r
  case inData =>
    simp only [writeReg, writeInData, raise_of_error h]
    split
    · rfl
    · split <;> rfl
  case inCtrl =>
    by_cases ho : s.inEnd = .stillOpen
    · rw [writeReg, writeInCtrl_of_open ho]
      rfl
    · rw [writeReg, writeInCtrl_of_ended ho]
  case bufSel => rw [writeReg, writeBufSel, unlessBusy_of_error h]; rfl
  case kdfIter => rw [writeReg, writeKdfIter, unlessBusy_of_error h]; rfl
  case kdfLen => rw [writeReg, writeKdfLen, unlessBusy_of_error h]; rfl
  case bufLen | bufPtr | bufData => exact checked rfl
  all_goals rfl

theorem busAccess_standing_of_error {tx : HostTx} {s t : State} (hs : s.st = .error) (h : busAccess tx s = .next t) :
    t.standing = s.standing := by
  rcases busAccess_cases tx s with ⟨-, ha⟩ | ⟨-, -, ha⟩ | ⟨-, -, ha⟩ <;> rw [ha] at h <;> cases h
  · unfold badAccess
    split <;> rw [raise_of_error hs]
    rfl
  · unfold alignedAccess
    split
    case h_1 r _ _ => exact readReg_standing r s
    case h_2 => rfl
    case h_3 r _ _ => exact writeReg_standing_of_error hs r _
    case h_4 => rfl

/-- A step from ERROR leaves the engine where it stands, unless it is CLOSE or reset. -/
theorem step_from_error {s t : State} (hs : s.st = .error) (hstep : step s = .next t) :
    t.standing = s.standing ∨
    ((fetch s.sched = .command .close ∨ fetch s.sched = .reset) ∧ t.st = .idle ∧ t.err = none) := by
  have hc : (consumeEvent s).st = .error := hs
  rcases step_cases s with ⟨-, he⟩ | ⟨hf, he⟩ | ⟨i, hf, he⟩ | ⟨e, -, he⟩ | ⟨tx, -, he⟩ <;> rw [he] at hstep
  · rw [engineStep_of_not_busy (by rw [hc]; decide)] at hstep
    cases hstep
    exact .inl rfl
  · cases hstep
    exact .inr ⟨.inr hf, rfl, rfl⟩
  · by_cases hi : i = .close
    · subst hi
      cases hstep
      exact .inr ⟨.inl hf, rfl, rfl⟩
    · rw [exec_eq_accept hi, acceptCommand_of_error hc] at hstep
      cases hstep
      exact .inl rfl
  · rw [illegalWord_of_error hc] at hstep
    cases hstep
    exact .inl rfl
  · exact .inl ((busAccess_standing_of_error hc hstep).trans rfl)

/-- Settles O9, field by field from where the engine stands. -/
theorem errorIsLeftOnlyByCloseOrReset : Obligations.ErrorIsLeftOnlyByCloseOrReset := by
  intro s t hs hstep
  refine (step_from_error hs hstep).imp_left fun h => ?_
  exact ⟨(congrArg Standing.st h).trans hs, congrArg Standing.err h, congrArg Standing.k h, congrArg Standing.inCount h,
    congrArg Standing.outCount h⟩

end Sys2Proof.Machine
end

section
/-!
SUPPORT. What an engine step changes, and in which commands (60_exceptions.md R319, 20_memory.md R61): the registers
that READ_BYTEFIELD and the header body write, beside the host's side and the buffers.
-/

namespace Sys2Proof.Machine

/-! ### The registers that commands write, under the parts of an engine step -/

/-- The registers that only commands write (10_state.md R41, 40_bytefield_header.md R101, R103). -/
structure ResultRegs where
  hdrMagic : BitVec 16
  hdrVersion : Byte
  fieldLen : Byte

def State.resultRegs (s : State) : ResultRegs :=
  { hdrMagic := s.hdrMagic, hdrVersion := s.hdrVersion, fieldLen := s.fieldLen }

@[simp] theorem raise_resultRegs (e : Err) (s : State) : (raise e s).resultRegs = s.resultRegs := by
  simp [State.resultRegs]

section
variable {α : Type} {v : ResultRegs → α}

/-- A part of an engine step that keeps a view `v` of the registers that commands write. -/
def KeepsRegs (v : ResultRegs → α) (f : State → State) : Prop := ∀ s : State, v (f s).resultRegs = v s.resultRegs

/-- A view that does not depend on FIELD_LEN, which READ_BYTEFIELD writes (40_bytefield_header.md R101). -/
def IgnoresFieldLen (v : ResultRegs → α) : Prop := ∀ (r : ResultRegs) (n : Byte), v { r with fieldLen := n } = v r

/-- A view that does not depend on the header registers (40_bytefield_header.md R103). -/
def IgnoresHeaderRegs (v : ResultRegs → α) : Prop :=
  ∀ (r : ResultRegs) (m : BitVec 16) (n : Byte), v { r with hdrMagic := m, hdrVersion := n } = v r

theorem finish_keepsRegs : KeepsRegs v finish := fun _ => rfl

theorem raise_keepsRegs (e : Err) : KeepsRegs v (raise e) := fun s => by rw [raise_resultRegs]

/-- `pull()` keeps what its two continuations keep. -/
theorem regs_pull {onByte : Byte → State → State} {onEof : State → State} (hb : ∀ b, KeepsRegs v (onByte b))
    (he : KeepsRegs v onEof) (s : State) : v (pull s onByte onEof).resultRegs = v s.resultRegs := by
  rcases pull_cases s onByte onEof with ⟨b, rest, -, h⟩ | ⟨-, -, h⟩ | ⟨-, -, h⟩ | ⟨-, -, h⟩ <;> rw [h]
  · exact hb b _
  · exact he _
  · exact raise_keepsRegs .inputError _
  · rfl

/-- `push(b)` keeps what its continuation keeps. -/
theorem regs_push {onPushed : State → State} (hp : KeepsRegs v onPushed) (b : Byte) (s : State) :
    v (push b s onPushed).resultRegs = v s.resultRegs := by
  rcases push_cases b s onPushed with ⟨-, h⟩ | ⟨-, h⟩ <;> rw [h]
  · exact hp _
  · rfl

/-- A part that begins with one that can fail keeps what both keep. -/
theorem onResult_keepsRegs {f g : State → State} {r : State → Except Err State} (hf : ∀ s, f s = onResult g s (r s))
    (hr : ∀ s t, r s = .ok t → t.resultRegs = s.resultRegs) (hg : KeepsRegs v g) : KeepsRegs v f := fun s => by
  rw [hf]
  cases h : r s with
  | ok t => exact (hg t).trans (congrArg v (hr s t h))
  | error e => exact raise_keepsRegs e s

/-! #### READ_BYTEFIELD and the header body -/

theorem readFieldStart_keepsRegs (hv : IgnoresFieldLen v) : KeepsRegs v readFieldStart :=
  regs_pull (fun n t => hv t.resultRegs n) (raise_keepsRegs _)

theorem fieldPullStep_keepsRegs (left : Nat) : KeepsRegs v (fieldPullStep left) :=
  match left with
  | 0 => finish_keepsRegs
  | _ + 1 => regs_pull (fun _ _ => by rfl) (raise_keepsRegs _)

theorem headerFieldLen_keepsRegs (d : Bool) (f : BufId) : KeepsRegs v (headerFieldLen d f) := fun _ =>
  regs_pull (fun _ _ => by rfl) (raise_keepsRegs _) _

theorem headerFieldData_keepsRegs {d : Bool} {onDone : State → State} (hd : KeepsRegs v onDone) (f : BufId)
    (i n : Nat) : KeepsRegs v (headerFieldData d onDone f i n) := fun s => by
  unfold headerFieldData
  split
  · exact regs_pull (fun _ _ => by rfl) (raise_keepsRegs _) _
  · split
    · exact headerFieldLen_keepsRegs d _ s
    · exact hd s

theorem headerVersion_keepsRegs (hv : IgnoresHeaderRegs v) (d : Bool) (b0 b1 : Byte) :
    KeepsRegs v (headerVersion d b0 b1) := fun s => by
  unfold headerVersion
  split
  · exact regs_pull (fun b t => hv t.resultRegs t.hdrMagic b) (raise_keepsRegs _) _
  · exact raise_keepsRegs _ s

theorem headerFields_keepsRegs (d : Bool) (b : Byte) : KeepsRegs v (headerFields d b) := fun s => by
  unfold headerFields
  split
  · exact headerFieldLen_keepsRegs d _ s
  · exact raise_keepsRegs _ s

theorem headerStep_keepsRegs (hv : IgnoresHeaderRegs v) {d : Bool} {onDone : State → State} (hd : KeepsRegs v onDone)
    (p : HdrPoint) : KeepsRegs v (headerStep d onDone p) := fun s =>
  match p with
  | .magic0 => regs_pull (fun _ t => by exact hv t.resultRegs _ t.hdrVersion) (raise_keepsRegs _) _
  | .magic1 _ => regs_pull (fun _ t => by exact hv t.resultRegs _ t.hdrVersion) (raise_keepsRegs _) _
  | .version b0 b1 => headerVersion_keepsRegs hv d b0 b1 s
  | .fields b => headerFields_keepsRegs d b s
  | .fieldLen f => headerFieldLen_keepsRegs d f s
  | .fieldData f i n => headerFieldData_keepsRegs hd f i n s

theorem headerStart_keepsRegs (hv : IgnoresHeaderRegs v) (d : Bool) {onDone : State → State}
    (hd : KeepsRegs v onDone) : KeepsRegs v (headerStart d onDone) := fun s =>
  (headerStep_keepsRegs hv hd .magic0 (clearHeader s)).trans (hv s.resultRegs 0 0)

/-! #### DERIVE_KEY, AES_CBC_DECRYPT and UNWRAP -/

theorem keyPushStep_keepsRegs (rest : List Byte) : KeepsRegs v (keyPushStep rest) :=
  match rest with
  | [] => finish_keepsRegs
  | b :: _ => fun _ => regs_push (fun _ => by rfl) b _

theorem deriveKeyStart_keepsRegs : KeepsRegs v deriveKeyStart := fun s => by
  unfold deriveKeyStart
  split
  · exact raise_keepsRegs _ s
  · exact keyPushStep_keepsRegs _ s

theorem cbcAccept_keepsRegs (b : Byte) : KeepsRegs v (cbcAccept b) := fun s => by
  unfold cbcAccept
  dsimp only
  split <;> rfl

theorem cbcEnd_keepsRegs : KeepsRegs v cbcEnd := fun s => by
  unfold cbcEnd
  split
  · exact finish_keepsRegs s
  · exact raise_keepsRegs _ s

theorem cbcPullStep_keepsRegs : KeepsRegs v cbcPullStep := fun _ => regs_pull cbcAccept_keepsRegs cbcEnd_keepsRegs _

theorem cbcPushStep_keepsRegs (rest : List Byte) : KeepsRegs v (cbcPushStep rest) :=
  match rest with
  | [] => cbcPullStep_keepsRegs
  | b :: _ => fun _ => regs_push (fun _ => by rfl) b _

theorem resultRegs_loadKeyIv {s t : State} (h : loadKeyIv s = .ok t) : t.resultRegs = s.resultRegs := by
  obtain ⟨-, -, rfl⟩ := loadCipher_ok h
  rfl

theorem resultRegs_unwrapBody {s t : State} (h : unwrapBody s = .ok t) : t.resultRegs = s.resultRegs := by
  obtain ⟨c, ik, iiv, -, -, rfl⟩ := unwrapBody_ok h
  rfl

theorem cbcStart_keepsRegs : KeepsRegs v cbcStart :=
  onResult_keepsRegs cbcStart_eq (fun _ _ => resultRegs_loadKeyIv) cbcPullStep_keepsRegs

theorem unwrapStart_keepsRegs : KeepsRegs v unwrapStart :=
  onResult_keepsRegs unwrapStart_eq (fun _ _ => resultRegs_unwrapBody) finish_keepsRegs

/-! #### The payload stream -/

theorem stageAAccept_keepsRegs (b : Byte) : KeepsRegs v (stageAAccept b) := fun s => by
  unfold stageAAccept
  dsimp only
  split <;> rfl

theorem stageAEnd_keepsRegs : KeepsRegs v stageAEnd := fun s => by
  unfold stageAEnd
  split <;> exact raise_keepsRegs _ s

theorem inflatePull_keepsRegs (src : Source) (p : ZPoint) : KeepsRegs v (inflatePull src p) := fun _ =>
  match src with
  | .raw => regs_pull (fun _ _ => by rfl) (raise_keepsRegs _) _
  | .stageB => regs_pull stageAAccept_keepsRegs stageAEnd_keepsRegs _

theorem inflateStep_keepsRegs (src : Source) (p : ZPoint) (inHand : Option Byte) :
    KeepsRegs v (inflateStep src p inHand) := fun s => by
  obtain ⟨q, z, pos, ⟨-, h⟩ | ⟨b, -, h⟩ | ⟨e, h⟩ | h⟩ := inflateStep_cases src p inHand s <;> rw [h]
  · exact inflatePull_keepsRegs src q _
  · exact regs_push (fun _ => by rfl) b _
  · exact raise_keepsRegs e _
  · exact finish_keepsRegs _

theorem openBody_keepsRegs : KeepsRegs v openBody :=
  onResult_keepsRegs openBody_eq (fun _ _ => resultRegs_loadKeyIv) fun _ => inflateStep_keepsRegs _ _ _ _

theorem decryptTail_keepsRegs : KeepsRegs v decryptTail :=
  onResult_keepsRegs decryptTail_eq (fun _ _ => resultRegs_unwrapBody) openBody_keepsRegs

/-! #### The engine agent -/

theorem firstStep_keepsRegs {i : Instr} (hf : i = .readBytefield → IgnoresFieldLen v)
    (hh : InHeader (.first i) → IgnoresHeaderRegs v) : KeepsRegs v (firstStep i) :=
  match i with
  | .readBytefield => readFieldStart_keepsRegs (hf rfl)
  | .parseHeader => headerStart_keepsRegs (hh (.inl rfl)) false finish_keepsRegs
  | .deriveKey => deriveKeyStart_keepsRegs
  | .aesCbcDecrypt => cbcStart_keepsRegs
  | .unwrap => unwrapStart_keepsRegs
  | .openPlaintext => openBody_keepsRegs
  | .inflate => fun _ => inflateStep_keepsRegs _ _ _ _
  | .decrypt => headerStart_keepsRegs (hh (.inr (.inl rfl))) true decryptTail_keepsRegs
  | .close => fun _ => rfl

theorem afterHeader_keepsRegs (d : Bool) : KeepsRegs v (afterHeader d) :=
  match d with
  | true => decryptTail_keepsRegs
  | false => finish_keepsRegs

/-- A running command writes FIELD_LEN in the first step of READ_BYTEFIELD only, and the header registers in the header
body only. -/
theorem resultRegs_advance {s : State} (hf : s.k = .first .readBytefield → IgnoresFieldLen v)
    (hh : InHeader s.k → IgnoresHeaderRegs v) : v (advance s).resultRegs = v s.resultRegs := by
  unfold advance
  split
  case h_1 => rfl
  case h_2 i h =>
    rw [h] at hf hh
    exact firstStep_keepsRegs (fun hi => hf (congrArg Kont.first hi)) hh s
  case h_3 left _ => exact fieldPullStep_keepsRegs left s
  case h_4 b left _ => exact regs_push (fun _ => by rfl) b s
  case h_5 d p h => exact headerStep_keepsRegs (hh (.inr (.inr ⟨d, p, h⟩))) (afterHeader_keepsRegs d) p s
  case h_6 rest _ => exact keyPushStep_keepsRegs rest s
  case h_7 => exact cbcPullStep_keepsRegs s
  case h_8 rest _ => exact cbcPushStep_keepsRegs rest s
  case h_9 src p inHand _ => exact inflateStep_keepsRegs src p inHand s

theorem resultRegs_engineStep {s : State} (hf : s.k = .first .readBytefield → IgnoresFieldLen v)
    (hh : InHeader s.k → IgnoresHeaderRegs v) : v (engineStep s).resultRegs = v s.resultRegs := by
  by_cases hb : s.st = .busy
  · rw [engineStep_of_busy hb, resultRegs_advance hf hh]
  · rw [engineStep_of_not_busy hb]

end

/-! ### The buffers, where no invariant holds and in DECRYPT's first step -/

/-- A continuation outside the header body has no locals that could be out of range; at the two others that no run
reaches in BUSY, nothing happens. -/
theorem kontOk_or_advance_eq {s : State} (hheader : ∀ d p, s.k ≠ .header d p) : KontOk s.k ∨ advance s = s := by
  cases hk : s.k with
  | empty => exact .inr (by rw [advance, hk])
  | first i =>
    by_cases hi : i = .close
    · exact .inr (by rw [advance, hk, hi]; rfl)
    · exact .inl hi
  | header d p => exact absurd hk (hheader d p)
  | fieldPull _ | fieldPush _ _ | keyPush _ | cbcPull | cbcPush _ | inflate _ _ _ => exact .inl trivial

/-- Outside the header body and UNWRAP an engine step keeps all buffers, in every state. -/
theorem engineStep_bufs {s : State} (hheader : ¬ InHeader s.k) (hunwrap : s.k ≠ .first .unwrap) :
    (engineStep s).bufs = s.bufs := by
  by_cases hb : s.st = .busy
  · rw [engineStep_of_busy hb]
    rcases kontOk_or_advance_eq fun d p h => hheader (.inr (.inr ⟨d, p, h⟩)) with hk | he
    · refine bufs_advance (v := id) hk (fun h => absurd h hheader) fun h => ?_
      rcases h with h | h | ⟨p, h⟩
      · exact absurd h hunwrap
      · exact absurd (.inr (.inl h)) hheader
      · exact absurd (.inr (.inr ⟨true, p, h⟩)) hheader
    · rw [he]
  · rw [engineStep_of_not_busy hb]

/-- The first step of the header body does not come to its last line. -/
theorem headerStart_ignores_onDone (d : Bool) (f g : State → State) : headerStart d f = headerStart d g := rfl

/-- The view of the buffers that UNWRAP writes (43_unwrap.md R189). -/
def keyAndIv (bs : Buffers) : Buffer × Buffer := (bs.key, bs.iv)

theorem ignoresHeaderBufs_keyAndIv : IgnoresHeaderBufs keyAndIv := fun bs f x hf => by
  cases f
  case hSalt | hIv | hSsalt | hSecrets => rfl
  all_goals cases hf

/-- KEY and IV stay outside UNWRAP and the points of DECRYPT's header, in its first step too. -/
theorem engineStep_keyAndIv {s : State} (hinv : s.Inv) (hunwrap : s.k ≠ .first .unwrap)
    (hheader : ∀ p, s.k ≠ .header true p) : keyAndIv (engineStep s).bufs = keyAndIv s.bufs := by
  by_cases hdecrypt : s.k = .first .decrypt
  · by_cases hb : s.st = .busy
    · have hadv : advance s = headerStart true finish s := by
        rw [advance, hdecrypt, headerStart_ignores_onDone true finish decryptTail]
        rfl
      rw [engineStep_of_busy hb, hadv, headerStart_keepsBufs ignoresHeaderBufs_keyAndIv true finish_keepsBufs]
    · rw [engineStep_of_not_busy hb]
  · refine bufs_engineStep hinv (fun _ => ignoresHeaderBufs_keyAndIv) fun h => ?_
    rcases h with h | h | ⟨p, h⟩
    · exact absurd h hunwrap
    · exact absurd h hdecrypt
    · exact absurd h (hheader p)

/-- Settles O13: the host's side, then the registers and the buffers by the continuation. -/
theorem engineStepFrame : Obligations.EngineStepFrame := by
  intro s
  have host : ∀ {β : Type} (field : State → β), field (hostSide (engineStep s)) = field (hostSide s) :=
    fun field => congrArg field (engineStep_keepsHostSide s)
  refine ⟨engineStep_of_not_busy, ?hostSide, fun hread => ?fieldLen, fun hparse hdecrypt hheader => ?header,
    fun hinv => ⟨?secret, ?salt, fun hunwrap hheader => ?keyAndIv⟩⟩
  case hostSide =>
    exact ⟨host State.op, host State.intEn, host State.inEnd, host State.bufSel, host State.bufPtr, host State.kdfIter,
      host State.kdfLen, host State.cfg, host State.sched, host State.busData⟩
  case fieldLen =>
    exact resultRegs_engineStep (v := ResultRegs.fieldLen) (fun h => absurd h hread) fun _ _ _ _ => rfl
  case header =>
    have hnot : ¬ InHeader s.k := by
      rintro (h | h | ⟨d, p, h⟩)
      · exact hparse h
      · exact hdecrypt h
      · exact hheader d p h
    have outside : ∀ {α : Type} {v : ResultRegs → α}, InHeader s.k → IgnoresHeaderRegs v := fun h => absurd h hnot
    exact ⟨resultRegs_engineStep (v := ResultRegs.hdrMagic) (fun _ _ _ => rfl) outside,
      resultRegs_engineStep (v := ResultRegs.hdrVersion) (fun _ _ _ => rfl) outside,
      fun hunwrap => engineStep_bufs hnot hunwrap⟩
  case secret => exact bufs_engineStep hinv (fun _ => ignoresHeaderBufs_secret) fun _ _ _ _ => rfl
  case salt => exact bufs_engineStep hinv (fun _ => ignoresHeaderBufs_salt) fun _ _ _ _ => rfl
  case keyAndIv =>
    have h := engineStep_keyAndIv hinv hunwrap hheader
    exact ⟨congrArg Prod.fst h, congrArg Prod.snd h⟩

end Sys2Proof.Machine
end

section
/-!
SUPPORT. What a host sees of a state, and that the effect of a host transaction on it depends on it alone
(60_exceptions.md R313).
-/

namespace Sys2Proof.Machine

/-! ### The visible part of a state -/

/-- A buffer of which only the length is visible (10_state.md R36, R40). -/
def Buffer.lenOnly (b : Buffer) : Buffer := { bytes := [], len := b.len }

/-- The buffers without the bytes of those that no host reads (10_state.md R40). -/
def Buffers.visible (bs : Buffers) : Buffers :=
  { bs with secret := bs.secret.lenOnly, key := bs.key.lenOnly, iv := bs.iv.lenOnly }

/-- The state without what 60_exceptions.md R313 keeps from the host. -/
def State.visible (s : State) : State :=
  { s with bufs := s.bufs.visible, k := .empty, u := .zero, c := .zero, sb := .zero, sbpos := 16, z := .zero }

theorem buffers_visible_eq_iff (a b : Buffers) : a.visible = b.visible ↔ SameReadable a b := by
  simp only [Buffers.visible, Buffer.lenOnly, Buffers.mk.injEq, Buffer.mk.injEq, true_and, SameReadable]
  tauto

/-- `SameVisible` says that the visible parts are the same. -/
theorem sameVisible_iff (s t : State) : SameVisible s t ↔ s.visible = t.visible := by
  constructor
  · rintro ⟨hbufs, hrest⟩
    have hs : s.visible = { s.visible with bufs := t.bufs.visible } := by
      rw [← (buffers_visible_eq_iff _ _).mpr hbufs]
      rfl
    exact hs.trans (congrArg (fun x : State => { x with bufs := t.bufs.visible }) hrest)
  · intro h
    exact ⟨(buffers_visible_eq_iff _ _).mp (congrArg State.bufs h),
      congrArg (fun x : State => { x with bufs := .zero }) h⟩

/-- The lengths of all buffers are visible. -/
theorem len_get_visible (bs : Buffers) (id : BufId) : (bs.visible.get id).len = (bs.get id).len := by
  cases id <;> rfl

/-- A readable buffer is visible whole. -/
theorem get_visible_of_readable {id : BufId} (h : bufReadable id = true) (bs : Buffers) :
    bs.visible.get id = bs.get id := by
  cases id
  case secret | key | iv => cases h
  all_goals rfl

/-! ### Operations whose visible effect depends on the visible part -/

/-- What is visible after the operation depends only on what was visible before. -/
def RespectsVisible (f : State → State) : Prop := ∀ s : State, (f s).visible = (f s.visible).visible

theorem RespectsVisible.congr {f : State → State} (hf : RespectsVisible f) {s t : State}
    (h : s.visible = t.visible) : (f s).visible = (f t).visible := by
  rw [hf s, h, ← hf t]

theorem raise_respectsVisible (e : Err) : RespectsVisible (raise e) := fun s => by
  by_cases h : s.st = .error
  · have hv : s.visible.st = .error := h
    rw [raise_of_error h, raise_of_error hv]
    rfl
  · have hv : s.visible.st ≠ .error := h
    rw [raise_of_not_error h, raise_of_not_error hv]
    rfl

/-- A choice by a visible condition. -/
theorem ite_respectsVisible {c : State → Prop} [∀ s, Decidable (c s)] {f g : State → State}
    (hc : ∀ s, c s.visible ↔ c s) (hf : RespectsVisible f) (hg : RespectsVisible g) :
    RespectsVisible fun s => if c s then f s else g s := fun s => by
  by_cases h : c s
  · have hv : c s.visible := (hc s).mpr h
    simp only [if_pos h, if_pos hv]
    exact hf s
  · have hv : ¬ c s.visible := fun h' => h ((hc s).mp h')
    simp only [if_neg h, if_neg hv]
    exact hg s

/-! #### Commands and words -/

theorem acceptCommand_respectsVisible (i : Instr) : RespectsVisible (acceptCommand i) := fun s => by
  have hst : s.visible.st = s.st := rfl
  unfold acceptCommand
  rw [hst]
  cases s.st
  case busy => exact raise_respectsVisible .cmdBusy s
  all_goals rfl

theorem illegalWord_respectsVisible (e : DecodeError) : RespectsVisible (illegalWord e) :=
  match e with
  | .reservedBits => raise_respectsVisible _
  | .badOpcode => raise_respectsVisible _

/-- `exec` answers a next state, and shows nothing that was not visible. -/
theorem exec_respectsVisible (i : Instr) :
    ∃ f : State → State, RespectsVisible f ∧ ∀ s : State, exec i s = .next (f s) := by
  by_cases hi : i = .close
  · exact ⟨release, fun _ => rfl, fun s => by rw [hi, exec_close]⟩
  · exact ⟨acceptCommand i, acceptCommand_respectsVisible i, exec_eq_accept hi⟩

/-! #### Reads -/

theorem readOutData_respectsVisible : RespectsVisible fun s => answerRead (readOutData s) := fun s => by
  have hq : s.visible.outq = s.outq := rfl
  simp only [readOutData, hq]
  cases s.outq <;> rfl

/-- The conditions of a BUF_DATA read are visible, and so is the byte that it answers (10_state.md R38). -/
theorem readBufData_respectsVisible : RespectsVisible fun s => answerRead (readBufData s) := fun s => by
  have hlen : s.visible.bufLen s.selected = s.bufLen s.selected := len_get_visible s.bufs s.selected
  by_cases h : s.st ≠ .busy ∧ bufReadable s.selected = true ∧ s.bufPtr < s.bufLen s.selected
  · obtain ⟨hb, hr, hp⟩ := h
    have hbyte : s.visible.bufByte s.selected s.bufPtr = s.bufByte s.selected s.bufPtr := by
      rw [State.bufByte, State.bufByte, ← get_visible_of_readable hr s.bufs]
      rfl
    have hread : readBufData s.visible =
        (validByte (s.visible.bufByte s.selected s.bufPtr), { s.visible with bufPtr := s.bufPtr + 1 }) :=
      readBufData_of_readable (s := s.visible) hb hr (by rw [← hlen] at hp; exact hp)
    simp only [readBufData_of_readable hb hr hp, hread, hbyte]
    rfl
  · have hread : readBufData s.visible = (0, s.visible) :=
      readBufData_of_not_readable (s := s.visible) (by rw [← hlen] at h; exact h)
    simp only [readBufData_of_not_readable h, hread]
    rfl

/-- The lengths that BUF_LEN answers are visible (10_state.md R36). -/
theorem readBufLen_respectsVisible : RespectsVisible fun s => answerRead (readReg .bufLen s) := fun s => by
  have hlen : s.visible.bufLen s.visible.selected = s.bufLen s.selected := len_get_visible s.bufs s.selected
  simp only [readReg, hlen]
  rfl

theorem readReg_respectsVisible (r : Reg) : RespectsVisible fun s => answerRead (readReg r s) := by
  cases r
  case outData => exact readOutData_respectsVisible
  case bufData => exact readBufData_respectsVisible
  case bufLen => exact readBufLen_respectsVisible
  all_goals exact fun _ => rfl

/-! #### Writes -/

/-- A write that needs STATE ≠ BUSY. -/
theorem unlessBusy_respectsVisible {f : State → State} (hf : RespectsVisible f) :
    RespectsVisible fun s => unlessBusy s (f s) :=
  ite_respectsVisible (fun _ => Iff.rfl) (raise_respectsVisible _) hf

/-- A write that is refused with BUF_RANGE under a visible condition. -/
theorem rangeChecked_respectsVisible {c : State → Prop} [∀ s, Decidable (c s)] {f : State → State}
    (hc : ∀ s, c s.visible ↔ c s) (hf : RespectsVisible f) :
    RespectsVisible fun s => unlessBusy s (if c s then raise .bufRange s else f s) :=
  unlessBusy_respectsVisible (ite_respectsVisible hc (raise_respectsVisible _) hf)

/-- An update of one buffer whose new length depends on the old length only, and so is visible. -/
theorem visible_set_congr {g : Buffer → Buffer} (hg : ∀ b, (g b).lenOnly = (g b.lenOnly).lenOnly) (bs : Buffers)
    (id : BufId) : (bs.set id (g (bs.get id))).visible = (bs.visible.set id (g (bs.visible.get id))).visible := by
  cases id
  case secret => exact congrArg (fun x => { bs.visible with secret := x }) (hg bs.secret)
  case key => exact congrArg (fun x => { bs.visible with key := x }) (hg bs.key)
  case iv => exact congrArg (fun x => { bs.visible with iv := x }) (hg bs.iv)
  all_goals rfl

theorem writeInData_respectsVisible (v : Word) : RespectsVisible (writeInData v) :=
  ite_respectsVisible (fun _ => Iff.rfl) (raise_respectsVisible _)
    (ite_respectsVisible (fun _ => Iff.rfl) (raise_respectsVisible _) fun _ => rfl)

theorem writeInCtrl_respectsVisible (v : Word) : RespectsVisible (writeInCtrl v) := fun s => by
  by_cases ho : s.inEnd = .stillOpen
  · have hv : s.visible.inEnd = .stillOpen := ho
    rw [writeInCtrl_of_open ho, writeInCtrl_of_open hv]
    rfl
  · have hv : s.visible.inEnd ≠ .stillOpen := ho
    rw [writeInCtrl_of_ended ho, writeInCtrl_of_ended hv]
    rfl

theorem writeBufLen_respectsVisible (v : Word) : RespectsVisible (writeBufLen v) :=
  rangeChecked_respectsVisible (fun _ => Iff.rfl) fun s =>
    congrArg (fun bufs => { s.visible with bufs := bufs })
      (visible_set_congr (g := fun b => { b with len := v.toNat }) (fun _ => rfl) s.bufs s.selected)

theorem writeBufData_respectsVisible (v : Word) : RespectsVisible (writeBufData v) :=
  rangeChecked_respectsVisible (fun _ => Iff.rfl) fun s =>
    congrArg (fun bufs => { s.visible with bufs := bufs, bufPtr := s.bufPtr + 1 })
      (visible_set_congr (g := fun b => b.storeHost s.bufPtr (v.extractLsb' 0 8)) (fun _ => rfl) s.bufs s.selected)

theorem writeReg_respectsVisible (r : Reg) (v : Word) : RespectsVisible (writeReg r v) := by
  cases r
  case inData => exact writeInData_respectsVisible v
  case inCtrl => exact writeInCtrl_respectsVisible v
  case bufSel => exact unlessBusy_respectsVisible fun _ => rfl
  case bufLen => exact writeBufLen_respectsVisible v
  case bufPtr => exact rangeChecked_respectsVisible (fun _ => Iff.rfl) fun _ => rfl
  case bufData => exact writeBufData_respectsVisible v
  case kdfIter => exact unlessBusy_respectsVisible fun _ => rfl
  case kdfLen => exact unlessBusy_respectsVisible fun _ => rfl
  all_goals exact fun _ => rfl

/-! #### Transactions -/

theorem badAccess_respectsVisible (tx : HostTx) : RespectsVisible (badAccess tx) := fun s => by
  have h := raise_respectsVisible .badAccess s
  unfold badAccess
  cases tx.kind with
  | read => exact congrArg (fun x : State => { x with busData := 0 }) h
  | write => exact h

theorem alignedAccess_respectsVisible (tx : HostTx) : RespectsVisible (alignedAccess tx) := fun s => by
  unfold alignedAccess
  cases tx.kind <;> cases regAt tx.offset
  case read.some r => exact readReg_respectsVisible r s
  case write.some r => exact writeReg_respectsVisible r tx.data s
  all_goals rfl

/-- A host transaction stops the machine from every state, or it shows nothing that was not visible. -/
theorem hostTx_respectsVisible (tx : HostTx) :
    (∀ s : State, step (s.withEvent (.host tx)) = .fault .outsideWindow) ∨
    ∃ f : State → State, RespectsVisible f ∧ ∀ s : State, step (s.withEvent (.host tx)) = .next (f s) := by
  rcases hostTx_cases tx with ⟨i, -, he⟩ | ⟨e, -, he⟩ | he
  · obtain ⟨f, hf, hexec⟩ := exec_respectsVisible i
    exact .inr ⟨f, hf, fun s => (he s).trans (hexec s)⟩
  · exact .inr ⟨illegalWord e, illegalWord_respectsVisible e, he⟩
  · simp only [he, busAccess]
    split
    · exact .inl fun _ => rfl
    · split
      · exact .inr ⟨badAccess tx, badAccess_respectsVisible tx, fun _ => rfl⟩
      · exact .inr ⟨alignedAccess tx, alignedAccess_respectsVisible tx, fun _ => rfl⟩

/-- Settles O60: STATUS, `irq` and what was read are functions of the visible part. -/
theorem hostCannotSeeKeyMaterial : Obligations.HostCannotSeeKeyMaterial := by
  intro s t s' t' tx hsame hs ht
  rcases hostTx_respectsVisible tx with hstops | ⟨f, hf, hnext⟩
  · rw [hstops] at hs
    cases hs
  · rw [hnext] at hs ht
    cases hs
    cases ht
    have h : (f s).visible = (f t).visible := hf.congr ((sameVisible_iff s t).mp hsame)
    have hread : (f s).visible.busData = (f t).visible.busData := by rw [h]
    have hstatus : (f s).visible.statusWord = (f t).visible.statusWord := by rw [h]
    have hirq : (f s).visible.irq = (f t).visible.irq := by rw [h]
    exact ⟨(sameVisible_iff _ _).mpr h, hread, hstatus, hirq⟩

end Sys2Proof.Machine
end

section
/-!
SUPPORT. The reset state (70_reset_and_hazards.md R330), and that it is what CLOSE leaves but for INT_EN; and the writes
that BUSY refuses (R340).
-/

namespace Sys2Proof.Machine

/-! ### Writes in BUSY (70_reset_and_hazards.md R340) -/

/-- A write that needs STATE ≠ BUSY aborts the command that runs, whatever it would have stored. -/
theorem unlessBusy_aborts {s : State} (h : s.st = .busy) (t : State) :
    unlessBusy s t = { releaseContexts s with st := .error, err := some .regBusy } :=
  (unlessBusy_of_busy h t).trans (raise_of_busy h .regBusy)

/-- Settles O55: each of the six writes is `unlessBusy` of what it stores. -/
theorem writesWhileBusyRaise : Obligations.WritesWhileBusyRaise := by
  intro s r v hb hr
  have hcmd : r ≠ .cmd := by
    rintro rfl
    simp at hr
  rw [step_busWrite hcmd]
  congr 1
  simp only [List.mem_cons, List.not_mem_nil, or_false] at hr
  rcases hr with rfl | rfl | rfl | rfl | rfl | rfl <;> exact unlessBusy_aborts hb _

/-! ### The reset state (70_reset_and_hazards.md R330) -/

/-- Settles O11: `inv_resetWith` at every configuration, the reference one included. -/
theorem resetSatisfiesInv : Obligations.ResetSatisfiesInv :=
  ⟨inv_resetWith, inv_resetWith Config.reference⟩

/-- The level of an empty queue shows its depth alone (10_state.md R32, R34). -/
theorem levelWord_empty (depth : Nat) : levelWord 0 depth = BitVec.ofNat 32 (depth * 65536) := by
  apply BitVec.eq_of_toNat_eq
  have happ : (levelWord 0 depth).toNat = (BitVec.ofNat 16 depth).toNat <<< 16 ||| 0 := BitVec.toNat_append _ _
  rw [happ, Nat.or_zero, Nat.shiftLeft_eq, BitVec.toNat_ofNat, BitVec.toNat_ofNat]
  omega

/-- A zeroized buffer reads 0 at every index and has length 0 (10_state.md R40). -/
theorem buffers_zero_get (id : BufId) : Buffers.zero.get id = .zero := by cases id <;> rfl

theorem bufByte_resetWith (cfg : Config) (id : BufId) (i : Nat) : (State.resetWith cfg).bufByte id i = 0 :=
  congrArg (fun b : Buffer => b.bytes.read i) (buffers_zero_get id)

theorem bufLen_resetWith (cfg : Config) (id : BufId) : (State.resetWith cfg).bufLen id = 0 :=
  congrArg Buffer.len (buffers_zero_get id)

/-- BUF_LEN reads 0 after reset whatever BUF_SEL selects (10_state.md R36). -/
theorem readReg_bufLen_resetWith (cfg : Config) (sel : BitVec 3) :
    (readReg .bufLen { State.resetWith cfg with bufSel := sel }).1 = 0 := by
  have hlen : State.bufLen { State.resetWith cfg with bufSel := sel } (BufId.ofSel sel) = 0 := bufLen_resetWith cfg _
  show (BitVec.ofNat 16 (State.bufLen { State.resetWith cfg with bufSel := sel } (BufId.ofSel sel))).setWidth 32 = 0
  rw [hlen]
  rfl

/-- BUF_DATA reads 0 after reset: BUF_PTR is not below the selected buffer's length (10_state.md R38). -/
theorem readBufData_resetWith (cfg : Config) : readBufData (State.resetWith cfg) = (0, State.resetWith cfg) :=
  readBufData_of_not_readable fun ⟨_, _, hlt⟩ => Nat.not_lt_zero _ hlt

/-- A read at a reserved offset of the window answers 0 and has no effect (10_state.md R43). -/
theorem step_read_reserved {offset : Nat} (hlo : 0x5C ≤ offset) (hhi : offset < 256) (hal : offset % 4 = 0) (s : State) :
    step (s.withEvent (.host { kind := .read, offset := offset, width := 4, data := 0 })) =
      .next { s with busData := 0 } := by
  have hcmd : offset ≠ 8 := by omega
  rw [step_alignedAccess hhi rfl hal (cmdWordOf_eq_none (.inr hcmd)), alignedAccess_reserved_read hlo rfl]

/-- Settles O10: each row of the table of R330 by the register or field it names, then CLOSE. -/
theorem resetState : Obligations.ResetState := by
  intro c hvalid
  refine ⟨⟨rfl, rfl, rfl, ?status⟩, ⟨rfl, rfl, ?error⟩, rfl, ?intStatus, ⟨rfl, rfl, ?inLevel, rfl⟩, ⟨rfl, ?outLevel, rfl⟩,
    ⟨fun id i => ⟨bufByte_resetWith c id i, bufLen_resetWith c id⟩, readReg_bufLen_resetWith c⟩,
    ⟨rfl, rfl, readBufData_resetWith c⟩, ⟨rfl, rfl⟩, ⟨rfl, rfl, rfl⟩, ⟨rfl, rfl⟩, ⟨rfl, rfl, rfl, rfl, rfl, rfl⟩,
    ⟨rfl, rfl⟩, fun offset hlo hhi hal => step_read_reserved hlo hhi hal _, ?close⟩
  case status => exact congrArg (·, State.resetWith c) (statusWord_of_idle rfl rfl)
  case error => exact congrArg (·, State.resetWith c) ((errorWord_eq_zero_iff _).mpr rfl)
  case intStatus =>
    exact congrArg (fun w : BitVec 4 => (w.setWidth 32, State.resetWith c)) (intStatus_resetWith hvalid)
  case inLevel => exact congrArg (·, State.resetWith c) (levelWord_empty _)
  case outLevel => exact congrArg (·, State.resetWith c) (levelWord_empty _)
  case close =>
    rintro t rfl
    rw [exec_close, release_eq_resetWith]

end Sys2Proof.Machine
end

section
/-!
SUPPORT. Termination (70_reset_and_hazards.md R351): with the input ended and OUTQ drained no step of the engine waits,
and every step that does not end the command consumes input, or pushes a byte that was already due. The measure is the
pair (`State.inputWork`, `pushesDue`) in the lexicographic order.
-/

namespace Sys2Proof.Machine

/-! ### The measure -/

/-- How many bytes a point of the decoder outputs before it asks for input again. -/
def ZPoint.pushesDue : ZPoint → Nat
  | .storedOut _ _ => 1
  | .litOut _ => 1
  | .copy left _ => left + 1
  | _ => 0

/-- How many pushes are due before the command asks for input again. -/
def Kont.pushesDue : Kont → Nat
  | .fieldPush _ _ => 1
  | .keyPush rest => rest.length
  | .cbcPush rest => rest.length
  | .inflate _ p _ => p.pushesDue
  | _ => 0

/-- What the command has in hand beside INQ. The decoder has its unread bits, the rest of SB and the byte in hand, which
adds at most 17 to `silentBound`; a header body has the decoder's start, which in DECRYPT follows it; and a command's
first line has whatever the step that leaves it sets up. -/
def State.inputInHand (s : State) : Nat :=
  match s.k with
  | .first _ => 400
  | .header _ _ => 1
  | .inflate _ p none => silentBound p s
  | .inflate _ p (some _) => silentBound p s + 18
  | _ => 0

/-- The input still to use up. A byte of INQ counts more than all that its pull can set up: a full SB counts 320. -/
def State.inputWork (s : State) : Nat := 400 * s.inq.length + s.inputInHand

/-- The next state no longer runs, or it has less work before it. -/
def Progresses (s t : State) : Prop :=
  t.st = .busy → t.inputWork < s.inputWork ∨ t.inputWork ≤ s.inputWork ∧ t.k.pushesDue < s.k.pushesDue

theorem inputWork_first {s : State} {i : Instr} (hk : s.k = .first i) : s.inputWork = 400 * s.inq.length + 400 := by
  rw [State.inputWork, State.inputInHand, hk]

theorem inputWork_header {s : State} {d : Bool} {p : HdrPoint} (hk : s.k = .header d p) :
    s.inputWork = 400 * s.inq.length + 1 := by
  rw [State.inputWork, State.inputInHand, hk]

theorem inqWork_le_inputWork (s : State) : 400 * s.inq.length ≤ s.inputWork := Nat.le_add_right _ _

theorem progresses_of_not_busy (s : State) {t : State} (h : t.st ≠ .busy) : Progresses s t := fun hb => absurd hb h

theorem progresses_finish (s t : State) : Progresses s (finish t) := progresses_of_not_busy s (by simp)

theorem progresses_raise (s : State) (e : Err) (t : State) : Progresses s (raise e t) :=
  progresses_of_not_busy s (by simp)

/-- Progress from a state with less input before it. -/
theorem Progresses.of_inputWork_lt {s u t : State} (h : Progresses u t) (hlt : u.inputWork < s.inputWork) :
    Progresses s t := fun hb => by
  rcases h hb with h | ⟨h, -⟩
  · exact .inl (h.trans hlt)
  · exact .inl (h.trans_lt hlt)

/-! ### `pull()` and `push(b)` -/

/-- The surroundings that R351 asks for: no `pull()` and no `push(b)` holds. -/
abbrev NeverHolds (s : State) : Prop := s.inEnd ≠ .stillOpen ∧ s.outq.length < s.cfg.outFifoDepth

/-- A part that ends the command at EOF. -/
def EndsRun (f : State → State) : Prop := ∀ t : State, (f t).st ≠ .busy

theorem finish_endsRun : EndsRun finish := fun _ => by simp

theorem raise_endsRun (e : Err) : EndsRun (raise e) := fun _ => by simp

/-- `pull()` where the input has ended: a byte has to bring progress, and all else ends the command. -/
theorem progresses_pull {s t : State} (h : NeverHolds t) {onByte : Byte → State → State} {onEof : State → State}
    (hbyte : ∀ b rest, t.inq = b :: rest →
      Progresses s (onByte b { t with inq := rest, inCount := t.inCount + 1, hold := .none }))
    (heof : EndsRun onEof) : Progresses s (pull t onByte onEof) := by
  have ⟨hended, _⟩ := h
  rcases pull_cases t onByte onEof with ⟨b, rest, hq, he⟩ | ⟨-, -, he⟩ | ⟨-, -, he⟩ | ⟨-, hopen, -⟩
  · exact he ▸ hbyte b rest hq
  · exact he ▸ progresses_of_not_busy s (heof _)
  · exact he ▸ progresses_raise s _ _
  · exact absurd hopen hended

/-- `pull()` outside the decoder: the byte counts for more than what it sets up. -/
theorem progresses_pull_of_inHand_lt {s t : State} (h : NeverHolds t) (hwork : 400 * t.inq.length ≤ s.inputWork)
    {onByte : Byte → State → State} {onEof : State → State}
    (hbyte : ∀ (b : Byte) (u : State), (onByte b u).inq = u.inq ∧ (onByte b u).inputInHand < 400)
    (heof : EndsRun onEof) : Progresses s (pull t onByte onEof) := by
  refine progresses_pull h (fun b rest hq _ => .inl ?_) heof
  obtain ⟨hinq, hhand⟩ := hbyte b { t with inq := rest, inCount := t.inCount + 1, hold := .none }
  rw [hq, List.length_cons] at hwork
  rw [State.inputWork, hinq]
  dsimp only
  omega

/-- `push(b)` where OUTQ has room. -/
theorem progresses_push {s t : State} (h : NeverHolds t) (b : Byte) {onPushed : State → State}
    (hp : ∀ u : State, u.inq = t.inq → u.z = t.z → u.sbpos = t.sbpos → Progresses s (onPushed u)) :
    Progresses s (push b t onPushed) := by
  have ⟨_, hroom⟩ := h
  rw [push_room hroom]
  exact hp _ rfl rfl rfl

/-! ### READ_BYTEFIELD and the header body -/

theorem readFieldStart_progresses {s : State} (h : NeverHolds s) : Progresses s (readFieldStart s) :=
  progresses_pull_of_inHand_lt h (inqWork_le_inputWork s) (fun _ _ => ⟨rfl, by simp [State.inputInHand]⟩)
    (raise_endsRun _)

theorem fieldPullStep_progresses {s : State} (h : NeverHolds s) (left : Nat) : Progresses s (fieldPullStep left s) :=
  match left with
  | 0 => progresses_finish s s
  | _ + 1 =>
    progresses_pull_of_inHand_lt h (inqWork_le_inputWork s) (fun _ _ => ⟨rfl, by simp [State.inputInHand]⟩)
      (raise_endsRun _)

theorem fieldPushStep_progresses {s : State} (h : NeverHolds s) {b : Byte} {left : Nat} (hk : s.k = .fieldPush b left) :
    Progresses s (fieldPushStep b left s) :=
  progresses_push h b fun u hinq _ _ _ => .inr ⟨by simp [State.inputWork, State.inputInHand, hinq],
    by simp [Kont.pushesDue, hk]⟩

/-- A pull that leads from a point of the header body to another. -/
theorem progresses_pull_header {s t : State} (h : NeverHolds t) (hwork : 400 * t.inq.length ≤ s.inputWork) {d : Bool}
    {p : HdrPoint} {onByte : Byte → State → State}
    (hbyte : ∀ (b : Byte) (u : State), (onByte b u).inq = u.inq ∧ ∃ q, (onByte b u).k = .header d q) :
    Progresses s (pull (t.atPoint (.header d p)) onByte (raise .truncatedHeader)) := by
  refine progresses_pull_of_inHand_lt (t := t.atPoint (.header d p)) h hwork (fun b u => ?_) (raise_endsRun _)
  obtain ⟨hinq, q, hk⟩ := hbyte b u
  exact ⟨hinq, by simp [State.inputInHand, hk]⟩

theorem headerFieldLen_progresses {s t : State} (h : NeverHolds t) (hwork : 400 * t.inq.length ≤ s.inputWork) (d : Bool)
    (f : BufId) : Progresses s (headerFieldLen d f t) :=
  progresses_pull_header h hwork fun _ _ => ⟨rfl, _, rfl⟩

theorem headerFieldData_progresses {s t : State} (h : NeverHolds t) (hwork : 400 * t.inq.length ≤ s.inputWork) (d : Bool)
    {onDone : State → State} (hd : Progresses s (onDone t)) (f : BufId) (i n : Nat) :
    Progresses s (headerFieldData d onDone f i n t) := by
  unfold headerFieldData
  split
  · exact progresses_pull_header h hwork fun _ _ => ⟨rfl, _, rfl⟩
  · split
    · exact headerFieldLen_progresses h hwork d _
    · exact hd

/-- One step of the header body: every point pulls, or raises, or leaves the body. -/
theorem headerStep_progresses {s t : State} (h : NeverHolds t) (hwork : 400 * t.inq.length ≤ s.inputWork) (d : Bool)
    {onDone : State → State} (hd : Progresses s (onDone t)) (p : HdrPoint) : Progresses s (headerStep d onDone p t) := by
  cases p with
  | magic0 => exact progresses_pull_header h hwork fun _ _ => ⟨rfl, _, rfl⟩
  | magic1 b0 => exact progresses_pull_header h hwork fun _ _ => ⟨rfl, _, rfl⟩
  | version b0 b1 =>
    rw [headerStep, headerVersion]
    split
    · exact progresses_pull_header h hwork fun _ _ => ⟨rfl, _, rfl⟩
    · exact progresses_raise s _ _
  | fields v =>
    rw [headerStep, headerFields]
    split
    · exact headerFieldLen_progresses h hwork d _
    · exact progresses_raise s _ _
  | fieldLen f => exact headerFieldLen_progresses h hwork d f
  | fieldData f i n => exact headerFieldData_progresses h hwork d hd f i n

/-! ### DERIVE_KEY, AES_CBC_DECRYPT and UNWRAP -/

/-- The push loop of DERIVE_KEY: what is due falls by one. -/
theorem keyPushStep_progresses {s : State} (h : NeverHolds s) (rest : List Byte) :
    Progresses (s.atPoint (.keyPush rest)) (keyPushStep rest s) :=
  match rest with
  | [] => progresses_finish _ s
  | b :: r =>
    progresses_push (t := s.atPoint (.keyPush (b :: r))) h b fun u hinq _ _ _ =>
      .inr ⟨by simp [State.inputWork, State.inputInHand, State.atPoint, hinq],
        by simp [Kont.pushesDue, State.atPoint]⟩

theorem deriveKeyStart_progresses {s : State} (h : NeverHolds s) {i : Instr} (hk : s.k = .first i) :
    Progresses s (deriveKeyStart s) := by
  unfold deriveKeyStart
  split
  · exact progresses_raise s _ s
  · refine (keyPushStep_progresses h _).of_inputWork_lt ?_
    rw [inputWork_first hk]
    simp [State.inputWork, State.inputInHand, State.atPoint]

theorem cbcAccept_keepsInq (b : Byte) (s : State) : (cbcAccept b s).inq = s.inq := by
  unfold cbcAccept
  dsimp only
  split <;> rfl

theorem cbcAccept_inputInHand (b : Byte) (s : State) : (cbcAccept b s).inputInHand = 0 := by
  unfold cbcAccept
  dsimp only
  split <;> rfl

theorem cbcEnd_endsRun : EndsRun cbcEnd := fun s => by
  unfold cbcEnd
  split <;> simp

theorem cbcPullStep_progresses {s t : State} (h : NeverHolds t) (hwork : 400 * t.inq.length ≤ s.inputWork) :
    Progresses s (cbcPullStep t) :=
  progresses_pull_of_inHand_lt (t := t.atPoint .cbcPull) h hwork
    (fun b u => ⟨cbcAccept_keepsInq b u, by rw [cbcAccept_inputInHand]; decide⟩) cbcEnd_endsRun

/-- The push loop over a block: what is due falls by one. -/
theorem cbcPushStep_progresses {s : State} (h : NeverHolds s) {rest : List Byte} (hk : s.k = .cbcPush rest) :
    Progresses s (cbcPushStep rest s) :=
  match rest with
  | [] => cbcPullStep_progresses h (inqWork_le_inputWork s)
  | b :: r => by
    refine progresses_push (t := s.atPoint (.cbcPush (b :: r))) h b fun u hinq _ _ _ => .inr ?_
    cases r <;> simp [State.inputWork, State.inputInHand, Kont.pushesDue, State.atPoint, hinq, hk]

theorem cbcStart_progresses {s : State} (h : NeverHolds s) : Progresses s (cbcStart s) := by
  unfold cbcStart
  split
  case h_1 t ht =>
    obtain ⟨-, -, rfl⟩ := loadCipher_ok ht
    exact cbcPullStep_progresses h (inqWork_le_inputWork s)
  case h_2 => exact progresses_raise s _ s

theorem unwrapStart_progresses (s : State) : Progresses s (unwrapStart s) := by
  unfold unwrapStart
  split
  · exact progresses_finish s _
  · exact progresses_raise s _ s

/-! ### The decoder -/

theorem inputWork_inflate (src : Source) (p : ZPoint) (s : State) :
    (s.atPoint (.inflate src p none)).inputWork = 400 * s.inq.length + silentBound p s := rfl

/-- An output adds no unread bit and leaves fewer pushes due; the point after it does not ask for `bits(0)`. -/
theorem zAfterOut_falls {z w : InflateCtx} {p : ZPoint} {b : Byte} (h : zRequest w p = .out b) :
    (zAfterOut z p).1.bitcnt ≤ z.bitcnt ∧ zRank (zAfterOut z p).2 = 0 ∧
      (zAfterOut z p).2.pushesDue < p.pushesDue := by
  cases p
  case storedOut x left =>
    simp only [zAfterOut]
    split
    · refine ⟨endBlock_bitcnt z, ?_⟩
      unfold endBlock
      split <;> exact ⟨rfl, Nat.one_pos⟩
    · exact ⟨Nat.le_refl _, rfl, Nat.one_pos⟩
  case litOut => exact ⟨Nat.le_refl _, rfl, Nat.one_pos⟩
  case copy left distance =>
    simp only [zAfterOut]
    split
    · exact ⟨Nat.le_refl _, rfl, Nat.succ_pos _⟩
    · refine ⟨Nat.le_refl _, rfl, ?_⟩
      simp only [ZPoint.pushesDue]
      omega
  all_goals cases h

/-- Only a point that asks for room emits. -/
theorem zRequest_of_emit {src : Source} {p : ZPoint} {s : State} {b : Byte} (h : zMove src p s = .emit b) :
    zRequest s.z p = .out b := by
  have hsource : zSource src p s ≠ .emit b := by
    unfold zSource
    split
    · simp
    · split <;> simp
  unfold zMove at h
  split at h
  case h_1 c hc => cases h; exact hc
  case h_2 => exact absurd h hsource
  case h_3 =>
    split at h
    · exact absurd h hsource
    · cases h

/-- `out(b)` (45_inflate.md R233). -/
theorem inflateEmit_progresses {src : Source} {p : ZPoint} {s : State} {b : Byte} (h : NeverHolds s)
    (hz : zMove src p s = .emit b) : Progresses (s.atPoint (.inflate src p none)) (inflateEmit src p b s) := by
  refine progresses_push (t := s.atPoint (.inflate src p none)) h b fun u hinq hzu hpos _ => .inr ?_
  obtain ⟨hbits, hrank, hdue⟩ := zAfterOut_falls (z := recordOut u.z b) (zRequest_of_emit hz)
  refine ⟨?_, hdue⟩
  have hrec : (recordOut u.z b).bitcnt = s.z.bitcnt :=
    congrArg (fun z => (recordOut z b).bitcnt) hzu
  rw [inputWork_inflate]
  simp only [State.inputWork, State.inputInHand, State.atPoint, silentBound, hinq, hpos, hrank]
  omega

/-- A byte into stage A's block: at most a full SB is set up. -/
theorem stageAAccept_inputWork {p : ZPoint} {s : State} (hk : s.k = .inflate .stageB p none) (b : Byte) :
    (stageAAccept b s).inputWork ≤ 400 * s.inq.length + silentBound p s + 320 := by
  unfold stageAAccept
  dsimp only
  split
  · simp only [State.inputWork, State.inputInHand, hk, silentBound]
    omega
  · simp only [State.inputWork, State.inputInHand, hk, silentBound]
    omega

theorem stageAEnd_endsRun : EndsRun stageAEnd := fun s => by
  unfold stageAEnd
  split <;> simp

/-- A byte of INQ for the decoder. -/
theorem inflatePull_progresses {s : State} (h : NeverHolds s) (src : Source) (p : ZPoint) :
    Progresses (s.atPoint (.inflate src p none)) (inflatePull src p s) := by
  cases src with
  | raw =>
    refine progresses_pull (t := s.atPoint (.inflate .raw p none)) h (fun b rest (hq : s.inq = b :: rest) _ => .inl ?_)
      (raise_endsRun _)
    rw [inputWork_inflate, hq]
    simp only [State.inputWork, State.inputInHand, State.atPoint, silentBound, List.length_cons]
    omega
  | stageB =>
    refine progresses_pull (t := s.atPoint (.inflate .stageB p none)) h
      (fun b rest (hq : s.inq = b :: rest) _ => .inl ?_) stageAEnd_endsRun
    refine (stageAAccept_inputWork rfl b).trans_lt ?_
    rw [inputWork_inflate, hq]
    simp only [State.atPoint, silentBound, List.length_cons]
    omega

/-- The decoder from a point to its next visible step: its silent moves lower `silentBound`. -/
theorem inflateRun_progresses (src : Source) (n : Nat) {p : ZPoint} {s : State} (h : NeverHolds s)
    (hn : silentBound p s < n) : Progresses (s.atPoint (.inflate src p none)) (inflateRun n src p s) := by
  induction n generalizing p s with
  | zero => exact absurd hn (Nat.not_lt_zero _)
  | succ n ih =>
    unfold inflateRun
    split
    case h_1 => exact inflatePull_progresses h src p
    case h_2 b hz => exact inflateEmit_progresses h hz
    case h_3 z q pos hz =>
      have hfalls := silentBound_falls hz
      refine (ih (p := q) (s := { s with z := z, sbpos := pos }) h (by omega)).of_inputWork_lt ?_
      rw [inputWork_inflate, inputWork_inflate]
      exact Nat.add_lt_add_left hfalls _
    case h_4 => exact progresses_raise _ _ s
    case h_5 => exact progresses_finish _ s

/-- One step of the decoder without a byte in hand, as part of a step that had more input before it. -/
theorem inflateStep_none_progresses {s t : State} (h : NeverHolds t) (src : Source) (p : ZPoint)
    (hlt : 400 * t.inq.length + silentBound p t < s.inputWork) : Progresses s (inflateStep src p none t) :=
  (inflateRun_progresses src _ h (Nat.lt_succ_self _)).of_inputWork_lt hlt

/-- One step of the decoder from its continuation: a byte in hand adds at most eight unread bits. -/
theorem inflateStep_progresses {s : State} (h : NeverHolds s) {src : Source} {p : ZPoint} {inHand : Option Byte}
    (hk : s.k = .inflate src p inHand) : Progresses s (inflateStep src p inHand s) := by
  cases inHand with
  | none => exact atPoint_self hk ▸ inflateRun_progresses src _ h (Nat.lt_succ_self _)
  | some b =>
    unfold inflateStep
    dsimp only
    split
    case h_1 z q hz =>
      have hbits := zOnByte_bitcnt hz
      have hrank := zRank_le_one q
      refine (inflateRun_progresses src _ (s := { s with z := z }) h (Nat.lt_succ_self _)).of_inputWork_lt ?_
      rw [inputWork_inflate]
      simp only [State.inputWork, State.inputInHand, hk, silentBound]
      omega
    case h_2 => exact progresses_raise s _ s
    case h_3 => exact progresses_finish s s

/-- The decoder's start has no bits to read, and at most a full SB. -/
theorem silentBound_inflateInit (s : State) : silentBound .cmf { s with z := inflateInit s.z } ≤ 320 := by
  simp only [silentBound, inflateInit, byteAlign, zRank]
  omega

theorem inflateStart_progresses {s : State} (h : NeverHolds s) {i : Instr} (hk : s.k = .first i) :
    Progresses s (inflateStart s) := by
  have hstart := silentBound_inflateInit s
  refine inflateStep_none_progresses (t := { s with z := inflateInit s.z }) h .raw .cmf ?_
  rw [inputWork_first hk]
  dsimp only
  omega

/-- `openBody()` starts the decoder with SB empty, so nothing is in hand. -/
theorem openBody_progresses {s t : State} (h : NeverHolds t) (hlt : 400 * t.inq.length < s.inputWork) :
    Progresses s (openBody t) := by
  unfold openBody
  split
  case h_1 => exact progresses_raise s _ t
  case h_2 u hu =>
    obtain ⟨-, -, rfl⟩ := loadCipher_ok hu
    exact inflateStep_none_progresses (t := { t with c := _, sbpos := 16, z := inflateInit t.z }) h .stageB .cmf hlt

theorem decryptTail_progresses {s t : State} (h : NeverHolds t) (hlt : 400 * t.inq.length < s.inputWork) :
    Progresses s (decryptTail t) := by
  unfold decryptTail
  split
  case h_1 => exact progresses_raise s _ t
  case h_2 u hu =>
    obtain ⟨c, ik, iiv, -, -, rfl⟩ := unwrapBody_ok hu
    exact openBody_progresses h hlt

/-! ### The engine agent -/

theorem afterHeader_progresses {s t : State} (h : NeverHolds t) (hlt : 400 * t.inq.length < s.inputWork) (d : Bool) :
    Progresses s (afterHeader d t) :=
  match d with
  | true => decryptTail_progresses h hlt
  | false => progresses_finish s t

theorem headerStart_progresses {s : State} (h : NeverHolds s) {i : Instr} (hk : s.k = .first i) (d : Bool) :
    Progresses s (headerStart d (afterHeader d) s) := by
  have hlt : 400 * (clearHeader s).inq.length < s.inputWork := by
    rw [inputWork_first hk, clearHeader_inq]
    omega
  have hnever : NeverHolds (clearHeader s) := h
  exact headerStep_progresses hnever hlt.le d (afterHeader_progresses hnever hlt d) .magic0

theorem firstStep_progresses {s : State} (h : NeverHolds s) {i : Instr} (hi : i ≠ .close) (hk : s.k = .first i) :
    Progresses s (firstStep i s) := by
  cases i with
  | readBytefield => exact readFieldStart_progresses h
  | parseHeader => exact headerStart_progresses h hk false
  | deriveKey => exact deriveKeyStart_progresses h hk
  | aesCbcDecrypt => exact cbcStart_progresses h
  | unwrap => exact unwrapStart_progresses s
  | openPlaintext => exact openBody_progresses h (by rw [inputWork_first hk]; omega)
  | inflate => exact inflateStart_progresses h hk
  | decrypt => exact headerStart_progresses h hk true
  | close => exact absurd rfl hi

/-- The running command makes progress from every continuation. -/
theorem advance_progresses {s : State} (h : NeverHolds s) (hk : KontOk s.k) : Progresses s (advance s) := by
  unfold advance
  split
  case h_1 he => rw [he] at hk; exact hk.elim
  case h_2 i he => rw [he] at hk; exact firstStep_progresses h hk he
  case h_3 left _ => exact fieldPullStep_progresses h left
  case h_4 he => exact fieldPushStep_progresses h he
  case h_5 d p he =>
    have hlt : 400 * s.inq.length < s.inputWork := by
      rw [inputWork_header he]
      omega
    exact headerStep_progresses h hlt.le d (afterHeader_progresses h hlt d) p
  case h_6 rest he => exact atPoint_self he ▸ keyPushStep_progresses h rest
  case h_7 => exact cbcPullStep_progresses h (inqWork_le_inputWork s)
  case h_8 he => exact cbcPushStep_progresses h he
  case h_9 he => exact inflateStep_progresses h he

/-! ### Drained runs -/

/-- What a drained run needs of its states, beside the invariant: the input has ended, and OUTQ can hold a byte. -/
abbrev InputEnded (s : State) : Prop := s.inEnd ≠ .stillOpen ∧ 0 < s.cfg.outFifoDepth

theorem inv_drainOutq {s : State} (h : s.Inv) : State.Inv { s with outq := [] } :=
  { h with outqFits := Nat.zero_le _ }

theorem engineStep_inputEnded {s : State} (h : InputEnded s) : InputEnded (engineStep s) := by
  have hside : hostSide (engineStep s) = hostSide s := engineStep_keepsHostSide s
  have hend : (hostSide (engineStep s)).inEnd = (hostSide s).inEnd := by rw [hside]
  have hcfg : (hostSide (engineStep s)).cfg = (hostSide s).cfg := by rw [hside]
  have ⟨hended, hdepth⟩ := h
  exact ⟨hend.trans_ne hended, hdepth.trans_eq (congrArg Config.outFifoDepth hcfg.symm)⟩

/-- One step of a drained run in BUSY makes progress. -/
theorem drainedStep_progresses {s : State} (hinv : s.Inv) (hended : InputEnded s) (hb : s.st = .busy) :
    Progresses s (engineStep { s with outq := [] }) := by
  rw [engineStep_of_busy (s := { s with outq := [] }) hb]
  exact advance_progresses (s := { s with outq := [] }) hended (hinv.running hb)

/-- A drained run whose input has ended ends, by induction on the work before it. -/
theorem drainedRun_ends (s : State) (hinv : s.Inv) (hended : InputEnded s) : ∃ n : Nat, (drainedRun n s).st ≠ .busy := by
  by_cases hb : s.st = .busy
  case neg => exact ⟨0, hb⟩
  by_cases hb' : (engineStep { s with outq := [] }).st = .busy
  case neg => exact ⟨1, hb'⟩
  obtain ⟨n, hn⟩ := drainedRun_ends (engineStep { s with outq := [] }) (inv_engineStep (inv_drainOutq hinv))
    (engineStep_inputEnded hended)
  exact ⟨n + 1, hn⟩
termination_by (s.inputWork, s.k.pushesDue)
decreasing_by
  rcases drainedStep_progresses hinv hended hb hb' with hinput | ⟨hinput, hpushes⟩
  · exact Prod.Lex.left _ _ hinput
  · exact Prod.Lex.right' _ hinput hpushes

/-- Settles O19: no step of a drained run waits, so it ends with its work. -/
theorem commandsTerminate : Obligations.CommandsTerminate := by
  intro s hinv ⟨_, _, hdepth, _⟩ hended
  exact drainedRun_ends s hinv ⟨hended, hdepth⟩

end Sys2Proof.Machine
end
